-- ==== Sys2Proof/Word.lean ====
section
/-! DEFINITION. The plain data types of the hardware: a byte of the stream and a 32-bit word
(spec/00_scope.md R12, R13). All values are unsigned. -/

namespace Sys2Proof

/-- A byte of the compressed input or of the output (8 bits, R12). -/
abbrev Byte := BitVec 8

/-- A CRC, an operand word or a status-window word (32 bits, R12, R67). -/
abbrev Word := BitVec 32

end Sys2Proof
end

