-- ==== Sys2Proof/Syntax.lean ====
section
/-! DEFINITION. The syntax: one constructor for each row of spec/opcode_table.json, in the table's order: the 18
elements of the wire format (spec/30_encoding.md R100 to R109), the 7 host commands (R115) and the 31 internal
operations (R117), each with the operands its rule gives it. -/

namespace Sys2Proof

/-- An instruction of the hardware (R2, R117, R119). -/
inductive Instr where
  /-- STREAM_HEADER: 'B' 'Z' 'h' and a digit byte whose high half is 3; the low half is the operand (R101, R302). -/
  | streamHeader (digit : BitVec 4)
  /-- BLOCK_MAGIC (R102, R231). -/
  | blockMagic
  /-- BLOCK_CRC (R232). -/
  | blockCrc (c : Word)
  /-- RANDOMISED (R233). -/
  | randomised (r : Bool)
  /-- ORIG_PTR (R234). -/
  | origPtr (p : BitVec 24)
  /-- USED_MAP (R236). -/
  | usedMap (u : BitVec 16)
  /-- SUB_MAP (R236). -/
  | subMap (m : BitVec 16)
  /-- N_GROUPS (R237). -/
  | nGroups (g : BitVec 3)
  /-- N_SELECTORS (R237). -/
  | nSelectors (n : BitVec 15)
  /-- SELECTOR_CODE: the count of 1 bits before the terminating 0 (R104, R238). -/
  | selectorCode (j : Nat)
  /-- LEN_SEED (R240). -/
  | lenSeed (l : BitVec 5)
  /-- LEN_END, bit `0` (R105, R240). -/
  | lenEnd
  /-- LEN_INC, bits `1 0` (R105, R240). -/
  | lenInc
  /-- LEN_DEC, bits `1 1` (R105, R240). -/
  | lenDec
  /-- SYMBOL_CODE: the symbol its codeword stands for (R107, R108, R242). -/
  | symbolCode (sym : BitVec 9)
  /-- EOS_MAGIC (R103, R231). -/
  | eosMagic
  /-- COMBINED_CRC (R303). -/
  | combinedCrc (c : Word)
  /-- PADDING, 0 to 7 bits (R86, R109). -/
  | padding (bits : List Bool)
  /-- OPEN; its operand is ignored (R301). -/
  | hostOpen (operand : Word)
  /-- READ n (R304). -/
  | hostRead (n : Word)
  /-- CLOSE; its operand is ignored (R308). -/
  | hostClose (operand : Word)
  /-- ENC_OPEN level (R320). -/
  | encOpen (level : Word)
  /-- ENC_WRITE m with its m data bytes (R115, R321). -/
  | encWrite (m : Word) (data : List Byte)
  /-- ENC_FINISH; its operand is ignored (R322). -/
  | encFinish (operand : Word)
  /-- ENC_CLOSE; its operand is ignored (R323). -/
  | encClose (operand : Word)
  /-- BC_READ_BITS n (R141). -/
  | bcReadBits (n : Nat)
  /-- BC_READ_BOOL (R142). -/
  | bcReadBool
  /-- BC_READ_UNARY (R143). -/
  | bcReadUnary
  /-- BC_READ_INT32 (R144). -/
  | bcReadInt32
  /-- BC_WRITE_BITS n v (R150). -/
  | bcWriteBits (n : Nat) (v : Nat)
  /-- BC_WRITE_BOOL b (R151). -/
  | bcWriteBool (b : Bool)
  /-- BC_WRITE_UNARY j (R152). -/
  | bcWriteUnary (j : Nat)
  /-- BC_WRITE_INT32 v (R153). -/
  | bcWriteInt32 (v : Word)
  /-- BC_FLUSH (R154). -/
  | bcFlush
  /-- HA_ALLOCATE f maxLen (R170, R173). -/
  | haAllocate (f : List Nat) (maxLen : Nat)
  /-- HT_BUILD g (R190). -/
  | htBuild (g : Nat)
  /-- HT_DECODE g (R195). -/
  | htDecode (g : Nat)
  /-- HT_CODES lens (R197). -/
  | htCodes (lens : List Nat)
  /-- MTF_DECODE_SYMBOL sym (R211 to R214). -/
  | mtfDecodeSymbol (sym : Nat)
  /-- MTF_ENCODE bytes inUse (R218). -/
  | mtfEncode (bytes : List Byte) (inUse : List Byte)
  /-- PI_BUILD (R275, R276). -/
  | piBuild
  /-- PI_NEXT (R278). -/
  | piNext
  /-- DERAND b (R282). -/
  | derand (b : Byte)
  /-- RLE1_NEXT (R285). -/
  | rle1Next
  /-- CRC_INIT (R286). -/
  | crcInit
  /-- CRC_UPDATE b (R287). -/
  | crcUpdate (b : Byte)
  /-- CRC_FINAL (R288). -/
  | crcFinal
  /-- CRC_COMBINE c (R290). -/
  | crcCombine (c : Word)
  /-- STEP_STREAM_HEADER (R302). -/
  | stepStreamHeader
  /-- STEP_HEADER (R231). -/
  | stepHeader
  /-- STEP_TABLES (R232 to R241). -/
  | stepTables
  /-- STEP_SYMBOLS (R242 to R244). -/
  | stepSymbols
  /-- STEP_PERMUTE (R272 to R277). -/
  | stepPermute
  /-- STEP_EMIT (R284). -/
  | stepEmit
  /-- STEP_CRC_CHECK (R289). -/
  | stepCrcCheck
  /-- STEP_TRAILER (R303). -/
  | stepTrailer
  deriving DecidableEq, Repr

/-- The place in the stream at which a wire element stands. A wire element is selected by its position in the stream
and not by a pattern (R100, R119). -/
inductive WirePos where
  | streamHeader
  | magic
  | blockCrc
  | randomised
  | origPtr
  | usedMap
  | subMap
  | nGroups
  | nSelectors
  | selector
  | lenSeed
  | lenFlag
  | symbol
  | trailer
  | padding
  deriving DecidableEq, Repr

end Sys2Proof
end

