-- ==== Sys2Proof/WellFormed.lean ====
section
/-! DEFINITION. Which instructions are well formed: the operand ranges the rules of the spec give. A wire element
with an illegal VALUE (a bad digit, a group count of 7) is well formed: the stream can hold it, and its meaning
raises the error of spec/30_encoding.md R112. -/

namespace Sys2Proof

/-- The list of byte values is strictly ascending (R218's `inUse`). -/
def ascending : List Byte → Bool
  | [] => true
  | [_] => true
  | a :: b :: rest => decide (a.toNat < b.toNat) && ascending (b :: rest)

/-- Every code length is in 1..20 (R197). -/
def lengthsLegal (lens : List Nat) : Bool :=
  lens.all fun l => decide (1 ≤ l) && decide (l ≤ Config.maxCodeLen)

/-- The operands of MTF_ENCODE: 1 to 900000 bytes, and the ascending list of the distinct values in them (R218). -/
def mtfOperandsLegal (bytes inUse : List Byte) : Bool :=
  decide (1 ≤ bytes.length) && decide (bytes.length ≤ 9 * Config.capUnit) && ascending inUse &&
    bytes.all (fun b => inUse.contains b) && inUse.all (fun b => bytes.contains b)

/-- The operand ranges of every instruction. -/
def Instr.wf : Instr → Bool
  | .streamHeader _ => true
  | .blockMagic => true
  | .blockCrc _ => true
  | .randomised _ => true
  | .origPtr _ => true
  | .usedMap _ => true
  | .subMap _ => true
  | .nGroups _ => true
  | .nSelectors _ => true
  | .selectorCode _ => true
  | .lenSeed _ => true
  | .lenEnd => true
  | .lenInc => true
  | .lenDec => true
  | .symbolCode sym => decide (sym.toNat ≤ 257)
  | .eosMagic => true
  | .combinedCrc _ => true
  | .padding bits => decide (bits.length ≤ 7)
  | .hostOpen _ => true
  | .hostRead _ => true
  | .hostClose _ => true
  | .encOpen _ => true
  | .encWrite m data => decide (data.length = m.toNat)
  | .encFinish _ => true
  | .encClose _ => true
  | .bcReadBits n => decide (n ≤ Config.readBitsMax)
  | .bcReadBool => true
  | .bcReadUnary => true
  | .bcReadInt32 => true
  | .bcWriteBits n v => decide (n ≤ Config.readBitsMax) && decide (v < 2 ^ n)
  | .bcWriteBool _ => true
  | .bcWriteUnary _ => true
  | .bcWriteInt32 _ => true
  | .bcFlush => true
  | .haAllocate f maxLen =>
    decide (1 ≤ f.length) && decide (1 ≤ maxLen) && decide (maxLen ≤ 32)
  | .htBuild g => decide (g < Config.maxGroups)
  | .htDecode g => decide (g < Config.maxGroups)
  | .htCodes lens => decide (1 ≤ lens.length) && decide (lens.length ≤ 258) && lengthsLegal lens
  | .mtfDecodeSymbol sym => decide (sym ≤ 257)
  | .mtfEncode bytes inUse => mtfOperandsLegal bytes inUse
  | .piBuild => true
  | .piNext => true
  | .derand _ => true
  | .rle1Next => true
  | .crcInit => true
  | .crcUpdate _ => true
  | .crcFinal => true
  | .crcCombine _ => true
  | .stepStreamHeader => true
  | .stepHeader => true
  | .stepTables => true
  | .stepSymbols => true
  | .stepPermute => true
  | .stepEmit => true
  | .stepCrcCheck => true
  | .stepTrailer => true

end Sys2Proof
end

