-- ==== Sys2Proof/Decode.lean ====
section
/-! DEFINITION. The decoder, total on any bytes and bits and rejecting by name, and after it the encoder. Three forms
of encoding meet at this hardware (spec/30_encoding.md): the wire format, whose elements are selected by position
(R100 to R109, R119); the host commands (R115); the internal operations (R117). The spec gives the codes of the last
two; how their operands lie in bytes is the model's (assumption log 6, DESIGN CHOICE): big-endian, after the code. -/

namespace Sys2Proof

/-- Why a word decodes to nothing. -/
inductive DecodeError where
  /-- Bits or bytes are missing at the end. -/
  | truncated
  /-- No row of R115 or R117 has this code. -/
  | unknownCode (code : Nat)
  /-- An operand is outside the range its rule gives. -/
  | operandOutOfRange
  /-- The bits are no element that can stand at this position of the stream. -/
  | noSuchElement
  /-- The bits are no codeword of the group (R195). -/
  | noCodeword
  deriving DecidableEq, Repr

/-- What a decoder answers: an instruction and what follows it, or a named rejection. -/
inductive Decoded (β : Type) where
  | ok (i : Instr) (rest : List β)
  | bad (e : DecodeError)
  deriving DecidableEq, Repr

/-! ### Fields -/

/-- The `n` low bits of `v`, most significant first (R80). -/
def toBits : Nat → Nat → List Bool
  | 0, _ => []
  | n + 1, v => decide (v / 2 ^ n % 2 = 1) :: toBits n v

/-- The next `n` bits as an unsigned number, first bit most significant (R80). -/
def takeBits : Nat → Nat → List Bool → Option (Nat × List Bool)
  | 0, acc, bits => some (acc, bits)
  | _ + 1, _, [] => none
  | n + 1, acc, b :: bits => takeBits n (2 * acc + b.toNat) bits

/-- `v` in `k` bytes, big-endian. -/
def putBe : Nat → Nat → List Byte
  | 0, _ => []
  | k + 1, v => BitVec.ofNat 8 (v / 256 ^ k) :: putBe k v

/-- The next `k` bytes as a big-endian number. -/
def takeBe : Nat → Nat → List Byte → Option (Nat × List Byte)
  | 0, acc, bs => some (acc, bs)
  | _ + 1, _, [] => none
  | k + 1, acc, b :: bs => takeBe k (256 * acc + b.toNat) bs

/-- The next `n` big-endian numbers of `k` bytes each. -/
def takeManyBe (k : Nat) : Nat → List Byte → Option (List Nat × List Byte)
  | 0, bs => some ([], bs)
  | n + 1, bs =>
    match takeBe k 0 bs with
    | none => none
    | some (v, rest) =>
      match takeManyBe k n rest with
      | none => none
      | some (vs, rest') => some (v :: vs, rest')

/-- A number of any size, seven bits a byte, least significant first; every byte but the last has its top bit set. The
first argument is at least the number, so that the bytes never run out. -/
def putNatFrom : Nat → Nat → List Byte
  | 0, v => [BitVec.ofNat 8 v]
  | k + 1, v => if v < 128 then [BitVec.ofNat 8 v] else BitVec.ofNat 8 (128 + v % 128) :: putNatFrom k (v / 128)

/-- A number of any size. The spec gives some operands no bound (R152, R170), and the form is the model's (assumption
log 6, DESIGN CHOICE). -/
def putNat (v : Nat) : List Byte := putNatFrom v v

/-- The next number of any size. -/
def takeNat : List Byte → Option (Nat × List Byte)
  | [] => none
  | b :: rest =>
    if b.toNat < 128 then some (b.toNat, rest)
    else
      match takeNat rest with
      | none => none
      | some (v, rest') => some (b.toNat - 128 + 128 * v, rest')

/-- The next `n` numbers of any size. -/
def takeNats : Nat → List Byte → Option (List Nat × List Byte)
  | 0, bs => some ([], bs)
  | n + 1, bs =>
    match takeNat bs with
    | none => none
    | some (v, rest) =>
      match takeNats n rest with
      | none => none
      | some (vs, rest') => some (v :: vs, rest')

/-- The next `n` bytes as they are. -/
def takeRaw : Nat → List Byte → Option (List Byte × List Byte)
  | 0, bs => some ([], bs)
  | _ + 1, [] => none
  | n + 1, b :: bs =>
    match takeRaw n bs with
    | none => none
    | some (xs, rest) => some (b :: xs, rest)

/-! ### Canonical codes (R107, R190 to R193, R197)

The functions of a list of code lengths alone; the table builder and HT_CODES use them too. -/

/-- One iteration of the length loop of R190: the length, `firstCode`, `firstIndex` and the count of symbols. -/
structure LenRow where
  len : Nat
  first : Nat
  index : Nat
  count : Nat
  deriving DecidableEq, Repr

/-- `minLen` of R190. -/
def minOf : List Nat → Nat
  | [] => 0
  | a :: rest => rest.foldl min a

/-- `maxLen` of R190. -/
def maxOf (lens : List Nat) : Nat := lens.foldl max 0

/-- The length loop of R190 from length `L`, with `code` and `idx` as it enters. -/
def lenRows (lens : List Nat) : Nat → Nat → Nat → Nat → List LenRow
  | 0, _, _, _ => []
  | n + 1, L, code, idx =>
    { len := L, first := code, index := idx, count := lens.count L } ::
      lenRows lens n (L + 1) ((code + lens.count L) * 2) (idx + lens.count L)

/-- The rows for `minLen..maxLen` (R190). -/
def rowsOf (lens : List Nat) : List LenRow :=
  lenRows lens (maxOf lens + 1 - minOf lens) (minOf lens) 0 0

/-- The symbols of length `L` in ascending order, counting from `s` (R191). -/
def symbolsOf (L : Nat) : Nat → List Nat → List Nat
  | _, [] => []
  | s, l :: rest => if l = L then s :: symbolsOf L (s + 1) rest else symbolsOf L (s + 1) rest

/-- `perm` of R190 and R191. -/
def permOf (lens : List Nat) : List Nat :=
  (rowsOf lens).flatMap fun r => symbolsOf r.len 0 lens

/-- `firstCode[L]` (R192); 0 for a length outside `minLen..maxLen`. -/
def firstCodeOf (lens : List Nat) (L : Nat) : Nat :=
  match (rowsOf lens).find? (fun r => r.len == L) with
  | some r => r.first
  | none => 0

/-- The codeword of symbol `s` (R197): the first of its length plus its rank among the symbols of that length. -/
def codeOf (lens : List Nat) (s : Nat) : Nat :=
  firstCodeOf lens (lens.getD s 0) + (lens.take s).count (lens.getD s 0)

/-- The walk of R195 over the rows: `v` is the candidate at the head row's length. -/
def walkCode (perm : List Nat) : List LenRow → Nat → List Bool → Option (Nat × List Bool)
  | [], _, _ => none
  | row :: rows, v, bits =>
    if v < row.first + row.count then
      match perm[v - (row.first - row.index)]? with
      | some s => some (s, bits)
      | none => none
    else
      match rows, bits with
      | [], _ => none
      | _ :: _, [] => none
      | next :: more, b :: rest => walkCode perm (next :: more) (2 * v + b.toNat) rest

/-- One codeword at the head of the bits (R195). -/
def takeCode (lens : List Nat) (bits : List Bool) : Option (Nat × List Bool) :=
  match takeBits (minOf lens) 0 bits with
  | none => none
  | some (v, rest) => walkCode (permOf lens) (rowsOf lens) v rest

/-! ### The wire format -/

/-- A unary number: the count of 1 bits before a 0 (R104). -/
def takeUnary : Nat → List Bool → Option (Nat × List Bool)
  | _, [] => none
  | j, false :: rest => some (j, rest)
  | j, true :: rest => takeUnary (j + 1) rest

/-- A field of `n` bits turned into an element. -/
def wireField (n : Nat) (bits : List Bool) (f : Nat → Instr) : Decoded Bool :=
  match takeBits n 0 bits with
  | some (v, rest) => .ok (f v) rest
  | none => .bad .truncated

/-- The element at a position of the stream (R100 to R109). `lens` are the code lengths of the group that codes the
next symbol, which only a SYMBOL_CODE needs (R107). -/
def decodeWire (pos : WirePos) (lens : List Nat) (bits : List Bool) : Decoded Bool :=
  match pos with
  | .streamHeader =>
    match takeBits 32 0 bits with
    | some (v, rest) =>
      if v / 16 = 0x425A683 then .ok (.streamHeader (BitVec.ofNat 4 v)) rest else .bad .noSuchElement
    | none => .bad .truncated
  | .magic =>
    match takeBits 48 0 bits with
    | some (v, rest) =>
      if v = Config.blockMagic then .ok .blockMagic rest
      else if v = Config.eosMagic then .ok .eosMagic rest
      else .bad .noSuchElement
    | none => .bad .truncated
  | .blockCrc => wireField 32 bits fun v => .blockCrc (BitVec.ofNat 32 v)
  | .randomised => wireField 1 bits fun v => .randomised (decide (v = 1))
  | .origPtr => wireField 24 bits fun v => .origPtr (BitVec.ofNat 24 v)
  | .usedMap => wireField 16 bits fun v => .usedMap (BitVec.ofNat 16 v)
  | .subMap => wireField 16 bits fun v => .subMap (BitVec.ofNat 16 v)
  | .nGroups => wireField 3 bits fun v => .nGroups (BitVec.ofNat 3 v)
  | .nSelectors => wireField 15 bits fun v => .nSelectors (BitVec.ofNat 15 v)
  | .selector =>
    match takeUnary 0 bits with
    | some (j, rest) => .ok (.selectorCode j) rest
    | none => .bad .truncated
  | .lenSeed => wireField 5 bits fun v => .lenSeed (BitVec.ofNat 5 v)
  | .lenFlag =>
    match bits with
    | false :: rest => .ok .lenEnd rest
    | true :: false :: rest => .ok .lenInc rest
    | true :: true :: rest => .ok .lenDec rest
    | _ => .bad .truncated
  | .symbol =>
    match takeCode lens bits with
    | some (s, rest) => if s ≤ 257 then .ok (.symbolCode (BitVec.ofNat 9 s)) rest else .bad .operandOutOfRange
    | none => .bad .noCodeword
  | .trailer => wireField 32 bits fun v => .combinedCrc (BitVec.ofNat 32 v)
  | .padding => if bits.length ≤ 7 then .ok (.padding bits) [] else .bad .noSuchElement

/-! ### Host commands (R115) -/

/-- A host command: opcode, 32-bit operand, and for ENC_WRITE the data bytes (R115). -/
def decodeHost (bs : List Byte) : Decoded Byte :=
  match bs with
  | [] => .bad .truncated
  | op :: more =>
    match takeBe 4 0 more with
    | none => .bad .truncated
    | some (v, rest) =>
      match op.toNat with
      | 0x01 => .ok (.hostOpen (BitVec.ofNat 32 v)) rest
      | 0x02 => .ok (.hostRead (BitVec.ofNat 32 v)) rest
      | 0x03 => .ok (.hostClose (BitVec.ofNat 32 v)) rest
      | 0x11 => .ok (.encOpen (BitVec.ofNat 32 v)) rest
      | 0x12 =>
        match takeRaw v rest with
        | some (data, rest') => .ok (.encWrite (BitVec.ofNat 32 v) data) rest'
        | none => .bad .truncated
      | 0x13 => .ok (.encFinish (BitVec.ofNat 32 v)) rest
      | 0x14 => .ok (.encClose (BitVec.ofNat 32 v)) rest
      | code => .bad (.unknownCode code)

/-! ### Internal operations (R117) -/

/-- An operand of `k` bytes. -/
def operand (k : Nat) (bs : List Byte) (f : Nat → List Byte → Decoded Byte) : Decoded Byte :=
  match takeBe k 0 bs with
  | some (v, rest) => f v rest
  | none => .bad .truncated

/-- The operation, if its operands are in their ranges. -/
def checked (i : Instr) (rest : List Byte) : Decoded Byte :=
  if i.wf then .ok i rest else .bad .operandOutOfRange

/-- An operand of any size. -/
def bigOperand (bs : List Byte) (f : Nat → List Byte → Decoded Byte) : Decoded Byte :=
  match takeNat bs with
  | some (v, rest) => f v rest
  | none => .bad .truncated

/-- HA_ALLOCATE's operands: `maxLen - 1`, the count of frequencies less 1, and the frequencies. R170 bounds neither the
count nor a frequency. -/
def decodeAllocate (bs : List Byte) : Decoded Byte :=
  operand 1 bs fun m rest => bigOperand rest fun n rest' =>
    match takeNats (n + 1) rest' with
    | some (f, rest'') => checked (.haAllocate f (m + 1)) rest''
    | none => .bad .truncated

/-- HT_CODES's operands: the count of lengths less 1, and each length less 1. -/
def decodeCodes (bs : List Byte) : Decoded Byte :=
  operand 2 bs fun n rest =>
    match takeManyBe 1 (n + 1) rest with
    | some (ls, rest') => checked (.htCodes (ls.map (· + 1))) rest'
    | none => .bad .truncated

/-- MTF_ENCODE's operands: the count of bytes less 1, the bytes, the count of `inUse` less 1, and `inUse`. -/
def decodeMtfEncode (bs : List Byte) : Decoded Byte :=
  operand 4 bs fun n rest =>
    match takeRaw (n + 1) rest with
    | none => .bad .truncated
    | some (xs, rest') =>
      operand 1 rest' fun k rest'' =>
        match takeRaw (k + 1) rest'' with
        | some (us, rest''') => checked (.mtfEncode xs us) rest'''
        | none => .bad .truncated

/-- The operation with this internal code (R117) and the operand bytes that follow it. -/
def decodeUnitBody (code : Nat) (bs : List Byte) : Decoded Byte :=
  match code with
  | 0x20 => operand 1 bs fun n rest => checked (.bcReadBits n) rest
  | 0x21 => .ok .bcReadBool bs
  | 0x22 => .ok .bcReadUnary bs
  | 0x23 => .ok .bcReadInt32 bs
  | 0x28 => operand 1 bs fun n rest => operand 4 rest fun v rest' => checked (.bcWriteBits n v) rest'
  | 0x29 => operand 1 bs fun v rest => if v ≤ 1 then .ok (.bcWriteBool (decide (v = 1))) rest else .bad .operandOutOfRange
  | 0x2A => bigOperand bs fun j rest => .ok (.bcWriteUnary j) rest
  | 0x2B => operand 4 bs fun v rest => .ok (.bcWriteInt32 (BitVec.ofNat 32 v)) rest
  | 0x2C => .ok .bcFlush bs
  | 0x30 => decodeAllocate bs
  | 0x38 => operand 1 bs fun g rest => checked (.htBuild g) rest
  | 0x39 => operand 1 bs fun g rest => checked (.htDecode g) rest
  | 0x3A => decodeCodes bs
  | 0x40 => operand 2 bs fun s rest => checked (.mtfDecodeSymbol s) rest
  | 0x41 => decodeMtfEncode bs
  | 0x48 => .ok .piBuild bs
  | 0x49 => .ok .piNext bs
  | 0x4A => operand 1 bs fun b rest => .ok (.derand (BitVec.ofNat 8 b)) rest
  | 0x4B => .ok .rle1Next bs
  | 0x50 => .ok .crcInit bs
  | 0x51 => operand 1 bs fun b rest => .ok (.crcUpdate (BitVec.ofNat 8 b)) rest
  | 0x52 => .ok .crcFinal bs
  | 0x53 => operand 4 bs fun c rest => .ok (.crcCombine (BitVec.ofNat 32 c)) rest
  | 0x60 => .ok .stepStreamHeader bs
  | 0x61 => .ok .stepHeader bs
  | 0x62 => .ok .stepTables bs
  | 0x63 => .ok .stepSymbols bs
  | 0x64 => .ok .stepPermute bs
  | 0x65 => .ok .stepEmit bs
  | 0x66 => .ok .stepCrcCheck bs
  | 0x67 => .ok .stepTrailer bs
  | code => .bad (.unknownCode code)

/-- An internal operation: its code and its operands (R117). -/
def decodeUnit (bs : List Byte) : Decoded Byte :=
  match bs with
  | [] => .bad .truncated
  | code :: rest => decodeUnitBody code.toNat rest

/-! ### The three forms together -/

/-- An instruction's words, in the form in which the machine takes them: bytes at the host port, bytes of an internal
operation, or the bits of a wire element at its position. -/
inductive Issue where
  | host (bytes : List Byte)
  | unit (bytes : List Byte)
  | wire (pos : WirePos) (bits : List Bool)
  deriving DecidableEq, Repr

/-- The instruction the words stand for; what follows it is dropped. `lens` are the code lengths of the group
that codes the next symbol. -/
def decode (lens : List Nat) (x : Issue) : Option Instr :=
  match x with
  | .host bytes =>
    match decodeHost bytes with
    | .ok i _ => some i
    | .bad _ => none
  | .unit bytes =>
    match decodeUnit bytes with
    | .ok i _ => some i
    | .bad _ => none
  | .wire pos bits =>
    match decodeWire pos lens bits with
    | .ok i _ => some i
    | .bad _ => none

/-! ### The encoder -/

/-- The words of an instruction, written from the same tables. -/
def encode (lens : List Nat) : Instr → Issue
  | .streamHeader d => .wire .streamHeader (toBits 28 0x425A683 ++ toBits 4 d.toNat)
  | .blockMagic => .wire .magic (toBits 48 Config.blockMagic)
  | .blockCrc c => .wire .blockCrc (toBits 32 c.toNat)
  | .randomised r => .wire .randomised [r]
  | .origPtr p => .wire .origPtr (toBits 24 p.toNat)
  | .usedMap u => .wire .usedMap (toBits 16 u.toNat)
  | .subMap m => .wire .subMap (toBits 16 m.toNat)
  | .nGroups g => .wire .nGroups (toBits 3 g.toNat)
  | .nSelectors n => .wire .nSelectors (toBits 15 n.toNat)
  | .selectorCode j => .wire .selector (List.replicate j true ++ [false])
  | .lenSeed l => .wire .lenSeed (toBits 5 l.toNat)
  | .lenEnd => .wire .lenFlag [false]
  | .lenInc => .wire .lenFlag [true, false]
  | .lenDec => .wire .lenFlag [true, true]
  | .symbolCode sym => .wire .symbol (toBits (lens.getD sym.toNat 0) (codeOf lens sym.toNat))
  | .eosMagic => .wire .magic (toBits 48 Config.eosMagic)
  | .combinedCrc c => .wire .trailer (toBits 32 c.toNat)
  | .padding bits => .wire .padding bits
  | .hostOpen v => .host (0x01 :: putBe 4 v.toNat)
  | .hostRead v => .host (0x02 :: putBe 4 v.toNat)
  | .hostClose v => .host (0x03 :: putBe 4 v.toNat)
  | .encOpen v => .host (0x11 :: putBe 4 v.toNat)
  | .encWrite m data => .host (0x12 :: (putBe 4 m.toNat ++ data))
  | .encFinish v => .host (0x13 :: putBe 4 v.toNat)
  | .encClose v => .host (0x14 :: putBe 4 v.toNat)
  | .bcReadBits n => .unit (0x20 :: putBe 1 n)
  | .bcReadBool => .unit [0x21]
  | .bcReadUnary => .unit [0x22]
  | .bcReadInt32 => .unit [0x23]
  | .bcWriteBits n v => .unit (0x28 :: (putBe 1 n ++ putBe 4 v))
  | .bcWriteBool b => .unit (0x29 :: putBe 1 b.toNat)
  | .bcWriteUnary j => .unit (0x2A :: putNat j)
  | .bcWriteInt32 v => .unit (0x2B :: putBe 4 v.toNat)
  | .bcFlush => .unit [0x2C]
  | .haAllocate f maxLen =>
    .unit (0x30 :: (putBe 1 (maxLen - 1) ++ putNat (f.length - 1) ++ f.flatMap putNat))
  | .htBuild g => .unit (0x38 :: putBe 1 g)
  | .htDecode g => .unit (0x39 :: putBe 1 g)
  | .htCodes lens => .unit (0x3A :: (putBe 2 (lens.length - 1) ++ lens.flatMap (fun l => putBe 1 (l - 1))))
  | .mtfDecodeSymbol sym => .unit (0x40 :: putBe 2 sym)
  | .mtfEncode bytes inUse =>
    .unit (0x41 :: (putBe 4 (bytes.length - 1) ++ bytes ++ putBe 1 (inUse.length - 1) ++ inUse))
  | .piBuild => .unit [0x48]
  | .piNext => .unit [0x49]
  | .derand b => .unit [0x4A, b]
  | .rle1Next => .unit [0x4B]
  | .crcInit => .unit [0x50]
  | .crcUpdate b => .unit [0x51, b]
  | .crcFinal => .unit [0x52]
  | .crcCombine c => .unit (0x53 :: putBe 4 c.toNat)
  | .stepStreamHeader => .unit [0x60]
  | .stepHeader => .unit [0x61]
  | .stepTables => .unit [0x62]
  | .stepSymbols => .unit [0x63]
  | .stepPermute => .unit [0x64]
  | .stepEmit => .unit [0x65]
  | .stepCrcCheck => .unit [0x66]
  | .stepTrailer => .unit [0x67]

/-! ### Words of spec/opcode_table.json -/

/-- Operand bytes of zeros, enough for every operation whose operands are all zero. -/
def zeroOperands : List Byte := List.replicate 16 0

/-- The words of an instruction given as the opcode table numbers its bits, every bit above `nbits` being 0. A width
the table gives to a wire element stands for that element (the bits first read are the most significant of the
number: R80); 8 bits are a code of R115 or R117, or, for the code 0 that neither has, the end flag of R105; 40 bits are
a host command with its operand word above the opcode. LEN_INC and LEN_DEC given as a whole byte have the numbers of
READ and CLOSE: only their width of 2 bits tells them apart (assumption log 7). -/
def placeTableWord (nbits w : Nat) : Option Issue :=
  match nbits with
  | 1 => some (if w = 0 then .wire .lenFlag [false] else .wire .randomised (toBits 1 w))
  | 2 => some (.wire .lenFlag (toBits 2 w))
  | 3 => some (.wire .nGroups (toBits 3 w))
  | 5 => some (.wire .lenSeed (toBits 5 w))
  | 15 => some (.wire .nSelectors (toBits 15 w))
  | 16 => some (.wire .usedMap (toBits 16 w))
  | 24 => some (.wire .origPtr (toBits 24 w))
  | 32 => some (if w / 16 = 0x425A683 then .wire .streamHeader (toBits 32 w) else .wire .blockCrc (toBits 32 w))
  | 48 => some (.wire .magic (toBits 48 w))
  | 8 =>
    if w = 0 then some (.wire .lenFlag [false])
    else if w < 0x20 then some (.host (putBe 1 w ++ putBe 4 0))
    else some (.unit (putBe 1 w ++ zeroOperands))
  | 40 =>
    if w % 256 = 0x12 then some (.host (putBe 1 w ++ putBe 4 (w / 256) ++ List.replicate (w / 256) 0))
    else some (.host (putBe 1 w ++ putBe 4 (w / 256)))
  | _ => none

/-- The instruction the decoder reads from a word of the opcode table. -/
def decodeTableWord (nbits w : Nat) : Option Instr :=
  match placeTableWord nbits w with
  | some x => decode [] x
  | none => none

end Sys2Proof
end

