-- ==== Sys2Proof/Machine/State.lean ====
section
/-! DEFINITION. The state of one instance of the hardware (spec/10_state.md), as plain data, its value before the
first command, and the reasons a step can stop. -/

namespace Sys2Proof.Machine

/-! ### Memory -/

/-- An internal array whose entries are written in any order: (index, value) pairs, indices strictly rising. An index
that is not listed holds no value (R59): reading it is a fault, so no value is the one an unlisted index reads as. -/
abbrev Mem (w : Nat) := List (Nat × BitVec w)

/-- The hardware's one byte array with addresses, `LL[0..CAP-1]` (R48, R83). -/
abbrev Memory := List Host.Cell

/-! ### Names -/

/-- The sequencing register (R31). -/
inductive Fsm where
  | streamHeader
  | header
  | tables
  | symbols
  | permute
  | emit
  | crcCheck
  | trailer
  | ended
  | failed
  | closed
  deriving DecidableEq, Repr

/-- Which kind of instance this is; one that has never been opened is neither (R116, R372). -/
inductive Instance where
  | neverOpened
  | decoder
  | encoder
  deriving DecidableEq, Repr

/-- `enc_state` (R57). -/
inductive EncState where
  | isOpen
  | finished
  | failed
  | closed
  deriving DecidableEq, Repr

/-- The error kinds (R340). -/
inductive ErrKind where
  | formatError
  | invalidHuffmanTables
  | invalidHuffmanCode
  | blockOverrun
  | blockCrcError
  | streamCrcError
  | unexpectedEndOfData
  | streamClosed
  | illegalCommand
  deriving DecidableEq, Repr

/-- The errors an operation can raise, each with its sub-cause where it has one (R340, R341). A decoder's step raises those
its rule names; a byte sink that fails raises one of them as its own (R324; assumption log 18). -/
inductive Err where
  | badStreamMagic
  | badBlockSizeDigit
  | corruptBlockHeader
  | emptySymbolMap
  | badOrigPtr
  | rle1CountMissing
  | groupCount
  | selectorCount
  | selectorValue
  | codeLength
  | selectorsExhausted
  | invalidHuffmanCode
  | blockOverrun
  | blockCrcError
  | streamCrcError
  | unexpectedEndOfData
  deriving DecidableEq, Repr

/-- The internal arrays (R89), as a fault names them. -/
inductive ArrayName where
  | inUse
  | seqToUnseq
  | selMtf
  | selectors
  | len
  | limit
  | base
  | perm
  | mtf
  | ll
  | freq
  | cum
  | tt
  deriving DecidableEq, Repr

/-! ### Why a step stops -/

/-- The model faults of R359: what the rules of the spec never cause. -/
inductive Fault where
  /-- A read of an array entry that holds no value (R59). Raised by every operation that reads an internal array.
  Safe: the spec says that such a read is a fault of the model. -/
  | entryAbsent (a : ArrayName)
  /-- An index outside the array's range (R89, R90): raised by PI_BUILD's write of `TT`, by HT_DECODE's index into
  `perm`, and by HT_BUILD, LEN_SEED and LEN_END of a group outside 0..5. A wire element issued on its own that adds to a
  list already full raises nothing (assumption log 16). Safe: the spec says that no rule indexes there. -/
  | indexOutside (a : ArrayName)
  /-- A byte source that never answers a Fetch (R84, R359): the transaction hangs. Raised by the refill of the bit
  reader. Safe: the machine stops where the hardware waits for ever. -/
  | fetchHangs
  /-- An endless byte source whose bits never end a unary code or a length table (R359): the transaction hangs. Raised
  by BC_READ_UNARY and by STEP_TABLES. Safe: the machine stops where the hardware reads on for ever. -/
  | inputNeverEnds
  deriving DecidableEq, Repr

/-- What has no move in the model (R359 "refused", R382, R387). -/
inductive Refusal where
  /-- An instruction whose meaning is not written yet, by its mnemonic. Raised by exec alone. Safe. -/
  | notModelled (mnemonic : String)
  /-- An operand outside the range of its rule, which the rules never issue (R359). Raised by the internal
  operations that have such an operand. Safe. -/
  | operandOutOfRange
  /-- A step of the state machine whose state `fsm` does not hold: STEP_X runs when `fsm = X` (R230). Raised by the
  STEP operations. Safe. -/
  | stepNotSelected
  /-- PI_NEXT with no walk byte left: it is issued only when `walked < nblock` (R278). Safe. -/
  | walkExhausted
  /-- A Fetch with no source attached (R308, R387). Raised by the bit reader. Safe. -/
  | sourceDetached
  /-- A Put with no sink attached (R323, R387). Raised by the bit writer. Safe. -/
  | sinkDetached
  /-- `ENCODE_BLOCK` or `ENC_SPLIT` breaks the contract of R321 on the block to be coded (R359). Raised by ENC_WRITE,
  ENC_FINISH and ENC_CLOSE. Safe: the parameters are the model's premises, and the machine stops where one fails. -/
  | encoderContract
  /-- A host command run while a transaction is in flight (R382). Raised by the host commands; `step` runs none then, but
  keeps the bytes of one already issued until the READ has returned (assumption log 30). Safe. -/
  | transactionInFlight
  /-- The issue slot holds words that are no instruction. Raised by step. Safe. -/
  | undecodable
  deriving DecidableEq, Repr

/-! ### The parts of the state -/

/-- What a byte source does once the bytes listed for it are used up (R11, R84, R359; assumption log 17): it answers `End`
for ever; it never answers again; or it goes on for ever with these bytes, which are at least one, round and round. -/
inductive SourceEnd where
  | ends
  | silent
  | repeats (first : Byte) (more : List Byte)
  deriving DecidableEq, Repr

/-- A byte source (R84): the bytes it will still answer, in order, and what it does after them. -/
structure ByteSource where
  bytes : List Byte
  after : SourceEnd
  deriving DecidableEq, Repr

/-- How a byte sink fails (R11, R324; assumption log 18): after taking this many more bytes, with this error, whose codes
are of R340 and R341, as are all that are latched. -/
structure SinkFailure where
  room : Nat
  error : Err
  deriving DecidableEq, Repr

/-- The bit reader (R38) and the source attached to it, if one is (R301, R308). -/
structure Reader where
  acc : BitVec 64
  live : BitVec 6
  inCount : BitVec 64
  inEnded : Bool
  src : Option ByteSource
  deriving DecidableEq, Repr

/-- The stream registers (R33 to R36) and `out_count` (R56). -/
structure StreamRegs where
  bs100k : BitVec 4
  combined : Word
  blocksDone : Word
  errKind : BitVec 4
  errSub : BitVec 4
  outCount : BitVec 64
  deriving DecidableEq, Repr

/-- The block's fixed fields (R40). -/
structure BlockRegs where
  storedCrc : Word
  randomised : Bool
  origPtr : BitVec 24
  deriving DecidableEq, Repr

/-- The symbol map (R41). The arrays are written in rising order: an entry past a list's end holds no value. -/
structure SymbolMap where
  inUse : List Bool
  nInUse : BitVec 9
  seqToUnseq : List Byte
  alphaSize : BitVec 9
  eob : BitVec 9
  deriving DecidableEq, Repr

/-- The group registers (R42). -/
structure Selection where
  nGroups : BitVec 3
  nSelectors : BitVec 15
  selMtf : List (BitVec 3)
  selectors : List (BitVec 3)
  deriving DecidableEq, Repr

/-- One coding group: its code lengths (R43) and its decode tables (R44). -/
structure Group where
  len : List (BitVec 5)
  minLen : BitVec 5
  maxLen : BitVec 5
  limit : Mem 32
  base : Mem 32
  perm : List (BitVec 9)
  deriving DecidableEq, Repr

/-- The MTF/RLE2 stage: rank table, run registers, block buffer, frequencies and count (R45, R46, R48, R49, R50). -/
structure MtfStage where
  mtf : List Byte
  runS : BitVec 21
  runK : BitVec 5
  ll : Memory
  freq : List (BitVec 20)
  nblock : BitVec 20
  deriving DecidableEq, Repr

/-- The selector window registers (R47). -/
structure WindowRegs where
  selIdx : BitVec 15
  groupPos : BitVec 6
  curGroup : BitVec 3
  deriving DecidableEq, Repr

/-- The permutation inverter's arrays (R49, R51). -/
structure PermRegs where
  cum : List (BitVec 20)
  tt : Mem 20
  deriving DecidableEq, Repr

/-- The output registers: walk, derandomiser, RLE1 and running CRC (R52 to R55). -/
structure OutputRegs where
  walkPtr : BitVec 20
  walked : BitVec 20
  rNToGo : BitVec 10
  rTPos : BitVec 9
  rleLast : BitVec 9
  rleCnt : BitVec 3
  rleRep : BitVec 8
  crcRun : Word
  deriving DecidableEq, Repr

/-- The bit writer (R57) and the sink attached to it: the bytes put so far, in order (R85), and how the sink fails, if it
does; a sink of this spec never does. -/
structure Writer where
  acc : BitVec 32
  live : BitVec 5
  sink : List Byte
  attached : Bool
  failure : Option SinkFailure
  deriving DecidableEq, Repr

/-- The encoder's registers (R57). -/
structure Encoder where
  state : EncState
  level : BitVec 4
  combined : Word
  buf : List Byte
  errKind : BitVec 4
  errSub : BitVec 4
  wr : Writer
  deriving DecidableEq, Repr

/-- A command's result (R116): OK with bytes or nothing, EOF, or ERR with the codes of kind and sub-cause. -/
inductive Result where
  | ok (bytes : List Byte)
  | eof
  | err (kind sub : BitVec 4)
  deriving DecidableEq, Repr

/-- The host's side: command bytes issued and not yet taken, those issued during a READ among them (assumption log 30); byte
sources to be handed over with the coming OPENs that are accepted and byte sinks to be handed over with the coming ENC_OPENs
that are accepted (assumption log 8), each sink by how it fails; and the results returned, oldest first (R116, R300,
R387). -/
structure HostPort where
  cmds : List Byte
  sources : List ByteSource
  sinks : List (Option SinkFailure)
  results : List Result
  deriving DecidableEq, Repr

/-- A READ in flight: `n` and `out` of R304. -/
structure ReadTxn where
  want : Nat
  out : List Byte
  deriving DecidableEq, Repr

/-- The loop variables of the TABLES step (R236, R240): the used map, the group whose lengths are being read and the
current length. The other indices are the lengths of the lists being written. The model's own (assumption log 3). -/
structure TablesCursor where
  used : BitVec 16
  g : BitVec 3
  curr : BitVec 5
  deriving DecidableEq, Repr

/-- The issue slot: one internal operation or one wire element to be run by the next step on its own. The model's own
(assumption log 4); in a run of host commands it stays empty. -/
inductive Slot where
  | empty
  | unit (bytes : List Byte)
  | wire (pos : WirePos) (bits : List Bool)
  deriving DecidableEq, Repr

/-- What the last internal operation issued on its own returned. The model's own (assumption log 4). -/
inductive UnitResult where
  | none
  | nat (v : Nat)
  | bool (b : Bool)
  | nats (vs : List Nat)
  | byte (b : Byte)
  | noByte
  | word (c : Word)
  deriving DecidableEq, Repr

/-- The machine: one instance (R93) and its host interface. -/
structure State where
  inst : Instance
  fsm : Fsm
  stream : StreamRegs
  rd : Reader
  blk : BlockRegs
  map : SymbolMap
  sel : Selection
  groups : Vector Group 6
  sym : MtfStage
  win : WindowRegs
  perm : PermRegs
  out : OutputRegs
  enc : Encoder
  host : HostPort
  txn : Option ReadTxn
  pos : WirePos
  tab : TablesCursor
  slot : Slot
  ret : UnitResult
  deriving DecidableEq, Repr

/-! ### Reset -/

/-- R68: the bit reader after OPEN, before a source is attached. -/
def Reader.reset : Reader :=
  { acc := 0, live := 0, inCount := 0, inEnded := false, src := none }

/-- R68: the stream registers after OPEN. -/
def StreamRegs.reset : StreamRegs :=
  { bs100k := 0, combined := 0, blocksDone := 0, errKind := 0, errSub := 0, outCount := 0 }

/-- R68: `randomised` is 0; the others have no value, and hold 0 (assumption log 2, DESIGN CHOICE). -/
def BlockRegs.reset : BlockRegs :=
  { storedCrc := 0, randomised := false, origPtr := 0 }

/-- R68: no entry holds a value; the counts have none, and hold 0 (assumption log 2, DESIGN CHOICE). -/
def SymbolMap.reset : SymbolMap :=
  { inUse := [], nInUse := 0, seqToUnseq := [], alphaSize := 0, eob := 0 }

/-- R68: as for the symbol map (assumption log 2, DESIGN CHOICE). -/
def Selection.reset : Selection :=
  { nGroups := 0, nSelectors := 0, selMtf := [], selectors := [] }

/-- R68: as for the symbol map (assumption log 2, DESIGN CHOICE). -/
def Group.reset : Group :=
  { len := [], minLen := 0, maxLen := 0, limit := [], base := [], perm := [] }

/-- The identity rank table (R45). -/
def identityRanks : List Byte := (List.range 256).map (BitVec.ofNat 8)

/-- R68: the rank table is the identity, the run registers and `nblock` are 0, the arrays hold no value. -/
def MtfStage.reset : MtfStage :=
  { mtf := identityRanks, runS := 0, runK := 0, ll := [], freq := [], nblock := 0 }

/-- R68. -/
def WindowRegs.reset : WindowRegs := { selIdx := 0, groupPos := 0, curGroup := 0 }

/-- R68: no entry holds a value. -/
def PermRegs.reset : PermRegs := { cum := [], tt := [] }

/-- R68: `rle_last` is 256 and `crc_run` all ones; the walk registers have no value, and hold 0 (assumption log 2,
DESIGN CHOICE). -/
def OutputRegs.reset : OutputRegs :=
  { walkPtr := 0, walked := 0, rNToGo := 0, rTPos := 0, rleLast := 256, rleCnt := 0, rleRep := 0
    crcRun := 0xFFFFFFFF }

/-- R57: the bit writer at ENC_OPEN, before a sink is attached. -/
def Writer.reset : Writer := { acc := 0, live := 0, sink := [], attached := false, failure := none }

/-- R57: the encoder's values at ENC_OPEN, but for the level it is given, which is 0 before one is (assumption log 2,
DESIGN CHOICE). -/
def Encoder.reset : Encoder :=
  { state := .isOpen, level := 0, combined := 0, buf := [], errKind := 0, errSub := 0, wr := Writer.reset }

/-- Nothing issued, nothing handed over, nothing returned. -/
def HostPort.reset : HostPort := { cmds := [], sources := [], sinks := [], results := [] }

/-- The loop variables before any TABLES step (assumption log 3). -/
def TablesCursor.reset : TablesCursor := { used := 0, g := 0, curr := 0 }

/-- The machine before its first command: an instance never opened (R372), every register at the value of R68 and R57.
OPEN and ENC_OPEN are the resets of R370 and R371 (assumption log 1). -/
def State.reset : State :=
  { inst := .neverOpened
    fsm := .streamHeader
    stream := StreamRegs.reset
    rd := Reader.reset
    blk := BlockRegs.reset
    map := SymbolMap.reset
    sel := Selection.reset
    groups := Vector.replicate 6 Group.reset
    sym := MtfStage.reset
    win := WindowRegs.reset
    perm := PermRegs.reset
    out := OutputRegs.reset
    enc := Encoder.reset
    host := HostPort.reset
    txn := none
    pos := .streamHeader
    tab := TablesCursor.reset
    slot := .empty
    ret := .none }

end Sys2Proof.Machine
end

