-- ==== Sys2Proof/Machine/Flags.lean ====
section
/-! DEFINITION. The codes of the status registers and the read-only status window: `fsm` (spec/10_state.md R31), the
error kinds and sub-causes (spec/60_exceptions.md R340, R341), the status of a result (spec/30_encoding.md R116),
`enc_state` (R57), STATUS and the other words (R67). The hardware has no condition codes (R37). -/

namespace Sys2Proof.Machine

/-- The code of `fsm` (R31). -/
def fsmCode : Fsm → Nat
  | .streamHeader => 0
  | .header => 1
  | .tables => 2
  | .symbols => 3
  | .permute => 4
  | .emit => 5
  | .crcCheck => 6
  | .trailer => 7
  | .ended => 8
  | .failed => 9
  | .closed => 10

/-- The code of `enc_state` (R57). -/
def encStateCode : EncState → Nat
  | .isOpen => 0
  | .finished => 1
  | .failed => 2
  | .closed => 3

/-- The code of an error kind (R340). -/
def kindCode : ErrKind → BitVec 4
  | .formatError => 1
  | .invalidHuffmanTables => 2
  | .invalidHuffmanCode => 3
  | .blockOverrun => 4
  | .blockCrcError => 5
  | .streamCrcError => 6
  | .unexpectedEndOfData => 7
  | .streamClosed => 8
  | .illegalCommand => 9

/-- The code of an error's kind (R340, R341). -/
def errKindCode : Err → BitVec 4
  | .badStreamMagic => kindCode .formatError
  | .badBlockSizeDigit => kindCode .formatError
  | .corruptBlockHeader => kindCode .formatError
  | .emptySymbolMap => kindCode .formatError
  | .badOrigPtr => kindCode .formatError
  | .rle1CountMissing => kindCode .formatError
  | .groupCount => kindCode .invalidHuffmanTables
  | .selectorCount => kindCode .invalidHuffmanTables
  | .selectorValue => kindCode .invalidHuffmanTables
  | .codeLength => kindCode .invalidHuffmanTables
  | .selectorsExhausted => kindCode .invalidHuffmanTables
  | .invalidHuffmanCode => kindCode .invalidHuffmanCode
  | .blockOverrun => kindCode .blockOverrun
  | .blockCrcError => kindCode .blockCrcError
  | .streamCrcError => kindCode .streamCrcError
  | .unexpectedEndOfData => kindCode .unexpectedEndOfData

/-- The sub-cause code of an error, 0 where its kind has none (R341). -/
def errSubOf : Err → BitVec 4
  | .badStreamMagic => 1
  | .badBlockSizeDigit => 2
  | .corruptBlockHeader => 3
  | .emptySymbolMap => 4
  | .badOrigPtr => 5
  | .rle1CountMissing => 6
  | .groupCount => 1
  | .selectorCount => 2
  | .selectorValue => 3
  | .codeLength => 4
  | .selectorsExhausted => 5
  | .invalidHuffmanCode => 0
  | .blockOverrun => 0
  | .blockCrcError => 0
  | .streamCrcError => 0
  | .unexpectedEndOfData => 0

/-- The status code of a result (R116). -/
def statusCode : Result → Nat
  | .ok _ => 0
  | .eof => 1
  | .err _ _ => 2

/-- The ERR result of an error (R116, R340, R341). -/
def errResult (e : Err) : Result := .err (errKindCode e) (errSubOf e)

/-- `ERR(StreamClosed)` (R348). -/
def streamClosedResult : Result := .err (kindCode .streamClosed) 0

/-- `ERR(IllegalCommand)` (R347). -/
def illegalCommandResult : Result := .err (kindCode .illegalCommand) 0

/-- The STATUS word from its fields (R67). -/
def statusWord (code kind sub level : Nat) (randomised : Bool) : Word :=
  BitVec.ofNat 32 (code + 16 * kind + 256 * sub + 4096 * level + 65536 * randomised.toNat)

/-- The window of a decoder instance (R67). -/
def decoderWindow (s : State) (offset : Nat) : Word :=
  match offset with
  | 0x00 =>
    statusWord (fsmCode s.fsm) s.stream.errKind.toNat s.stream.errSub.toNat s.stream.bs100k.toNat s.blk.randomised
  | 0x04 => s.stream.combined
  | 0x08 => s.blk.storedCrc
  | 0x0C => s.out.crcRun
  | 0x10 => s.rd.inCount.setWidth 32
  | 0x14 => s.stream.outCount.setWidth 32
  | 0x18 => s.sym.nblock.setWidth 32
  | 0x1C => s.stream.blocksDone
  | _ => 0

/-- The window of an encoder instance (R67). -/
def encoderWindow (s : State) (offset : Nat) : Word :=
  match offset with
  | 0x00 =>
    statusWord (encStateCode s.enc.state) s.enc.errKind.toNat s.enc.errSub.toNat s.enc.level.toNat false
  | 0x04 => s.enc.combined
  | _ => 0

/-- A read of the status window at a byte offset (R67): it has no side effect, an offset not listed reads 0, and the
window of an instance never opened reads 0 in every word (R372). -/
def windowRead (s : State) (offset : Nat) : Word :=
  match s.inst with
  | .neverOpened => 0
  | .decoder => decoderWindow s offset
  | .encoder => encoderWindow s offset

/-- A write to the status window is ignored (R67). -/
def windowWrite (s : State) (_offset : Nat) (_value : Word) : State := s

end Sys2Proof.Machine
end

