-- ==== Sys2Proof/Machine/Ops.lean ====
section
/-! DEFINITION. The named operations every meaning is built from: how an operation ends, the internal arrays,
move-to-front, results to the host, taking an error (spec/60_exceptions.md R345), the end of a READ
(spec/46_stream_controller.md R304) and what the next step runs. -/

namespace Sys2Proof.Machine

open Host (Outcome)

/-! ### How an operation ends -/

/-- How an operation over a part `σ` of the state ends: with a value, by raising an error at a point where the part
holds `s` (R345), or with no move in the model (R359). -/
inductive Res (σ α : Type) where
  | ok (a : α) (s : σ)
  | raised (e : Err) (s : σ)
  | fault (f : Fault)
  | refused (r : Refusal)
  deriving DecidableEq, Repr

/-- One operation after another: a raise, a fault or a refusal ends the sequence (R345). -/
def Res.bind {σ α β : Type} (r : Res σ α) (k : α → σ → Res σ β) : Res σ β :=
  match r with
  | .ok a s => k a s
  | .raised e s => .raised e s
  | .fault f => .fault f
  | .refused q => .refused q

/-- An operation on a part, put back into the whole. -/
def Res.lift {σ τ α : Type} (put : σ → τ) (r : Res σ α) : Res τ α :=
  match r with
  | .ok a s => .ok a (put s)
  | .raised e s => .raised e (put s)
  | .fault f => .fault f
  | .refused q => .refused q

/-- The operation's value through a function. -/
def Res.map {σ α β : Type} (f : α → β) (r : Res σ α) : Res σ β :=
  match r with
  | .ok a s => .ok (f a) s
  | .raised e s => .raised e s
  | .fault g => .fault g
  | .refused q => .refused q

/-- An entry of an array, or the fault of R59 where it holds no value. -/
def entry {σ α : Type} (a : ArrayName) (x : Option α) (s : σ) : Res σ α :=
  match x with
  | some v => .ok v s
  | none => .fault (.entryAbsent a)

/-! ### Internal arrays (R59, R89) -/

/-- The entry at an index; none where it holds no value (R59). -/
def memGet {w : Nat} : Mem w → Nat → Option (BitVec w)
  | [], _ => none
  | (j, v) :: rest, i => if j = i then some v else memGet rest i

/-- Write the entry at an index. -/
def memSet {w : Nat} : Mem w → Nat → BitVec w → Mem w
  | [], i, v => [(i, v)]
  | (j, u) :: rest, i, v =>
    if i < j then (i, v) :: (j, u) :: rest
    else if i = j then (i, v) :: rest
    else (j, u) :: memSet rest i v

/-- The canonical form of an array: indices strictly rising. -/
def memWf {w : Nat} : Mem w → Bool
  | [] => true
  | [_] => true
  | (i, _) :: (j, v) :: rest => decide (i < j) && memWf ((j, v) :: rest)

/-- Every index of the array is below a bound (R89). -/
def memBelow {w : Nat} (n : Nat) (m : Mem w) : Bool := m.all fun c => decide (c.1 < n)

/-- The canonical form of `LL`. -/
def Memory.wf (m : Memory) : Bool := memWf m

/-- `MoveToFront(L, j)` (R210): the entry moved and the list after it; none where position j is not in the list. -/
def moveToFront {α : Type} (l : List α) (j : Nat) : Option (α × List α) :=
  match l[j]? with
  | some v => some (v, v :: l.eraseIdx j)
  | none => none

/-- `CAP` (R9, R33). -/
def cap (r : StreamRegs) : Nat := r.bs100k.toNat * Config.capUnit

/-- `rotl1` (R14). -/
def rotl1 (x : Word) : Word := (x <<< 1) ||| (x >>> 31)

/-! ### Results, and taking an error -/

/-- Return a result to the host (R116, R300). -/
def answer (r : Result) (s : State) : State :=
  { s with host := { s.host with results := s.host.results ++ [r] } }

/-- Taking an error (R345): the kind and sub-cause are latched and `fsm` becomes FAILED; the READ that ran the step, if
there is one, loses the bytes it gathered and returns ERR. Nothing else changes, and there is no return (R349). -/
def takeError (e : Err) (s : State) : State :=
  let latched : State :=
    { s with
      stream := { s.stream with errKind := errKindCode e, errSub := errSubOf e }
      fsm := .failed }
  match s.txn with
  | some _ => answer (errResult e) { latched with txn := none }
  | none => latched

/-- Taking an error of the byte sink (R324): the kind and sub-cause are latched in the encoder's registers and `enc_state`
becomes E_FAILED. Nothing else changes. -/
def failEncoder (e : Err) (s : State) : State :=
  { s with enc := { s.enc with state := .failed, errKind := errKindCode e, errSub := errSubOf e } }

/-- The outcome of a bit writer's operation issued on its own; an error of the sink is taken. -/
def finishWriter (r : Res State Unit) : Outcome State Fault Refusal :=
  match r with
  | .ok _ s => .next s
  | .raised e s => .next (failEncoder e s)
  | .fault f => .fault f
  | .refused q => .refused q

/-- The outcome of an operation over the whole state; an error raised is taken. -/
def finish (r : Res State Unit) : Outcome State Fault Refusal :=
  match r with
  | .ok _ s => .next s
  | .raised e s => .next (takeError e s)
  | .fault f => .fault f
  | .refused q => .refused q

/-- The outcome of an internal operation issued on its own: what it returns is kept in `ret` (assumption log 4). -/
def finishRet {α : Type} (f : α → UnitResult) (r : Res State α) : Outcome State Fault Refusal :=
  match r with
  | .ok a s => .next { s with ret := f a }
  | .raised e s => .next (takeError e s)
  | .fault g => .fault g
  | .refused q => .refused q

/-! ### Parts of the state -/

/-- An operation of the bit reader on the whole state. -/
def onReader {α : Type} (f : Reader → Res Reader α) (s : State) : Res State α :=
  (f s.rd).lift fun r => { s with rd := r }

/-- An operation of the MTF/RLE2 stage on the whole state. -/
def onStage {α : Type} (f : MtfStage → Res MtfStage α) (s : State) : Res State α :=
  (f s.sym).lift fun m => { s with sym := m }

/-- An operation of the output registers on the whole state. -/
def onOutput {α : Type} (f : OutputRegs → Res OutputRegs α) (s : State) : Res State α :=
  (f s.out).lift fun o => { s with out := o }

/-- An operation of the encoder on the whole state. -/
def onEncoder {α : Type} (f : Encoder → Res Encoder α) (s : State) : Res State α :=
  (f s.enc).lift fun e => { s with enc := e }

/-- An operation of the bit writer on the encoder. -/
def onWriter {α : Type} (f : Writer → Res Writer α) (e : Encoder) : Res Encoder α :=
  (f e.wr).lift fun w => { e with wr := w }

/-- A block begins: no entry of its arrays holds a value yet (R59, R373). -/
def startBlock (s : State) : State :=
  { s with
    map := { s.map with inUse := [], seqToUnseq := [] }
    sel := { s.sel with selMtf := [], selectors := [] }
    groups := Vector.replicate 6 Group.reset
    sym := { s.sym with ll := [], freq := [] }
    perm := PermRegs.reset }

/-! ### A READ in flight (R304 to R306) -/

/-- `Emit(b)` (R306): the byte joins `out` of the READ that runs the step. A step with no READ has no `out`. -/
def emit (b : Byte) (s : State) : State :=
  match s.txn with
  | some t => { s with txn := some { t with out := t.out ++ [b] } }
  | none => s

/-- The result of a READ whose loop has ended (R304): EOF where no byte was gathered, else OK, counted in
`out_count`. -/
def completeRead (t : ReadTxn) (s : State) : State :=
  if t.out = [] then answer .eof { s with txn := none }
  else
    answer (.ok t.out)
      { s with
        txn := none
        stream := { s.stream with outCount := s.stream.outCount + BitVec.ofNat 64 t.out.length } }

/-- The loop condition of R304, tested after each step: the READ ends when it has its bytes or the stream has ended. -/
def settleRead (s : State) : State :=
  match s.txn with
  | some t => if t.want ≤ t.out.length ∨ s.fsm = .ended then completeRead t s else s
  | none => s

/-- A step's outcome with the loop condition of R304 tested after it. -/
def settle (o : Outcome State Fault Refusal) : Outcome State Fault Refusal :=
  match o with
  | .next s => .next (settleRead s)
  | .fault f => .fault f
  | .refused r => .refused r

/-! ### What the next step runs -/

/-- The internal operation of a state of `fsm` (R117); END, FAILED and CLOSED have none (R304, R349). -/
def stepCode : Fsm → Option Byte
  | .streamHeader => some 0x60
  | .header => some 0x61
  | .tables => some 0x62
  | .symbols => some 0x63
  | .permute => some 0x64
  | .emit => some 0x65
  | .crcCheck => some 0x66
  | .trailer => some 0x67
  | .ended => none
  | .failed => none
  | .closed => none

/-- The code lengths of a group, as numbers; none outside 0..5. -/
def groupLens (s : State) (g : Nat) : List Nat :=
  match s.groups[g]? with
  | some grp => grp.len.map BitVec.toNat
  | none => []

/-- The group that codes the next symbol (R239, R242): that of the current window, or of the next one where the current
one is used up. A window with no selector has none; its symbol is not read (R242). -/
def symbolGroup (s : State) : Nat :=
  if s.win.groupPos = 0 then
    match s.sel.selectors[s.win.selIdx.toNat]? with
    | some g => g.toNat
    | none => s.win.curGroup.toNat
  else s.win.curGroup.toNat

/-- What a step finds to run. -/
inductive Fetched where
  /-- This instruction, in this state. -/
  | run (i : Instr) (s : State)
  /-- A host opcode that R115 does not define; its five bytes are taken (R347). -/
  | illegal (s : State)
  /-- Nothing: the host has issued no whole command (R312, R358). -/
  | idle
  /-- The issue slot holds no instruction. -/
  | undecodable
  deriving DecidableEq, Repr

/-- The next host command, taken from the bytes the host has issued (R115, R300). -/
def fetchCommand (s : State) : Fetched :=
  match decodeHost s.host.cmds with
  | .ok i rest => .run i { s with host := { s.host with cmds := rest } }
  | .bad (.unknownCode _) => .illegal { s with host := { s.host with cmds := s.host.cmds.drop 5 } }
  | .bad _ => .idle

/-- The operation of the state that `fsm` holds (R305). -/
def fetchStep (s : State) : Fetched :=
  match stepCode s.fsm with
  | some c =>
    match decodeUnit [c] with
    | .ok i _ => .run i s
    | .bad _ => .undecodable
  | none => .idle

/-- What the next step runs: what stands in the issue slot; else, while a READ is in flight, the operation of the state
that `fsm` holds (R305); else the host's next command (R300). Command bytes that stand in `host.cmds` while a READ is in
flight are kept and run as the next commands once it has returned, where R382 has a host that issues none (assumption
log 30, DESIGN CHOICE). -/
def fetch (s : State) : Fetched :=
  match s.slot with
  | .unit bytes =>
    match decodeUnit bytes with
    | .ok i _ => .run i { s with slot := .empty }
    | .bad _ => .undecodable
  | .wire pos bits =>
    match decodeWire pos (groupLens s (symbolGroup s)) bits with
    | .ok i _ => .run i { s with slot := .empty }
    | .bad _ => .undecodable
  | .empty =>
    match s.txn with
    | some _ => fetchStep s
    | none => fetchCommand s

/-! ### Placing an instruction where the next step finds it (assumption log 4) -/

/-- An opened decoder instance: one with a source attached, a source of no byte if it had none (R301). -/
def onDecoder (s : State) : State :=
  { s with
    inst := .decoder
    rd := { s.rd with src := some (s.rd.src.getD { bytes := [], after := .ends }) } }

/-- An opened encoder instance: one with a sink attached (R320). -/
def onEncoderInstance (s : State) : State :=
  { s with inst := .encoder, enc := { s.enc with wr := { s.enc.wr with attached := true } } }

/-- The state of `fsm` whose step has this internal code (R117). -/
def stepState (code : Byte) : Option Fsm :=
  [Fsm.streamHeader, .header, .tables, .symbols, .permute, .emit, .crcCheck, .trailer].find?
    fun f => stepCode f == some code

/-- An internal operation is issued by a step of an opened instance (R117, R387): a STEP operation by `fsm` while a READ
is in flight (R305), another one by the issue slot, those of the bit writer on an encoder instance. -/
def placeUnit (bytes : List Byte) (s : State) : State :=
  match bytes with
  | [] => s
  | code :: _ =>
    match stepState code with
    | some f => { onDecoder s with fsm := f, txn := some { want := 1, out := [] }, slot := .empty }
    | none =>
      if 0x28 ≤ code.toNat ∧ code.toNat ≤ 0x2C then { onEncoderInstance s with slot := .unit bytes }
      else { onDecoder s with slot := .unit bytes }

/-- An instruction's words where the next step finds them: a host command at the head of the host's bytes with no
transaction in flight, an internal operation as `placeUnit` says, a wire element in the issue slot of an opened decoder
instance. -/
def placeIssue (x : Issue) (s : State) : State :=
  match x with
  | .host bytes =>
    { s with slot := .empty, txn := none, host := { s.host with cmds := bytes ++ s.host.cmds } }
  | .unit bytes => placeUnit bytes s
  | .wire pos bits => { onDecoder s with slot := .wire pos bits }

end Sys2Proof.Machine
end

