-- ==== Sys2Proof/Machine/Allocator.lean ====
section
/-! DEFINITION. The canonical Huffman length allocator (spec/41_huffman_allocator.md): HA_ALLOCATE. It keeps no state
between operations (R58). -/

namespace Sys2Proof.Machine

open Host (Outcome)

/-- The tree that the merges of R175 build. -/
inductive CodeTree where
  | leaf (i : Nat)
  | node (a b : CodeTree)
  deriving DecidableEq, Repr

/-- A leaf or an internal node with its weight (R175). -/
structure Weighted where
  weight : Nat
  tree : CodeTree
  deriving DecidableEq, Repr

/-- Put a leaf before the first leaf that is not lighter. -/
def insertLeaf (x : Weighted) : List Weighted → List Weighted
  | [] => [x]
  | y :: rest => if x.weight ≤ y.weight then x :: y :: rest else y :: insertLeaf x rest

/-- The leaves from index `i`, in index order. -/
def leavesFrom : Nat → List Nat → List Weighted
  | _, [] => []
  | i, w :: rest => { weight := w, tree := .leaf i } :: leavesFrom (i + 1) rest

/-- The leaves sorted by weight and, among equal weights, by original index (R175). -/
def sortedLeaves (w : List Nat) : List Weighted := (leavesFrom 0 w).foldr insertLeaf []

/-- `Pick()` (R175): the next leaf or the head of the queue, a leaf winning a tie. -/
def pick (leaves queue : List Weighted) : Option (Weighted × List Weighted × List Weighted) :=
  match leaves, queue with
  | [], [] => none
  | x :: xs, [] => some (x, xs, [])
  | [], q :: qs => some (q, [], qs)
  | x :: xs, q :: qs =>
    if x.weight ≤ q.weight then some (x, xs, q :: qs) else some (q, x :: xs, qs)

/-- The merges of R175: each takes two picks and appends their node to the queue. -/
def merges : Nat → List Weighted → List Weighted → List Weighted
  | 0, _, queue => queue
  | k + 1, leaves, queue =>
    match pick leaves queue with
    | none => queue
    | some (a, leaves', queue') =>
      match pick leaves' queue' with
      | none => queue
      | some (b, leaves'', queue'') =>
        merges k leaves'' (queue'' ++ [{ weight := a.weight + b.weight, tree := .node a.tree b.tree }])

/-- The leaves of a tree with their depths (R175). -/
def leafDepths : CodeTree → Nat → List (Nat × Nat)
  | .leaf i, d => [(i, d)]
  | .node a b, d => leafDepths a (d + 1) ++ leafDepths b (d + 1)

/-- The depth recorded for leaf `i`. -/
def depthOf (ds : List (Nat × Nat)) (i : Nat) : Nat :=
  match ds.find? (fun p => p.1 == i) with
  | some p => p.2
  | none => 0

/-- `HuffmanDepths(w)` (R175): the depth of each leaf below the last node created. -/
def huffmanDepths (w : List Nat) : List Nat :=
  match (merges (w.length - 1) (sortedLeaves w) []).getLast? with
  | some root => (List.range w.length).map (depthOf (leafDepths root.tree 0))
  | none => []

/-- Halve every weight, rounding up (R173). -/
def halveWeights (w : List Nat) : List Nat := w.map fun x => (x + 1) / 2

/-- The loop of R173. Each round makes every weight above 1 smaller (R176), so it is bounded by the largest weight. -/
def allocateLoop (maxLen : Nat) : Nat → List Nat → List Nat
  | 0, w => huffmanDepths w
  | k + 1, w =>
    if maxOf (huffmanDepths w) ≤ maxLen then huffmanDepths w else allocateLoop maxLen k (halveWeights w)

/-- The lengths of R173, for two frequencies or more. -/
def allocateLengths (f : List Nat) (maxLen : Nat) : List Nat :=
  let w := f.map fun x => max x 1
  allocateLoop maxLen (maxOf w) w

/-- HA_ALLOCATE f maxLen (R173), refused outside the operand ranges of R170 and the precondition of R174. -/
def allocate (f : List Nat) (maxLen : Nat) (s : State) : Res State (List Nat) :=
  if f.length = 0 ∨ maxLen = 0 ∨ 32 < maxLen then .refused .operandOutOfRange
  else if f.length = 1 then .ok [1] s
  else if 2 ^ maxLen < f.length then .refused .operandOutOfRange
  else .ok (allocateLengths f maxLen) s

/-- HA_ALLOCATE issued on its own (R173). -/
def execHaAllocate (f : List Nat) (maxLen : Nat) (s : State) : Outcome State Fault Refusal :=
  finishRet .nats (allocate f maxLen s)

end Sys2Proof.Machine
end

