-- ==== Sys2Proof/Machine/Operands.lean ====
section
/-! DEFINITION. The operand forms of the bit channel (spec/40_bit_channel.md): a field of n bits, a boolean, a unary
number and a 32-bit integer, read from the byte source (R140 to R144) and written to the byte sink (R150 to R154). -/

namespace Sys2Proof.Machine

/-! ### Reader -/

/-- What the byte source answers to a Fetch (R84), if one is attached (R308, R387). -/
inductive FetchAnswer where
  | byte (b : Byte) (src : ByteSource)
  | ended
  | hangs
  | detached
  deriving DecidableEq, Repr

/-- `Fetch()` (R84): the next byte, which is consumed, or `End`, which a source answers for ever. -/
def fetchByte (r : Reader) : FetchAnswer :=
  match r.src with
  | none => .detached
  | some src =>
    match src.bytes with
    | b :: rest => .byte b { src with bytes := rest }
    | [] =>
      match src.after with
      | .ends => .ended
      | .silent => .hangs
      | .repeats b more => .byte b { src with bytes := more }

/-- A byte joins the accumulator (R140). -/
def takeByte (b : Byte) (src : ByteSource) (r : Reader) : Reader :=
  { r with
    acc := (r.acc <<< 8) ||| b.setWidth 64
    live := r.live + 8
    inCount := r.inCount + 1
    src := some src }

/-- `Refill(n)` (R140): bytes are fetched one at a time while fewer than `n` bits are buffered. At most `n` bytes are
needed, so the loop is bounded by its first argument. -/
def refill : Nat → Nat → Reader → Res Reader Unit
  | 0, _, r => .ok () r
  | k + 1, n, r =>
    if r.live.toNat < n then
      match fetchByte r with
      | .byte b src => refill k n (takeByte b src r)
      | .ended => .raised .unexpectedEndOfData { r with inEnded := true }
      | .hangs => .fault .fetchHangs
      | .detached => .refused .sourceDetached
    else .ok () r

/-- The oldest `n` buffered bits are taken (R141). -/
def takeLive (n : Nat) (r : Reader) : Res Reader Nat :=
  let left := r.live.toNat - n
  .ok (r.acc.toNat / 2 ^ left % 2 ^ n)
    { r with acc := BitVec.ofNat 64 (r.acc.toNat % 2 ^ left), live := BitVec.ofNat 6 left }

/-- `ReadBits(n)` (R141), refused for `n > 24` (R146). -/
def readBits (n : Nat) (r : Reader) : Res Reader Nat :=
  if n ≤ Config.readBitsMax then (refill n n r).bind fun _ r' => takeLive n r'
  else .refused .operandOutOfRange

/-- `ReadBool()` (R142). -/
def readBool (r : Reader) : Res Reader Bool := (readBits 1 r).map fun v => decide (v = 1)

/-- The bytes an endless source gives round and round; none for another source, or with none attached. -/
def cycleOf (r : Reader) : List Byte :=
  match r.src with
  | some src =>
    match src.after with
    | .ends => []
    | .silent => []
    | .repeats b more => b :: more
  | none => []

/-- The bits still to come: those buffered, those listed for the source, and one round of an endless source. -/
def available (r : Reader) : Nat :=
  r.live.toNat +
    (match r.src with
    | some src => 8 * src.bytes.length
    | none => 0) +
    8 * (cycleOf r).length

/-- The loop of `ReadUnary` (R143). Each turn takes a bit, so it is bounded by the bits available. With none left the
read raises, or hangs; an endless source that has given nothing but 1 bits for a whole round will give nothing else, and
the code never ends (R359). -/
def readUnaryLoop : Nat → Nat → Reader → Res Reader Nat
  | 0, j, r =>
    match cycleOf r with
    | [] => (readBool r).bind fun _ r' => .ok j r'
    | _ :: _ => .fault .inputNeverEnds
  | k + 1, j, r => (readBool r).bind fun b r' => if b then readUnaryLoop k (j + 1) r' else .ok j r'

/-- `ReadUnary()` (R143). -/
def readUnary (r : Reader) : Res Reader Nat := readUnaryLoop (available r) 0 r

/-- `ReadInt32()` (R144). -/
def readInt32 (r : Reader) : Res Reader Nat :=
  (readBits 16 r).bind fun hi r' => (readBits 16 r').bind fun lo r'' => .ok (hi * 65536 + lo) r''

/-! ### Writer -/

/-- `Put(b)` (R85), refused with no sink attached (R387). A sink that fails takes the bytes it has room for and raises
its error at the next (R324). -/
def putByte (b : Byte) (w : Writer) : Res Writer Unit :=
  if w.attached then
    match w.failure with
    | none => .ok () { w with sink := w.sink ++ [b] }
    | some f =>
      match f.room with
      | 0 => .raised f.error w
      | room + 1 => .ok () { w with sink := w.sink ++ [b], failure := some { f with room := room } }
  else .refused .sinkDetached

/-- The loop of `WriteBits` (R150): whole bytes go to the sink while 8 bits or more are live. -/
def drain : Nat → Writer → Res Writer Unit
  | 0, w => .ok () w
  | k + 1, w =>
    if 8 ≤ w.live.toNat then
      let left := w.live.toNat - 8
      (putByte (BitVec.ofNat 8 (w.acc.toNat / 2 ^ left)) w).bind fun _ w' =>
        drain k { w' with acc := BitVec.ofNat 32 (w.acc.toNat % 2 ^ left), live := BitVec.ofNat 5 left }
    else .ok () w

/-- `WriteBits(n, v)` (R150), refused for `n > 24` and for `v >= 2^n`. Fewer than 32 bits are live, so four turns of
the loop are enough. -/
def writeBits (n v : Nat) (w : Writer) : Res Writer Unit :=
  if n ≤ Config.readBitsMax ∧ v < 2 ^ n then
    drain 4 { w with acc := (w.acc <<< n) ||| BitVec.ofNat 32 v, live := w.live + BitVec.ofNat 5 n }
  else .refused .operandOutOfRange

/-- `WriteBool(b)` (R151). -/
def writeBool (b : Bool) (w : Writer) : Res Writer Unit := writeBits 1 b.toNat w

/-- `WriteUnary(j)` (R152). -/
def writeUnary : Nat → Writer → Res Writer Unit
  | 0, w => writeBits 1 0 w
  | j + 1, w => (writeBits 1 1 w).bind fun _ w' => writeUnary j w'

/-- `WriteInt32(v)` (R153). -/
def writeInt32 (v : Word) (w : Writer) : Res Writer Unit :=
  (writeBits 16 (v.toNat / 65536) w).bind fun _ w' => writeBits 16 (v.toNat % 65536) w'

/-- `Flush()` (R154). -/
def flush (w : Writer) : Res Writer Unit :=
  if 0 < w.live.toNat then writeBits (8 - w.live.toNat) 0 w else .ok () w

/-- A string of bits, in order. -/
def writeBitString : List Bool → Writer → Res Writer Unit
  | [], w => .ok () w
  | b :: rest, w => (writeBool b w).bind fun _ w' => writeBitString rest w'

end Sys2Proof.Machine
end

