-- ==== Sys2Proof/Machine/BitChannel.lean ====
section
/-! DEFINITION. The bit channel's operations issued on their own (spec/40_bit_channel.md): BC_READ_BITS to BC_FLUSH. -/

namespace Sys2Proof.Machine

open Host (Outcome)

/-- BC_READ_BITS n (R141). -/
def execBcReadBits (n : Nat) (s : State) : Outcome State Fault Refusal :=
  finishRet .nat (onReader (readBits n) s)

/-- BC_READ_BOOL (R142). -/
def execBcReadBool (s : State) : Outcome State Fault Refusal :=
  finishRet .bool (onReader readBool s)

/-- BC_READ_UNARY (R143). -/
def execBcReadUnary (s : State) : Outcome State Fault Refusal :=
  finishRet .nat (onReader readUnary s)

/-- BC_READ_INT32 (R144). -/
def execBcReadInt32 (s : State) : Outcome State Fault Refusal :=
  finishRet .nat (onReader readInt32 s)

/-- BC_WRITE_BITS n v (R150). -/
def execBcWriteBits (n v : Nat) (s : State) : Outcome State Fault Refusal :=
  finishWriter (onEncoder (onWriter (writeBits n v)) s)

/-- BC_WRITE_BOOL b (R151). -/
def execBcWriteBool (b : Bool) (s : State) : Outcome State Fault Refusal :=
  finishWriter (onEncoder (onWriter (writeBool b)) s)

/-- BC_WRITE_UNARY j (R152). -/
def execBcWriteUnary (j : Nat) (s : State) : Outcome State Fault Refusal :=
  finishWriter (onEncoder (onWriter (writeUnary j)) s)

/-- BC_WRITE_INT32 v (R153). -/
def execBcWriteInt32 (v : Word) (s : State) : Outcome State Fault Refusal :=
  finishWriter (onEncoder (onWriter (writeInt32 v)) s)

/-- BC_FLUSH (R154). -/
def execBcFlush (s : State) : Outcome State Fault Refusal :=
  finishWriter (onEncoder (onWriter flush) s)

end Sys2Proof.Machine
end

