-- ==== Sys2Proof/Machine/Output.lean ====
section
/-! DEFINITION. The block's output (spec/45_block_output.md): the permutation inverter PI_BUILD and PI_NEXT, the
derandomiser DERAND, the first run-length stage RLE1_NEXT, and the CRC operations. -/

namespace Sys2Proof.Machine

open Host (Outcome)

/-! ### Permutation inverter -/

/-- `cum` (R275): the sum of the frequencies before each byte value. -/
def cumulate : Nat → List (BitVec 20) → List (BitVec 20)
  | _, [] => []
  | s, f :: rest => BitVec.ofNat 20 s :: cumulate (s + f.toNat) rest

/-- One turn of R276: `TT[cum[LL[i]]]` becomes `i` and the slot of that byte moves on. -/
def scatterOne (capacity : Nat) (ll : Memory) (i : Nat) (p : PermRegs) : Res PermRegs Unit :=
  (entry .ll (memGet ll i) p).bind fun b p =>
    (entry .cum p.cum[b.toNat]? p).bind fun c p =>
      if c.toNat < capacity then
        .ok () { cum := p.cum.set b.toNat (c + 1), tt := memSet p.tt c.toNat (BitVec.ofNat 20 i) }
      else .fault (.indexOutside .tt)

/-- The loop of R276 from position `i` on. -/
def scatter (capacity : Nat) (ll : Memory) : Nat → Nat → PermRegs → Res PermRegs Unit
  | 0, _, p => .ok () p
  | n + 1, i, p => (scatterOne capacity ll i p).bind fun _ p => scatter capacity ll n (i + 1) p

/-- PI_BUILD (R275, R276). -/
def buildPermutation (s : State) : Res State Unit :=
  if s.sym.freq.length < 256 then .fault (.entryAbsent .freq)
  else
    (scatter (cap s.stream) s.sym.ll s.sym.nblock.toNat 0
        { s.perm with cum := cumulate 0 (s.sym.freq.take 256) }).lift
      fun p => { s with perm := p }

/-- DERAND b on the output registers (R282). -/
def derandomise (b : Byte) (o : OutputRegs) : Byte × OutputRegs :=
  let o1 : OutputRegs :=
    if o.rNToGo = 0 then
      { o with rNToGo := BitVec.ofNat 10 (Config.randTable.getD o.rTPos.toNat 0), rTPos := o.rTPos + 1 }
    else o
  let o2 : OutputRegs := { o1 with rNToGo := o1.rNToGo - 1 }
  (if o2.rNToGo = 1 then b ^^^ 1 else b, o2)

/-- What the walk reads: the block's arrays, its length and whether it is randomised (R278). -/
structure WalkView where
  ll : Memory
  tt : Mem 20
  nblock : BitVec 20
  randomised : Bool
  deriving DecidableEq, Repr

/-- The walk's view of the state. -/
def walkView (s : State) : WalkView :=
  { ll := s.sym.ll, tt := s.perm.tt, nblock := s.sym.nblock, randomised := s.blk.randomised }

/-- `PI_NEXT()` (R278), refused when no walk byte is left. -/
def nextWalkByte (v : WalkView) (o : OutputRegs) : Res OutputRegs Byte :=
  if o.walked.toNat < v.nblock.toNat then
    (entry .ll (memGet v.ll o.walkPtr.toNat) o).bind fun b o =>
      (entry .tt (memGet v.tt o.walkPtr.toNat) o).bind fun next o =>
        let o1 : OutputRegs := { o with walkPtr := next, walked := o.walked + 1 }
        if v.randomised then .ok (derandomise b o1).1 (derandomise b o1).2 else .ok b o1
  else .refused .walkExhausted

/-! ### First run-length stage -/

/-- `RLE1_NEXT()` (R285): the next output byte, or none when the block is exhausted. -/
def nextOutputByte (v : WalkView) (o : OutputRegs) : Res OutputRegs (Option Byte) :=
  if o.rleRep ≠ 0 then .ok (some (o.rleLast.setWidth 8)) { o with rleRep := o.rleRep - 1 }
  else if o.walked = v.nblock then .ok none o
  else
    (nextWalkByte v o).bind fun b o =>
      if b.setWidth 9 ≠ o.rleLast then .ok (some b) { o with rleLast := b.setWidth 9, rleCnt := 1 }
      else if o.rleCnt + 1 = 4 then
        let o1 : OutputRegs := { o with rleCnt := 0 }
        if o1.walked = v.nblock then .raised .rle1CountMissing o1
        else (nextWalkByte v o1).bind fun n o2 => .ok (some b) { o2 with rleRep := n }
      else .ok (some b) { o with rleCnt := o.rleCnt + 1 }

/-! ### CRC -/

/-- One of the eight turns of R287's table entry. -/
def crcTurn (c : Word) : Word :=
  if c.msb then (c <<< 1) ^^^ Config.crcPoly else c <<< 1

/-- `CRC_T[i]` (R287). -/
def crcTable (i : Byte) : Word :=
  Nat.repeat crcTurn 8 (i.setWidth 32 <<< 24)

/-- `CRC_UPDATE b` on the register (R287). -/
def crcUpdate (c : Word) (b : Byte) : Word :=
  (c <<< 8) ^^^ crcTable ((c >>> 24).setWidth 8 ^^^ b)

/-- The initial value of R286. -/
def crcStart : Word := 0xFFFFFFFF

/-- `CRC_FINAL` (R288). -/
def crcFinal (c : Word) : Word := c ^^^ 0xFFFFFFFF

/-- The block CRC of a byte sequence (R288). -/
def crcOf (bytes : List Byte) : Word := crcFinal (bytes.foldl crcUpdate crcStart)

/-- `CRC_COMBINE c` (R290). -/
def combineCrc (c : Word) (r : StreamRegs) : StreamRegs :=
  { r with combined := rotl1 r.combined ^^^ c, blocksDone := r.blocksDone + 1 }

/-! ### The operations issued on their own -/

/-- PI_BUILD issued on its own (R275, R276). -/
def execPiBuild (s : State) : Outcome State Fault Refusal := finish (buildPermutation s)

/-- PI_NEXT issued on its own (R278). -/
def execPiNext (s : State) : Outcome State Fault Refusal :=
  finishRet .byte (onOutput (nextWalkByte (walkView s)) s)

/-- DERAND b issued on its own (R282). It runs R282's pseudocode whatever `randomised` holds, where R271 has DERAND change
nothing in a block that is not randomised: that test is PI_NEXT's (R278), and R282 has none (assumption log 32, DESIGN
CHOICE). -/
def execDerand (b : Byte) (s : State) : Outcome State Fault Refusal :=
  .next { s with out := (derandomise b s.out).2, ret := .byte (derandomise b s.out).1 }

/-- What RLE1_NEXT returned. -/
def outputByteResult : Option Byte → UnitResult
  | some b => .byte b
  | none => .noByte

/-- RLE1_NEXT issued on its own (R285). -/
def execRle1Next (s : State) : Outcome State Fault Refusal :=
  finishRet outputByteResult (onOutput (nextOutputByte (walkView s)) s)

/-- CRC_INIT (R286). -/
def execCrcInit (s : State) : Outcome State Fault Refusal :=
  .next { s with out := { s.out with crcRun := crcStart } }

/-- CRC_UPDATE b (R287). -/
def execCrcUpdate (b : Byte) (s : State) : Outcome State Fault Refusal :=
  .next { s with out := { s.out with crcRun := crcUpdate s.out.crcRun b } }

/-- CRC_FINAL (R288): `crc_run` is not changed. -/
def execCrcFinal (s : State) : Outcome State Fault Refusal :=
  .next { s with ret := .word (crcFinal s.out.crcRun) }

/-- CRC_COMBINE c (R290). -/
def execCrcCombine (c : Word) (s : State) : Outcome State Fault Refusal :=
  .next { s with stream := combineCrc c s.stream }

end Sys2Proof.Machine
end

