-- ==== Sys2Proof/Machine/Huffman.lean ====
section
/-! DEFINITION. The Huffman table builder, the symbol decoder and the encoder's codewords
(spec/42_huffman_tables.md): HT_BUILD, HT_DECODE, HT_CODES. -/

namespace Sys2Proof.Machine

open Host (Outcome)

/-- `limit[g]` (R192), one entry for each length of `minLen..maxLen`. -/
def limitOf (lens : List Nat) : Mem 32 :=
  (rowsOf lens).map fun r => (r.len, BitVec.ofInt 32 ((r.first : Int) + r.count - 1))

/-- `base[g]` (R193). -/
def baseOf (lens : List Nat) : Mem 32 :=
  (rowsOf lens).map fun r => (r.len, BitVec.ofInt 32 ((r.first : Int) - r.index))

/-- HT_BUILD on one group (R190), over its first `a` lengths, `a = alphaSize`. It builds from whatever lengths are there,
also from one outside 1..20, which no rule leaves and of which R190 says only that the lengths were checked when read
(assumption log 31, DESIGN CHOICE). -/
def buildGroup (a : Nat) (grp : Group) : Res Group Unit :=
  if a = 0 ∨ grp.len.length < a then .fault (.entryAbsent .len)
  else
    let lens := (grp.len.take a).map BitVec.toNat
    .ok ()
      { grp with
        minLen := BitVec.ofNat 5 (minOf lens)
        maxLen := BitVec.ofNat 5 (maxOf lens)
        limit := limitOf lens
        base := baseOf lens
        perm := (permOf lens).map (BitVec.ofNat 9) }

/-- HT_BUILD g (R190), refused outside `0..nGroups-1`. -/
def buildTable (g : Nat) (s : State) : Res State Unit :=
  if g < s.sel.nGroups.toNat then
    match s.groups[g]? with
    | some grp =>
      (buildGroup s.map.alphaSize.toNat grp).lift fun grp' =>
        { s with groups := s.groups.setIfInBounds g grp' }
    | none => .fault (.indexOutside .len)
  else .refused .operandOutOfRange

/-- HT_BUILD for each group from `g` on (R241). -/
def buildTables : Nat → Nat → State → Res State Unit
  | 0, _, s => .ok () s
  | n + 1, g, s => (buildTable g s).bind fun _ s' => buildTables n (g + 1) s'

/-- The symbol of a candidate that is a codeword (R193, R195). -/
def symbolAt (grp : Group) (L v : Nat) (r : Reader) : Res Reader Nat :=
  match memGet grp.base L with
  | none => .fault (.entryAbsent .base)
  | some b =>
    if v < b.toNat then .fault (.indexOutside .perm)
    else
      match grp.perm[v - b.toNat]? with
      | some sym => .ok sym.toNat r
      | none => .fault (.entryAbsent .perm)

/-- The loop of R195 at length `L` with candidate `v`; the first argument is `maxLen - L`. -/
def decodeLoop (grp : Group) : Nat → Nat → Nat → Reader → Res Reader Nat
  | n, L, v, r =>
    match memGet grp.limit L with
    | none => .fault (.entryAbsent .limit)
    | some lim =>
      if (v : Int) ≤ lim.toInt then symbolAt grp L v r
      else
        match n with
        | 0 => .raised .invalidHuffmanCode r
        | k + 1 => (readBits 1 r).bind fun b r' => decodeLoop grp k (L + 1) (2 * v + b) r'

/-- HT_DECODE on one built group (R195). -/
def decodeSymbol (grp : Group) (r : Reader) : Res Reader Nat :=
  (readBits grp.minLen.toNat r).bind fun v r' =>
    decodeLoop grp (grp.maxLen.toNat - grp.minLen.toNat) grp.minLen.toNat v r'

/-- HT_DECODE g (R195), refused outside `0..nGroups-1`. -/
def decodeWith (g : Nat) (s : State) : Res State Nat :=
  if g < s.sel.nGroups.toNat then
    match s.groups[g]? with
    | some grp => onReader (decodeSymbol grp) s
    | none => .fault (.indexOutside .perm)
  else .refused .operandOutOfRange

/-- The codewords of R197, by symbol. -/
def codesOf (lens : List Nat) : List Nat := (List.range lens.length).map (codeOf lens)

/-- HT_CODES lens (R197), refused where there is no length or one is outside 1..20. -/
def codes (lens : List Nat) (s : State) : Res State (List Nat) :=
  if lens.length = 0 ∨ lengthsLegal lens = false then .refused .operandOutOfRange else .ok (codesOf lens) s

/-- HT_BUILD issued on its own (R190). -/
def execHtBuild (g : Nat) (s : State) : Outcome State Fault Refusal := finish (buildTable g s)

/-- HT_DECODE issued on its own (R195). -/
def execHtDecode (g : Nat) (s : State) : Outcome State Fault Refusal := finishRet .nat (decodeWith g s)

/-- HT_CODES issued on its own (R197). -/
def execHtCodes (lens : List Nat) (s : State) : Outcome State Fault Refusal := finishRet .nats (codes lens s)

end Sys2Proof.Machine
end

