-- ==== Sys2Proof/Machine/Mtf.lean ====
section
/-! DEFINITION. The MTF/RLE2 stage (spec/43_mtf_rle2.md): MTF_DECODE_SYMBOL and MTF_ENCODE. -/

namespace Sys2Proof.Machine

open Host (Outcome)

/-! ### Decode -/

/-- A run digit, RUNA or RUNB (R211): `run_s` saturates at `CAP + 1` and `run_k` at 21. -/
def runDigit (capacity sym : Nat) (m : MtfStage) : MtfStage :=
  { m with
    runS := BitVec.ofNat 21 (min (m.runS.toNat + (sym + 1) * 2 ^ m.runK.toNat) (capacity + 1))
    runK := BitVec.ofNat 5 (min (m.runK.toNat + 1) 21) }

/-- `n` copies of a byte at the end of `LL` (R212). -/
def pushBytes (b : Byte) : Nat → MtfStage → MtfStage
  | 0, m => m
  | n + 1, m => pushBytes b n { m with ll := memSet m.ll m.nblock.toNat b, nblock := m.nblock + 1 }

/-- `freq[b]` grows by `n` (R212, R213). -/
def countBytes (b : Byte) (n : Nat) (m : MtfStage) : Res MtfStage Unit :=
  (entry .freq m.freq[b.toNat]? m).bind fun f m' =>
    .ok () { m' with freq := m'.freq.set b.toNat (f + BitVec.ofNat 20 n) }

/-- The run end (R212): the pending run is written, unless it would pass the block's capacity. -/
def runEnd (capacity : Nat) (seq : List Byte) (m : MtfStage) : Res MtfStage Unit :=
  if m.runS.toNat = 0 then .ok () { m with runS := 0, runK := 0 }
  else
    (entry .mtf m.mtf[0]? m).bind fun v m =>
      (entry .seqToUnseq seq[v.toNat]? m).bind fun b m =>
        if capacity < m.nblock.toNat + m.runS.toNat then .raised .blockOverrun m
        else
          (countBytes b m.runS.toNat (pushBytes b m.runS.toNat m)).bind fun _ m =>
            .ok () { m with runS := 0, runK := 0 }

/-- A rank symbol (R213): rank `sym - 1` moves to the front and its byte is written, unless the block is full. -/
def rankSymbol (capacity : Nat) (seq : List Byte) (sym : Nat) (m : MtfStage) : Res MtfStage Unit :=
  (entry .mtf (moveToFront m.mtf (sym - 1)) m).bind fun p m =>
    (entry .seqToUnseq seq[p.1.toNat]? m).bind fun b m =>
      let moved : MtfStage := { m with mtf := p.2 }
      if capacity ≤ m.nblock.toNat then .raised .blockOverrun moved
      else countBytes b 1 (pushBytes b 1 moved)

/-- MTF_DECODE_SYMBOL sym (R211 to R214): a run digit; or the run end and then a rank symbol or `EOB`. Refused above
`EOB`, which no table decodes to (R215). -/
def stageSymbol (capacity : Nat) (map : SymbolMap) (sym : Nat) (m : MtfStage) : Res MtfStage Unit :=
  if sym ≤ 1 then .ok () (runDigit capacity sym m)
  else if sym ≤ map.eob.toNat then
    (runEnd capacity map.seqToUnseq m).bind fun _ m =>
      if sym = map.eob.toNat then .ok () m else rankSymbol capacity map.seqToUnseq sym m
  else .refused .operandOutOfRange

/-- MTF_DECODE_SYMBOL on the whole state (R211 to R214). -/
def mtfSymbol (sym : Nat) (s : State) : Res State Unit :=
  onStage (stageSymbol (cap s.stream) s.map sym) s

/-- The stage at the start of a block's SYMBOLS step (R216). R216 does not name `LL`, of which the block has written no entry
yet: that it holds none (R59) is the model's reading (assumption log 14, DEDUCED). -/
def stageInit (m : MtfStage) : MtfStage :=
  { m with
    mtf := identityRanks
    runS := 0
    runK := 0
    ll := []
    freq := List.replicate 256 0
    nblock := 0 }

/-! ### Encode -/

/-- `EmitRun(n)` (R218): bijective base-2 digits, least significant first. The loop is bounded by its first argument. -/
def runDigits : Nat → Nat → List Nat
  | 0, _ => []
  | k + 1, n =>
    if n = 0 then []
    else if n % 2 = 1 then 0 :: runDigits k ((n - 1) / 2)
    else 1 :: runDigits k ((n - 2) / 2)

/-- The loop of R218: `mtf` the rank list, `zrun` the pending run of rank 0. A byte outside `inUse` ends it with
none. -/
def mtfEncodeLoop (inUse : List Byte) : List Byte → List Nat → Nat → Option (List Nat)
  | [], _, zrun => some (runDigits zrun zrun ++ [inUse.length + 1])
  | b :: rest, mtf, zrun =>
    match inUse.idxOf? b with
    | none => none
    | some idx =>
      match mtf.idxOf? idx with
      | none => none
      | some 0 => mtfEncodeLoop inUse rest mtf (zrun + 1)
      | some (j + 1) =>
        match mtfEncodeLoop inUse rest (idx :: mtf.eraseIdx (j + 1)) 0 with
        | none => none
        | some out => some (runDigits zrun zrun ++ (j + 2) :: out)

/-- MTF_ENCODE bytes inUse (R218), refused where `inUse` is not the ascending list of the distinct bytes. -/
def mtfEncode (bytes inUse : List Byte) (s : State) : Res State (List Nat) :=
  if mtfOperandsLegal bytes inUse then
    match mtfEncodeLoop inUse bytes (List.range inUse.length) 0 with
    | some out => .ok out s
    | none => .refused .operandOutOfRange
  else .refused .operandOutOfRange

/-- MTF_DECODE_SYMBOL issued on its own (R211 to R214). -/
def execMtfDecodeSymbol (sym : Nat) (s : State) : Outcome State Fault Refusal := finish (mtfSymbol sym s)

/-- MTF_ENCODE issued on its own (R218). -/
def execMtfEncode (bytes inUse : List Byte) (s : State) : Outcome State Fault Refusal :=
  finishRet .nats (mtfEncode bytes inUse s)

end Sys2Proof.Machine
end

