-- ==== Sys2Proof/Machine/Wire.lean ====
section
/-! DEFINITION. The elements of the wire format (spec/30_encoding.md R100 to R109): what each does once it has been
read (spec/44_block_engine.md R231 to R243, spec/46_stream_controller.md R302, R303), and the reading of the element at
the stream's next position. A step of the state machine is a sequence of elements (Steps.lean). -/

namespace Sys2Proof.Machine

open Host (Outcome)

/-! ### Stream header, magics and trailer -/

/-- STREAM_HEADER (R302): the digit must be 1 to 9; `LL` and `TT` are sized `CAP`, with no entry written (R91). -/
def elemStreamHeader (d : BitVec 4) (s : State) : Res State Unit :=
  if d.toNat < 1 ∨ 9 < d.toNat then .raised .badBlockSizeDigit s
  else
    .ok ()
      { s with
        stream := { s.stream with bs100k := d }
        sym := { s.sym with ll := [] }
        perm := { s.perm with tt := [] }
        fsm := .header
        pos := .magic }

/-- BLOCK_MAGIC (R231): a block begins. -/
def elemBlockMagic (s : State) : Res State Unit :=
  .ok () { startBlock s with fsm := .tables, pos := .blockCrc }

/-- EOS_MAGIC (R231). -/
def elemEosMagic (s : State) : Res State Unit :=
  .ok () { s with fsm := .trailer, pos := .trailer }

/-- COMBINED_CRC (R303). -/
def elemCombinedCrc (c : Word) (s : State) : Res State Unit :=
  if c ≠ s.stream.combined then .raised .streamCrcError s
  else .ok () { s with fsm := .ended, pos := .padding }

/-- PADDING: ignored on decode (R86, R109). -/
def elemPadding (_bits : List Bool) (s : State) : Res State Unit := .ok () s

/-! ### The fixed fields of a block -/

/-- BLOCK_CRC (R232). -/
def elemBlockCrc (c : Word) (s : State) : Res State Unit :=
  .ok () { s with blk := { s.blk with storedCrc := c }, pos := .randomised }

/-- RANDOMISED (R233). -/
def elemRandomised (r : Bool) (s : State) : Res State Unit :=
  .ok () { s with blk := { s.blk with randomised := r }, pos := .origPtr }

/-- ORIG_PTR (R234): not checked here. -/
def elemOrigPtr (p : BitVec 24) (s : State) : Res State Unit :=
  .ok () { s with blk := { s.blk with origPtr := p }, pos := .usedMap }

/-! ### The symbol map (R236) -/

/-- The ranges not marked in `used`, up to the next marked one, are not in use. The first argument is the number of
ranges left, so that the next range's bit of `used` is the one below it (first-read bit = lowest range). -/
def fillUnmarked (used : BitVec 16) : Nat → List Bool → List Bool
  | 0, xs => xs
  | n + 1, xs => if used.getLsbD n then xs else fillUnmarked used n (xs ++ List.replicate 16 false)

/-- The byte values marked in use, ascending from `b`. -/
def valuesInUse : Nat → List Bool → List Byte
  | _, [] => []
  | b, u :: rest => if u then BitVec.ofNat 8 b :: valuesInUse (b + 1) rest else valuesInUse (b + 1) rest

/-- The end of the symbol map (R236). -/
def finishMap (xs : List Bool) (s : State) : Res State Unit :=
  let seq := valuesInUse 0 xs
  let counted : SymbolMap := { s.map with inUse := xs, seqToUnseq := seq, nInUse := BitVec.ofNat 9 seq.length }
  if seq = [] then .raised .emptySymbolMap { s with map := counted }
  else
    .ok ()
      { s with
        map :=
          { counted with alphaSize := BitVec.ofNat 9 (seq.length + 2), eob := BitVec.ofNat 9 (seq.length + 1) }
        pos := .nGroups }

/-- The symbol map with its first ranges known: on to the next marked range, or to its end (R236). -/
def continueMap (xs : List Bool) (s : State) : Res State Unit :=
  let ys := fillUnmarked s.tab.used (16 - xs.length / 16) xs
  if 256 ≤ ys.length then finishMap ys s
  else .ok () { s with map := { s.map with inUse := ys }, pos := .subMap }

/-- USED_MAP (R236). -/
def elemUsedMap (u : BitVec 16) (s : State) : Res State Unit :=
  continueMap [] { s with tab := { s.tab with used := u } }

/-- SUB_MAP (R236): the sixteen values of the next marked range, first-read bit lowest. Issued on its own after the last
range, it adds entries past the 256 of R89, and the map ends again (assumption log 16, DESIGN CHOICE). -/
def elemSubMap (m : BitVec 16) (s : State) : Res State Unit :=
  continueMap (s.map.inUse ++ toBits 16 m.toNat) s

/-! ### Groups and selectors (R237, R238) -/

/-- N_GROUPS (R237). -/
def elemNGroups (g : BitVec 3) (s : State) : Res State Unit :=
  let s1 : State := { s with sel := { s.sel with nGroups := g } }
  if g.toNat < Config.minGroups ∨ Config.maxGroups < g.toNat then .raised .groupCount s1
  else .ok () { s1 with pos := .nSelectors }

/-- N_SELECTORS (R237), and the selector MTF list set up for R238. Issued on its own where an error of N_GROUPS left 7 in
`nGroups`, it sets `selMtf[0..6]`, past the range of R89 (assumption log 16, DESIGN CHOICE). -/
def elemNSelectors (n : BitVec 15) (s : State) : Res State Unit :=
  let s1 : State := { s with sel := { s.sel with nSelectors := n } }
  if n.toNat < 1 ∨ Config.maxSelectors < n.toNat then .raised .selectorCount s1
  else
    .ok ()
      { s1 with
        sel :=
          { s1.sel with
            selMtf := (List.range s1.sel.nGroups.toNat).map (BitVec.ofNat 3)
            selectors := [] }
        pos := .selector }

/-- SELECTOR_CODE j (R238). Issued on its own after the last selector, it adds one more (assumption log 16, DESIGN
CHOICE). -/
def elemSelectorCode (j : Nat) (s : State) : Res State Unit :=
  if s.sel.nGroups.toNat ≤ j then .raised .selectorValue s
  else
    (entry .selMtf (moveToFront s.sel.selMtf j) s).bind fun p s =>
      let s1 : State :=
        { s with sel := { s.sel with selMtf := p.2, selectors := s.sel.selectors ++ [p.1] } }
      if s.sel.nSelectors.toNat ≤ s.sel.selectors.length + 1 then
        .ok () { s1 with tab := { s1.tab with g := 0 }, pos := .lenSeed }
      else .ok () { s1 with pos := .selector }

/-! ### Code lengths (R240, R241) -/

/-- The check made before every flag bit (R240). -/
def checkLength (s : State) : Res State Unit :=
  if s.tab.curr.toNat < 1 ∨ Config.maxCodeLen < s.tab.curr.toNat then .raised .codeLength s else .ok () s

/-- LEN_SEED (R240): a group's lengths begin; the seed is checked before the first flag. -/
def elemLenSeed (l : BitVec 5) (s : State) : Res State Unit :=
  match s.groups[s.tab.g.toNat]? with
  | none => .fault (.indexOutside .len)
  | some grp =>
    checkLength
      { s with
        tab := { s.tab with curr := l }
        groups := s.groups.setIfInBounds s.tab.g.toNat { grp with len := [] }
        pos := .lenFlag }

/-- LEN_INC (R240): the current length is checked before its flag bits, and the new one before the next. -/
def elemLenInc (s : State) : Res State Unit :=
  (checkLength s).bind fun _ s =>
    checkLength { s with tab := { s.tab with curr := s.tab.curr + 1 }, pos := .lenFlag }

/-- LEN_DEC (R240). -/
def elemLenDec (s : State) : Res State Unit :=
  (checkLength s).bind fun _ s =>
    checkLength { s with tab := { s.tab with curr := s.tab.curr - 1 }, pos := .lenFlag }

/-- After the last length of a group: the next group, or the tables of all groups and the SYMBOLS state (R240,
R241). -/
def nextGroup (s : State) : Res State Unit :=
  if s.sel.nGroups.toNat ≤ s.tab.g.toNat + 1 then
    (buildTables s.sel.nGroups.toNat 0 s).bind fun _ s => .ok () { s with fsm := .symbols, pos := .symbol }
  else .ok () { s with tab := { s.tab with g := s.tab.g + 1 }, pos := .lenSeed }

/-- LEN_END (R240): the current length is the next symbol's. Issued on its own after the last symbol of a group's
alphabet, it adds one more length (assumption log 16, DESIGN CHOICE). -/
def elemLenEnd (s : State) : Res State Unit :=
  (checkLength s).bind fun _ s =>
    match s.groups[s.tab.g.toNat]? with
    | none => .fault (.indexOutside .len)
    | some grp =>
      let s1 : State :=
        { s with
          groups := s.groups.setIfInBounds s.tab.g.toNat { grp with len := grp.len ++ [s.tab.curr] } }
      if s.map.alphaSize.toNat ≤ grp.len.length + 1 then nextGroup s1 else .ok () { s1 with pos := .lenFlag }

/-! ### Symbols (R242, R243) -/

/-- The window of the next symbol (R242): a new one takes the next selector. -/
def beginSymbol (s : State) : Res State Unit :=
  if s.win.groupPos = 0 then
    if s.sel.nSelectors.toNat ≤ s.win.selIdx.toNat then .raised .selectorsExhausted s
    else
      (entry .selectors s.sel.selectors[s.win.selIdx.toNat]? s).bind fun g s =>
        .ok ()
          { s with
            win := { selIdx := s.win.selIdx + 1, groupPos := BitVec.ofNat 6 (Config.groupSize - 1), curGroup := g } }
  else .ok () { s with win := { s.win with groupPos := s.win.groupPos - 1 } }

/-- SYMBOL_CODE (R242, R243): the stage takes the symbol; `EOB` ends the SYMBOLS state. -/
def elemSymbolCode (sym : Nat) (s : State) : Res State Unit :=
  (mtfSymbol sym s).bind fun _ s =>
    if sym = s.map.eob.toNat then .ok () { s with fsm := .permute } else .ok () s

/-! ### Reading the next element -/

/-- The three fixed bytes of the stream header, each checked as it is read (R302). -/
def readStreamMagic : List Byte → State → Res State Unit
  | [], s => .ok () s
  | e :: rest, s =>
    (onReader (readBits 8) s).bind fun v s =>
      if v ≠ e.toNat then .raised .badStreamMagic s else readStreamMagic rest s

/-- The stream header (R302). -/
def readStreamHeader (s : State) : Res State Unit :=
  (readStreamMagic Config.streamMagic s).bind fun _ s =>
    (onReader (readBits 8) s).bind fun d s =>
      if d < 0x31 ∨ 0x39 < d then .raised .badBlockSizeDigit s
      else elemStreamHeader (BitVec.ofNat 4 (d - 0x30)) s

/-- The 48-bit magic, read whole before any comparison (R231). -/
def readMagic (s : State) : Res State Unit :=
  (onReader (readBits 24) s).bind fun hi s =>
    (onReader (readBits 24) s).bind fun lo s =>
      if hi * 2 ^ 24 + lo = Config.eosMagic then elemEosMagic s
      else if hi * 2 ^ 24 + lo = Config.blockMagic then elemBlockMagic s
      else .raised .corruptBlockHeader s

/-- A length's flag bits (R240): `0` end, `1 0` up, `1 1` down, after the check of the current length. -/
def readLenFlag (s : State) : Res State Unit :=
  (checkLength s).bind fun _ s =>
    (onReader readBool s).bind fun more s =>
      if more then (onReader readBool s).bind fun down s => if down then elemLenDec s else elemLenInc s
      else elemLenEnd s

/-- A symbol's codeword in the group of its window (R242). -/
def readSymbol (s : State) : Res State Unit :=
  (beginSymbol s).bind fun _ s =>
    (decodeWith s.win.curGroup.toNat s).bind fun sym s => elemSymbolCode sym s

/-- The element at the stream's next position is read and acted on (R100, R119). -/
def readElement (s : State) : Res State Unit :=
  match s.pos with
  | .streamHeader => readStreamHeader s
  | .magic => readMagic s
  | .blockCrc => (onReader readInt32 s).bind fun v s => elemBlockCrc (BitVec.ofNat 32 v) s
  | .randomised => (onReader readBool s).bind fun r s => elemRandomised r s
  | .origPtr => (onReader (readBits 24) s).bind fun v s => elemOrigPtr (BitVec.ofNat 24 v) s
  | .usedMap => (onReader (readBits 16) s).bind fun v s => elemUsedMap (BitVec.ofNat 16 v) s
  | .subMap => (onReader (readBits 16) s).bind fun v s => elemSubMap (BitVec.ofNat 16 v) s
  | .nGroups => (onReader (readBits 3) s).bind fun v s => elemNGroups (BitVec.ofNat 3 v) s
  | .nSelectors => (onReader (readBits 15) s).bind fun v s => elemNSelectors (BitVec.ofNat 15 v) s
  | .selector => (onReader readUnary s).bind fun j s => elemSelectorCode j s
  | .lenSeed => (onReader (readBits 5) s).bind fun v s => elemLenSeed (BitVec.ofNat 5 v) s
  | .lenFlag => readLenFlag s
  | .symbol => readSymbol s
  | .trailer => (onReader readInt32 s).bind fun v s => elemCombinedCrc (BitVec.ofNat 32 v) s
  | .padding => elemPadding [] s

/-! ### The elements issued on their own -/

/-- STREAM_HEADER (R302). -/
def execStreamHeader (d : BitVec 4) (s : State) : Outcome State Fault Refusal := finish (elemStreamHeader d s)

/-- BLOCK_MAGIC (R231). -/
def execBlockMagic (s : State) : Outcome State Fault Refusal := finish (elemBlockMagic s)

/-- BLOCK_CRC (R232). -/
def execBlockCrc (c : Word) (s : State) : Outcome State Fault Refusal := finish (elemBlockCrc c s)

/-- RANDOMISED (R233). -/
def execRandomised (r : Bool) (s : State) : Outcome State Fault Refusal := finish (elemRandomised r s)

/-- ORIG_PTR (R234). -/
def execOrigPtr (p : BitVec 24) (s : State) : Outcome State Fault Refusal := finish (elemOrigPtr p s)

/-- USED_MAP (R236). -/
def execUsedMap (u : BitVec 16) (s : State) : Outcome State Fault Refusal := finish (elemUsedMap u s)

/-- SUB_MAP (R236). -/
def execSubMap (m : BitVec 16) (s : State) : Outcome State Fault Refusal := finish (elemSubMap m s)

/-- N_GROUPS (R237). -/
def execNGroups (g : BitVec 3) (s : State) : Outcome State Fault Refusal := finish (elemNGroups g s)

/-- N_SELECTORS (R237). -/
def execNSelectors (n : BitVec 15) (s : State) : Outcome State Fault Refusal := finish (elemNSelectors n s)

/-- SELECTOR_CODE (R238). -/
def execSelectorCode (j : Nat) (s : State) : Outcome State Fault Refusal := finish (elemSelectorCode j s)

/-- LEN_SEED (R240). -/
def execLenSeed (l : BitVec 5) (s : State) : Outcome State Fault Refusal := finish (elemLenSeed l s)

/-- LEN_END (R240). -/
def execLenEnd (s : State) : Outcome State Fault Refusal := finish (elemLenEnd s)

/-- LEN_INC (R240). -/
def execLenInc (s : State) : Outcome State Fault Refusal := finish (elemLenInc s)

/-- LEN_DEC (R240). -/
def execLenDec (s : State) : Outcome State Fault Refusal := finish (elemLenDec s)

/-- SYMBOL_CODE (R242, R243): the symbol's place in its window, and then the symbol. -/
def execSymbolCode (sym : BitVec 9) (s : State) : Outcome State Fault Refusal :=
  finish ((beginSymbol s).bind fun _ s => elemSymbolCode sym.toNat s)

/-- EOS_MAGIC (R231). -/
def execEosMagic (s : State) : Outcome State Fault Refusal := finish (elemEosMagic s)

/-- COMBINED_CRC (R303). -/
def execCombinedCrc (c : Word) (s : State) : Outcome State Fault Refusal := finish (elemCombinedCrc c s)

/-- PADDING (R86, R109). -/
def execPadding (bits : List Bool) (s : State) : Outcome State Fault Refusal := finish (elemPadding bits s)

end Sys2Proof.Machine
end

