-- ==== Sys2Proof/Machine/Steps.lean ====
section
/-! DEFINITION. The steps of the state machine (spec/44_block_engine.md R230): STEP_STREAM_HEADER to STEP_TRAILER. A
step runs when `fsm` holds its state; one whose state `fsm` does not hold has no move. -/

namespace Sys2Proof.Machine

open Host (Outcome)

/-- A step of the state `f` (R230). -/
def stepOf (f : Fsm) (body : State → Res State Unit) (s : State) : Outcome State Fault Refusal :=
  if s.fsm = f then finish (body s) else .refused .stepNotSelected

/-! ### TABLES -/

/-- A bound on the elements of TABLES. Each takes a bit, so there are no more than bits available from a source that is
not endless. Of an endless one, fewer than 20000 elements are not LEN_INC or LEN_DEC (R236 to R240), and between two of
them a row of LEN_INC and LEN_DEC longer than the product of the 20 legal lengths and the bits of a round repeats
itself. -/
def tablesBound (r : Reader) : Nat :=
  available r + 20000 * (Config.maxCodeLen * (8 * (cycleOf r).length) + 1)

/-- The elements of TABLES in order until the tables are built (R232 to R241). Where the bound is used up the read raises,
or hangs, or the length table of an endless source never ends (R359). -/
def tablesLoop : Nat → State → Res State Unit
  | 0, s =>
    match cycleOf s.rd with
    | [] => readElement s
    | _ :: _ => .fault .inputNeverEnds
  | k + 1, s => (readElement s).bind fun _ s => if s.pos = .symbol then .ok () s else tablesLoop k s

/-- The TABLES step (R232 to R241). -/
def tablesBody (s : State) : Res State Unit :=
  tablesLoop (tablesBound s.rd) { s with pos := .blockCrc }

/-! ### SYMBOLS -/

/-- The loop of R242. A window is 50 symbols, so the loop is bounded by `50 * nSelectors`; a symbol beyond that has no
selector. -/
def symbolsLoop : Nat → State → Res State Unit
  | 0, s => .raised .selectorsExhausted s
  | k + 1, s => (readSymbol s).bind fun _ s => if s.fsm = .permute then .ok () s else symbolsLoop k s

/-- The SYMBOLS step (R242): the stage and the window registers begin afresh (R216). -/
def symbolsBody (s : State) : Res State Unit :=
  symbolsLoop (Config.groupSize * s.sel.nSelectors.toNat)
    { s with sym := stageInit s.sym, win := WindowRegs.reset, pos := .symbol }

/-! ### PERMUTE -/

/-- The walk's start (R277). -/
def startWalk (s : State) : Res State Unit :=
  (entry .tt (memGet s.perm.tt s.blk.origPtr.toNat) s).bind fun p s =>
    .ok ()
      { s with
        out :=
          { walkPtr := p, walked := 0, rNToGo := 0, rTPos := 0, rleLast := 256, rleCnt := 0, rleRep := 0
            crcRun := crcStart }
        fsm := .emit }

/-- The PERMUTE step (R272, R274 to R277). -/
def permuteBody (s : State) : Res State Unit :=
  if s.sym.nblock.toNat ≤ s.blk.origPtr.toNat then .raised .badOrigPtr s
  else (buildPermutation s).bind fun _ s => startWalk s

/-! ### EMIT and CRC_CHECK -/

/-- The EMIT step (R284). -/
def emitBody (s : State) : Res State Unit :=
  (onOutput (nextOutputByte (walkView s)) s).bind fun r s =>
    match r with
    | none => .ok () { s with fsm := .crcCheck }
    | some b => .ok () (emit b { s with out := { s.out with crcRun := crcUpdate s.out.crcRun b } })

/-- The CRC_CHECK step (R289). -/
def crcCheckBody (s : State) : Res State Unit :=
  if crcFinal s.out.crcRun ≠ s.blk.storedCrc then .raised .blockCrcError s
  else
    .ok () { s with stream := combineCrc (crcFinal s.out.crcRun) s.stream, fsm := .header, pos := .magic }

/-! ### The meanings -/

/-- STEP_STREAM_HEADER (R302). -/
def execStepStreamHeader (s : State) : Outcome State Fault Refusal :=
  stepOf .streamHeader (fun s => readElement { s with pos := .streamHeader }) s

/-- STEP_HEADER (R231). -/
def execStepHeader (s : State) : Outcome State Fault Refusal :=
  stepOf .header (fun s => readElement { s with pos := .magic }) s

/-- STEP_TABLES (R232 to R241). -/
def execStepTables (s : State) : Outcome State Fault Refusal := stepOf .tables tablesBody s

/-- STEP_SYMBOLS (R242 to R244). -/
def execStepSymbols (s : State) : Outcome State Fault Refusal := stepOf .symbols symbolsBody s

/-- STEP_PERMUTE (R272 to R277). -/
def execStepPermute (s : State) : Outcome State Fault Refusal := stepOf .permute permuteBody s

/-- STEP_EMIT (R284). -/
def execStepEmit (s : State) : Outcome State Fault Refusal := stepOf .emit emitBody s

/-- STEP_CRC_CHECK (R289). -/
def execStepCrcCheck (s : State) : Outcome State Fault Refusal := stepOf .crcCheck crcCheckBody s

/-- STEP_TRAILER (R303). -/
def execStepTrailer (s : State) : Outcome State Fault Refusal :=
  stepOf .trailer (fun s => readElement { s with pos := .trailer }) s

end Sys2Proof.Machine
end

