-- ==== Sys2Proof/Machine/Contract.lean ====
section
/-! DEFINITION. The contract of the encoder's parameters (spec/46_stream_controller.md R321, 92_eei_decisions.md D33): the
bits of `ENCODE_BLOCK` begin with the block magic and the block CRC, and the decoder, reading them from HEADER through
CRC_CHECK, emits the bytes they code. The encoder refuses a block on which it fails (spec/60_exceptions.md R359). -/

namespace Sys2Proof.Machine

/-- The bytes that hold a string of bits, its last byte filled with 0 bits (R154). -/
def packBits (bits : List Bool) : List Byte :=
  match (writeBitString bits { Writer.reset with attached := true }).bind fun _ w => flush w with
  | .ok _ w => w.sink
  | .raised _ _ => []
  | .fault _ => []
  | .refused _ => []

/-- The decoder in HEADER with a block's bits to come, and a READ in flight that wants one byte more than it codes. -/
def beforeBlock (x : List Byte) (level : BitVec 4) (bits : List Bool) : State :=
  { State.reset with
    inst := .decoder
    fsm := .header
    stream := { StreamRegs.reset with bs100k := level }
    rd := { Reader.reset with src := some { bytes := packBits bits, after := .ends } }
    txn := some { want := x.length + 1, out := [] } }

/-- EMIT steps until the block is exhausted (R284). A step gives a byte or ends the block, so for a block that emits fewer
bytes than its first argument the bound is not what ends the loop. -/
def emitAll : Nat → State → Res State Unit
  | 0, s => .ok () s
  | k + 1, s => (emitBody s).bind fun _ s => if s.fsm = .crcCheck then .ok () s else emitAll k s

/-- The steps of one block, from HEADER through CRC_CHECK (R230). -/
def decodeBlock (bytes : Nat) (s : State) : Res State Unit :=
  (readElement { s with pos := .magic }).bind fun _ s =>
    (tablesBody s).bind fun _ s =>
      (symbolsBody s).bind fun _ s =>
        (permuteBody s).bind fun _ s =>
          (emitAll (bytes + 1) s).bind fun _ s => if s.fsm = .crcCheck then crcCheckBody s else .ok () s

/-- The block was decoded to the bytes `x` with its CRC found right, and `left` bits are not read. -/
def decodedTo (x : List Byte) (left : Nat) (r : Res State Unit) : Bool :=
  match r with
  | .ok _ s =>
    decide (s.fsm = .header) && decide (s.txn = some { want := x.length + 1, out := x }) &&
      decide (available s.rd = left)
  | .raised _ _ => false
  | .fault _ => false
  | .refused _ => false

/-- `bits` code the block `x` at a level (R321): they begin with the block magic and the CRC of `x`, and the decoder reads
exactly them from HEADER through CRC_CHECK and emits exactly `x`. -/
def codesBlock (x : List Byte) (level : BitVec 4) (bits : List Bool) : Bool :=
  decide (bits.take 80 = toBits 48 Config.blockMagic ++ toBits 32 (crcOf x).toNat) &&
    decodedTo x (8 * (packBits bits).length - bits.length)
      (decodeBlock x.length (beforeBlock x level bits))

/-- `ENCODE_BLOCK` keeps its contract on a block (R321). -/
def contractHolds (x : List Byte) (level : BitVec 4) : Bool := codesBlock x level (Config.encodeBlock x level)

end Sys2Proof.Machine
end

