-- ==== Sys2Proof/Machine/Commands.lean ====
section
/-! DEFINITION. The host commands (spec/46_stream_controller.md): OPEN, READ, CLOSE of a decoder instance and ENC_OPEN,
ENC_WRITE, ENC_FINISH, ENC_CLOSE of an encoder instance. IllegalCommand is checked first and changes no register
(spec/60_exceptions.md R347, R350). -/

namespace Sys2Proof.Machine

open Host (Outcome)

/-- A command with its result. -/
def reply (r : Result) (s : State) : Outcome State Fault Refusal := .next (answer r s)

/-- A command runs as one transaction: a second one during a READ has no move (R300, R382). `step` gives this operation none:
command bytes already issued wait there for the READ's end (assumption log 30). -/
def command (body : State → Outcome State Fault Refusal) (s : State) : Outcome State Fault Refusal :=
  match s.txn with
  | some _ => .refused .transactionInFlight
  | none => body s

/-! ### Decoder -/

/-- The source the host hands over with OPEN (R301, R387): the next of those in its queue; one with no byte if the
queue is empty (assumption log 8). -/
def offeredSource (h : HostPort) : ByteSource :=
  match h.sources with
  | src :: _ => src
  | [] => { bytes := [], after := .ends }

/-- The state OPEN leaves (R68, R301, R370). -/
def opened (s : State) : State :=
  { s with
    inst := .decoder
    fsm := .streamHeader
    stream := StreamRegs.reset
    rd := { Reader.reset with src := some (offeredSource s.host) }
    blk := BlockRegs.reset
    map := SymbolMap.reset
    sel := Selection.reset
    groups := Vector.replicate 6 Group.reset
    sym := MtfStage.reset
    win := WindowRegs.reset
    perm := PermRegs.reset
    out := OutputRegs.reset
    host := { s.host with sources := s.host.sources.tail }
    pos := .streamHeader
    tab := TablesCursor.reset }

/-- OPEN (R301); IllegalCommand to an encoder instance (R116). So answered it takes no source: the one handed over with it
stays at the head of the host's queue for the next OPEN that is accepted, of which the spec says nothing (assumption log 8,
DESIGN CHOICE). -/
def execHostOpen (_operand : Word) (s : State) : Outcome State Fault Refusal :=
  command (fun s =>
    match s.inst with
    | .encoder => reply illegalCommandResult s
    | .decoder => reply (.ok []) (opened s)
    | .neverOpened => reply (.ok []) (opened s)) s

/-- READ n to a decoder instance (R304), after IllegalCommand is ruled out. What the loop runs are the steps of the
machine while the READ is in flight (R305). -/
def startRead (n : Nat) (s : State) : Outcome State Fault Refusal :=
  match s.fsm with
  | .closed => reply streamClosedResult s
  | .failed => reply (.err s.stream.errKind s.stream.errSub) s
  | _ =>
    if n = 0 then reply (.ok []) s
    else .next (settleRead { s with txn := some { want := n, out := [] } })

/-- READ n (R304). -/
def execHostRead (n : Word) (s : State) : Outcome State Fault Refusal :=
  command (fun s =>
    if s.inst ≠ .decoder ∨ Config.readMax < n.toNat then reply illegalCommandResult s
    else startRead n.toNat s) s

/-- CLOSE (R308). -/
def execHostClose (_operand : Word) (s : State) : Outcome State Fault Refusal :=
  command (fun s =>
    if s.inst ≠ .decoder then reply illegalCommandResult s
    else reply (.ok []) { s with fsm := .closed, rd := { s.rd with src := none } }) s

/-! ### Encoder -/

/-- `EncodeBlock(X)` (R321): the parameter's bits are written and the block CRC of `X` is folded in; refused where the
parameter breaks its contract on `X` (R359). -/
def encodeBlock (x : List Byte) (e : Encoder) : Res Encoder Unit :=
  if contractHolds x e.level then
    (onWriter (writeBitString (Config.encodeBlock x e.level)) e).bind fun _ e =>
      .ok () { e with combined := rotl1 e.combined ^^^ crcOf x }
  else .refused .encoderContract

/-- The loop of ENC_WRITE (R321). Each turn takes a full block from the buffer, so it is bounded by its length. -/
def encodeFull : Nat → Encoder → Res Encoder Unit
  | 0, e => .ok () e
  | k + 1, e =>
    if Config.encSplit e.level ≤ e.buf.length then
      (encodeBlock (e.buf.take (Config.encSplit e.level)) e).bind fun _ e =>
        encodeFull k { e with buf := e.buf.drop (Config.encSplit e.level) }
    else .ok () e

/-- The body of ENC_WRITE on an open encoder (R321). -/
def encodeData (data : List Byte) (e : Encoder) : Res Encoder Unit :=
  encodeFull (e.buf ++ data).length { e with buf := e.buf ++ data }

/-- The body of ENC_FINISH on an open encoder (R322). -/
def encodeFinish (e : Encoder) : Res Encoder Unit :=
  (if e.buf = [] then .ok () e
   else (encodeBlock e.buf e).bind fun _ e => .ok () { e with buf := [] }).bind fun _ e =>
    (onWriter (writeBits 24 (Config.eosMagic / 2 ^ 24)) e).bind fun _ e =>
      (onWriter (writeBits 24 (Config.eosMagic % 2 ^ 24)) e).bind fun _ e =>
        (onWriter (writeInt32 e.combined) e).bind fun _ e =>
          (onWriter flush e).bind fun _ e => .ok () { e with state := .finished }

/-- The header bytes of R320. -/
def writeHeader (level : Nat) (e : Encoder) : Res Encoder Unit :=
  (onWriter (writeBits 8 0x42) e).bind fun _ e =>
    (onWriter (writeBits 8 0x5A) e).bind fun _ e =>
      (onWriter (writeBits 8 0x68) e).bind fun _ e => onWriter (writeBits 8 (0x30 + level)) e

/-- The sink the host hands over with ENC_OPEN (R320, R387), by how it fails: the next of those in its queue; one that
never fails, as R85 has it, if the queue is empty (assumption logs 8 and 18). -/
def offeredSink (h : HostPort) : Option SinkFailure :=
  match h.sinks with
  | sink :: _ => sink
  | [] => none

/-- The encoder ENC_OPEN sets up (R57, R320), with the sink the host hands over attached and empty (assumption
log 8). -/
def encoderAt (level : Nat) (sink : Option SinkFailure) : Encoder :=
  { Encoder.reset with
    level := BitVec.ofNat 4 level
    wr := { Writer.reset with attached := true, failure := sink } }

/-- A command's body on the encoder, answered OK; an error of the sink is taken and answered (R324). -/
def encoderReply (r : Res State Unit) : Outcome State Fault Refusal :=
  match r with
  | .ok _ s => reply (.ok []) s
  | .raised e s => reply (errResult e) (failEncoder e s)
  | .fault f => .fault f
  | .refused q => .refused q

/-- ENC_OPEN level (R320); IllegalCommand to a decoder instance or outside 1..9 (R116). So answered it takes no sink: the one
handed over with it stays at the head of the host's queue for the next ENC_OPEN that is accepted, of which the spec says
nothing (assumption log 8, DESIGN CHOICE). -/
def execEncOpen (level : Word) (s : State) : Outcome State Fault Refusal :=
  command (fun s =>
    if s.inst = .decoder ∨ level.toNat < 1 ∨ 9 < level.toNat then reply illegalCommandResult s
    else
      encoderReply
        (onEncoder (writeHeader level.toNat)
          { s with
            inst := .encoder
            enc := encoderAt level.toNat (offeredSink s.host)
            host := { s.host with sinks := s.host.sinks.tail } })) s

/-- ENC_WRITE (R321). -/
def execEncWrite (_m : Word) (data : List Byte) (s : State) : Outcome State Fault Refusal :=
  command (fun s =>
    if s.inst ≠ .encoder then reply illegalCommandResult s
    else
      match s.enc.state with
      | .finished => reply streamClosedResult s
      | .closed => reply streamClosedResult s
      | .failed => reply (.err s.enc.errKind s.enc.errSub) s
      | .isOpen => encoderReply (onEncoder (encodeData data) s)) s

/-- ENC_FINISH (R322). -/
def execEncFinish (_operand : Word) (s : State) : Outcome State Fault Refusal :=
  command (fun s =>
    if s.inst ≠ .encoder then reply illegalCommandResult s
    else
      match s.enc.state with
      | .closed => reply streamClosedResult s
      | .failed => reply (.err s.enc.errKind s.enc.errSub) s
      | .finished => reply (.ok []) s
      | .isOpen => encoderReply (onEncoder encodeFinish s)) s

/-- The encoder closed, its sink detached (R323). -/
def encoderClosed (e : Encoder) : Encoder := { e with state := .closed, wr := { e.wr with attached := false } }

/-- The end of an ENC_CLOSE that finished its stream first (R323): the encoder is closed and the result is OK, where the
sink failed too, whose error stays latched (assumption log 18). -/
def closeReply (r : Res State Unit) : Outcome State Fault Refusal :=
  match r with
  | .ok _ s => reply (.ok []) { s with enc := encoderClosed s.enc }
  | .raised e s => reply (.ok []) { failEncoder e s with enc := encoderClosed (failEncoder e s).enc }
  | .fault f => .fault f
  | .refused q => .refused q

/-- ENC_CLOSE (R323): an open encoder finishes its stream first. -/
def execEncClose (_operand : Word) (s : State) : Outcome State Fault Refusal :=
  command (fun s =>
    if s.inst ≠ .encoder then reply illegalCommandResult s
    else
      match s.enc.state with
      | .isOpen => closeReply (onEncoder encodeFinish s)
      | _ => reply (.ok []) { s with enc := encoderClosed s.enc }) s

end Sys2Proof.Machine
end

