-- ==== Sys2Proof/Machine/Dispatch.lean ====
section
/-! DEFINITION. One instruction's meaning: one arm for each constructor of Instr. -/

namespace Sys2Proof.Machine

def exec (i : Instr) (s : State) : Host.Outcome State Fault Refusal :=
  match i with
  | .streamHeader digit => Sys2Proof.Machine.execStreamHeader digit s
  | .blockMagic => Sys2Proof.Machine.execBlockMagic s
  | .blockCrc c => Sys2Proof.Machine.execBlockCrc c s
  | .randomised r => Sys2Proof.Machine.execRandomised r s
  | .origPtr p => Sys2Proof.Machine.execOrigPtr p s
  | .usedMap u => Sys2Proof.Machine.execUsedMap u s
  | .subMap m => Sys2Proof.Machine.execSubMap m s
  | .nGroups g => Sys2Proof.Machine.execNGroups g s
  | .nSelectors n => Sys2Proof.Machine.execNSelectors n s
  | .selectorCode j => Sys2Proof.Machine.execSelectorCode j s
  | .lenSeed l => Sys2Proof.Machine.execLenSeed l s
  | .lenEnd => Sys2Proof.Machine.execLenEnd s
  | .lenInc => Sys2Proof.Machine.execLenInc s
  | .lenDec => Sys2Proof.Machine.execLenDec s
  | .symbolCode sym => Sys2Proof.Machine.execSymbolCode sym s
  | .eosMagic => Sys2Proof.Machine.execEosMagic s
  | .combinedCrc c => Sys2Proof.Machine.execCombinedCrc c s
  | .padding bits => Sys2Proof.Machine.execPadding bits s
  | .hostOpen operand => Sys2Proof.Machine.execHostOpen operand s
  | .hostRead n => Sys2Proof.Machine.execHostRead n s
  | .hostClose operand => Sys2Proof.Machine.execHostClose operand s
  | .encOpen level => Sys2Proof.Machine.execEncOpen level s
  | .encWrite m data => Sys2Proof.Machine.execEncWrite m data s
  | .encFinish operand => Sys2Proof.Machine.execEncFinish operand s
  | .encClose operand => Sys2Proof.Machine.execEncClose operand s
  | .bcReadBits n => Sys2Proof.Machine.execBcReadBits n s
  | .bcReadBool => Sys2Proof.Machine.execBcReadBool s
  | .bcReadUnary => Sys2Proof.Machine.execBcReadUnary s
  | .bcReadInt32 => Sys2Proof.Machine.execBcReadInt32 s
  | .bcWriteBits n v => Sys2Proof.Machine.execBcWriteBits n v s
  | .bcWriteBool b => Sys2Proof.Machine.execBcWriteBool b s
  | .bcWriteUnary j => Sys2Proof.Machine.execBcWriteUnary j s
  | .bcWriteInt32 v => Sys2Proof.Machine.execBcWriteInt32 v s
  | .bcFlush => Sys2Proof.Machine.execBcFlush s
  | .haAllocate f maxLen => Sys2Proof.Machine.execHaAllocate f maxLen s
  | .htBuild g => Sys2Proof.Machine.execHtBuild g s
  | .htDecode g => Sys2Proof.Machine.execHtDecode g s
  | .htCodes lens => Sys2Proof.Machine.execHtCodes lens s
  | .mtfDecodeSymbol sym => Sys2Proof.Machine.execMtfDecodeSymbol sym s
  | .mtfEncode bytes inUse => Sys2Proof.Machine.execMtfEncode bytes inUse s
  | .piBuild => Sys2Proof.Machine.execPiBuild s
  | .piNext => Sys2Proof.Machine.execPiNext s
  | .derand b => Sys2Proof.Machine.execDerand b s
  | .rle1Next => Sys2Proof.Machine.execRle1Next s
  | .crcInit => Sys2Proof.Machine.execCrcInit s
  | .crcUpdate b => Sys2Proof.Machine.execCrcUpdate b s
  | .crcFinal => Sys2Proof.Machine.execCrcFinal s
  | .crcCombine c => Sys2Proof.Machine.execCrcCombine c s
  | .stepStreamHeader => Sys2Proof.Machine.execStepStreamHeader s
  | .stepHeader => Sys2Proof.Machine.execStepHeader s
  | .stepTables => Sys2Proof.Machine.execStepTables s
  | .stepSymbols => Sys2Proof.Machine.execStepSymbols s
  | .stepPermute => Sys2Proof.Machine.execStepPermute s
  | .stepEmit => Sys2Proof.Machine.execStepEmit s
  | .stepCrcCheck => Sys2Proof.Machine.execStepCrcCheck s
  | .stepTrailer => Sys2Proof.Machine.execStepTrailer s

end Sys2Proof.Machine
end

