-- ==== Sys2Proof/Machine/Step.lean ====
section
/-! DEFINITION. One step of the machine: one host command, one step of the state machine while a READ is in flight, or
what stands in the issue slot (spec/46_stream_controller.md R300, R305); and the placing of a word of the opcode table
where the next step finds it. -/

namespace Sys2Proof.Machine

open Host (Outcome)

/-- One step. With nothing to run the instance does nothing (R358). -/
def step (s : State) : Outcome State Fault Refusal :=
  match fetch s with
  | .run i s' => settle (exec i s')
  | .illegal s' => .next (answer illegalCommandResult s')
  | .idle => .next s
  | .undecodable => .refused .undecodable

/-- The state with a word of the opcode table placed where the next step finds its instruction. -/
def State.withFetchWord (s : State) (nbits w : Nat) : State :=
  match placeTableWord nbits w with
  | some x => placeIssue x s
  | none => s

end Sys2Proof.Machine
end

