-- ==== Sys2Proof/Safety.lean ====
section
/-! DEFINITION. The terms in which claims speak of a run: the bits a reader has still to give and a writer has given,
the invariants of the machine's parts, a block's tables and symbols as the bits of a stream, whole streams coded and
decoded, and the rules of the spec in a form of their own (canonical codes, the bit-serial CRC, counting in the block
buffer). -/

namespace Sys2Proof.Machine

open Host (Outcome)

/-! ### Bits (spec/20_memory.md R80) -/

/-- The bits of a byte sequence, most significant first (R80). -/
def bitsOfBytes (bytes : List Byte) : List Bool := bytes.flatMap fun b => toBits 8 b.toNat

/-- The bits of the bytes listed for the attached source. -/
def Reader.sourceBits (r : Reader) : List Bool :=
  match r.src with
  | some src => bitsOfBytes src.bytes
  | none => []

/-- The bits sure to come: those buffered, oldest first (R38), and those of the bytes listed for the source (R84). -/
def Reader.pending (r : Reader) : List Bool := toBits r.live.toNat r.acc.toNat ++ r.sourceBits

/-- The bit reader's invariant (R38, R39): no bit of the accumulator at or above `rd_live`, and at most 31 live. -/
def Reader.wf (r : Reader) : Bool := decide (r.acc.toNat < 2 ^ r.live.toNat) && decide (r.live.toNat ≤ 31)

/-- What the attached source does after the bytes listed for it (R84, R359). -/
def Reader.after (r : Reader) : Option SourceEnd := r.src.map ByteSource.after

/-- The source is attached and answers `End` after its last byte (R84). -/
def Reader.finite (r : Reader) : Bool := decide (r.after = some .ends)

/-- The bytes that a read of `n` bits fetches (R140). -/
def Reader.fetches (n : Nat) (r : Reader) : Nat := (n - r.live.toNat + 7) / 8

/-- `r'` is the reader `r` after `n` bits were taken (R140, R145): the same bits follow, exactly the bytes needed were
fetched, and `rd_live` has dropped by `n` from its value after the refill. -/
def Reader.TakenTo (n : Nat) (r r' : Reader) : Prop :=
  r'.pending = r.pending.drop n ∧ r'.live.toNat + n = r.live.toNat + 8 * r.fetches n ∧
    r'.inCount = r.inCount + BitVec.ofNat 64 (r.fetches n) ∧ r'.inEnded = r.inEnded ∧ r'.wf = true ∧
    r'.after = r.after

/-- `r'` is the reader `r` after `k` bits were taken and a read that wanted more than are left met the source's end (R140):
every listed byte is fetched, the bits not taken stay buffered, and `in_ended` is set. -/
def Reader.EndedAfter (k : Nat) (r r' : Reader) : Prop :=
  r'.pending = r.pending.drop k ∧ r'.live.toNat = r'.pending.length ∧
    r'.inCount = r.inCount + BitVec.ofNat 64 ((r.pending.length - r.live.toNat) / 8) ∧ r'.inEnded = true ∧
    r'.wf = true ∧ r'.after = r.after

/-- What an instruction gives that takes `k` bits and then wants more than the bytes listed for the source hold (R140,
R84): with a source that ends, UnexpectedEndOfData taken in the state `put` makes of the reader; with one that never
answers, no end (R359; assumption log 17). -/
def ReadsPastEnd (i : Instr) (k : Nat) (s : State) (put : Reader → State) : Prop :=
  (s.rd.finite = true →
      ∃ r, exec i s = .next (takeError .unexpectedEndOfData (put r)) ∧ s.rd.EndedAfter k r) ∧
    (s.rd.after = some .silent → exec i s = .fault .fetchHangs)

/-- The bits written so far: those of the bytes put, and the live ones (R57, R150). -/
def Writer.bits (w : Writer) : List Bool := bitsOfBytes w.sink ++ toBits w.live.toNat w.acc.toNat

/-- The bit writer's invariant (R57): at most 7 bits live between operations, and no bit above them. -/
def Writer.wf (w : Writer) : Bool := decide (w.acc.toNat < 2 ^ w.live.toNat) && decide (w.live.toNat ≤ 7)

/-- The sink takes `k` more bytes: it never fails (R85), or not before it has taken them (R324). -/
def Writer.takes (k : Nat) (w : Writer) : Bool :=
  match w.failure with
  | none => true
  | some f => decide (k ≤ f.room)

/-- How the sink fails once it has taken `k` more bytes. -/
def Writer.failureAfter (k : Nat) (w : Writer) : Option SinkFailure :=
  w.failure.map fun f => { f with room := f.room - k }

/-- The encoder's bit writer is well formed, but for an encoder whose sink fails and that is failed or closed: an operation
the sink's error ended has left the writer as it stood then (assumption log 18). With this spec's sink, which never fails,
the writer is well formed in every state of the encoder. -/
def Encoder.wf (e : Encoder) : Bool :=
  e.wr.wf || (e.wr.failure.isSome && (decide (e.state = .failed) || decide (e.state = .closed)))

/-- Fields written one after another, each a width and a value (R150). -/
def writeFields : List (Nat × Nat) → Writer → Res Writer Unit
  | [], w => .ok () w
  | f :: rest, w => (writeBits f.1 f.2 w).bind fun _ w' => writeFields rest w'

/-- Fields of the given widths read one after another (R141). -/
def readFields : List Nat → Reader → Res Reader (List Nat)
  | [], r => .ok [] r
  | n :: rest, r => (readBits n r).bind fun v r' => (readFields rest r').map fun vs => v :: vs

/-- The bits of fields in order. -/
def fieldBits (fields : List (Nat × Nat)) : List Bool := fields.flatMap fun f => toBits f.1 f.2

/-! ### Invariants of the state -/

/-- The block buffer and the permutation array are in canonical form, hold no entry at or above `CAP`, and the level is
at most 9 (R33, R48, R51, R89). -/
def arraysOk (s : State) : Bool :=
  decide (s.stream.bs100k.toNat ≤ 9) && Memory.wf s.sym.ll && memWf s.perm.tt &&
    memBelow (cap s.stream) s.sym.ll && memBelow (cap s.stream) s.perm.tt

/-- A result carries no error code outside the table of R340. -/
def resultCodeOk (r : Result) : Bool :=
  match r with
  | .ok _ => true
  | .eof => true
  | .err kind _ => decide (1 ≤ kind.toNat) && decide (kind.toNat ≤ 9)

/-- The error codes in use are those of R340: a latched kind is one of 1 to 7, since 8 and 9 are not latched (R347, R348),
or 0 for none; a failed instance has latched one; and every ERR result carries one of 1 to 9. -/
def errorCodesOk (s : State) : Bool :=
  decide (s.stream.errKind.toNat ≤ 7) && decide (s.enc.errKind.toNat ≤ 7) &&
    (decide (s.fsm ≠ .failed) || decide (s.stream.errKind ≠ 0)) &&
    (decide (s.enc.state ≠ .failed) || decide (s.enc.errKind ≠ 0)) && s.host.results.all resultCodeOk

/-- The states in which `fsm` rests between transactions (R32). -/
def restingFsm (f : Fsm) : Bool :=
  match f with
  | .streamHeader => true
  | .header => false
  | .tables => false
  | .symbols => false
  | .permute => false
  | .emit => true
  | .crcCheck => false
  | .trailer => false
  | .ended => true
  | .failed => true
  | .closed => true

/-- The states whose step a READ in flight runs (R304, R305). -/
def runningFsm (f : Fsm) : Bool := (stepCode f).isSome

/-- A decoder instance has a source attached until it is closed (R301, R308), an encoder instance a sink (R320,
R323). -/
def attachmentsOk (s : State) : Bool :=
  match s.inst with
  | .neverOpened => true
  | .decoder => decide (s.fsm = .closed) == s.rd.src.isNone
  | .encoder => decide (s.enc.state = .closed) == !s.enc.wr.attached

/-- Nothing stands in the issue slot, a source or sink is attached to every instance not closed, `fsm` rests between
transactions (R32), and a READ in flight still needs a byte and has a step to run (R304). -/
def transactionsOk (s : State) : Bool :=
  decide (s.slot = .empty) && attachmentsOk s &&
    match s.txn with
    | none => restingFsm s.fsm
    | some t => runningFsm s.fsm && decide (t.out.length < t.want)

/-- What an error does to the registers outside the unit that raised it (R345), as a frame: the latched error, `fsm`,
the READ in flight and the results may differ from `s`; the rest is as in `t`. -/
def withErrorOf (t s : State) : State :=
  { s with
    stream := { s.stream with errKind := t.stream.errKind, errSub := t.stream.errSub }
    fsm := t.fsm
    txn := t.txn
    host := { s.host with results := t.host.results } }

/-! ### Canonical codes (spec/42_huffman_tables.md) -/

/-- `firstCode` of R190 and R192 by its recurrence: 0 at the shortest length `m`, and at each next length twice the
sum of the first code and the count of the length before. -/
def firstCodeFrom (lens : List Nat) (m : Nat) : Nat → Nat
  | 0 => 0
  | k + 1 => 2 * (firstCodeFrom lens m k + lens.count (m + k))

/-- `firstIndex` of R193: how many symbols have a length below `L`. -/
def shorterThan (lens : List Nat) (L : Nat) : Nat := lens.countP fun l => decide (l < L)

/-- The Kraft sum in units of `2^-20` (R171, R194). -/
def kraft20 (lens : List Nat) : Nat := (lens.map fun l => 2 ^ (20 - l)).sum

/-- The lengths of a code that decodes: some symbol, every length in 1..20, not oversubscribed (R190, R194). -/
def prefixLengths (lens : List Nat) : Bool :=
  decide (1 ≤ lens.length) && decide (lens.length ≤ 258) && lengthsLegal lens && decide (kraft20 lens ≤ 2 ^ 20)

/-- The codeword of a symbol (R107, R197). -/
def codeword (lens : List Nat) (sym : Nat) : List Bool := toBits (lens.getD sym 0) (codeOf lens sym)

/-- The decode tables of a group are those of its first `a` lengths (R190). -/
def builtFrom (a : Nat) (grp : Group) : Bool := decide (buildGroup a grp = .ok () grp)

/-! ### A block's tables as bits (spec/30_encoding.md R102, R105) -/

/-- One group's length table (R105): the seed, and for each symbol its delta codes, true for up. -/
structure LengthTable where
  seed : BitVec 5
  moves : List (List Bool)
  deriving DecidableEq, Repr

/-- What the TABLES step reads (R232 to R240): the fixed fields; for each range of 16 byte values its sub-map, if it is
marked; the group count; the selectors' positions; a length table for each group. -/
structure BlockTables where
  crc : Word
  randomised : Bool
  origPtr : BitVec 24
  ranges : List (Option (BitVec 16))
  nGroups : BitVec 3
  positions : List Nat
  lengths : List LengthTable
  deriving DecidableEq, Repr

/-- The bits of one range's sixteen byte values. -/
def rangeBits (m : Option (BitVec 16)) : List Bool :=
  match m with
  | some v => toBits 16 v.toNat
  | none => List.replicate 16 false

/-- `in_use` (R236). -/
def BlockTables.inUse (d : BlockTables) : List Bool := d.ranges.flatMap rangeBits

/-- The byte values marked, ascending (R236). -/
def markedValues (inUse : List Bool) : List Byte :=
  ((List.range 256).filter fun b => inUse.getD b false).map (BitVec.ofNat 8)

/-- The bits of one delta code (R105). -/
def moveBits (up : Bool) : List Bool := [true, !up]

/-- The bits of a length table (R105). -/
def LengthTable.bits (t : LengthTable) : List Bool :=
  toBits 5 t.seed.toNat ++ t.moves.flatMap fun m => m.flatMap moveBits ++ [false]

/-- The current length after a symbol's delta codes; none once it has left 1..20 (R240). -/
def moveLength : Nat → List Bool → Option Nat
  | curr, [] => if 1 ≤ curr ∧ curr ≤ 20 then some curr else none
  | curr, up :: rest =>
    if 1 ≤ curr ∧ curr ≤ 20 then moveLength (if up then curr + 1 else curr - 1) rest else none

/-- The lengths a table gives, the current length carried from symbol to symbol (R240). -/
def lengthsFrom : Nat → List (List Bool) → Option (List Nat)
  | _, [] => some []
  | curr, m :: rest =>
    match moveLength curr m with
    | none => none
    | some l =>
      match lengthsFrom l rest with
      | none => none
      | some ls => some (l :: ls)

/-- The lengths of a group, none where a check of R240 fails. -/
def LengthTable.lens (t : LengthTable) : Option (List Nat) := lengthsFrom t.seed.toNat t.moves

/-- The selectors that a list of positions stands for (R238): each position's entry moves to the front. -/
def selectorsFrom : List (BitVec 3) → List Nat → Option (List (BitVec 3) × List (BitVec 3))
  | mtf, [] => some ([], mtf)
  | mtf, j :: rest =>
    match moveToFront mtf j with
    | none => none
    | some p =>
      match selectorsFrom p.2 rest with
      | none => none
      | some q => some (p.1 :: q.1, q.2)

/-- The selector MTF list of R238. -/
def selectorRanks (n : BitVec 3) : List (BitVec 3) := (List.range n.toNat).map (BitVec.ofNat 3)

/-- The bits of the TABLES step's fields, in order (R102, R104, R105). -/
def BlockTables.bits (d : BlockTables) : List Bool :=
  toBits 32 d.crc.toNat ++ [d.randomised] ++ toBits 24 d.origPtr.toNat ++ d.ranges.map Option.isSome ++
    d.ranges.flatMap (fun m => match m with | some v => toBits 16 v.toNat | none => []) ++
    toBits 3 d.nGroups.toNat ++ toBits 15 d.positions.length ++
    d.positions.flatMap (fun j => List.replicate j true ++ [false]) ++ d.lengths.flatMap LengthTable.bits

/-- The tables are legal (R236, R237, R238, R240): sixteen ranges with a value in use; 2 to 6 groups; 1 to 18002
selectors, each a position of the list; a table of legal lengths for each group and every symbol of its alphabet. -/
def BlockTables.legal (d : BlockTables) : Bool :=
  decide (d.ranges.length = 16) && d.inUse.any id && decide (2 ≤ d.nGroups.toNat) && decide (d.nGroups.toNat ≤ 6) &&
    decide (1 ≤ d.positions.length) && decide (d.positions.length ≤ 18002) &&
    d.positions.all (fun j => decide (j < d.nGroups.toNat)) && decide (d.lengths.length = d.nGroups.toNat) &&
    d.lengths.all fun t =>
      decide (t.moves.length = (markedValues d.inUse).length + 2) && t.lens.isSome

/-! ### A block's symbols as bits (R242) -/

/-- Symbols given one after another to the MTF/RLE2 stage (R211 to R214). -/
def stageRun (capacity : Nat) (map : SymbolMap) : List Nat → MtfStage → Res MtfStage Unit
  | [], m => .ok () m
  | sym :: rest, m => (stageSymbol capacity map sym m).bind fun _ m' => stageRun capacity map rest m'

/-- The lengths of the group that codes the symbol at position `i` of the block (R239). -/
def symbolLens (s : State) (i : Nat) : List Nat :=
  match s.sel.selectors[i / 50]? with
  | some g => groupLens s g.toNat
  | none => []

/-- The bits of symbols from position `i` of the block on, each in the group of its window (R107, R239). -/
def symbolBits (s : State) : Nat → List Nat → List Bool
  | _, [] => []
  | i, sym :: rest => codeword (symbolLens s i) sym ++ symbolBits s (i + 1) rest

/-- Every group the selectors name has its tables built over `alphaSize` lengths of a code that decodes. -/
def groupsReady (s : State) : Bool :=
  decide (s.sel.selectors.length = s.sel.nSelectors.toNat) &&
    s.sel.selectors.all fun g =>
      decide (g.toNat < s.sel.nGroups.toNat) &&
        match s.groups[g.toNat]? with
        | some grp =>
          decide (grp.len.length = s.map.alphaSize.toNat) && prefixLengths (grp.len.map BitVec.toNat) &&
            builtFrom s.map.alphaSize.toNat grp
        | none => false

/-- The first symbols of a block: every one below `EOB`, and a selector for each window (R242). -/
def symbolsBegun (s : State) (body : List Nat) : Bool :=
  body.all (fun sym => decide (sym < s.map.eob.toNat)) && decide (s.map.alphaSize.toNat = s.map.eob.toNat + 1) &&
    decide (2 ≤ s.map.eob.toNat) && decide (body.length ≤ 50 * s.sel.nSelectors.toNat)

/-- The window registers once the first symbols of a block, so many, have taken their places (R242). -/
def windowAfter (s : State) : Nat → WindowRegs
  | 0 => WindowRegs.reset
  | n + 1 =>
    { selIdx := BitVec.ofNat 15 (n / 50 + 1)
      groupPos := BitVec.ofNat 6 (49 - n % 50)
      curGroup := s.sel.selectors.getD (n / 50) 0 }

/-- No codeword stands at the head of these bits. -/
def noCodeword (lens : List Nat) (bits : List Bool) : Prop := ∀ sym, sym < lens.length → ¬codeword lens sym <+: bits

/-- The bits that decoding takes of so few bits that no codeword is among them (R195): none where the first read, of the
shortest length, meets the end; else all. -/
def takenOfPartial (lens : List Nat) (bits : List Bool) : Nat := if bits.length < minOf lens then 0 else bits.length

/-- A block's symbols: every one below `EOB` but the last, which is `EOB`, and a selector for each window (R242). -/
def symbolsLegal (s : State) (body : List Nat) : Bool :=
  body.all (fun sym => decide (sym < s.map.eob.toNat)) && decide (s.map.alphaSize.toNat = s.map.eob.toNat + 1) &&
    decide (2 ≤ s.map.eob.toNat) && decide (body.length + 1 ≤ 50 * s.sel.nSelectors.toNat)

/-! ### The block buffer (R48, R217, R276) -/

/-- The block buffer's first bytes, in order; none where one is absent. -/
def blockBytes (ll : Memory) : Nat → Nat → Option (List Byte)
  | 0, _ => some []
  | n + 1, i =>
    match memGet ll i with
    | none => none
    | some b =>
      match blockBytes ll n (i + 1) with
      | none => none
      | some rest => some (b :: rest)

/-- The state holds the bytes of a block: `LL` at `0..nblock-1`, and the count of each (R217). -/
def holdsBlock (s : State) (bytes : List Byte) : Bool :=
  decide (blockBytes s.sym.ll s.sym.nblock.toNat 0 = some bytes) &&
    decide (s.sym.freq = (List.range 256).map fun b => BitVec.ofNat 20 (bytes.count (BitVec.ofNat 8 b))) &&
    decide (s.sym.nblock.toNat ≤ cap s.stream) && decide (s.stream.bs100k.toNat ≤ 9)

/-- The slot of `TT` that the position `i` of a block is scattered to (R275, R276): how many bytes are smaller, and how
many equal ones stand before it. -/
def scatterSlot (bytes : List Byte) (i : Nat) : Nat :=
  (bytes.countP fun x => decide (x.toNat < (bytes.getD i 0).toNat)) + (bytes.take i).count (bytes.getD i 0)

/-- What PI_NEXT leaves once it has read the byte `b` and the next position `p` (R278): the byte, masked in a randomised
block (R282), and the registers. -/
def afterWalk (randomised : Bool) (b : Byte) (p : BitVec 20) (o : OutputRegs) : Byte × OutputRegs :=
  let moved : OutputRegs := { o with walkPtr := p, walked := o.walked + 1 }
  if randomised then derandomise b moved else (b, moved)

/-! ### The encoder's blocks (R321) -/

/-- The bits of blocks one after another, as the parameter `ENCODE_BLOCK` gives them. -/
def blocksBits (level : BitVec 4) (blocks : List (List Byte)) : List Bool :=
  blocks.flatMap fun x => Config.encodeBlock x level

/-- A combined CRC with the CRCs of blocks folded in, in order. -/
def foldCrcs (c : Word) (blocks : List (List Byte)) : Word := blocks.foldl (fun c x => rotl1 c ^^^ crcOf x) c

/-! ### Whole streams (spec/46_stream_controller.md R311, R321, R325) -/

/-- The parameters keep their contract (R321): every block an encoder can form, of 1 to `ENC_SPLIT` bytes, is coded as the
decoder reads it. -/
def EncoderContract : Prop :=
  ∀ (level : BitVec 4) (x : List Byte), 1 ≤ level.toNat → level.toNat ≤ 9 → 1 ≤ x.length →
    x.length ≤ Config.encSplit level → contractHolds x level = true

/-- The bytes of a host command (R115). -/
def commandBytes (i : Instr) : List Byte :=
  match encode [] i with
  | .host bytes => bytes
  | .unit _ => []
  | .wire _ _ => []

/-- Steps until a result is returned, at most as many as the first argument; none where the machine stops or goes on
longer. -/
def runToResult : Nat → State → Option (Result × State)
  | 0, _ => none
  | k + 1, s =>
    match step s with
    | .next t =>
      match t.host.results with
      | r :: _ => some (r, t)
      | [] => runToResult k t
    | .fault _ => none
    | .refused _ => none

/-- One transaction (R300): the host issues a command, and the steps run until its result. -/
def transaction (steps : Nat) (i : Instr) (s : State) : Option (Result × State) :=
  runToResult steps { s with host := { s.host with cmds := commandBytes i, results := [] } }

/-- What `decode` gives (R311): the bytes, or the error of the last result. -/
inductive DecodeResult where
  | output (bytes : List Byte)
  | error (kind sub : BitVec 4)
  deriving DecidableEq, Repr

/-- `READ READ_MAX` until the result is not OK, the bytes of the results joined (R311). -/
def readAll : Nat → Nat → State → Option DecodeResult
  | 0, _, _ => none
  | k + 1, steps, s =>
    match transaction steps (.hostRead (BitVec.ofNat 32 Config.readMax)) s with
    | none => none
    | some (.eof, _) => some (.output [])
    | some (.err kind sub, _) => some (.error kind sub)
    | some (.ok bytes, t) =>
      match readAll k steps t with
      | some (.output more) => some (.output (bytes ++ more))
      | other => other

/-- `decode(s)` (R311): OPEN with the source `s`, and then READs. The first argument bounds the READs and the steps of each;
none where it is too small, or where a READ hangs. -/
def decodeStream (bound : Nat) (src : ByteSource) : Option DecodeResult :=
  match transaction 1 (.hostOpen 0) { State.reset with host := { HostPort.reset with sources := [src] } } with
  | some (.ok _, s) => readAll bound bound s
  | _ => none

/-- `encode(b)` (R325): ENC_OPEN at a level, one ENC_WRITE of `b` and ENC_FINISH, and the bytes put to a sink that never
fails; none where a command does not answer OK. None too for `2^32` bytes or more, which no one ENC_WRITE carries, since
its count has 32 bits (R115); the spec does not say what `encode` of so many is (assumption log 29, DESIGN CHOICE). -/
def encodeStream (level : BitVec 4) (b : List Byte) : Option (List Byte) :=
  if 2 ^ 32 ≤ b.length then none
  else
    match transaction 1 (.encOpen (level.setWidth 32)) State.reset with
    | some (.ok _, s) =>
      match transaction 1 (.encWrite (BitVec.ofNat 32 b.length) b) s with
      | some (.ok _, s) =>
        match transaction 1 (.encFinish 0) s with
        | some (.ok _, s) => some s.enc.wr.sink
        | _ => none
      | _ => none
    | _ => none

/-! ### CRC -/

/-- One bit of the bit-serial form of the CRC (R287). -/
def crcBit (c : Word) (bit : Bool) : Word :=
  if (c.msb != bit) then (c <<< 1) ^^^ Config.crcPoly else c <<< 1

end Sys2Proof.Machine
end

