-- ==== Sys2Proof/Certificates/Slice0/Obligations.lean ====
section
/-! DEFINITION. The statements for the provers, in the order of the spec's files. A statement about an operation or a
command on its own speaks of every state that meets its hypotheses, one that no run reaches among them. -/

section

open Sys2Proof Sys2Proof.Machine
open Host (Outcome)

/-! ### Encoding (spec/30_encoding.md) -/

/-- Decoding the words of a well-formed instruction gives it back, with every operand at every value (R100 to R117).
The operand layout of host commands and internal operations is the model's (log 6). SYMBOL_CODE, whose words depend on a
group's lengths, has a statement of its own. -/
def Obligations.DecodeEncodeRoundTrip : Prop :=
  ∀ (lens : List Nat) (i : Instr), i.wf = true → (∀ sym, i ≠ .symbolCode sym) →
    decode lens (encode lens i) = some i

/-- The codeword of every symbol of a code that is not oversubscribed decodes to that symbol and leaves the bits after
it (R107, R195, R197). -/
def Obligations.SymbolCodeRoundTrip : Prop :=
  ∀ (lens : List Nat) (sym : BitVec 9) (rest : List Bool), prefixLengths lens = true → sym.toNat < lens.length →
    decodeWire .symbol lens (codeword lens sym.toNat ++ rest) = .ok (.symbolCode sym) rest

/-- Whatever decodes is well formed. -/
def Obligations.DecodeGivesWellFormed : Prop :=
  ∀ (lens : List Nat) (x : Issue) (i : Instr), decode lens x = some i → i.wf = true

/-- Words written out from the spec's tables decode to the instructions they stand for (R101, R105, R115, R117). The first
three are words of the opcode table, which the model reads by their width and fixed bits where the hardware has only the
position in the stream (log 7, DESIGN CHOICE); how the operands of the last two lie in bytes is the model's (log 6, DESIGN
CHOICE). -/
def Obligations.DecodedWords : Prop :=
  decodeTableWord 32 0x425A6839 = some (.streamHeader 9) ∧
    decodeTableWord 48 0x314159265359 = some .blockMagic ∧
    decodeTableWord 48 0x177245385090 = some .eosMagic ∧
    decode [] (.wire .lenFlag [true, true]) = some .lenDec ∧
    decode [] (.wire .selector [true, true, false]) = some (.selectorCode 2) ∧
    decode [3, 3, 2, 2, 2] (.wire .symbol [true, true, false]) = some (.symbolCode 0) ∧
    decode [] (.host [0x02, 0, 0, 0, 4]) = some (.hostRead 4) ∧
    decode [] (.unit [0x51, 0x62]) = some (.crcUpdate 0x62)

/-! ### What a step runs (spec/46_stream_controller.md R300, R305) -/

/-- A step runs the instruction it finds and then tests the loop condition of a READ in flight (R304): the operation or
element in the issue slot (the model's own, log 4); else, with a READ in flight, the operation of the state `fsm` holds
(R305); else the host's next command (R300). With none, nothing happens (R358). That a READ in flight goes on whatever
command bytes the host has issued, and that they run once it has returned, is the model's (log 30, DESIGN CHOICE): R382 has
a host that issues none. -/
def Obligations.StepRunsDecodedInstruction : Prop :=
  (∀ (s : State) (bytes rest : List Byte) (i : Instr), s.slot = .unit bytes → decodeUnit bytes = .ok i rest →
      step s = settle (exec i { s with slot := .empty })) ∧
    (∀ (s : State) (pos : WirePos) (bits rest : List Bool) (i : Instr), s.slot = .wire pos bits →
      decodeWire pos (groupLens s (symbolGroup s)) bits = .ok i rest →
      step s = settle (exec i { s with slot := .empty })) ∧
    (∀ (s : State) (rest : List Byte) (i : Instr), s.slot = .empty → s.txn = none →
      decodeHost s.host.cmds = .ok i rest →
      step s = settle (exec i { s with host := { s.host with cmds := rest } })) ∧
    (∀ (s : State) (t : ReadTxn), s.slot = .empty → s.txn = some t →
      (s.fsm = .streamHeader → step s = settle (exec .stepStreamHeader s)) ∧
        (s.fsm = .header → step s = settle (exec .stepHeader s)) ∧
        (s.fsm = .tables → step s = settle (exec .stepTables s)) ∧
        (s.fsm = .symbols → step s = settle (exec .stepSymbols s)) ∧
        (s.fsm = .permute → step s = settle (exec .stepPermute s)) ∧
        (s.fsm = .emit → step s = settle (exec .stepEmit s)) ∧
        (s.fsm = .crcCheck → step s = settle (exec .stepCrcCheck s)) ∧
        (s.fsm = .trailer → step s = settle (exec .stepTrailer s))) ∧
    (∀ s : State, s.slot = .empty → s.txn = none → s.host.cmds = [] → step s = .next s)

/-! ### Reset and the status window (spec/10_state.md, spec/70_reset_and_hazards.md) -/

/-- OPEN attaches the source handed over, sets every register of R68 to its value (an array that has none holds no
entry), and answers OK (R301, R370). The scalars without a value in R68 are left out here (log 2). -/
def Obligations.OpenResetsEveryRegister : Prop :=
  ∀ (v : Word) (s : State) (src : ByteSource) (more : List ByteSource), s.inst ≠ .encoder → s.txn = none →
    s.host.sources = src :: more →
    ∃ t, exec (.hostOpen v) s = .next t ∧
      t.inst = .decoder ∧ t.fsm = .streamHeader ∧ t.stream.bs100k = 0 ∧ t.stream.combined = 0 ∧
      t.stream.blocksDone = 0 ∧ t.stream.errKind = 0 ∧ t.stream.errSub = 0 ∧ t.stream.outCount = 0 ∧
      t.rd = { acc := 0, live := 0, inCount := 0, inEnded := false, src := some src } ∧
      t.blk.randomised = false ∧ t.map.inUse = [] ∧ t.map.seqToUnseq = [] ∧ t.sel.selMtf = [] ∧
      t.sel.selectors = [] ∧
      (∀ g, g < 6 → ∃ grp, t.groups[g]? = some grp ∧ grp.len = [] ∧ grp.limit = [] ∧ grp.base = [] ∧
        grp.perm = []) ∧
      t.sym.mtf = (List.range 256).map (BitVec.ofNat 8) ∧ t.sym.runS = 0 ∧ t.sym.runK = 0 ∧ t.sym.ll = [] ∧
      t.sym.freq = [] ∧ t.sym.nblock = 0 ∧ t.win = { selIdx := 0, groupPos := 0, curGroup := 0 } ∧
      t.perm.cum = [] ∧ t.perm.tt = [] ∧ t.out.rNToGo = 0 ∧ t.out.rTPos = 0 ∧ t.out.rleLast = 256 ∧
      t.out.rleCnt = 0 ∧ t.out.rleRep = 0 ∧ t.out.crcRun = 0xFFFFFFFF ∧
      t.host =
        { cmds := s.host.cmds
          sources := more
          sinks := s.host.sinks
          results := s.host.results ++ [.ok []] } ∧
      t.txn = none ∧ t.enc = s.enc ∧ t.slot = s.slot ∧ t.ret = s.ret

/-- An instance never opened accepts OPEN and ENC_OPEN and nothing else, and its status window reads 0 in every word
(R372). -/
def Obligations.NeverOpenedAcceptsOnlyOpen : Prop :=
  ∀ s : State, s.inst = .neverOpened → s.txn = none →
    (∀ offset, windowRead s offset = 0) ∧
      (∀ v, ∃ t, exec (.hostOpen v) s = .next t ∧ t.inst = .decoder) ∧
      (∀ level : Word, 1 ≤ level.toNat → level.toNat ≤ 9 →
        ∃ t, exec (.encOpen level) s = .next t ∧ t.inst = .encoder) ∧
      (∀ n, exec (.hostRead n) s = .next (answer (.err 9 0) s)) ∧
      (∀ v, exec (.hostClose v) s = .next (answer (.err 9 0) s)) ∧
      (∀ m data, exec (.encWrite m data) s = .next (answer (.err 9 0) s)) ∧
      (∀ v, exec (.encFinish v) s = .next (answer (.err 9 0) s)) ∧
      (∀ v, exec (.encClose v) s = .next (answer (.err 9 0) s))

/-- The status window shows the registers at the offsets of R67, 0 elsewhere, and a write to it is ignored; its lowest
field shows `fsm` and `enc_state` by the codes of R31 and R57. That an offset inside a listed word (1, 2, 3 and so on) reads
0 like one not listed is the model's (log 23, DESIGN CHOICE). -/
def Obligations.StatusWindow : Prop :=
  (fsmCode .streamHeader = 0 ∧ fsmCode .header = 1 ∧ fsmCode .tables = 2 ∧ fsmCode .symbols = 3 ∧
      fsmCode .permute = 4 ∧ fsmCode .emit = 5 ∧ fsmCode .crcCheck = 6 ∧ fsmCode .trailer = 7 ∧
      fsmCode .ended = 8 ∧ fsmCode .failed = 9 ∧ fsmCode .closed = 10) ∧
    (encStateCode .isOpen = 0 ∧ encStateCode .finished = 1 ∧ encStateCode .failed = 2 ∧
      encStateCode .closed = 3) ∧
    ∀ s : State,
    (∀ offset value, windowWrite s offset value = s) ∧
      (∀ offset, offset ∉ [0x00, 0x04, 0x08, 0x0C, 0x10, 0x14, 0x18, 0x1C] → windowRead s offset = 0) ∧
      (s.inst = .decoder →
        (windowRead s 0x00).extractLsb' 0 4 = BitVec.ofNat 4 (fsmCode s.fsm) ∧
          (windowRead s 0x00).extractLsb' 4 4 = s.stream.errKind ∧
          (windowRead s 0x00).extractLsb' 8 4 = s.stream.errSub ∧
          (windowRead s 0x00).extractLsb' 12 4 = s.stream.bs100k ∧
          (windowRead s 0x00).getLsbD 16 = s.blk.randomised ∧ (windowRead s 0x00).extractLsb' 17 15 = 0 ∧
          windowRead s 0x04 = s.stream.combined ∧ windowRead s 0x08 = s.blk.storedCrc ∧
          windowRead s 0x0C = s.out.crcRun ∧ windowRead s 0x10 = s.rd.inCount.extractLsb' 0 32 ∧
          windowRead s 0x14 = s.stream.outCount.extractLsb' 0 32 ∧
          (windowRead s 0x18).extractLsb' 0 20 = s.sym.nblock ∧ (windowRead s 0x18).extractLsb' 20 12 = 0 ∧
          windowRead s 0x1C = s.stream.blocksDone) ∧
      (s.inst = .encoder →
        (windowRead s 0x00).extractLsb' 0 4 = BitVec.ofNat 4 (encStateCode s.enc.state) ∧
          (windowRead s 0x00).extractLsb' 4 4 = s.enc.errKind ∧
          (windowRead s 0x00).extractLsb' 8 4 = s.enc.errSub ∧
          (windowRead s 0x00).extractLsb' 12 4 = s.enc.level ∧ (windowRead s 0x00).extractLsb' 16 16 = 0 ∧
          windowRead s 0x04 = s.enc.combined ∧
          ∀ offset, offset ∉ [0x00, 0x04] → windowRead s offset = 0)

/-! ### Errors (spec/60_exceptions.md) -/

/-- IllegalCommand is answered before anything else and changes no register: for an opcode not in R115, an encoder
opcode to a decoder instance or the reverse, a READ above READ_MAX, an ENC_OPEN level outside 1..9, and any command but
OPEN and ENC_OPEN to an instance never opened (R347, R115, R116). That exactly five bytes of an opcode not in R115 are
taken follows log 11 (DEDUCED); that OPEN to an encoder and ENC_OPEN to a decoder are such opcodes follows log 24
(DEDUCED); that an OPEN or ENC_OPEN so answered leaves the source or sink handed over with it in the host's queue is the
model's (log 8, DESIGN CHOICE). -/
def Obligations.IllegalCommandChangesNothing : Prop :=
  (∀ (s : State) (op b1 b2 b3 b4 : Byte) (rest : List Byte), s.slot = .empty → s.txn = none →
      s.host.cmds = op :: b1 :: b2 :: b3 :: b4 :: rest →
      op ∉ ([0x01, 0x02, 0x03, 0x11, 0x12, 0x13, 0x14] : List Byte) →
      step s = .next (answer (.err 9 0) { s with host := { s.host with cmds := rest } })) ∧
    ∀ s : State, s.txn = none →
      (∀ v, s.inst = .encoder → exec (.hostOpen v) s = .next (answer (.err 9 0) s)) ∧
        (∀ n : Word, (s.inst ≠ .decoder ∨ 2 ^ 31 - 1 < n.toNat) →
          exec (.hostRead n) s = .next (answer (.err 9 0) s)) ∧
        (∀ v, s.inst ≠ .decoder → exec (.hostClose v) s = .next (answer (.err 9 0) s)) ∧
        (∀ level : Word, (s.inst = .decoder ∨ level.toNat < 1 ∨ 9 < level.toNat) →
          exec (.encOpen level) s = .next (answer (.err 9 0) s)) ∧
        (∀ m data, s.inst ≠ .encoder → exec (.encWrite m data) s = .next (answer (.err 9 0) s)) ∧
        (∀ v, s.inst ≠ .encoder → exec (.encFinish v) s = .next (answer (.err 9 0) s)) ∧
        ∀ v, s.inst ≠ .encoder → exec (.encClose v) s = .next (answer (.err 9 0) s)

/-- Taking an error (R345): nothing after the raise runs; the kind and sub-cause are latched, `fsm` becomes FAILED, the
bytes gathered by the READ are discarded and it returns the error; every other register keeps its value. -/
def Obligations.RaiseLatchesAndFails : Prop :=
  (∀ (e : Err) (s : State) (k : Unit → State → Res State Unit), (Res.raised e s).bind k = .raised e s) ∧
    ∀ (e : Err) (s : State) (t : ReadTxn), s.txn = some t →
      finish (.raised e s) = .next
        { s with
          stream := { s.stream with errKind := errKindCode e, errSub := errSubOf e }
          fsm := .failed
          txn := none
          host :=
            { s.host with results := s.host.results ++ [.err (errKindCode e) (errSubOf e)] } }

/-- The codes of the error kinds and of the sub-causes (R340, R341), and of the three kinds of result (R116); and that no
other is ever used, the codes 10 to 15 of R340 among them: a code latched, shown in STATUS[7:4] or answered is one of the
table, and every step keeps that so. That a sink's error has its codes from these tables too is the model's (log 18, DESIGN
CHOICE). -/
def Obligations.ErrorCodes : Prop :=
  errResult .badStreamMagic = .err 1 1 ∧ errResult .badBlockSizeDigit = .err 1 2 ∧
    errResult .corruptBlockHeader = .err 1 3 ∧ errResult .emptySymbolMap = .err 1 4 ∧
    errResult .badOrigPtr = .err 1 5 ∧ errResult .rle1CountMissing = .err 1 6 ∧
    errResult .groupCount = .err 2 1 ∧ errResult .selectorCount = .err 2 2 ∧
    errResult .selectorValue = .err 2 3 ∧ errResult .codeLength = .err 2 4 ∧
    errResult .selectorsExhausted = .err 2 5 ∧ errResult .invalidHuffmanCode = .err 3 0 ∧
    errResult .blockOverrun = .err 4 0 ∧ errResult .blockCrcError = .err 5 0 ∧
    errResult .streamCrcError = .err 6 0 ∧ errResult .unexpectedEndOfData = .err 7 0 ∧
    streamClosedResult = .err 8 0 ∧ illegalCommandResult = .err 9 0 ∧
    (∀ bytes, statusCode (.ok bytes) = 0) ∧ statusCode .eof = 1 ∧ (∀ kind sub, statusCode (.err kind sub) = 2) ∧
    (∀ s : State, errorCodesOk s = true → (windowRead s 0x00).toNat / 16 % 16 ≤ 7) ∧
    ∀ s t : State, errorCodesOk s = true → step s = .next t → errorCodesOk t = true

/-- The latch is sticky (R346): in FAILED a READ returns the latched error and runs no step; a step of the machine
leaves FAILED only by CLOSE, which keeps the latched error, or by OPEN, which clears it. -/
def Obligations.FailedIsSticky : Prop :=
  (∀ (s : State) (n : Word), s.inst = .decoder → s.fsm = .failed → s.txn = none → n.toNat ≤ 2 ^ 31 - 1 →
      exec (.hostRead n) s = .next (answer (.err s.stream.errKind s.stream.errSub) s)) ∧
    ∀ s t : State, s.slot = .empty → s.fsm = .failed → step s = .next t →
      (t.fsm = .failed ∧ t.stream.errKind = s.stream.errKind ∧ t.stream.errSub = s.stream.errSub) ∨
        (t.fsm = .closed ∧ t.stream.errKind = s.stream.errKind ∧ t.stream.errSub = s.stream.errSub ∧
          ∃ v rest, decodeHost s.host.cmds = .ok (.hostClose v) rest) ∨
        (t.fsm = .streamHeader ∧ t.stream.errKind = 0 ∧ t.stream.errSub = 0 ∧
          ∃ v rest, decodeHost s.host.cmds = .ok (.hostOpen v) rest)

/-- StreamClosed is not latched (R348): a closed instance answers it to every READ, stays CLOSED and keeps the error
latched before the CLOSE, until OPEN. -/
def Obligations.ClosedIsSticky : Prop :=
  (∀ (s : State) (n : Word), s.inst = .decoder → s.fsm = .closed → s.txn = none → n.toNat ≤ 2 ^ 31 - 1 →
      exec (.hostRead n) s = .next (answer (.err 8 0) s)) ∧
    ∀ s t : State, s.slot = .empty → s.fsm = .closed → step s = .next t →
      (t.fsm = .closed ∧ t.stream.errKind = s.stream.errKind ∧ t.stream.errSub = s.stream.errSub) ∨
        (t.fsm = .streamHeader ∧ ∃ v rest, decodeHost s.host.cmds = .ok (.hostOpen v) rest)

/-! ### Decoder commands (spec/46_stream_controller.md) -/

/-- CLOSE (R308) sets `fsm` to CLOSED in every state, detaches the source and answers OK, with the latched error kept;
every later READ returns StreamClosed; a second CLOSE changes nothing. -/
def Obligations.CloseDetachesSource : Prop :=
  ∀ (v : Word) (s : State), s.inst = .decoder → s.txn = none →
    (∃ t, exec (.hostClose v) s = .next t ∧
        t =
          { s with
            fsm := .closed
            rd := { s.rd with src := none }
            host := { s.host with results := s.host.results ++ [.ok []] } } ∧
        ∀ n : Word, n.toNat ≤ 2 ^ 31 - 1 → exec (.hostRead n) t = .next (answer (.err 8 0) t)) ∧
      (s.fsm = .closed → s.rd.src = none → exec (.hostClose v) s = .next (answer (.ok []) s))

/-- READ (R304, R307, R309, R350): CLOSED is tested first, then FAILED, then `n = 0`; at END it answers EOF and changes
nothing; in every other state it is in flight, and wants `n` bytes. -/
def Obligations.ReadCommand : Prop :=
  ∀ (n : Word) (s : State), s.inst = .decoder → s.txn = none → n.toNat ≤ 2 ^ 31 - 1 →
    exec (.hostRead n) s =
      if s.fsm = .closed then .next (answer (.err 8 0) s)
      else if s.fsm = .failed then .next (answer (.err s.stream.errKind s.stream.errSub) s)
      else if n = 0 then .next (answer (.ok []) s)
      else if s.fsm = .ended then .next (answer .eof s)
      else .next { s with txn := some { want := n.toNat, out := [] } }

/-- A READ in flight (R304, R306): a step that yields a byte, be it a pending copy or a byte of the walk, adds it to the
bytes gathered; the READ returns when it has its `n` bytes, with `fsm` still EMIT, or at END, where it returns what it
gathered, or EOF if that is nothing; `out_count` counts the bytes of OK results. -/
def Obligations.ReadGathersAndReturns : Prop :=
  (∀ (s : State) (r : ReadTxn) (b : Byte) (o : OutputRegs), s.slot = .empty → s.txn = some r → s.fsm = .emit →
      (nextOutputByte (walkView s) s.out = .ok (some b) o ∨
        (s.out.rleRep ≠ 0 ∧ b = s.out.rleLast.setWidth 8 ∧ o = { s.out with rleRep := s.out.rleRep - 1 })) →
      step s = .next
        (if r.want ≤ r.out.length + 1 then
          { s with
            out := { o with crcRun := crcUpdate o.crcRun b }
            txn := none
            stream :=
              { s.stream with outCount := s.stream.outCount + BitVec.ofNat 64 (r.out.length + 1) }
            host := { s.host with results := s.host.results ++ [.ok (r.out ++ [b])] } }
        else
          { s with
            out := { o with crcRun := crcUpdate o.crcRun b }
            txn := some { want := r.want, out := r.out ++ [b] } })) ∧
    ∀ (s : State) (r : ReadTxn), s.txn = some r →
      (r.want ≤ r.out.length → r.out ≠ [] →
          settle (.next s) = .next
            (answer (.ok r.out)
              { s with
                txn := none
                stream :=
                  { s.stream with outCount := s.stream.outCount + BitVec.ofNat 64 r.out.length } })) ∧
      (s.fsm = .ended → r.out = [] → settle (.next s) = .next (answer .eof { s with txn := none })) ∧
        (s.fsm = .ended → r.out ≠ [] →
          settle (.next s) = .next
            (answer (.ok r.out)
              { s with
                txn := none
                stream :=
                  { s.stream with outCount := s.stream.outCount + BitVec.ofNat 64 r.out.length } })) ∧
        (s.fsm ≠ .ended → r.out.length < r.want → settle (.next s) = .next s)

/-! ### Encoder commands (spec/46_stream_controller.md R320 to R326) -/

/-- ENC_OPEN (R320, R371): with a level of 1 to 9 the registers of R57 take their values, the sink handed over receives the
four header bytes, and the result is OK, for a sink that never fails (R85); with another level it is IllegalCommand. That
a sink that never fails is attached where none is handed over, and that an ENC_OPEN answered IllegalCommand takes no sink, is
the model's (log 8, DESIGN CHOICE). -/
def Obligations.EncOpenWritesHeader : Prop :=
  ∀ (level : Word) (s : State), s.inst ≠ .decoder → s.txn = none →
    (1 ≤ level.toNat → level.toNat ≤ 9 → offeredSink s.host = none →
        exec (.encOpen level) s = .next
          { s with
            inst := .encoder
            enc :=
              { state := .isOpen
                level := level.setWidth 4
                combined := 0
                buf := []
                errKind := 0
                errSub := 0
                wr :=
                  { acc := 0
                    live := 0
                    sink := [0x42, 0x5A, 0x68, BitVec.ofNat 8 (0x30 + level.toNat)]
                    attached := true
                    failure := none } }
            host := { s.host with sinks := s.host.sinks.tail, results := s.host.results ++ [.ok []] } }) ∧
      ((level.toNat < 1 ∨ 9 < level.toNat) → exec (.encOpen level) s = .next (answer (.err 9 0) s))

/-- ENC_WRITE to an open encoder (R321): the data join the buffer; while it holds ENC_SPLIT bytes, that many are coded as
a block, whose bits are those of the parameter ENCODE_BLOCK and whose CRC is folded into the combined CRC; the rest stays
buffered. Nothing else changes, and the result is OK, unless a block is met on which the parameter breaks its contract,
where the command is refused (R359), or one that the sink has no room for (R11, R324): the sink takes, in order, the bytes
it has room for, its error is latched and answered, and that block and what follows it stay buffered (log 18). -/
def Obligations.EncWriteCodesFullBlocks : Prop :=
  ∀ (m : Word) (data : List Byte) (s : State) (blocks : List (List Byte)) (tail : List Byte), s.inst = .encoder →
    s.txn = none → s.enc.state = .isOpen → s.enc.wr.wf = true → s.enc.wr.attached = true →
    blocks.flatten ++ tail = s.enc.buf ++ data →
    (∀ x ∈ blocks, x.length = Config.encSplit s.enc.level) → tail.length < Config.encSplit s.enc.level →
    (∃ (before after : List (List Byte)) (x : List Byte), blocks = before ++ x :: after ∧
        (∀ y ∈ before, contractHolds y s.enc.level = true) ∧
        s.enc.wr.takes ((s.enc.wr.live.toNat + (blocksBits s.enc.level before).length) / 8) = true ∧
        ((contractHolds x s.enc.level = false ∧ exec (.encWrite m data) s = .refused .encoderContract) ∨
          (contractHolds x s.enc.level = true ∧
            ∃ (f : SinkFailure) (e : Encoder), s.enc.wr.failure = some f ∧
              f.room < (s.enc.wr.live.toNat + (blocksBits s.enc.level (before ++ [x])).length) / 8 ∧
              exec (.encWrite m data) s = .next
                { s with
                  enc := e
                  host := { s.host with results := s.host.results ++ [errResult f.error] } } ∧
              e.state = .failed ∧ e.errKind = errKindCode f.error ∧ e.errSub = errSubOf f.error ∧
              e.buf = x ++ after.flatten ++ tail ∧ e.combined = foldCrcs s.enc.combined before ∧
              e.level = s.enc.level ∧
              bitsOfBytes e.wr.sink =
                (s.enc.wr.bits ++ blocksBits s.enc.level (before ++ [x])).take
                  (8 * (s.enc.wr.sink.length + f.room)) ∧
              e.wr.attached = true ∧ e.wr.failure = some { f with room := 0 }))) ∨
      ((∀ x ∈ blocks, contractHolds x s.enc.level = true) ∧
        s.enc.wr.takes ((s.enc.wr.live.toNat + (blocksBits s.enc.level blocks).length) / 8) = true ∧
        ∃ e : Encoder,
          exec (.encWrite m data) s = .next
              { s with enc := e, host := { s.host with results := s.host.results ++ [.ok []] } } ∧
            e.buf = tail ∧ e.wr.bits = s.enc.wr.bits ++ blocksBits s.enc.level blocks ∧
            e.combined = foldCrcs s.enc.combined blocks ∧
            e.state = .isOpen ∧ e.level = s.enc.level ∧ e.errKind = s.enc.errKind ∧ e.errSub = s.enc.errSub ∧
            e.wr.wf = true ∧ e.wr.attached = true ∧ s.enc.wr.sink <+: e.wr.sink ∧
            e.wr.failure =
              s.enc.wr.failureAfter ((s.enc.wr.live.toNat + (blocksBits s.enc.level blocks).length) / 8))

/-- ENC_FINISH of an open encoder, and ENC_CLOSE of one (R322, R323): what is buffered is coded as a last block; the
end-of-stream magic, the combined CRC and 0 bits to the byte boundary follow; ENC_CLOSE also detaches the sink. Where the
parameter ENCODE_BLOCK breaks its contract on the last block, both are refused (R359). A sink without room for all the
bytes (R11, R324) takes, in order, those it has room for, and its error is latched; ENC_FINISH answers it and leaves the
encoder failed, and ENC_CLOSE answers OK and closes the encoder (log 18). -/
def Obligations.EncFinishWritesTrailer : Prop :=
  ∀ (v : Word) (s : State) (last : List Bool) (c : Word), s.inst = .encoder → s.txn = none →
    s.enc.state = .isOpen → s.enc.wr.wf = true → s.enc.wr.attached = true →
    last = (if s.enc.buf = [] then [] else Config.encodeBlock s.enc.buf s.enc.level) →
    c = (if s.enc.buf = [] then s.enc.combined else rotl1 s.enc.combined ^^^ crcOf s.enc.buf) →
    (s.enc.buf ≠ [] ∧ contractHolds s.enc.buf s.enc.level = false ∧
        exec (.encFinish v) s = .refused .encoderContract ∧ exec (.encClose v) s = .refused .encoderContract) ∨
      ((s.enc.buf = [] ∨ contractHolds s.enc.buf s.enc.level = true) ∧
        ((∃ (f : SinkFailure) (e : Encoder), s.enc.wr.failure = some f ∧
            f.room < (s.enc.wr.live.toNat + last.length + 87) / 8 ∧
            exec (.encFinish v) s = .next
              { s with
                enc := e
                host := { s.host with results := s.host.results ++ [errResult f.error] } } ∧
            exec (.encClose v) s = .next
              { s with
                enc := { e with state := .closed, wr := { e.wr with attached := false } }
                host := { s.host with results := s.host.results ++ [.ok []] } } ∧
            e.state = .failed ∧ e.errKind = errKindCode f.error ∧ e.errSub = errSubOf f.error ∧
            e.level = s.enc.level ∧
            (f.room < (s.enc.wr.live.toNat + last.length) / 8 →
              e.buf = s.enc.buf ∧ e.combined = s.enc.combined) ∧
            ((s.enc.wr.live.toNat + last.length) / 8 ≤ f.room → e.buf = [] ∧ e.combined = c) ∧
            bitsOfBytes e.wr.sink =
              (s.enc.wr.bits ++ last ++ toBits 48 0x177245385090 ++ toBits 32 c.toNat).take
                (8 * (s.enc.wr.sink.length + f.room)) ∧
            e.wr.attached = true ∧ e.wr.failure = some { f with room := 0 }) ∨
          (s.enc.wr.takes ((s.enc.wr.live.toNat + last.length + 87) / 8) = true ∧
            ∃ e : Encoder,
              exec (.encFinish v) s = .next
                  { s with enc := e, host := { s.host with results := s.host.results ++ [.ok []] } } ∧
                exec (.encClose v) s = .next
                  { s with
                    enc := { e with state := .closed, wr := { e.wr with attached := false } }
                    host := { s.host with results := s.host.results ++ [.ok []] } } ∧
                e.buf = [] ∧ e.state = .finished ∧ e.combined = c ∧
                (∃ pad, pad < 8 ∧
                  bitsOfBytes e.wr.sink =
                    s.enc.wr.bits ++ last ++ toBits 48 0x177245385090 ++ toBits 32 c.toNat ++
                      List.replicate pad false) ∧
                e.wr.live = 0 ∧ e.wr.acc = 0 ∧ e.wr.attached = true ∧
                e.wr.failure = s.enc.wr.failureAfter ((s.enc.wr.live.toNat + last.length + 87) / 8) ∧
                e.level = s.enc.level ∧ e.errKind = s.enc.errKind ∧ e.errSub = s.enc.errSub ∧
                s.enc.wr.sink <+: e.wr.sink)))

/-- The encoder's states between transactions and the commands' effect on them (R326): the results, the state after, and
that a command turned away or without effect changes nothing else; an ENC_WRITE that only buffers puts nothing, on any
sink. On a sink that fails (R11, R324): an ENC_WRITE whose first full block it has no room for, since it has room for fewer
than the ten bytes every block has; ENC_FINISH and ENC_CLOSE with nothing buffered; and ENC_OPEN. The other cases of such
a sink are in the two statements before. The codes of its error, and ENC_CLOSE's OK, are the model's (log 18, DESIGN CHOICE),
and so is that ENC_OPEN with no sink handed over attaches one that never fails and answers OK (log 8, DESIGN CHOICE). -/
def Obligations.EncoderStates : Prop :=
  ∀ (s : State), s.txn = none →
    (s.inst = .encoder → s.enc.state = .isOpen →
        ∀ m data, (s.enc.buf ++ data).length < Config.encSplit s.enc.level →
          exec (.encWrite m data) s = .next
            { s with
              enc := { s.enc with buf := s.enc.buf ++ data }
              host := { s.host with results := s.host.results ++ [.ok []] } }) ∧
      (s.inst = .encoder → s.enc.state = .isOpen → s.enc.wr.attached = true → s.enc.wr.wf = true →
        s.enc.wr.failure = none →
        (∀ m data t, exec (.encWrite m data) s = .next t →
          t.enc.state = .isOpen ∧ t.host.results = s.host.results ++ [.ok []]) ∧
        ((s.enc.buf = [] ∨ contractHolds s.enc.buf s.enc.level = true) →
          (∀ v, ∃ t, exec (.encFinish v) s = .next t ∧ t.enc.state = .finished ∧
            t.host.results = s.host.results ++ [.ok []]) ∧
          ∀ v, ∃ t, exec (.encClose v) s = .next t ∧ t.enc.state = .closed ∧ t.enc.wr.live = 0 ∧
            t.host.results = s.host.results ++ [.ok []])) ∧
      (∀ f : SinkFailure, s.inst = .encoder → s.enc.state = .isOpen → s.enc.wr.attached = true →
        s.enc.wr.wf = true → s.enc.wr.failure = some f →
        (∀ (m : Word) (data : List Byte) (x : List Byte), f.room < 10 →
          x = (s.enc.buf ++ data).take (Config.encSplit s.enc.level) →
          x.length = Config.encSplit s.enc.level →
          (contractHolds x s.enc.level = false ∧ exec (.encWrite m data) s = .refused .encoderContract) ∨
            (contractHolds x s.enc.level = true ∧
              ∃ t, exec (.encWrite m data) s = .next t ∧ t.enc.state = .failed ∧
                t.enc.errKind = errKindCode f.error ∧ t.enc.errSub = errSubOf f.error ∧
                bitsOfBytes t.enc.wr.sink =
                  (s.enc.wr.bits ++ Config.encodeBlock x s.enc.level).take
                    (8 * (s.enc.wr.sink.length + f.room)) ∧
                t.host.results = s.host.results ++ [errResult f.error])) ∧
        (s.enc.buf = [] → f.room < (s.enc.wr.live.toNat + 87) / 8 →
          (∀ v, ∃ t, exec (.encFinish v) s = .next t ∧ t.enc.state = .failed ∧
            t.enc.errKind = errKindCode f.error ∧ t.enc.errSub = errSubOf f.error ∧
            bitsOfBytes t.enc.wr.sink =
              (s.enc.wr.bits ++ toBits 48 0x177245385090 ++ toBits 32 s.enc.combined.toNat).take
                (8 * (s.enc.wr.sink.length + f.room)) ∧
            t.host.results = s.host.results ++ [errResult f.error]) ∧
          ∀ v, ∃ t, exec (.encClose v) s = .next t ∧ t.enc.state = .closed ∧ t.enc.errKind = errKindCode f.error ∧
            t.enc.errSub = errSubOf f.error ∧ t.enc.wr.attached = false ∧
            t.enc.wr.sink.length = s.enc.wr.sink.length + f.room ∧
            t.host.results = s.host.results ++ [.ok []]) ∧
        (s.enc.buf = [] → (s.enc.wr.live.toNat + 87) / 8 ≤ f.room →
          (∀ v, ∃ t, exec (.encFinish v) s = .next t ∧ t.enc.state = .finished ∧
            t.enc.wr.sink.length = s.enc.wr.sink.length + (s.enc.wr.live.toNat + 87) / 8 ∧
            t.host.results = s.host.results ++ [.ok []]) ∧
          ∀ v, ∃ t, exec (.encClose v) s = .next t ∧ t.enc.state = .closed ∧
            t.enc.wr.sink.length = s.enc.wr.sink.length + (s.enc.wr.live.toNat + 87) / 8 ∧
            t.host.results = s.host.results ++ [.ok []])) ∧
      (s.inst = .encoder → s.enc.state = .finished →
        (∀ m data, exec (.encWrite m data) s = .next (answer (.err 8 0) s)) ∧
        (∀ v, exec (.encFinish v) s = .next (answer (.ok []) s)) ∧
        ∀ v, ∃ t, exec (.encClose v) s = .next t ∧ t.enc.state = .closed ∧ t.enc.wr.sink = s.enc.wr.sink ∧
          t.host.results = s.host.results ++ [.ok []]) ∧
      (s.inst = .encoder → s.enc.state = .failed →
        (∀ m data, exec (.encWrite m data) s = .next (answer (.err s.enc.errKind s.enc.errSub) s)) ∧
        (∀ v, exec (.encFinish v) s = .next (answer (.err s.enc.errKind s.enc.errSub) s)) ∧
        ∀ v, ∃ t, exec (.encClose v) s = .next t ∧ t.enc.state = .closed ∧ t.enc.wr.sink = s.enc.wr.sink ∧
          t.host.results = s.host.results ++ [.ok []]) ∧
      (s.inst = .encoder → s.enc.state = .closed →
        (∀ m data, exec (.encWrite m data) s = .next (answer (.err 8 0) s)) ∧
        (∀ v, exec (.encFinish v) s = .next (answer (.err 8 0) s)) ∧
        (s.enc.wr.attached = false → ∀ v, exec (.encClose v) s = .next (answer (.ok []) s))) ∧
      ∀ level : Word, s.inst ≠ .decoder → 1 ≤ level.toNat → level.toNat ≤ 9 →
        ((offeredSink s.host = none ∨ ∃ f, offeredSink s.host = some f ∧ 4 ≤ f.room) →
          ∃ t, exec (.encOpen level) s = .next t ∧ t.enc.state = .isOpen ∧ t.enc.buf = [] ∧
            t.enc.wr.sink = [0x42, 0x5A, 0x68, BitVec.ofNat 8 (0x30 + level.toNat)] ∧
            t.host.results = s.host.results ++ [.ok []]) ∧
        ∀ f, offeredSink s.host = some f → f.room < 4 →
          ∃ t, exec (.encOpen level) s = .next t ∧ t.enc.state = .failed ∧ t.enc.errKind = errKindCode f.error ∧
            t.enc.errSub = errSubOf f.error ∧
            t.enc.wr.sink = ([0x42, 0x5A, 0x68, BitVec.ofNat 8 (0x30 + level.toNat)] : List Byte).take f.room ∧
            t.host.results = s.host.results ++ [errResult f.error]

/-! ### Bit channel (spec/40_bit_channel.md) -/

/-- BC_READ_BITS (R140, R141, R145): the next `n` bits are taken, first bit most significant; exactly the bytes needed
are fetched, and exactly `n` bits fewer are live than after the refill. -/
def Obligations.ReadBitsTakesNextBits : Prop :=
  ∀ (n : Nat) (s : State), n ≤ 24 → s.rd.wf = true → n ≤ s.rd.pending.length →
    ∃ (v : Nat) (r : Reader),
      exec (.bcReadBits n) s = .next { s with rd := r, ret := .nat v } ∧ v < 2 ^ n ∧
        toBits n v = s.rd.pending.take n ∧ s.rd.TakenTo n r

/-- BC_READ_BOOL, BC_READ_UNARY and BC_READ_INT32 (R142, R143, R144, R145): a bit; the count of 1 bits before a
terminating 0, with no bound; a big-endian 32-bit integer. -/
def Obligations.ReadBoolUnaryInt32 : Prop :=
  (∀ (s : State) (b : Bool) (rest : List Bool), s.rd.wf = true → s.rd.pending = b :: rest →
      ∃ r, exec .bcReadBool s = .next { s with rd := r, ret := .bool b } ∧ s.rd.TakenTo 1 r) ∧
    (∀ (s : State) (j : Nat) (rest : List Bool), s.rd.wf = true →
      s.rd.pending = List.replicate j true ++ false :: rest →
      ∃ r, exec .bcReadUnary s = .next { s with rd := r, ret := .nat j } ∧ s.rd.TakenTo (j + 1) r) ∧
    ∀ (s : State) (v : Word) (rest : List Bool), s.rd.wf = true → s.rd.pending = toBits 32 v.toNat ++ rest →
      ∃ r, exec .bcReadInt32 s = .next { s with rd := r, ret := .nat v.toNat } ∧ s.rd.TakenTo 32 r

/-- Reading past the bytes listed for the source (R140, R84, R359), for every operation of the reader, HT_DECODE and the
steps that read fixed fields. A source that ends raises UnexpectedEndOfData: every byte is fetched, what was taken by the
reads before the failing one stays taken (the first half of BC_READ_INT32, R144; all the 1 bits of a unary code, R143; the
bits of the candidate, R195; the bytes of the header checked so far, R302; the first half of the magic, R231), the bits
left stay buffered, and `in_ended` is set; the step's `fsm` and the registers its rule sets later are as before. One that
never answers hangs. One that goes on for ever gives the bits of its round, and a unary code of nothing but 1 bits never
ends. Sources that do not end, and that an endless one goes round, are the model's (log 17, DESIGN CHOICE), and so is the
position `pos` (log 3, DESIGN CHOICE). STEP_SYMBOLS is in its own statement. -/
def Obligations.ReadPastEndRaises : Prop :=
  (∀ s : State, s.rd.wf = true →
      (∀ n : Nat, n ≤ 24 → s.rd.pending.length < n →
          ReadsPastEnd (.bcReadBits n) 0 s fun r => { s with rd := r }) ∧
        (s.rd.pending = [] → ReadsPastEnd .bcReadBool 0 s fun r => { s with rd := r }) ∧
        (s.rd.pending.all id = true →
          ReadsPastEnd .bcReadUnary s.rd.pending.length s fun r => { s with rd := r }) ∧
        (s.rd.pending.length < 32 →
          ReadsPastEnd .bcReadInt32 (if s.rd.pending.length < 16 then 0 else 16) s fun r => { s with rd := r }) ∧
        (∀ (g : Nat) (grp : Group) (lens : List Nat), g < s.sel.nGroups.toNat → s.groups[g]? = some grp →
          lens = grp.len.map BitVec.toNat → prefixLengths lens = true → builtFrom lens.length grp = true →
          s.rd.pending.length < maxOf lens → noCodeword lens s.rd.pending →
          ReadsPastEnd (.htDecode g) (takenOfPartial lens s.rd.pending) s fun r => { s with rd := r }) ∧
        (∀ k : Nat, s.fsm = .streamHeader → k < 4 → s.rd.pending.length / 8 = k →
          s.rd.pending.take (8 * k) = bitsOfBytes (([0x42, 0x5A, 0x68] : List Byte).take k) →
          ReadsPastEnd .stepStreamHeader (8 * k) s fun r => { s with rd := r, pos := .streamHeader }) ∧
        (s.fsm = .header → s.rd.pending.length < 48 →
          ReadsPastEnd .stepHeader (if s.rd.pending.length < 24 then 0 else 24) s
            fun r => { s with rd := r, pos := .magic }) ∧
        (s.fsm = .trailer → s.rd.pending.length < 32 →
          ReadsPastEnd .stepTrailer (if s.rd.pending.length < 16 then 0 else 16) s
            fun r => { s with rd := r, pos := .trailer }) ∧
        ∀ d : BlockTables, s.fsm = .tables → d.legal = true → s.rd.pending <+: d.bits →
          s.rd.pending.length < d.bits.length →
          ∃ (k : Nat) (u : State), k ≤ s.rd.pending.length ∧
            ReadsPastEnd .stepTables k s fun r =>
              { s with
                rd := r
                blk := u.blk
                map := u.map
                sel := u.sel
                groups := u.groups
                tab := u.tab
                pos := u.pos }) ∧
    (∀ (n : Nat) (s : State) (b : Byte) (more : List Byte), n ≤ 24 → s.rd.wf = true →
      s.rd.after = some (.repeats b more) →
      ∃ (v : Nat) (r : Reader),
        exec (.bcReadBits n) s = .next { s with rd := r, ret := .nat v } ∧ v < 2 ^ n ∧
          toBits n v = (s.rd.pending ++ bitsOfBytes (List.replicate 3 (b :: more)).flatten).take n ∧
          r.wf = true ∧ r.after = s.rd.after) ∧
    ∀ (s : State) (b : Byte) (more : List Byte), s.rd.wf = true → s.rd.after = some (.repeats b more) →
      s.rd.pending.all id = true → (∀ x ∈ b :: more, x = 0xFF) →
      exec .bcReadUnary s = .fault .inputNeverEnds

/-- The writer's operations (R150 to R154): each appends its bits, whole bytes go to the sink in order, at most 7 bits
stay live, and BC_FLUSH pads with 0 bits to the byte boundary. That is so for a sink that takes the bytes completed: this
spec's, which never fails (R85), or one that fails later. One without room for them (R11, R324) takes those it has room
for, in order; its error is latched and the encoder is failed, with the sink's codes (log 18). -/
def Obligations.WriterAppendsBits : Prop :=
  ∀ s : State, s.enc.wr.wf = true → s.enc.wr.attached = true →
    (∀ n v : Nat, n ≤ 24 → v < 2 ^ n → s.enc.wr.takes ((s.enc.wr.live.toNat + n) / 8) = true →
        ∃ w, exec (.bcWriteBits n v) s = .next { s with enc := { s.enc with wr := w } } ∧
          w.bits = s.enc.wr.bits ++ toBits n v ∧ w.wf = true ∧ w.attached = true ∧ s.enc.wr.sink <+: w.sink ∧
          w.failure = s.enc.wr.failureAfter ((s.enc.wr.live.toNat + n) / 8)) ∧
      (∀ b : Bool, s.enc.wr.takes ((s.enc.wr.live.toNat + 1) / 8) = true →
        ∃ w, exec (.bcWriteBool b) s = .next { s with enc := { s.enc with wr := w } } ∧
          w.bits = s.enc.wr.bits ++ [b] ∧ w.wf = true ∧ w.attached = true ∧ s.enc.wr.sink <+: w.sink ∧
          w.failure = s.enc.wr.failureAfter ((s.enc.wr.live.toNat + 1) / 8)) ∧
      (∀ j : Nat, s.enc.wr.takes ((s.enc.wr.live.toNat + j + 1) / 8) = true →
        ∃ w, exec (.bcWriteUnary j) s = .next { s with enc := { s.enc with wr := w } } ∧
          w.bits = s.enc.wr.bits ++ List.replicate j true ++ [false] ∧ w.wf = true ∧ w.attached = true ∧
          s.enc.wr.sink <+: w.sink ∧
          w.failure = s.enc.wr.failureAfter ((s.enc.wr.live.toNat + j + 1) / 8)) ∧
      (∀ v : Word, s.enc.wr.takes ((s.enc.wr.live.toNat + 32) / 8) = true →
        ∃ w, exec (.bcWriteInt32 v) s = .next { s with enc := { s.enc with wr := w } } ∧
          w.bits = s.enc.wr.bits ++ toBits 32 v.toNat ∧ w.wf = true ∧ w.attached = true ∧
          s.enc.wr.sink <+: w.sink ∧
          w.failure = s.enc.wr.failureAfter ((s.enc.wr.live.toNat + 32) / 8)) ∧
      (s.enc.wr.takes ((s.enc.wr.live.toNat + 7) / 8) = true →
        ∃ w, exec .bcFlush s = .next { s with enc := { s.enc with wr := w } } ∧
          w.bits = s.enc.wr.bits ++ List.replicate ((8 - s.enc.wr.live.toNat) % 8) false ∧ w.live = 0 ∧
          w.wf = true ∧ w.attached = true ∧ s.enc.wr.sink <+: w.sink ∧
          w.failure = s.enc.wr.failureAfter ((s.enc.wr.live.toNat + 7) / 8)) ∧
      ∀ (i : Instr) (bits : List Bool) (f : SinkFailure),
        ((∃ n v, i = .bcWriteBits n v ∧ n ≤ 24 ∧ v < 2 ^ n ∧ bits = toBits n v) ∨
          (∃ b, i = .bcWriteBool b ∧ bits = [b]) ∨
          (∃ j, i = .bcWriteUnary j ∧ bits = List.replicate j true ++ [false]) ∨
          (∃ v : Word, i = .bcWriteInt32 v ∧ bits = toBits 32 v.toNat) ∨
          (i = .bcFlush ∧ bits = List.replicate ((8 - s.enc.wr.live.toNat) % 8) false)) →
        s.enc.wr.failure = some f → f.room < (s.enc.wr.live.toNat + bits.length) / 8 →
        ∃ w, exec i s = .next
            { s with
              enc :=
                { s.enc with
                  wr := w
                  state := .failed
                  errKind := errKindCode f.error
                  errSub := errSubOf f.error } } ∧
          bitsOfBytes w.sink = (s.enc.wr.bits ++ bits).take (8 * (s.enc.wr.sink.length + f.room)) ∧
          w.attached = true ∧ w.failure = some { f with room := 0 }

/-- Writer and reader agree (R155), for fields of bits of any widths, of which every other kind is made: fields written
from reset and flushed, read back with the same widths from the bytes put, give the values written, and only pad bits
are left. -/
def Obligations.WriteReadAgree : Prop :=
  ∀ fields : List (Nat × Nat), (∀ f ∈ fields, f.1 ≤ 24 ∧ f.2 < 2 ^ f.1) →
    ∃ (w : Writer) (r : Reader),
      ((writeFields fields { Writer.reset with attached := true }).bind fun _ w' => flush w') = .ok () w ∧
        readFields (fields.map Prod.fst) { Reader.reset with src := some { bytes := w.sink, after := .ends } } =
          .ok (fields.map Prod.snd) r ∧
        r.pending.length < 8 ∧ r.pending.all not = true

/-- Operations outside their operand range have no move in the model (R146, R150, R174, R359). -/
def Obligations.OperandsOutOfRangeRefused : Prop :=
  ∀ s : State,
    (∀ n, 24 < n → exec (.bcReadBits n) s = .refused .operandOutOfRange) ∧
      (∀ n v, 2 ^ n ≤ v → exec (.bcWriteBits n v) s = .refused .operandOutOfRange) ∧
      ∀ f maxLen, 1 < f.length → 2 ^ maxLen < f.length →
        exec (.haAllocate f maxLen) s = .refused .operandOutOfRange

/-! ### Length allocator (spec/41_huffman_allocator.md) -/

/-- HA_ALLOCATE (R171 (a) and (c), R172 to R175, R177, R178): under its precondition it gives one length of at least 1 to
every symbol; for two symbols or more the code is complete (the Kraft sum is exactly 1); for one symbol the result is
`[1]`. A frequency of 0 weighs 1. Where the bound cannot be passed, so that no weight is halved, the lengths follow the
weights: a lighter symbol, or one of the same weight and a lower index, has no shorter length. The fixtures of R181 hold. -/
def Obligations.AllocateGivesCompleteCode : Prop :=
  (∀ (f : List Nat) (maxLen : Nat) (s : State), 1 ≤ f.length → 1 ≤ maxLen → maxLen ≤ 32 →
      (f.length = 1 ∨ f.length ≤ 2 ^ maxLen) →
      ∃ lens : List Nat,
        exec (.haAllocate f maxLen) s = .next { s with ret := .nats lens } ∧
          exec (.haAllocate (f.map fun x => max x 1) maxLen) s = .next { s with ret := .nats lens } ∧
          lens.length = f.length ∧ (∀ l ∈ lens, 1 ≤ l) ∧ (f.length = 1 → lens = [1]) ∧
          (2 ≤ f.length → (lens.map fun l => ((1 : ℚ) / 2 ^ l)).sum = 1) ∧
          (f.length ≤ maxLen + 1 → ∀ i j, i < f.length → j < f.length →
            (max (f.getD i 0) 1 < max (f.getD j 0) 1 ∨ (max (f.getD i 0) 1 = max (f.getD j 0) 1 ∧ i < j)) →
            lens.getD j 0 ≤ lens.getD i 0)) ∧
    ∀ s : State,
      exec (.haAllocate [1] 32) s = .next { s with ret := .nats [1] } ∧
        (∀ maxLen, 1 ≤ maxLen → maxLen ≤ 32 →
          exec (.haAllocate [1, 1] maxLen) s = .next { s with ret := .nats [1, 1] }) ∧
        exec (.haAllocate [1, 1, 1, 1, 1] 32) s = .next { s with ret := .nats [3, 3, 2, 2, 2] } ∧
        exec (.haAllocate [0, 0, 1, 1, 1, 1] 3) s = .next { s with ret := .nats [3, 3, 3, 3, 2, 2] }

/-- HA_ALLOCATE (R171 (b), R173, R176): no length exceeds the bound. Where the lengths of a bound meet a lower one as
well, they are the lengths of the lower one; where they do not, the lengths of the lower bound are those of the weights
halved, rounding up. -/
def Obligations.AllocateMeetsBound : Prop :=
  ∀ (f : List Nat) (maxLen : Nat) (s : State), 1 ≤ f.length → 1 ≤ maxLen → maxLen ≤ 32 →
    (f.length = 1 ∨ f.length ≤ 2 ^ maxLen) →
    ∃ lens : List Nat, exec (.haAllocate f maxLen) s = .next { s with ret := .nats lens } ∧
      (∀ l ∈ lens, l ≤ maxLen) ∧
      ∀ lower, 1 ≤ lower → lower ≤ maxLen → (f.length = 1 ∨ f.length ≤ 2 ^ lower) →
        exec (.haAllocate f lower) s =
          if ∀ l ∈ lens, l ≤ lower then .next { s with ret := .nats lens }
          else exec (.haAllocate (f.map fun x => (max x 1 + 1) / 2) lower) s

/-! ### Huffman tables (spec/42_huffman_tables.md) -/

/-- HT_BUILD (R190 to R193): the shortest and longest length; `limit` and `base` for each length between them;
`perm` a permutation of the symbols, by length and then by symbol. Nothing but the group's tables changes. -/
def Obligations.BuildMakesTables : Prop :=
  ∀ (g : Nat) (s : State) (grp : Group) (lens : List Nat), g < s.sel.nGroups.toNat → s.groups[g]? = some grp →
    lens = (grp.len.take s.map.alphaSize.toNat).map BitVec.toNat → lens.length = s.map.alphaSize.toNat →
    1 ≤ lens.length → lengthsLegal lens = true →
    ∃ grp' : Group,
      exec (.htBuild g) s = .next { s with groups := s.groups.setIfInBounds g grp' } ∧
        grp'.len = grp.len ∧ grp'.minLen.toNat ∈ lens ∧ grp'.maxLen.toNat ∈ lens ∧
        (∀ l ∈ lens, grp'.minLen.toNat ≤ l ∧ l ≤ grp'.maxLen.toNat) ∧
        (∀ L, grp'.minLen.toNat ≤ L → L ≤ grp'.maxLen.toNat →
          memGet grp'.limit L = some (BitVec.ofInt 32
            ((firstCodeFrom lens grp'.minLen.toNat (L - grp'.minLen.toNat) : Int) + lens.count L - 1)) ∧
          memGet grp'.base L = some (BitVec.ofInt 32
            ((firstCodeFrom lens grp'.minLen.toNat (L - grp'.minLen.toNat) : Int) - shorterThan lens L))) ∧
        (grp'.perm.map BitVec.toNat).Perm (List.range lens.length) ∧
        grp'.perm.Pairwise fun a b =>
          lens.getD a.toNat 0 < lens.getD b.toNat 0 ∨
            (lens.getD a.toNat 0 = lens.getD b.toNat 0 ∧ a.toNat < b.toNat)

/-- HT_DECODE (R195, R197): with the tables of a code that is not oversubscribed, the codeword of a symbol at the head of
the input decodes to that symbol and takes exactly its bits; a string of `maxLen` bits above every codeword raises
InvalidHuffmanCode after `maxLen` bits. -/
def Obligations.DecodeReadsCodeword : Prop :=
  ∀ (g : Nat) (s : State) (grp : Group) (lens : List Nat), g < s.sel.nGroups.toNat → s.groups[g]? = some grp →
    lens = grp.len.map BitVec.toNat → prefixLengths lens = true → builtFrom lens.length grp = true →
    s.rd.wf = true →
    (∀ (sym : Nat) (rest : List Bool), sym < lens.length → s.rd.pending = codeword lens sym ++ rest →
        ∃ r, exec (.htDecode g) s = .next { s with rd := r, ret := .nat sym } ∧
          s.rd.TakenTo (lens.getD sym 0) r) ∧
      ∀ v : Nat, v < 2 ^ maxOf lens → maxOf lens ≤ s.rd.pending.length →
        s.rd.pending.take (maxOf lens) = toBits (maxOf lens) v →
        firstCodeFrom lens (minOf lens) (maxOf lens - minOf lens) + lens.count (maxOf lens) ≤ v →
        ∃ r, exec (.htDecode g) s = .next (takeError .invalidHuffmanCode { s with rd := r }) ∧
          s.rd.TakenTo (maxOf lens) r

/-- HT_CODES (R197): the codeword of each symbol is the first code of its length plus its rank among the symbols of that
length, below `2^length` for a code that is not oversubscribed; no register changes. -/
def Obligations.CodesAreCanonical : Prop :=
  ∀ (lens : List Nat) (s : State), 1 ≤ lens.length → lengthsLegal lens = true →
    ∃ cs : List Nat,
      exec (.htCodes lens) s = .next { s with ret := .nats cs } ∧ cs.length = lens.length ∧
        (∀ i, i < lens.length →
          cs.getD i 0 =
            firstCodeFrom lens (minOf lens) (lens.getD i 0 - minOf lens) +
              (lens.take i).count (lens.getD i 0)) ∧
        (kraft20 lens ≤ 2 ^ 20 → ∀ i, i < lens.length → cs.getD i 0 < 2 ^ lens.getD i 0)

/-! ### MTF/RLE2 stage (spec/43_mtf_rle2.md) -/

/-- MTF_DECODE_SYMBOL, a run digit (R211): `run_s` and `run_k` saturate at `CAP + 1` and 21, and nothing else
changes. -/
def Obligations.RunDigitAccumulates : Prop :=
  ∀ (sym : Nat) (s : State), sym ≤ 1 →
    ∃ a k, exec (.mtfDecodeSymbol sym) s = .next { s with sym := { s.sym with runS := a, runK := k } } ∧
      a.toNat = min (s.sym.runS.toNat + (sym + 1) * 2 ^ s.sym.runK.toNat) (s.stream.bs100k.toNat * 100000 + 1) ∧
      k.toNat = min (s.sym.runK.toNat + 1) 21

/-- MTF_DECODE_SYMBOL with `EOB` (R212, R214): the pending run of the byte at rank 0 is written and counted, and nothing
else is; a run that would pass the block's capacity raises BlockOverrun with nothing of it written. -/
def Obligations.EobEndsRun : Prop :=
  ∀ (s : State) (v b : Byte) (f : BitVec 20), 2 ≤ s.map.eob.toNat → s.sym.mtf[0]? = some v →
    s.map.seqToUnseq[v.toNat]? = some b → s.sym.freq[b.toNat]? = some f → s.stream.bs100k.toNat ≤ 9 →
    (s.sym.nblock.toNat + s.sym.runS.toNat ≤ s.stream.bs100k.toNat * 100000 →
        ∃ m : MtfStage,
          exec (.mtfDecodeSymbol s.map.eob.toNat) s = .next { s with sym := m } ∧ m.runS = 0 ∧ m.runK = 0 ∧
            m.mtf = s.sym.mtf ∧ m.nblock.toNat = s.sym.nblock.toNat + s.sym.runS.toNat ∧
            m.freq = s.sym.freq.set b.toNat (f + s.sym.runS.setWidth 20) ∧
            ∀ a, memGet m.ll a =
              if s.sym.nblock.toNat ≤ a ∧ a < s.sym.nblock.toNat + s.sym.runS.toNat then some b
              else memGet s.sym.ll a) ∧
      (0 < s.sym.runS.toNat → s.stream.bs100k.toNat * 100000 < s.sym.nblock.toNat + s.sym.runS.toNat →
        exec (.mtfDecodeSymbol s.map.eob.toNat) s = .next (takeError .blockOverrun s))

/-- MTF_DECODE_SYMBOL with a rank symbol (R212, R213): the pending run of the byte at rank 0 is written first; then the
byte at rank `sym - 1` moves to the front and is written once; both are counted. A run that would pass the block's
capacity raises BlockOverrun with nothing of it written and no byte moved; when the block is full after the run the byte
moves, BlockOverrun is raised and the byte is not written. -/
def Obligations.RankSymbolWritesByte : Prop :=
  ∀ (s : State) (sym : Nat) (v0 v b0 b : Byte), 2 ≤ sym → sym < s.map.eob.toNat → s.sym.mtf[0]? = some v0 →
    s.map.seqToUnseq[v0.toNat]? = some b0 → s.sym.mtf[sym - 1]? = some v → s.map.seqToUnseq[v.toNat]? = some b →
    s.sym.freq.length = 256 → s.stream.bs100k.toNat ≤ 9 →
    (0 < s.sym.runS.toNat → s.stream.bs100k.toNat * 100000 < s.sym.nblock.toNat + s.sym.runS.toNat →
        exec (.mtfDecodeSymbol sym) s = .next (takeError .blockOverrun s)) ∧
      (s.sym.nblock.toNat + s.sym.runS.toNat < s.stream.bs100k.toNat * 100000 →
        ∃ m : MtfStage,
          exec (.mtfDecodeSymbol sym) s = .next { s with sym := m } ∧ m.runS = 0 ∧ m.runK = 0 ∧
            m.mtf = v :: s.sym.mtf.eraseIdx (sym - 1) ∧
            m.nblock.toNat = s.sym.nblock.toNat + s.sym.runS.toNat + 1 ∧ m.freq.length = 256 ∧
            (∀ x : Byte, m.freq.getD x.toNat 0 =
              s.sym.freq.getD x.toNat 0 + (if x = b0 then s.sym.runS.setWidth 20 else 0) +
                (if x = b then 1 else 0)) ∧
            ∀ a, memGet m.ll a =
              if s.sym.nblock.toNat ≤ a ∧ a < s.sym.nblock.toNat + s.sym.runS.toNat then some b0
              else if a = s.sym.nblock.toNat + s.sym.runS.toNat then some b
              else memGet s.sym.ll a) ∧
      ((s.sym.nblock.toNat + s.sym.runS.toNat = s.stream.bs100k.toNat * 100000 ∨
          (s.sym.runS = 0 ∧ s.stream.bs100k.toNat * 100000 < s.sym.nblock.toNat)) →
        ∃ m : MtfStage,
          exec (.mtfDecodeSymbol sym) s = .next (takeError .blockOverrun { s with sym := m }) ∧
            m.mtf = v :: s.sym.mtf.eraseIdx (sym - 1) ∧
            m.nblock.toNat = s.sym.nblock.toNat + s.sym.runS.toNat ∧
            ∀ a, memGet m.ll a =
              if s.sym.nblock.toNat ≤ a ∧ a < s.sym.nblock.toNat + s.sym.runS.toNat then some b0
              else memGet s.sym.ll a)

/-- MTF_ENCODE and its round trip (R218, R219): it completes with no register changed, and the symbols it gives, decoded
from the start of a SYMBOLS step (where `LL` is empty: log 14, DEDUCED), leave exactly the bytes in the block buffer, with
no BlockOverrun. -/
def Obligations.MtfRoundTrip : Prop :=
  ∀ (bytes inUse : List Byte) (capacity : Nat) (map : SymbolMap) (m : MtfStage) (s : State),
    mtfOperandsLegal bytes inUse = true → bytes.length ≤ capacity → capacity ≤ 900000 →
    map.seqToUnseq = inUse → map.eob.toNat = inUse.length + 1 →
    ∃ (syms : List Nat) (m' : MtfStage),
      exec (.mtfEncode bytes inUse) s = .next { s with ret := .nats syms } ∧
        stageRun capacity map syms (stageInit m) = .ok () m' ∧ m'.nblock.toNat = bytes.length ∧
        blockBytes m'.ll bytes.length 0 = some bytes

/-! ### Permutation, derandomiser and first run-length stage (spec/45_block_output.md) -/

/-- PI_BUILD (R275, R276): with the bytes of a block in `LL` and their counts in `freq`, each position goes to the slot of
`TT` of its byte and rank; every slot below `nblock` is written exactly once, so `TT` is a permutation of the positions;
no other entry and no other register changes. -/
def Obligations.PermutationScatters : Prop :=
  ∀ (s : State) (bytes : List Byte), holdsBlock s bytes = true →
    ∃ p : PermRegs,
      exec .piBuild s = .next { s with perm := p } ∧
        (∀ i, i < bytes.length → memGet p.tt (scatterSlot bytes i) = some (BitVec.ofNat 20 i)) ∧
        (∀ k, k < bytes.length → ∃ i, i < bytes.length ∧ scatterSlot bytes i = k) ∧
        (∀ k, bytes.length ≤ k → memGet p.tt k = memGet s.perm.tt k) ∧
        p.cum.length = 256 ∧
        ∀ b : Byte, (p.cum.getD b.toNat 0).toNat = bytes.countP fun x => decide (x.toNat ≤ b.toNat)

/-- PI_NEXT and DERAND (R278, R282): the byte at the walk's position is taken and masked in a randomised block, and the
walk moves on along `TT`; the mask flips bit 0 where the counter comes to 1, and the counter is loaded from the table
where it stands at 0. That DERAND on its own does so in a block that is not randomised too is the model's (log 32, DESIGN
CHOICE; R271). -/
def Obligations.WalkTakesByte : Prop :=
  (∀ (s : State) (b : Byte) (p : BitVec 20), s.out.walked.toNat < s.sym.nblock.toNat →
      memGet s.sym.ll s.out.walkPtr.toNat = some b → memGet s.perm.tt s.out.walkPtr.toNat = some p →
      exec .piNext s = .next
        { s with
          out := (afterWalk s.blk.randomised b p s.out).2
          ret := .byte (afterWalk s.blk.randomised b p s.out).1 }) ∧
    ∀ (s : State) (b : Byte) (n : BitVec 10) (t : BitVec 9),
      n = (if s.out.rNToGo = 0 then BitVec.ofNat 10 (Config.randTable.getD s.out.rTPos.toNat 0) else s.out.rNToGo) →
      t = (if s.out.rNToGo = 0 then s.out.rTPos + 1 else s.out.rTPos) →
      exec (.derand b) s = .next
        { s with
          out := { s.out with rNToGo := n - 1, rTPos := t }
          ret := .byte (if n - 1 = 1 then b ^^^ 1 else b) }

/-- RLE1_NEXT (R285): a pending copy is given; an exhausted block gives nothing; a walk byte that differs from the last
starts a group; an equal one is counted; the fourth takes the next walk byte as the count of copies, and raises
Rle1CountMissing where there is none. -/
def Obligations.RunLengthStage : Prop :=
  ∀ s : State,
    (s.out.rleRep ≠ 0 →
        exec .rle1Next s = .next
          { s with
            out := { s.out with rleRep := s.out.rleRep - 1 }
            ret := .byte (s.out.rleLast.setWidth 8) }) ∧
      (s.out.rleRep = 0 → s.out.walked = s.sym.nblock → exec .rle1Next s = .next { s with ret := .noByte }) ∧
      ∀ (b : Byte) (p : BitVec 20) (o : OutputRegs) (c : Byte), s.out.rleRep = 0 →
        s.out.walked.toNat < s.sym.nblock.toNat → memGet s.sym.ll s.out.walkPtr.toNat = some b →
        memGet s.perm.tt s.out.walkPtr.toNat = some p → afterWalk s.blk.randomised b p s.out = (c, o) →
        (c.setWidth 9 ≠ s.out.rleLast →
            exec .rle1Next s = .next
              { s with out := { o with rleLast := c.setWidth 9, rleCnt := 1 }, ret := .byte c }) ∧
          (c.setWidth 9 = s.out.rleLast → s.out.rleCnt ≠ 3 →
            exec .rle1Next s = .next { s with out := { o with rleCnt := s.out.rleCnt + 1 }, ret := .byte c }) ∧
          (c.setWidth 9 = s.out.rleLast → s.out.rleCnt = 3 → o.walked = s.sym.nblock →
            exec .rle1Next s = .next (takeError .rle1CountMissing { s with out := { o with rleCnt := 0 } })) ∧
          ∀ (b2 : Byte) (p2 : BitVec 20), c.setWidth 9 = s.out.rleLast → s.out.rleCnt = 3 →
            o.walked.toNat < s.sym.nblock.toNat → memGet s.sym.ll o.walkPtr.toNat = some b2 →
            memGet s.perm.tt o.walkPtr.toNat = some p2 →
            exec .rle1Next s = .next
              { s with
                out :=
                  { (afterWalk s.blk.randomised b2 p2 { o with rleCnt := 0 }).2 with
                    rleRep := (afterWalk s.blk.randomised b2 p2 { o with rleCnt := 0 }).1 }
                ret := .byte c }

/-! ### CRC (spec/45_block_output.md R286 to R290) -/

/-- CRC_INIT, CRC_FINAL and CRC_COMBINE (R286, R288, R290), with the spec's examples. -/
def Obligations.CrcRegisters : Prop :=
  (∀ s : State,
      exec .crcInit s = .next { s with out := { s.out with crcRun := 0xFFFFFFFF } } ∧
        exec .crcFinal s = .next { s with ret := .word (s.out.crcRun ^^^ 0xFFFFFFFF) } ∧
        ∀ c, exec (.crcCombine c) s = .next
          { s with
            stream :=
              { s.stream with
                combined := s.stream.combined.rotateLeft 1 ^^^ c
                blocksDone := s.stream.blocksDone + 1 } }) ∧
    crcOf [] = 0 ∧ crcOf [0x61] = 0x19939B6B ∧ crcOf [0x62, 0x61, 0x6E, 0x61, 0x6E, 0x61] = 0xEFB6EC01 ∧
    crcOf [0x31, 0x32, 0x33, 0x34, 0x35, 0x36, 0x37, 0x38, 0x39] = 0xFC891918 ∧
    crcOf [0x61, 0x61, 0x61, 0x61, 0x61, 0x61, 0x61] = 0x32A4B623 ∧
    rotl1 0xEFB6EC01 ^^^ 0xFC891918 = 0x23E4C11B

/-- CRC_UPDATE by its table (R287) is the bit-serial form: each bit of the byte, from bit 7 to bit 0; with the table
entries the spec lists. -/
def Obligations.CrcUpdateIsBitSerial : Prop :=
  (∀ (b : Byte) (s : State),
      exec (.crcUpdate b) s = .next
          { s with
            out := { s.out with crcRun := (s.out.crcRun <<< 8) ^^^ crcTable ((s.out.crcRun >>> 24).setWidth 8 ^^^ b) } } ∧
        exec (.crcUpdate b) s = .next
          { s with out := { s.out with crcRun := (toBits 8 b.toNat).foldl crcBit s.out.crcRun } }) ∧
    (∀ i : Byte, crcTable i = (List.replicate 8 false).foldl crcBit (i.setWidth 32 <<< 24)) ∧
    crcTable 1 = 0x04C11DB7 ∧ crcTable 2 = 0x09823B6E ∧ crcTable 128 = 0x690CE0EE ∧ crcTable 255 = 0xB1F740B4

/-! ### Steps (spec/44_block_engine.md, spec/45_block_output.md, spec/46_stream_controller.md) -/

/-- STEP_STREAM_HEADER (R302, R91): the four bytes are read, each checked as soon as it is read; the digit sets `bs100k`,
and `LL` and `TT` hold no entry, which is read from R91 and R59 (log 14, DEDUCED). The position `pos` is the model's (log 3,
DESIGN CHOICE). -/
def Obligations.StreamHeaderStep : Prop :=
  ∀ (s : State) (rest : List Bool), s.fsm = .streamHeader → s.rd.wf = true →
    (∀ d : BitVec 4, 1 ≤ d.toNat → d.toNat ≤ 9 →
        s.rd.pending = bitsOfBytes [0x42, 0x5A, 0x68, BitVec.ofNat 8 (0x30 + d.toNat)] ++ rest →
        ∃ r, exec .stepStreamHeader s = .next
            { s with
              rd := r
              stream := { s.stream with bs100k := d }
              sym := { s.sym with ll := [] }
              perm := { s.perm with tt := [] }
              fsm := .header
              pos := .magic } ∧
          s.rd.TakenTo 32 r) ∧
      (∀ (k : Nat) (x : Byte), k < 3 → x ≠ ([0x42, 0x5A, 0x68] : List Byte).getD k 0 →
        s.rd.pending = bitsOfBytes (([0x42, 0x5A, 0x68] : List Byte).take k ++ [x]) ++ rest →
        ∃ r, exec .stepStreamHeader s =
            .next (takeError .badStreamMagic { s with rd := r, pos := .streamHeader }) ∧
          s.rd.TakenTo (8 * (k + 1)) r) ∧
      ∀ x : Byte, (x.toNat < 0x31 ∨ 0x39 < x.toNat) →
        s.rd.pending = bitsOfBytes [0x42, 0x5A, 0x68, x] ++ rest →
        ∃ r, exec .stepStreamHeader s =
            .next (takeError .badBlockSizeDigit { s with rd := r, pos := .streamHeader }) ∧
          s.rd.TakenTo 32 r

/-- STEP_HEADER (R231): the 48 bits are read before any comparison; the end-of-stream magic leads to TRAILER, the block
magic to TABLES with the per-block arrays holding no entry, any other value is CorruptBlockHeader. That the arrays are
emptied at the block magic is read from R59, R91 and R373 (log 14, DEDUCED); the position `pos` is the model's (log 3, DESIGN
CHOICE). -/
def Obligations.HeaderStep : Prop :=
  ∀ (s : State) (m : BitVec 48) (rest : List Bool), s.fsm = .header → s.rd.wf = true →
    s.rd.pending = toBits 48 m.toNat ++ rest →
    ∃ r, s.rd.TakenTo 48 r ∧
      exec .stepHeader s = .next
        (if m = 0x177245385090 then { s with rd := r, fsm := .trailer, pos := .trailer }
        else if m = 0x314159265359 then
          { s with
            rd := r
            fsm := .tables
            pos := .blockCrc
            map := { s.map with inUse := [], seqToUnseq := [] }
            sel := { s.sel with selMtf := [], selectors := [] }
            groups := Vector.replicate 6 Group.reset
            sym := { s.sym with ll := [], freq := [] }
            perm := { cum := [], tt := [] } }
        else takeError .corruptBlockHeader { s with rd := r, pos := .magic })

/-- STEP_TABLES (R232 to R241): from the bits of a block's tables, written out by R102 and R105, it sets every register
they give and the decode tables of every group, takes exactly their bits, and moves to SYMBOLS. -/
def Obligations.TablesStep : Prop :=
  ∀ (s : State) (d : BlockTables) (rest : List Bool), s.fsm = .tables → s.rd.wf = true → d.legal = true →
    s.rd.pending = d.bits ++ rest →
    ∃ (t : State) (selectors mtf : List (BitVec 3)),
      exec .stepTables s = .next t ∧ t.fsm = .symbols ∧ s.rd.TakenTo d.bits.length t.rd ∧
        t.blk = { storedCrc := d.crc, randomised := d.randomised, origPtr := d.origPtr } ∧
        t.map =
          { inUse := d.inUse
            nInUse := BitVec.ofNat 9 (markedValues d.inUse).length
            seqToUnseq := markedValues d.inUse
            alphaSize := BitVec.ofNat 9 ((markedValues d.inUse).length + 2)
            eob := BitVec.ofNat 9 ((markedValues d.inUse).length + 1) } ∧
        selectorsFrom (selectorRanks d.nGroups) d.positions = some (selectors, mtf) ∧
        t.sel =
          { nGroups := d.nGroups
            nSelectors := BitVec.ofNat 15 d.positions.length
            selMtf := mtf
            selectors := selectors } ∧
        (∀ (g : Nat) (table : LengthTable), d.lengths[g]? = some table →
          ∃ grp, t.groups[g]? = some grp ∧ table.lens = some (grp.len.map BitVec.toNat) ∧
            builtFrom t.map.alphaSize.toNat grp = true) ∧
        t.stream = s.stream ∧ t.sym = s.sym ∧ t.win = s.win ∧ t.perm = s.perm ∧ t.out = s.out ∧ t.enc = s.enc ∧
        t.host = s.host ∧ t.txn = s.txn ∧ t.inst = s.inst

/-- STEP_SYMBOLS (R239, R242, R243, R216): from the codewords of a block's symbols, each in the group of its window, up
to `EOB`, the stage takes the symbols in order from its starting values, exactly their bits are read, and `fsm` becomes
PERMUTE. After any first symbols that the stage takes, with no `EOB` among them, the step's errors (R242): where every
selector's window is full, SelectorsExhausted before any further bit is read; where the stage raises an error on the next
symbol (BlockOverrun), that error; bits above every codeword, InvalidHuffmanCode after the longest length (R195); and the
end of the input before a codeword ends, UnexpectedEndOfData. The registers hold what the step had written by then (R244:
without a meaning; log 19, DEDUCED). That `LL` holds no entry when the step starts is read from R59 (log 14, DEDUCED); the
position `pos` (log 3) and a source that never answers (log 17) are the model's (DESIGN CHOICE). -/
def Obligations.SymbolsStep : Prop :=
  (∀ (s : State) (body : List Nat) (rest : List Bool) (m : MtfStage), s.fsm = .symbols → s.rd.wf = true →
      groupsReady s = true → symbolsLegal s body = true →
      s.rd.pending = symbolBits s 0 (body ++ [s.map.eob.toNat]) ++ rest →
      stageRun (cap s.stream) s.map (body ++ [s.map.eob.toNat]) (stageInit s.sym) = .ok () m →
      ∃ r, exec .stepSymbols s = .next
          { s with
            rd := r
            sym := m
            win :=
              { selIdx := BitVec.ofNat 15 (body.length / 50 + 1)
                groupPos := BitVec.ofNat 6 (49 - body.length % 50)
                curGroup := s.sel.selectors.getD (body.length / 50) 0 }
            fsm := .permute
            pos := .symbol } ∧
        s.rd.TakenTo (symbolBits s 0 (body ++ [s.map.eob.toNat])).length r) ∧
    ∀ (s : State) (body : List Nat) (rest : List Bool) (m : MtfStage), s.fsm = .symbols → s.rd.wf = true →
      groupsReady s = true → symbolsBegun s body = true → s.rd.pending = symbolBits s 0 body ++ rest →
      stageRun (cap s.stream) s.map body (stageInit s.sym) = .ok () m →
      (body.length = 50 * s.sel.nSelectors.toNat →
          ∃ r, exec .stepSymbols s = .next (takeError .selectorsExhausted
              { s with rd := r, sym := m, win := windowAfter s body.length, pos := .symbol }) ∧
            s.rd.TakenTo (symbolBits s 0 body).length r) ∧
        ∀ lens : List Nat, lens = symbolLens s body.length → body.length < 50 * s.sel.nSelectors.toNat →
          (∀ (sym : Nat) (rest' : List Bool) (e : Err) (m' : MtfStage), sym ≤ s.map.eob.toNat →
              rest = codeword lens sym ++ rest' → stageSymbol (cap s.stream) s.map sym m = .raised e m' →
              ∃ r, exec .stepSymbols s = .next (takeError e
                  { s with rd := r, sym := m', win := windowAfter s (body.length + 1), pos := .symbol }) ∧
                s.rd.TakenTo (symbolBits s 0 (body ++ [sym])).length r) ∧
            (∀ v : Nat, v < 2 ^ maxOf lens → maxOf lens ≤ rest.length →
              rest.take (maxOf lens) = toBits (maxOf lens) v →
              firstCodeFrom lens (minOf lens) (maxOf lens - minOf lens) + lens.count (maxOf lens) ≤ v →
              ∃ r, exec .stepSymbols s = .next (takeError .invalidHuffmanCode
                  { s with rd := r, sym := m, win := windowAfter s (body.length + 1), pos := .symbol }) ∧
                s.rd.TakenTo ((symbolBits s 0 body).length + maxOf lens) r) ∧
            (rest.length < maxOf lens → noCodeword lens rest →
              ReadsPastEnd .stepSymbols ((symbolBits s 0 body).length + takenOfPartial lens rest) s fun r =>
                { s with rd := r, sym := m, win := windowAfter s (body.length + 1), pos := .symbol })

/-- STEP_PERMUTE (R272, R274 to R277): an `origPtr` not below `nblock` raises BadOrigPtr; else `TT` is built, the walk
starts at `TT[origPtr]`, and the output registers take their starting values. No byte is fetched. -/
def Obligations.PermuteStep : Prop :=
  ∀ s : State, s.fsm = .permute →
    (s.sym.nblock.toNat ≤ s.blk.origPtr.toNat → exec .stepPermute s = .next (takeError .badOrigPtr s)) ∧
      ∀ bytes : List Byte, holdsBlock s bytes = true → s.blk.origPtr.toNat < bytes.length →
        ∃ (p : PermRegs) (start : BitVec 20),
          exec .stepPermute s = .next
              { s with
                perm := p
                out :=
                  { walkPtr := start
                    walked := 0
                    rNToGo := 0
                    rTPos := 0
                    rleLast := 256
                    rleCnt := 0
                    rleRep := 0
                    crcRun := 0xFFFFFFFF }
                fsm := .emit } ∧
            memGet p.tt s.blk.origPtr.toNat = some start ∧
            ∀ i, i < bytes.length → memGet p.tt (scatterSlot bytes i) = some (BitVec.ofNat 20 i)

/-- STEP_EMIT (R284): the byte of RLE1_NEXT is folded into the running CRC and joins the bytes of the READ; where the
block is exhausted no byte is given and `fsm` becomes CRC_CHECK; an error of RLE1_NEXT is taken. `LL` and `TT` are not
changed (R281). -/
def Obligations.EmitStep : Prop :=
  ∀ (s : State) (t : ReadTxn), s.fsm = .emit → s.txn = some t →
    (∀ (b : Byte) (o : OutputRegs), nextOutputByte (walkView s) s.out = .ok (some b) o →
        exec .stepEmit s = .next
          { s with
            out := { o with crcRun := crcUpdate o.crcRun b }
            txn := some { want := t.want, out := t.out ++ [b] } }) ∧
      (s.out.rleRep ≠ 0 →
        exec .stepEmit s = .next
          { s with
            out :=
              { s.out with
                rleRep := s.out.rleRep - 1
                crcRun := crcUpdate s.out.crcRun (s.out.rleLast.setWidth 8) }
            txn := some { want := t.want, out := t.out ++ [s.out.rleLast.setWidth 8] } }) ∧
      (s.out.rleRep = 0 → s.out.walked = s.sym.nblock → exec .stepEmit s = .next { s with fsm := .crcCheck }) ∧
      ∀ (e : Err) (o : OutputRegs), nextOutputByte (walkView s) s.out = .raised e o →
        exec .stepEmit s = .next (takeError e { s with out := o })

/-- STEP_CRC_CHECK and STEP_TRAILER (R289, R290, R303): a block whose CRC agrees with the stored one is folded into
`combined` and counted, and `fsm` becomes HEADER, else BlockCRCError is raised; a trailer that agrees with `combined`
ends the stream, else StreamCRCError is raised. The position `pos` is the model's (log 3, DESIGN CHOICE). -/
def Obligations.CrcCheckAndTrailerSteps : Prop :=
  (∀ s : State, s.fsm = .crcCheck →
      exec .stepCrcCheck s = .next
        (if s.out.crcRun ^^^ 0xFFFFFFFF = s.blk.storedCrc then
          { s with
            stream :=
              { s.stream with
                combined := s.stream.combined.rotateLeft 1 ^^^ s.blk.storedCrc
                blocksDone := s.stream.blocksDone + 1 }
            fsm := .header
            pos := .magic }
        else takeError .blockCrcError s)) ∧
    ∀ (s : State) (c : Word) (rest : List Bool), s.fsm = .trailer → s.rd.wf = true →
      s.rd.pending = toBits 32 c.toNat ++ rest →
      ∃ r, s.rd.TakenTo 32 r ∧
        exec .stepTrailer s = .next
          (if c = s.stream.combined then { s with rd := r, fsm := .ended, pos := .padding }
          else takeError .streamCrcError { s with rd := r, pos := .trailer })

/-! ### Wire elements on their own (spec/30_encoding.md R119) -/

/-- STREAM_HEADER, the two magics, the fixed fields of a block, COMBINED_CRC and PADDING (R231 to R234, R302, R303, R86):
what each sets, its illegal values, and the element that follows it in the stream. That BLOCK_MAGIC empties the per-block
arrays (`in_use`, `seqToUnseq`, `selMtf`, `selectors`, the lengths and tables of all groups, `LL`, `freq`, `cum`, `TT`) and
STREAM_HEADER empties `LL` and `TT` is read from R59, R91 and R373 (log 14, DEDUCED): R231 and R302 name only the bit reader,
`bs100k`, `fsm` and the sizing of `LL` and `TT`. Running an element on its own (logs 4 and 16) and the position `pos` kept for
it (log 3) are the model's (DESIGN CHOICE). -/
def Obligations.HeaderAndFieldElements : Prop :=
  ∀ s : State,
    (∀ d : BitVec 4,
        exec (.streamHeader d) s = .next
          (if 1 ≤ d.toNat ∧ d.toNat ≤ 9 then
            { s with
              stream := { s.stream with bs100k := d }
              sym := { s.sym with ll := [] }
              perm := { s.perm with tt := [] }
              fsm := .header
              pos := .magic }
          else takeError .badBlockSizeDigit s)) ∧
      exec .blockMagic s = .next
        { s with
          fsm := .tables
          pos := .blockCrc
          map := { s.map with inUse := [], seqToUnseq := [] }
          sel := { s.sel with selMtf := [], selectors := [] }
          groups := Vector.replicate 6 Group.reset
          sym := { s.sym with ll := [], freq := [] }
          perm := { cum := [], tt := [] } } ∧
      exec .eosMagic s = .next { s with fsm := .trailer, pos := .trailer } ∧
      (∀ c, exec (.blockCrc c) s = .next
        { s with blk := { s.blk with storedCrc := c }, pos := .randomised }) ∧
      (∀ r, exec (.randomised r) s = .next
        { s with blk := { s.blk with randomised := r }, pos := .origPtr }) ∧
      (∀ p, exec (.origPtr p) s = .next { s with blk := { s.blk with origPtr := p }, pos := .usedMap }) ∧
      (∀ c, exec (.combinedCrc c) s = .next
        (if c = s.stream.combined then { s with fsm := .ended, pos := .padding }
        else takeError .streamCrcError s)) ∧
      ∀ bits, exec (.padding bits) s = .next s

/-- USED_MAP and SUB_MAP (R236): the ranges up to the next marked one are not in use; the sub-map's first bit is the
range's lowest value; after the last range the values in use are listed in ascending order and counted, and none is
EmptySymbolMap. R236 says so of the loop of the TABLES step; that USED_MAP and SUB_MAP on their own run in any state of
`fsm`, fill the ranges up to the next marked one and go on from there is the model's (log 16, DESIGN CHOICE), and so are the
loop variable `tab.used` and the position `pos` (log 3, DESIGN CHOICE). -/
def Obligations.SymbolMapElements : Prop :=
  (∀ (u : BitVec 16) (s : State),
      (u = 0 →
        exec (.usedMap u) s = .next (takeError .emptySymbolMap
          { s with
            tab := { s.tab with used := 0 }
            map := { s.map with inUse := List.replicate 256 false, nInUse := 0, seqToUnseq := [] } })) ∧
        ∀ i, i < 16 → u.getLsbD (15 - i) = true → (∀ j, j < i → u.getLsbD (15 - j) = false) →
          exec (.usedMap u) s = .next
            { s with
              tab := { s.tab with used := u }
              map := { s.map with inUse := List.replicate (16 * i) false }
              pos := .subMap }) ∧
    ∀ (m : BitVec 16) (s : State) (i : Nat), i < 16 → s.map.inUse.length = 16 * i →
      (∀ k, i < k → k < 16 → s.tab.used.getLsbD (15 - k) = true →
          (∀ j, i < j → j < k → s.tab.used.getLsbD (15 - j) = false) →
          exec (.subMap m) s = .next
            { s with
              map :=
                { s.map with
                  inUse := s.map.inUse ++ toBits 16 m.toNat ++ List.replicate (16 * (k - i - 1)) false }
              pos := .subMap }) ∧
        ∀ inUse : List Bool, inUse = s.map.inUse ++ toBits 16 m.toNat ++ List.replicate (16 * (15 - i)) false →
          (∀ j, i < j → j < 16 → s.tab.used.getLsbD (15 - j) = false) →
          (markedValues inUse ≠ [] →
              exec (.subMap m) s = .next
                { s with
                  map :=
                    { inUse := inUse
                      nInUse := BitVec.ofNat 9 (markedValues inUse).length
                      seqToUnseq := markedValues inUse
                      alphaSize := BitVec.ofNat 9 ((markedValues inUse).length + 2)
                      eob := BitVec.ofNat 9 ((markedValues inUse).length + 1) }
                  pos := .nGroups }) ∧
            (markedValues inUse = [] →
              exec (.subMap m) s = .next (takeError .emptySymbolMap
                { s with map := { s.map with inUse := inUse, nInUse := 0, seqToUnseq := [] } }))

/-- N_GROUPS, N_SELECTORS and SELECTOR_CODE (R237, R238): each count is stored and checked, and the selector MTF list is
set up afresh; a position of the list gives the next selector and moves its entry to the front, any other value is
SelectorValue. R237 and R238 say so of the TABLES step; that the elements on their own run in any state of `fsm`, and that
SELECTOR_CODE where `nSelectors` selectors are already read appends one more and goes on to the lengths, and N_SELECTORS
where an error left `nGroups` outside 2..6 sets up a list of that many, is the model's (log 16, DESIGN CHOICE), and so are the loop variable `tab.g` and the position `pos` (log 3, DESIGN CHOICE). -/
def Obligations.GroupAndSelectorElements : Prop :=
  ∀ s : State,
    (∀ g : BitVec 3,
        exec (.nGroups g) s = .next
          (if 2 ≤ g.toNat ∧ g.toNat ≤ 6 then { s with sel := { s.sel with nGroups := g }, pos := .nSelectors }
          else takeError .groupCount { s with sel := { s.sel with nGroups := g } })) ∧
      (∀ n : BitVec 15,
        exec (.nSelectors n) s = .next
          (if 1 ≤ n.toNat ∧ n.toNat ≤ 18002 then
            { s with
              sel :=
                { nGroups := s.sel.nGroups
                  nSelectors := n
                  selMtf := selectorRanks s.sel.nGroups
                  selectors := [] }
              pos := .selector }
          else takeError .selectorCount { s with sel := { s.sel with nSelectors := n } })) ∧
      (∀ j, s.sel.nGroups.toNat ≤ j → exec (.selectorCode j) s = .next (takeError .selectorValue s)) ∧
      ∀ (j : Nat) (v : BitVec 3), j < s.sel.nGroups.toNat → s.sel.selMtf[j]? = some v →
        exec (.selectorCode j) s = .next
          { s with
            sel :=
              { s.sel with
                selMtf := v :: s.sel.selMtf.eraseIdx j
                selectors := s.sel.selectors ++ [v] }
            tab := if s.sel.selectors.length + 1 < s.sel.nSelectors.toNat then s.tab else { s.tab with g := 0 }
            pos := if s.sel.selectors.length + 1 < s.sel.nSelectors.toNat then .selector else .lenSeed }

/-- LEN_SEED, LEN_INC, LEN_DEC and LEN_END (R240, R241): the current length is checked against 1..20 before every flag
bit; the end flag gives it to the next symbol; after the last symbol of a group the next group's seed follows, and after
the last group every group's tables are built and `fsm` becomes SYMBOLS. R240 and R241 say so of the loop of the TABLES
step; that LEN_SEED on its own begins a group's lengths afresh, and that the last end flag on its own goes on to the next
group or builds the tables, is the model's (log 16, DESIGN CHOICE), and so are the loop variables `tab` and the position
`pos` (log 3, DESIGN CHOICE). -/
def Obligations.LengthElements : Prop :=
  (∀ (l : BitVec 5) (s : State) (grp : Group), s.groups[s.tab.g.toNat]? = some grp →
      exec (.lenSeed l) s = .next
        (if 1 ≤ l.toNat ∧ l.toNat ≤ 20 then
          { s with
            tab := { s.tab with curr := l }
            groups := s.groups.setIfInBounds s.tab.g.toNat { grp with len := [] }
            pos := .lenFlag }
        else takeError .codeLength
          { s with
            tab := { s.tab with curr := l }
            groups := s.groups.setIfInBounds s.tab.g.toNat { grp with len := [] }
            pos := .lenFlag })) ∧
    (∀ s : State, ¬(1 ≤ s.tab.curr.toNat ∧ s.tab.curr.toNat ≤ 20) →
      exec .lenInc s = .next (takeError .codeLength s) ∧ exec .lenDec s = .next (takeError .codeLength s) ∧
        exec .lenEnd s = .next (takeError .codeLength s)) ∧
    ∀ s : State, 1 ≤ s.tab.curr.toNat → s.tab.curr.toNat ≤ 20 →
      exec .lenInc s = .next
          (if s.tab.curr.toNat < 20 then
            { s with tab := { s.tab with curr := s.tab.curr + 1 }, pos := .lenFlag }
          else takeError .codeLength { s with tab := { s.tab with curr := 21 }, pos := .lenFlag }) ∧
        exec .lenDec s = .next
          (if 1 < s.tab.curr.toNat then
            { s with tab := { s.tab with curr := s.tab.curr - 1 }, pos := .lenFlag }
          else takeError .codeLength { s with tab := { s.tab with curr := 0 }, pos := .lenFlag }) ∧
        ∀ grp, s.groups[s.tab.g.toNat]? = some grp →
          (grp.len.length + 1 < s.map.alphaSize.toNat →
              exec .lenEnd s = .next
                { s with
                  groups := s.groups.setIfInBounds s.tab.g.toNat { grp with len := grp.len ++ [s.tab.curr] }
                  pos := .lenFlag }) ∧
            (s.map.alphaSize.toNat ≤ grp.len.length + 1 → s.tab.g.toNat + 1 < s.sel.nGroups.toNat →
              exec .lenEnd s = .next
                { s with
                  groups := s.groups.setIfInBounds s.tab.g.toNat { grp with len := grp.len ++ [s.tab.curr] }
                  tab := { s.tab with g := s.tab.g + 1 }
                  pos := .lenSeed }) ∧
            (s.map.alphaSize.toNat = grp.len.length + 1 → s.sel.nGroups.toNat = s.tab.g.toNat + 1 →
              (∀ g other, g < s.tab.g.toNat → s.groups[g]? = some other →
                other.len.length = s.map.alphaSize.toNat) →
              ∃ groups : Vector Group 6,
                exec .lenEnd s = .next { s with groups := groups, fsm := .symbols, pos := .symbol } ∧
                  ∀ g, g < s.sel.nGroups.toNat →
                    ∃ old new, s.groups[g]? = some old ∧ groups[g]? = some new ∧
                      new.len = (if g = s.tab.g.toNat then old.len ++ [s.tab.curr] else old.len) ∧
                      builtFrom s.map.alphaSize.toNat new = true)

/-- SYMBOL_CODE (R242, R243): a new window of 50 symbols takes the next selector, and without one SelectorsExhausted is
raised; then the MTF/RLE2 stage takes the symbol; `EOB` moves `fsm` to PERMUTE; an error of the stage is taken. R242 and
R243 say so of the loop of the SYMBOLS step; that SYMBOL_CODE on its own does the window step first and then the stage is
the model's (log 16, DESIGN CHOICE). -/
def Obligations.SymbolCodeElement : Prop :=
  ∀ (sym : BitVec 9) (s : State),
    (s.win.groupPos = 0 → s.sel.nSelectors.toNat ≤ s.win.selIdx.toNat →
        exec (.symbolCode sym) s = .next (takeError .selectorsExhausted s)) ∧
      ∀ win : WindowRegs,
        ((s.win.groupPos ≠ 0 ∧ win = { s.win with groupPos := s.win.groupPos - 1 }) ∨
          (s.win.groupPos = 0 ∧ s.win.selIdx.toNat < s.sel.nSelectors.toNat ∧
            ∃ g, s.sel.selectors[s.win.selIdx.toNat]? = some g ∧
              win = { selIdx := s.win.selIdx + 1, groupPos := 49, curGroup := g })) →
        (sym.toNat ≤ 1 → 2 ≤ s.map.eob.toNat →
            exec (.symbolCode sym) s = .next
              { s with
                win := win
                sym :=
                  { s.sym with
                    runS :=
                      BitVec.ofNat 21 (min (s.sym.runS.toNat + (sym.toNat + 1) * 2 ^ s.sym.runK.toNat)
                        (cap s.stream + 1))
                    runK := BitVec.ofNat 5 (min (s.sym.runK.toNat + 1) 21) } }) ∧
          (∀ m, stageSymbol (cap s.stream) s.map sym.toNat s.sym = .ok () m →
            exec (.symbolCode sym) s = .next
              { s with
                win := win
                sym := m
                fsm := if sym = s.map.eob then .permute else s.fsm }) ∧
          ∀ e m, stageSymbol (cap s.stream) s.map sym.toNat s.sym = .raised e m →
            exec (.symbolCode sym) s = .next (takeError e { s with win := win, sym := m })

/-! ### Invariants, from every state that meets them -/

/-- Between transactions `fsm` rests in one of five states (the spec's sentence R32, which it derives from R304), and a
READ in flight still needs a byte and has a step to run; a decoder instance has a source, and an encoder instance a sink,
until it is closed; nothing ever stands in the issue slot of a run of host commands (the model's own, log 4). That an OPEN or
ENC_OPEN with no source or sink handed over attaches one all the same is the model's (log 8, DESIGN CHOICE). -/
def Obligations.RestingStatesKept : Prop :=
  ∀ s t : State, transactionsOk s = true → step s = .next t → transactionsOk t = true

/-- The bit reader holds no bit at or above `rd_live`, which is at most 31 (R38, R39); the bit writer holds at most 7 bits
between operations, and none above them (R57), unless the sink's error has ended an operation of it, which leaves the
encoder failed or closed (log 18); with this spec's sink it always does. -/
def Obligations.BitBuffersKept : Prop :=
  ∀ s t : State, s.rd.wf = true → s.enc.wf = true → step s = .next t → t.rd.wf = true ∧ t.enc.wf = true

/-- The block buffer and the permutation array stay in canonical form with no entry at or above `CAP`, and the level
stays at most 9 (R33, R48, R51, R89, R90). -/
def Obligations.ArraysKept : Prop :=
  ∀ s t : State, arraysOk s = true → step s = .next t → arraysOk t = true

/-- The rank table stays a permutation of 0..255 (R45, R212, R213). -/
def Obligations.RankTableKept : Prop :=
  ∀ s t : State, s.sym.mtf.Perm identityRanks → step s = .next t → t.sym.mtf.Perm identityRanks

/-- The state before the first command meets every invariant. -/
def Obligations.ResetMeetsInvariants : Prop :=
  transactionsOk State.reset = true ∧ State.reset.rd.wf = true ∧ State.reset.enc.wf = true ∧
    arraysOk State.reset = true ∧ State.reset.sym.mtf.Perm identityRanks ∧ errorCodesOk State.reset = true

/-! ### Frames: what an instruction leaves unchanged when it gives a next state -/

/-- The units' operations. Only what is named may differ from the state before; where an operation can raise, also what
an error changes (R345). A decoded symbol stores to `LL` from `nblock` on, the pending run's bytes and, for a rank
symbol, one more; every other byte of `LL` reads as before. -/
def Obligations.UnitFrames : Prop :=
  ∀ s t : State,
    (∀ i : Instr, ((∃ n, i = .bcReadBits n) ∨ i = .bcReadBool ∨ i = .bcReadUnary ∨ i = .bcReadInt32 ∨
        ∃ g, i = .htDecode g) → exec i s = .next t → t = { withErrorOf t s with rd := t.rd, ret := t.ret }) ∧
      (∀ i : Instr, ((∃ n v, i = .bcWriteBits n v) ∨ (∃ b, i = .bcWriteBool b) ∨ (∃ j, i = .bcWriteUnary j) ∨
        (∃ v, i = .bcWriteInt32 v) ∨ i = .bcFlush) → exec i s = .next t →
        t = { s with
          enc :=
            { s.enc with
              wr := t.enc.wr
              state := t.enc.state
              errKind := t.enc.errKind
              errSub := t.enc.errSub } } ∧
          (s.enc.wr.failure = none →
            t.enc.state = s.enc.state ∧ t.enc.errKind = s.enc.errKind ∧ t.enc.errSub = s.enc.errSub)) ∧
      (∀ i : Instr, ((∃ f l, i = .haAllocate f l) ∨ (∃ lens, i = .htCodes lens) ∨ (∃ x u, i = .mtfEncode x u) ∨
        i = .crcFinal) → exec i s = .next t → t = { s with ret := t.ret }) ∧
      (∀ g, exec (.htBuild g) s = .next t →
        t = { s with groups := t.groups } ∧ (∀ h, h ≠ g → t.groups[h]? = s.groups[h]?) ∧
          (t.groups[g]?).map Group.len = (s.groups[g]?).map Group.len) ∧
      (∀ i : Instr, (i = .crcInit ∨ ∃ b, i = .crcUpdate b) → exec i s = .next t →
        t = { s with out := { s.out with crcRun := t.out.crcRun } }) ∧
      (∀ c, exec (.crcCombine c) s = .next t →
        t = { s with
          stream := { s.stream with combined := t.stream.combined, blocksDone := t.stream.blocksDone } }) ∧
      (∀ b, exec (.derand b) s = .next t →
        t = { s with out := { s.out with rNToGo := t.out.rNToGo, rTPos := t.out.rTPos }, ret := t.ret }) ∧
      (exec .piBuild s = .next t → t = { s with perm := t.perm }) ∧
      (exec .piNext s = .next t →
        t = { s with
          out :=
            { s.out with
              walkPtr := t.out.walkPtr
              walked := t.out.walked
              rNToGo := t.out.rNToGo
              rTPos := t.out.rTPos }
          ret := t.ret }) ∧
      (exec .rle1Next s = .next t →
        t = { withErrorOf t s with out := { t.out with crcRun := s.out.crcRun }, ret := t.ret }) ∧
      ∀ sym, exec (.mtfDecodeSymbol sym) s = .next t →
        t = { withErrorOf t s with sym := t.sym } ∧
          (s.stream.bs100k.toNat ≤ 9 → ∀ a,
            (a < s.sym.nblock.toNat ∨
              s.sym.nblock.toNat +
                (if sym ≤ 1 then 0 else s.sym.runS.toNat + (if sym = s.map.eob.toNat then 0 else 1)) ≤ a) →
            memGet t.sym.ll a = memGet s.sym.ll a)

/-- The wire elements whose full effect is not one equation of its own statement. `tab` and `pos` are the model's (log 3,
DESIGN CHOICE). -/
def Obligations.ElementFrames : Prop :=
  ∀ s t : State,
    (∀ i : Instr, ((∃ u, i = .usedMap u) ∨ ∃ m, i = .subMap m) → exec i s = .next t →
        t = { withErrorOf t s with map := t.map, tab := { s.tab with used := t.tab.used }, pos := t.pos }) ∧
      (∀ i : Instr, ((∃ g, i = .nGroups g) ∨ (∃ n, i = .nSelectors n) ∨ ∃ j, i = .selectorCode j) →
        exec i s = .next t →
        t = { withErrorOf t s with sel := t.sel, tab := { s.tab with g := t.tab.g }, pos := t.pos }) ∧
      (∀ i : Instr, ((∃ l, i = .lenSeed l) ∨ i = .lenInc ∨ i = .lenDec ∨ i = .lenEnd) → exec i s = .next t →
        t = { withErrorOf t s with
          groups := t.groups
          tab := { t.tab with used := s.tab.used }
          pos := t.pos }) ∧
      ∀ sym, exec (.symbolCode sym) s = .next t →
        t = { withErrorOf t s with sym := t.sym, win := t.win } ∧
          (s.stream.bs100k.toNat ≤ 9 → ∀ a,
            (a < s.sym.nblock.toNat ∨
              s.sym.nblock.toNat +
                (if sym.toNat ≤ 1 then 0
                else s.sym.runS.toNat + (if sym.toNat = s.map.eob.toNat then 0 else 1)) ≤ a) →
            memGet t.sym.ll a = memGet s.sym.ll a)

/-- The steps of the state machine and the host commands. TABLES and SYMBOLS leave `TT` alone, PERMUTE fetches nothing
and leaves `LL` alone (R272, R273), EMIT writes neither `LL` nor `TT` (R281), and only CRC_CHECK writes `combined` and
`blocks_done` (R34, R35). `tab` and `pos` are the model's (log 3, DESIGN CHOICE). -/
def Obligations.StepAndCommandFrames : Prop :=
  ∀ s t : State,
    (exec .stepStreamHeader s = .next t →
        t = { withErrorOf t s with
          rd := t.rd
          stream :=
            { s.stream with
              errKind := t.stream.errKind
              errSub := t.stream.errSub
              bs100k := t.stream.bs100k }
          sym := { s.sym with ll := t.sym.ll }
          perm := { s.perm with tt := t.perm.tt }
          pos := t.pos }) ∧
      (exec .stepHeader s = .next t →
        t = { withErrorOf t s with
          rd := t.rd
          map := { s.map with inUse := t.map.inUse, seqToUnseq := t.map.seqToUnseq }
          sel := { s.sel with selMtf := t.sel.selMtf, selectors := t.sel.selectors }
          groups := t.groups
          sym := { s.sym with ll := t.sym.ll, freq := t.sym.freq }
          perm := t.perm
          pos := t.pos }) ∧
      (exec .stepTables s = .next t →
        t = { withErrorOf t s with
          rd := t.rd
          blk := t.blk
          map := t.map
          sel := t.sel
          groups := t.groups
          tab := t.tab
          pos := t.pos }) ∧
      (exec .stepSymbols s = .next t →
        t = { withErrorOf t s with rd := t.rd, sym := t.sym, win := t.win, pos := t.pos }) ∧
      (exec .stepPermute s = .next t → t = { withErrorOf t s with perm := t.perm, out := t.out }) ∧
      (exec .stepEmit s = .next t → t = { withErrorOf t s with out := t.out }) ∧
      (exec .stepCrcCheck s = .next t →
        t = { withErrorOf t s with
          stream :=
            { s.stream with
              errKind := t.stream.errKind
              errSub := t.stream.errSub
              combined := t.stream.combined
              blocksDone := t.stream.blocksDone }
          pos := t.pos }) ∧
      (exec .stepTrailer s = .next t → t = { withErrorOf t s with rd := t.rd, pos := t.pos }) ∧
      (∀ n, exec (.hostRead n) s = .next t →
        t = { s with txn := t.txn, host := { s.host with results := t.host.results } }) ∧
      (∀ v, exec (.hostClose v) s = .next t →
        t = { s with
          fsm := t.fsm
          rd := { s.rd with src := t.rd.src }
          host := { s.host with results := t.host.results } }) ∧
      (∀ v, exec (.hostOpen v) s = .next t →
        t.enc = s.enc ∧ t.txn = s.txn ∧ t.slot = s.slot ∧ t.ret = s.ret ∧ t.host.cmds = s.host.cmds ∧
          t.host.sinks = s.host.sinks) ∧
      (∀ l, exec (.encOpen l) s = .next t →
        t = { s with
          inst := t.inst
          enc := t.enc
          host := { s.host with sinks := t.host.sinks, results := t.host.results } }) ∧
      ∀ i : Instr, ((∃ m d, i = .encWrite m d) ∨ (∃ v, i = .encFinish v) ∨ ∃ v, i = .encClose v) →
        exec i s = .next t →
        t = { s with enc := t.enc, host := { s.host with results := t.host.results } }

end
end

