-- ==== Sys2Proof/Laws/Bits.lean ====
section
/-! SUPPORT. The laws of bit strings, of the bit reader's `readBits` and of the bit writer's `writeBits`: each says once
everything the operation can do. -/

namespace Sys2Proof

/-! ### Bit strings (R80) -/

@[simp] theorem toBits_length (n v : Nat) : (toBits n v).length = n := by
  induction n with
  | zero => rfl
  | succ n ih => simp [toBits, ih]

/-- A field of `m + n` bits is a field of `m` bits and a field of `n` bits. -/
theorem toBits_add (m n v : Nat) : toBits (m + n) v = toBits m (v / 2 ^ n) ++ toBits n v := by
  induction m with
  | zero => simp [toBits]
  | succ m ih =>
    have e : m + 1 + n = m + n + 1 := by omega
    rw [e]
    simp only [toBits, ih, List.cons_append, Nat.div_div_eq_div_mul, ← Nat.pow_add, Nat.add_comm n m]

/-- Only the low bits of the number count. -/
theorem toBits_mod (n v : Nat) : toBits n (v % 2 ^ n) = toBits n v := by
  have h : ∀ k n, k ≤ n → toBits k (v % 2 ^ n) = toBits k v := by
    intro k
    induction k with
    | zero => intros; rfl
    | succ k ih =>
      intro n hk
      simp only [toBits]
      congr 1
      · have e : 2 ^ n = 2 ^ k * (2 * 2 ^ (n - k - 1)) := by
          rw [← Nat.pow_succ', ← Nat.pow_add]
          congr 1
          omega
        rw [e, Nat.mod_mul_right_div_self, Nat.mod_mul_right_mod]
      · exact ih n (by omega)
  exact h n n (Nat.le_refl n)

/-- The bits of a number put together from a high and a low part. -/
theorem toBits_join (m n a b : Nat) (h : b < 2 ^ n) : toBits (m + n) (a * 2 ^ n + b) = toBits m a ++ toBits n b := by
  have hp : 0 < 2 ^ n := Nat.two_pow_pos n
  rw [toBits_add]
  congr 1
  · congr 1
    rw [Nat.mul_comm, Nat.mul_add_div hp, Nat.div_eq_of_lt h, Nat.add_zero]
  · rw [← toBits_mod n (a * 2 ^ n + b), Nat.mul_comm, Nat.mul_add_mod, Nat.mod_eq_of_lt h]

/-- A field of one bit. -/
theorem toBits_one (b : Bool) : toBits 1 b.toNat = [b] := by cases b <;> rfl

namespace Machine

/-! ### Sequencing -/

@[simp] theorem Res.bind_ok {σ α β : Type} (a : α) (s : σ) (k : α → σ → Res σ β) :
    (Res.ok a s).bind k = k a s := rfl

@[simp] theorem Res.bind_raised {σ α β : Type} (e : Err) (s : σ) (k : α → σ → Res σ β) :
    (Res.raised e s).bind k = .raised e s := rfl

@[simp] theorem Res.bind_fault {σ α β : Type} (f : Fault) (k : α → σ → Res σ β) :
    (Res.fault f : Res σ α).bind k = .fault f := rfl

@[simp] theorem Res.bind_refused {σ α β : Type} (q : Refusal) (k : α → σ → Res σ β) :
    (Res.refused q : Res σ α).bind k = .refused q := rfl

/-- A sequence that completes: its first part completes, and then its second. -/
theorem Res.bind_eq_ok {σ α β : Type} {r : Res σ α} {k : α → σ → Res σ β} {b : β} {s : σ} :
    r.bind k = .ok b s ↔ ∃ a s', r = .ok a s' ∧ k a s' = .ok b s := by
  cases r <;> simp

/-- A sequence that raises: its first part raises, or completes and its second raises. -/
theorem Res.bind_eq_raised {σ α β : Type} {r : Res σ α} {k : α → σ → Res σ β} {e : Err} {s : σ} :
    r.bind k = .raised e s ↔ r = .raised e s ∨ ∃ a s', r = .ok a s' ∧ k a s' = .raised e s := by
  cases r <;> simp

@[simp] theorem Res.lift_ok {σ τ α : Type} (put : σ → τ) (a : α) (s : σ) :
    (Res.ok a s).lift put = .ok a (put s) := rfl

@[simp] theorem Res.lift_raised {σ τ α : Type} (put : σ → τ) (e : Err) (s : σ) :
    (Res.raised e s : Res σ α).lift put = .raised e (put s) := rfl

@[simp] theorem Res.lift_fault {σ τ α : Type} (put : σ → τ) (f : Fault) :
    (Res.fault f : Res σ α).lift put = .fault f := rfl

@[simp] theorem Res.lift_refused {σ τ α : Type} (put : σ → τ) (q : Refusal) :
    (Res.refused q : Res σ α).lift put = .refused q := rfl

/-- What `finish` answers next: the state of a completed operation, or the error taken. -/
theorem finish_eq_next {r : Res State Unit} {t : State} :
    finish r = .next t ↔ r = .ok () t ∨ ∃ e s, r = .raised e s ∧ t = takeError e s := by
  cases r <;> simp [finish, eq_comm]

/-- What `finishWriter` answers next: the state of a completed operation, or the sink's error taken. -/
theorem finishWriter_eq_next {r : Res State Unit} {t : State} :
    finishWriter r = .next t ↔ r = .ok () t ∨ ∃ e s, r = .raised e s ∧ t = failEncoder e s := by
  cases r <;> simp [finishWriter, eq_comm]

/-- What `finishRet` answers next: the state of a completed operation with its value, or the error taken. -/
theorem finishRet_eq_next {α : Type} {f : α → UnitResult} {r : Res State α} {t : State} :
    finishRet f r = .next t ↔
      (∃ a s, r = .ok a s ∧ t = { s with ret := f a }) ∨ ∃ e s, r = .raised e s ∧ t = takeError e s := by
  cases r <;> simp [finishRet, eq_comm]

/-! ### The bit reader -/

theorem Reader.wf_iff (r : Reader) : r.wf = true ↔ r.acc.toNat < 2 ^ r.live.toNat ∧ r.live.toNat ≤ 31 := by
  simp [Reader.wf]

@[simp] theorem Reader.pending_length (r : Reader) :
    r.pending.length = r.live.toNat + r.sourceBits.length := by
  simp [Reader.pending]

/-- The bits of a byte sequence are eight for each byte. -/
@[simp] theorem bitsOfBytes_length (bytes : List Byte) : (bitsOfBytes bytes).length = 8 * bytes.length := by
  induction bytes with
  | nil => rfl
  | cons b rest ih =>
    simp only [bitsOfBytes, List.flatMap_cons, List.length_append, toBits_length, List.length_cons] at *
    omega

@[simp] theorem bitsOfBytes_cons (b : Byte) (rest : List Byte) :
    bitsOfBytes (b :: rest) = toBits 8 b.toNat ++ bitsOfBytes rest := rfl

@[simp] theorem bitsOfBytes_append (xs ys : List Byte) : bitsOfBytes (xs ++ ys) = bitsOfBytes xs ++ bitsOfBytes ys := by
  simp [bitsOfBytes]

/-- A byte that joins the accumulator of a reader with room for it: the same bits stay to be read. -/
theorem takeByte_spec {r : Reader} {b : Byte} {rest : List Byte} {after : SourceEnd} (hw : r.wf = true)
    (hl : r.live.toNat < 24) (hs : r.src = some { bytes := b :: rest, after := after }) :
    (takeByte b { bytes := rest, after := after } r).wf = true ∧
      (takeByte b { bytes := rest, after := after } r).live.toNat = r.live.toNat + 8 ∧
      (takeByte b { bytes := rest, after := after } r).pending = r.pending := by
  rw [Reader.wf_iff] at hw
  have hlive : (r.live + 8).toNat = r.live.toNat + 8 := by
    rw [BitVec.toNat_add, show (8 : BitVec 6).toNat = 8 from rfl]
    omega
  have hacc24 : r.acc.toNat < 2 ^ 24 :=
    Nat.lt_of_lt_of_le hw.1 (Nat.pow_le_pow_right (by decide) (by omega))
  have hb := b.isLt
  have hacc : ((r.acc <<< 8) ||| b.setWidth 64).toNat = r.acc.toNat * 2 ^ 8 + b.toNat := by
    rw [BitVec.toNat_or, BitVec.toNat_shiftLeft, BitVec.toNat_setWidth, Nat.shiftLeft_eq,
      Nat.mod_eq_of_lt (by omega), Nat.mod_eq_of_lt (a := b.toNat) (by omega), Nat.mul_comm,
      Nat.two_pow_add_eq_or_of_lt (by omega)]
  refine ⟨?_, hlive, ?_⟩
  · rw [Reader.wf_iff]
    simp only [takeByte, hlive, hacc]
    refine ⟨?_, by omega⟩
    rw [Nat.pow_add]
    omega
  · simp only [Reader.pending, takeByte, hlive, hacc, toBits_join _ 8 _ _ hb, Reader.sourceBits, hs]
    simp

/-- What `refill` does when the bits needed are there: it fetches exactly the bytes needed, and the same bits stay to be
read. -/
theorem refill_spec {n : Nat} (hn : n ≤ 24) (k : Nat) (r : Reader) (hw : r.wf = true)
    (hp : n ≤ r.pending.length) (hk : n - r.live.toNat ≤ 8 * k) :
    ∃ r', refill k n r = .ok () r' ∧ r'.wf = true ∧ r'.pending = r.pending ∧
      r'.live.toNat = r.live.toNat + 8 * r.fetches n ∧ n ≤ r'.live.toNat ∧
      r'.inCount = r.inCount + BitVec.ofNat 64 (r.fetches n) ∧ r'.inEnded = r.inEnded ∧
      r'.after = r.after := by
  induction k generalizing r with
  | zero =>
    have hf : r.fetches n = 0 := by unfold Reader.fetches; omega
    exact ⟨r, by simp [refill], hw, rfl, by omega, by omega, by simp [hf], rfl, rfl⟩
  | succ k ih =>
    simp only [refill]
    split
    · rename_i hlt
      have hsrc : r.sourceBits ≠ [] := by
        intro h0
        simp [h0] at hp
        omega
      match hs : r.src with
      | none => exact absurd (by simp [Reader.sourceBits, hs]) hsrc
      | some { bytes := [], after := e } => exact absurd (by simp [Reader.sourceBits, hs, bitsOfBytes]) hsrc
      | some { bytes := b :: rest, after := e } =>
        simp only [fetchByte, hs]
        obtain ⟨w1, w2, w3⟩ := takeByte_spec hw (by omega) hs
        obtain ⟨r', h1, h2, h3, h4, h5, h6, h7, h8⟩ := ih (takeByte b { bytes := rest, after := e } r) w1
          (by rw [w3]; exact hp) (by rw [w2]; omega)
        have hf : r.fetches n = (takeByte b { bytes := rest, after := e } r).fetches n + 1 := by
          simp only [Reader.fetches, w2]
          omega
        refine ⟨r', h1, h2, h3.trans w3, by rw [h4, w2, hf]; omega, h5, ?_, by rw [h7]; rfl, ?_⟩
        · rw [h6, hf]
          simp only [takeByte, BitVec.ofNat_add]
          ac_rfl
        · rw [h8]
          simp [takeByte, Reader.after, hs]
    · rename_i hge
      have hf : r.fetches n = 0 := by unfold Reader.fetches; omega
      exact ⟨r, rfl, hw, rfl, by omega, by omega, by simp [hf], rfl, rfl⟩

/-- What `readBits` does when the bits needed are there (R140, R141, R145): it gives the next `n` bits, first bit most
significant, and takes exactly those. -/
theorem readBits_spec {n : Nat} (hn : n ≤ 24) (r : Reader) (hw : r.wf = true) (hp : n ≤ r.pending.length) :
    ∃ v r', readBits n r = .ok v r' ∧ v < 2 ^ n ∧ toBits n v = r.pending.take n ∧ r.TakenTo n r' := by
  obtain ⟨r1, h1, h2, h3, h4, h5, h6, h7, h8⟩ := refill_spec hn n r hw hp (by omega)
  have hw1 := (Reader.wf_iff r1).1 h2
  have hleft : r1.live.toNat - n < 2 ^ 6 := by omega
  have hltn : r1.acc.toNat % 2 ^ (r1.live.toNat - n) < 2 ^ 64 :=
    Nat.lt_of_lt_of_le (Nat.mod_lt _ (Nat.two_pow_pos _)) (Nat.pow_le_pow_right (by decide) (by omega))
  have hsplit : r1.live.toNat = n + (r1.live.toNat - n) := by omega
  have hdiv : r1.acc.toNat / 2 ^ (r1.live.toNat - n) < 2 ^ n := by
    rw [Nat.div_lt_iff_lt_mul (Nat.two_pow_pos _), ← Nat.pow_add, ← hsplit]
    exact hw1.1
  have hbits : toBits r1.live.toNat r1.acc.toNat =
      toBits n (r1.acc.toNat / 2 ^ (r1.live.toNat - n)) ++ toBits (r1.live.toNat - n) r1.acc.toNat := by
    conv => lhs; rw [hsplit]
    exact toBits_add _ _ _
  refine ⟨r1.acc.toNat / 2 ^ (r1.live.toNat - n) % 2 ^ n,
    { r1 with
      acc := BitVec.ofNat 64 (r1.acc.toNat % 2 ^ (r1.live.toNat - n))
      live := BitVec.ofNat 6 (r1.live.toNat - n) }, ?_, Nat.mod_lt _ (Nat.two_pow_pos _), ?_, ?_⟩
  · simp only [readBits, Config.readBitsMax, if_pos hn, h1, Res.bind_ok, takeLive]
  · rw [Nat.mod_eq_of_lt hdiv, ← h3, Reader.pending, hbits, List.append_assoc, List.take_left' (toBits_length _ _)]
  · refine ⟨?_, ?_, h6, h7, ?_, h8⟩
    · rw [← h3, Reader.pending, Reader.pending, hbits, List.append_assoc, List.drop_left' (toBits_length _ _)]
      simp only [BitVec.toNat_ofNat, Nat.mod_eq_of_lt hleft, Nat.mod_eq_of_lt hltn, toBits_mod,
        Reader.sourceBits]
    · simp only [BitVec.toNat_ofNat, Nat.mod_eq_of_lt hleft]
      omega
    · rw [Reader.wf_iff]
      simp only [BitVec.toNat_ofNat, Nat.mod_eq_of_lt hleft, Nat.mod_eq_of_lt hltn]
      exact ⟨Nat.mod_lt _ (Nat.two_pow_pos _), by omega⟩

/-- Two reads one after the other take the bits of both. -/
theorem Reader.takenTo_add {m n : Nat} {r r' r'' : Reader} (h : r.TakenTo m r')
    (h' : r'.TakenTo n r'') : r.TakenTo (m + n) r'' := by
  obtain ⟨a1, a2, a3, a4, a5, a6⟩ := h
  obtain ⟨b1, b2, b3, b4, b5, b6⟩ := h'
  have hf : r.fetches (m + n) = r.fetches m + r'.fetches n := by
    unfold Reader.fetches at *
    omega
  refine ⟨?_, ?_, ?_, b4.trans a4, b5, b6.trans a6⟩
  · rw [b1, a1, List.drop_drop]
  · rw [hf]; omega
  · rw [b3, a3, hf, BitVec.ofNat_add]
    ac_rfl

/-! ### The bit writer -/

theorem Writer.wf_iff (w : Writer) : w.wf = true ↔ w.acc.toNat < 2 ^ w.live.toNat ∧ w.live.toNat ≤ 7 := by
  simp [Writer.wf]

/-- A byte put to a sink that takes it (R85). -/
theorem putByte_of_takes {w : Writer} (b : Byte) (ha : w.attached = true) (ht : w.takes 1 = true) :
    putByte b w = .ok () { w with sink := w.sink ++ [b], failure := w.failureAfter 1 } := by
  obtain ⟨acc, live, sink, attached, failure⟩ := w
  cases ha
  match failure with
  | none => rfl
  | some ⟨0, error⟩ => simp [Writer.takes] at ht
  | some ⟨room + 1, error⟩ => rfl

/-- A byte put to a sink that has no room left raises the sink's error (R324). -/
theorem putByte_of_full {w : Writer} {f : SinkFailure} (b : Byte) (ha : w.attached = true) (hf : w.failure = some f)
    (h0 : f.room = 0) : putByte b w = .raised f.error w := by
  simp [putByte, ha, hf, h0]

/-- A sink that takes some bytes takes fewer, and the rest after them. -/
theorem Writer.takes_split {w : Writer} {m n : Nat} (h : w.takes (m + n) = true) :
    w.takes m = true ∧ { w with failure := w.failureAfter m }.takes n = true := by
  obtain ⟨acc, live, sink, attached, failure⟩ := w
  cases failure with
  | none => exact ⟨rfl, rfl⟩
  | some f =>
    simp_all [Writer.takes, Writer.failureAfter]
    omega

theorem Writer.failureAfter_add (w : Writer) (m n : Nat) :
    { w with failure := w.failureAfter m }.failureAfter n = w.failureAfter (m + n) := by
  obtain ⟨acc, live, sink, attached, failure⟩ := w
  cases failure <;> simp [Writer.failureAfter, Nat.sub_add_eq]

@[simp] theorem Writer.failureAfter_zero (w : Writer) : w.failureAfter 0 = w.failure := by
  obtain ⟨acc, live, sink, attached, failure⟩ := w
  cases failure <;> rfl

/-- The writer after one turn of the loop of `writeBits` (R150): the oldest 8 live bits are the next byte of the sink. -/
def Writer.turned (w : Writer) : Writer :=
  { w with
    sink := w.sink ++ [BitVec.ofNat 8 (w.acc.toNat / 2 ^ (w.live.toNat - 8))]
    acc := BitVec.ofNat 32 (w.acc.toNat % 2 ^ (w.live.toNat - 8))
    live := BitVec.ofNat 5 (w.live.toNat - 8)
    failure := w.failureAfter 1 }

/-- One turn of the loop keeps the accumulator's form, and the same bits are written before and after it. -/
theorem drain_turn (w : Writer) (hacc : w.acc.toNat < 2 ^ w.live.toNat) (h8 : 8 ≤ w.live.toNat) :
    w.turned.live.toNat = w.live.toNat - 8 ∧ w.turned.acc.toNat < 2 ^ w.turned.live.toNat ∧
      w.turned.bits = w.bits := by
  have hl := w.live.isLt
  have hacc32 := w.acc.isLt
  have hleft : w.live.toNat - 8 < 2 ^ 5 := by omega
  have hlow : w.acc.toNat % 2 ^ (w.live.toNat - 8) < 2 ^ 32 := Nat.lt_of_le_of_lt (Nat.mod_le _ _) hacc32
  have hsplit : w.live.toNat = 8 + (w.live.toNat - 8) := by omega
  have hdiv : w.acc.toNat / 2 ^ (w.live.toNat - 8) < 2 ^ 8 := by
    rw [Nat.div_lt_iff_lt_mul (Nat.two_pow_pos _), ← Nat.pow_add, ← hsplit]
    exact hacc
  refine ⟨by simp only [Writer.turned, BitVec.toNat_ofNat, Nat.mod_eq_of_lt hleft], ?_, ?_⟩
  · simp only [Writer.turned, BitVec.toNat_ofNat, Nat.mod_eq_of_lt hleft, Nat.mod_eq_of_lt hlow]
    exact Nat.mod_lt _ (Nat.two_pow_pos _)
  · simp only [Writer.turned, Writer.bits, bitsOfBytes_append, BitVec.toNat_ofNat, Nat.mod_eq_of_lt hleft, Nat.mod_eq_of_lt hlow,
      toBits_mod, List.append_assoc]
    congr 1
    conv => rhs; rw [hsplit, toBits_add]
    simp only [bitsOfBytes, List.flatMap_cons, List.flatMap_nil, List.append_nil, BitVec.toNat_ofNat,
      Nat.mod_eq_of_lt hdiv]

/-- The loop of `writeBits` on a sink that takes the whole bytes: they go out in order, and fewer than 8 bits stay
live. -/
theorem drain_spec (k : Nat) (w : Writer) (ha : w.attached = true) (hacc : w.acc.toNat < 2 ^ w.live.toNat)
    (hk : w.live.toNat < 8 * (k + 1)) (ht : w.takes (w.live.toNat / 8) = true) :
    ∃ w', drain k w = .ok () w' ∧ w'.wf = true ∧ w'.bits = w.bits ∧ w'.attached = true ∧
      w'.live.toNat = w.live.toNat % 8 ∧ w.sink <+: w'.sink ∧
      w'.failure = w.failureAfter (w.live.toNat / 8) := by
  induction k generalizing w with
  | zero =>
    have h0 : w.live.toNat / 8 = 0 := by omega
    exact ⟨w, rfl, (Writer.wf_iff w).2 ⟨hacc, by omega⟩, rfl, ha, by omega, List.prefix_refl _, by simp [h0]⟩
  | succ k ih =>
    simp only [drain]
    split
    · rename_i h8
      have hd : w.live.toNat / 8 = 1 + (w.live.toNat - 8) / 8 := by omega
      rw [hd] at ht
      obtain ⟨t1, t2⟩ := Writer.takes_split ht
      obtain ⟨hl, ha', hb⟩ := drain_turn w hacc h8
      simp only [putByte_of_takes _ ha t1, Res.bind_ok]
      obtain ⟨w', h1, h2, h3, h4, h5, h6, h7⟩ := ih w.turned ha ha' (by rw [hl]; omega) (by rw [hl]; exact t2)
      refine ⟨w', h1, h2, h3.trans hb, h4, ?_, List.IsPrefix.trans ⟨_, rfl⟩ h6, ?_⟩
      · rw [h5, hl]; omega
      · rw [h7, hl, hd]
        exact w.failureAfter_add 1 _
    · rename_i h8
      have h0 : w.live.toNat / 8 = 0 := by omega
      exact ⟨w, rfl, (Writer.wf_iff w).2 ⟨hacc, by omega⟩, rfl, ha, by omega, List.prefix_refl _, by simp [h0]⟩

/-- The loop of `writeBits` on a sink without room for the whole bytes: those it has room for go out in order, and its
error is raised with the other bits still live. -/
theorem drain_fails (k : Nat) (w : Writer) (f : SinkFailure) (ha : w.attached = true)
    (hacc : w.acc.toNat < 2 ^ w.live.toNat) (hk : w.live.toNat < 8 * (k + 1)) (hf : w.failure = some f)
    (hr : f.room < w.live.toNat / 8) :
    ∃ w', drain k w = .raised f.error w' ∧ w'.bits = w.bits ∧ w'.attached = true ∧
      w'.sink.length = w.sink.length + f.room ∧ w.sink <+: w'.sink ∧ w'.failure = some { f with room := 0 } := by
  induction k generalizing w f with
  | zero => omega
  | succ k ih =>
    have h8 : 8 ≤ w.live.toNat := by omega
    simp only [drain, if_pos h8]
    match hroom : f.room with
    | 0 =>
      rw [putByte_of_full _ ha hf hroom]
      exact ⟨w, rfl, rfl, ha, by simp, List.prefix_refl _, by rw [hf, ← hroom]⟩
    | room + 1 =>
      have t1 : w.takes 1 = true := by simp [Writer.takes, hf, hroom]
      have hfa : w.failureAfter 1 = some { f with room := room } := by simp [Writer.failureAfter, hf, hroom]
      obtain ⟨hl, ha', hb⟩ := drain_turn w hacc h8
      simp only [putByte_of_takes _ ha t1, Res.bind_ok]
      obtain ⟨w', h1, h2, h3, h4, h5, h6⟩ := ih w.turned { f with room := room } ha ha' (by rw [hl]; omega) hfa
        (by rw [hl]; simp only; omega)
      refine ⟨w', h1, h2.trans hb, h3, ?_, List.IsPrefix.trans ⟨_, rfl⟩ h5, h6⟩
      rw [h4]
      simp [Writer.turned]
      omega

/-- The writer as the loop of `writeBits` finds it (R150): the `n` bits of the value have joined the live ones. -/
theorem writeBits_eq {n v : Nat} (hn : n ≤ 24) (hv : v < 2 ^ n) (w : Writer) (hw : w.wf = true) :
    ∃ w1 : Writer, writeBits n v w = drain 4 w1 ∧ w1.live.toNat = w.live.toNat + n ∧
      w1.acc.toNat < 2 ^ w1.live.toNat ∧ w1.bits = w.bits ++ toBits n v ∧ w1.attached = w.attached ∧
      w1.sink = w.sink ∧ w1.failure = w.failure := by
  rw [Writer.wf_iff] at hw
  have hlive : (w.live + BitVec.ofNat 5 n).toNat = w.live.toNat + n := by
    rw [BitVec.toNat_add, BitVec.toNat_ofNat]
    omega
  have h31 : w.acc.toNat * 2 ^ n < 2 ^ 32 := by
    have h1 : w.acc.toNat * 2 ^ n < 2 ^ w.live.toNat * 2 ^ n :=
      Nat.mul_lt_mul_of_pos_right hw.1 (Nat.two_pow_pos n)
    rw [← Nat.pow_add] at h1
    exact Nat.lt_of_lt_of_le h1 (Nat.pow_le_pow_right (by decide) (by omega))
  have hv32 : v < 2 ^ 32 := Nat.lt_of_lt_of_le hv (Nat.pow_le_pow_right (by decide) (by omega))
  have hacc : ((w.acc <<< n) ||| BitVec.ofNat 32 v).toNat = w.acc.toNat * 2 ^ n + v := by
    rw [BitVec.toNat_or, BitVec.toNat_shiftLeft, BitVec.toNat_ofNat, Nat.shiftLeft_eq, Nat.mod_eq_of_lt h31,
      Nat.mod_eq_of_lt hv32, Nat.mul_comm, Nat.two_pow_add_eq_or_of_lt hv]
  refine ⟨{ w with acc := (w.acc <<< n) ||| BitVec.ofNat 32 v, live := w.live + BitVec.ofNat 5 n },
    if_pos ⟨hn, hv⟩, hlive, ?_, ?_, rfl, rfl, rfl⟩
  · simp only [hlive, hacc]
    rw [Nat.pow_add]
    have : w.acc.toNat + 1 ≤ 2 ^ w.live.toNat := hw.1
    calc w.acc.toNat * 2 ^ n + v < (w.acc.toNat + 1) * 2 ^ n := by rw [Nat.add_mul]; omega
      _ ≤ _ := Nat.mul_le_mul_right _ this
  · simp only [Writer.bits, hlive, hacc, toBits_join _ _ _ _ hv, List.append_assoc]

/-- What `writeBits` does on a sink that takes the bytes it completes (R150): it appends the `n` bits of the value, whole
bytes go out in order, and at most 7 bits stay live. -/
theorem writeBits_spec {n v : Nat} (hn : n ≤ 24) (hv : v < 2 ^ n) (w : Writer) (hw : w.wf = true)
    (ha : w.attached = true) (ht : w.takes ((w.live.toNat + n) / 8) = true) :
    ∃ w', writeBits n v w = .ok () w' ∧ w'.wf = true ∧ w'.bits = w.bits ++ toBits n v ∧ w'.attached = true ∧
      w'.live.toNat = (w.live.toNat + n) % 8 ∧ w.sink <+: w'.sink ∧
      w'.failure = w.failureAfter ((w.live.toNat + n) / 8) := by
  obtain ⟨w1, h0, h1, h2, h3, h4, h5, h6⟩ := writeBits_eq hn hv w hw
  have hf : ∀ k, w1.failureAfter k = w.failureAfter k := fun k => by simp [Writer.failureAfter, h6]
  have hw' := (Writer.wf_iff w).1 hw
  rw [h0, ← h3, ← h1, ← h5, ← hf]
  exact drain_spec 4 w1 (h4.trans ha) h2 (by omega) (by simpa [Writer.takes, h6, h1] using ht)

/-- What `writeBits` does on a sink without room for the bytes it completes (R324): the sink's error is raised, with the
bits of the value among the live ones that no byte put holds. -/
theorem writeBits_fails {n v : Nat} (hn : n ≤ 24) (hv : v < 2 ^ n) (w : Writer) (hw : w.wf = true) {f : SinkFailure}
    (ha : w.attached = true) (hf : w.failure = some f) (hr : f.room < (w.live.toNat + n) / 8) :
    ∃ w', writeBits n v w = .raised f.error w' ∧ w'.bits = w.bits ++ toBits n v ∧
      w'.attached = true ∧ w'.sink.length = w.sink.length + f.room ∧ w.sink <+: w'.sink ∧
      w'.failure = some { f with room := 0 } := by
  obtain ⟨w1, h0, h1, h2, h3, h4, h5, h6⟩ := writeBits_eq hn hv w hw
  have hw' := (Writer.wf_iff w).1 hw
  rw [h0, ← h3, ← h5]
  exact drain_fails 4 w1 f (h4.trans ha) h2 (by omega) (h6.trans hf) (by omega)

end Machine

end Sys2Proof
end

