-- ==== Sys2Proof/Laws/Memory.lean ====
section
/-! SUPPORT. The laws of the internal arrays: a read after a write, the canonical form, the index bound; and
move-to-front. -/

namespace Sys2Proof.Machine

/-! ### Read after write -/

/-- A read at the index written gives the value written. -/
@[simp] theorem memGet_memSet_same {w : Nat} (m : Mem w) (i : Nat) (v : BitVec w) :
    memGet (memSet m i v) i = some v := by
  induction m with
  | nil => simp [memSet, memGet]
  | cons c rest ih =>
    obtain ⟨j, u⟩ := c
    simp only [memSet]
    split
    · simp [memGet]
    · split
      · simp [memGet]
      · rename_i h
        simp [memGet, Ne.symm h, ih]

/-- A write leaves every other index alone. -/
theorem memGet_memSet_other {w : Nat} (m : Mem w) {i k : Nat} (v : BitVec w) (h : k ≠ i) :
    memGet (memSet m i v) k = memGet m k := by
  induction m with
  | nil => simp [memSet, memGet, Ne.symm h]
  | cons c rest ih =>
    obtain ⟨j, u⟩ := c
    simp only [memSet]
    split
    · simp [memGet, Ne.symm h]
    · split
      · rename_i hij
        subst hij
        simp [memGet, Ne.symm h]
      · simp [memGet, ih]

/-- A read after a write, at any index. -/
theorem memGet_memSet {w : Nat} (m : Mem w) (i k : Nat) (v : BitVec w) :
    memGet (memSet m i v) k = if k = i then some v else memGet m k := by
  split
  · rename_i h; subst h; simp
  · rename_i h; exact memGet_memSet_other m v h

/-! ### Canonical form -/

/-- In canonical form every later index is above the first. -/
theorem memWf_cons {w : Nat} (j : Nat) (u : BitVec w) (m : Mem w) :
    memWf ((j, u) :: m) = true ↔ (∀ c ∈ m, j < c.1) ∧ memWf m = true := by
  induction m generalizing j u with
  | nil => simp [memWf]
  | cons c rest ih =>
    obtain ⟨k, x⟩ := c
    simp only [memWf, Bool.and_eq_true, decide_eq_true_eq, List.forall_mem_cons]
    constructor
    · rintro ⟨hjk, hw⟩
      exact ⟨⟨hjk, fun d hd => Nat.lt_trans hjk (((ih k x).1 hw).1 d hd)⟩, hw⟩
    · rintro ⟨⟨hjk, -⟩, hw⟩
      exact ⟨hjk, hw⟩

/-- The indices after a write are those before and the one written. -/
theorem mem_memSet {w : Nat} {m : Mem w} {i : Nat} {v : BitVec w} {c : Nat × BitVec w} (h : c ∈ memSet m i v) :
    c.1 = i ∨ c ∈ m := by
  induction m with
  | nil => simp_all [memSet]
  | cons d rest ih =>
    obtain ⟨j, u⟩ := d
    simp only [memSet] at h
    split at h
    · rcases List.mem_cons.1 h with rfl | h
      · exact .inl rfl
      · exact .inr h
    · split at h
      · rcases List.mem_cons.1 h with rfl | h
        · exact .inl rfl
        · exact .inr (List.mem_cons_of_mem _ h)
      · rcases List.mem_cons.1 h with rfl | h
        · exact .inr (List.mem_cons_self ..)
        · exact (ih h).imp_right (List.mem_cons_of_mem _)

/-- A write keeps the canonical form. -/
theorem memSet_wf {w : Nat} {m : Mem w} (i : Nat) (v : BitVec w) (h : memWf m = true) :
    memWf (memSet m i v) = true := by
  induction m with
  | nil => simp [memSet, memWf]
  | cons d rest ih =>
    obtain ⟨j, u⟩ := d
    have hc := (memWf_cons j u rest).1 h
    simp only [memSet]
    split
    · rename_i hij
      simp [memWf, hij, h]
    · split
      · rename_i hij
        subst hij
        exact (memWf_cons _ v rest).2 hc
      · rename_i h1 h2
        refine (memWf_cons j u _).2 ⟨fun c hcm => ?_, ih hc.2⟩
        rcases mem_memSet hcm with hi | hm
        · omega
        · exact hc.1 c hm

/-- A write below a bound keeps every index below it. -/
theorem memSet_below {w n : Nat} {m : Mem w} {i : Nat} (v : BitVec w) (h : memBelow n m = true) (hi : i < n) :
    memBelow n (memSet m i v) = true := by
  simp only [memBelow, List.all_eq_true, decide_eq_true_eq] at *
  intro c hc
  rcases mem_memSet hc with rfl | hm
  · exact hi
  · exact h c hm

/-- The empty array is canonical: it is the block buffer of the state before the first command. -/
theorem reset_memory_wf : Memory.wf State.reset.sym.ll = true ∧ memWf State.reset.perm.tt = true :=
  ⟨rfl, rfl⟩

/-! ### Move-to-front (R210) -/

/-- The list after a move is a permutation of the list before. -/
theorem moveToFront_perm {α : Type} {l l' : List α} {j : Nat} {v : α} (h : moveToFront l j = some (v, l')) :
    l'.Perm l := by
  unfold moveToFront at h
  split at h
  · rename_i u hu
    simp only [Option.some.injEq, Prod.mk.injEq] at h
    obtain ⟨rfl, rfl⟩ := h
    obtain ⟨hj, rfl⟩ := List.getElem?_eq_some_iff.1 hu
    exact (List.getElem_cons_eraseIdx_perm hj)
  · cases h

/-- A move of position 0 changes nothing. -/
theorem moveToFront_zero {α : Type} (v : α) (l : List α) : moveToFront (v :: l) 0 = some (v, v :: l) := rfl

/-- A position of the list can be moved. -/
theorem moveToFront_some {α : Type} {l : List α} {j : Nat} {v : α} (h : l[j]? = some v) :
    moveToFront l j = some (v, v :: l.eraseIdx j) := by
  simp [moveToFront, h]

end Sys2Proof.Machine
end

