-- ==== Sys2Proof/Laws/Numbers.lean ====
section
/-! SUPPORT. The numbers of any size in the operands of internal operations: the decoder reads back what the encoder
writes, and leaves what follows. -/

namespace Sys2Proof

theorem takeNat_putNatFrom (k v : Nat) (h : v ≤ k) (rest : List Byte) :
    takeNat (putNatFrom k v ++ rest) = some (v, rest) := by
  induction k generalizing v with
  | zero =>
    obtain rfl : v = 0 := by omega
    rfl
  | succ k ih =>
    unfold putNatFrom
    split
    · rename_i hv
      have e : (BitVec.ofNat 8 v).toNat = v := by rw [BitVec.toNat_ofNat]; omega
      simp only [List.cons_append, List.nil_append, takeNat, e, if_pos hv]
    · rename_i hv
      have e : (BitVec.ofNat 8 (128 + v % 128)).toNat = 128 + v % 128 := by rw [BitVec.toNat_ofNat]; omega
      simp only [List.cons_append, takeNat, e, if_neg (show ¬128 + v % 128 < 128 by omega), ih (v / 128) (by omega)]
      congr 2
      omega

/-- A number of any size is read back. -/
@[simp] theorem takeNat_putNat (v : Nat) (rest : List Byte) : takeNat (putNat v ++ rest) = some (v, rest) :=
  takeNat_putNatFrom v v (Nat.le_refl v) rest

/-- Numbers one after another are read back. -/
@[simp] theorem takeNats_putNat (vs : List Nat) (rest : List Byte) :
    takeNats vs.length (vs.flatMap putNat ++ rest) = some (vs, rest) := by
  induction vs with
  | nil => rfl
  | cons v vs ih => simp only [List.length_cons, List.flatMap_cons, List.append_assoc, takeNats, takeNat_putNat, ih]

end Sys2Proof
end

