-- ==== Sys2Proof/Laws/PerInstr.lean ====
section
/-! SUPPORT. A statement for every constructor of Instr, about its encoding: the form its words take and the code they
begin with, written here from the tables of spec/30_encoding.md (R115, R117) and, for a wire element, the position at
which it stands (R100, R119). -/

namespace Sys2Proof.Laws

/-- How an instruction's words begin. -/
inductive EncodeForm.Start where
  | host (opcode : Nat)
  | unit (code : Nat)
  | wire (pos : WirePos)
  deriving DecidableEq, Repr

/-- The beginning of words; none where there is no byte. -/
def EncodeForm.startOf (x : Issue) : Option EncodeForm.Start :=
  match x with
  | .host [] => none
  | .host (b :: _) => some (.host b.toNat)
  | .unit [] => none
  | .unit (b :: _) => some (.unit b.toNat)
  | .wire pos _ => some (.wire pos)

/-- The beginning that the spec's tables give each instruction (R100, R115, R117). -/
def EncodeForm.expected : Instr → EncodeForm.Start
  | .streamHeader _ => .wire .streamHeader
  | .blockMagic => .wire .magic
  | .blockCrc _ => .wire .blockCrc
  | .randomised _ => .wire .randomised
  | .origPtr _ => .wire .origPtr
  | .usedMap _ => .wire .usedMap
  | .subMap _ => .wire .subMap
  | .nGroups _ => .wire .nGroups
  | .nSelectors _ => .wire .nSelectors
  | .selectorCode _ => .wire .selector
  | .lenSeed _ => .wire .lenSeed
  | .lenEnd => .wire .lenFlag
  | .lenInc => .wire .lenFlag
  | .lenDec => .wire .lenFlag
  | .symbolCode _ => .wire .symbol
  | .eosMagic => .wire .magic
  | .combinedCrc _ => .wire .trailer
  | .padding _ => .wire .padding
  | .hostOpen _ => .host 0x01
  | .hostRead _ => .host 0x02
  | .hostClose _ => .host 0x03
  | .encOpen _ => .host 0x11
  | .encWrite _ _ => .host 0x12
  | .encFinish _ => .host 0x13
  | .encClose _ => .host 0x14
  | .bcReadBits _ => .unit 0x20
  | .bcReadBool => .unit 0x21
  | .bcReadUnary => .unit 0x22
  | .bcReadInt32 => .unit 0x23
  | .bcWriteBits _ _ => .unit 0x28
  | .bcWriteBool _ => .unit 0x29
  | .bcWriteUnary _ => .unit 0x2A
  | .bcWriteInt32 _ => .unit 0x2B
  | .bcFlush => .unit 0x2C
  | .haAllocate _ _ => .unit 0x30
  | .htBuild _ => .unit 0x38
  | .htDecode _ => .unit 0x39
  | .htCodes _ => .unit 0x3A
  | .mtfDecodeSymbol _ => .unit 0x40
  | .mtfEncode _ _ => .unit 0x41
  | .piBuild => .unit 0x48
  | .piNext => .unit 0x49
  | .derand _ => .unit 0x4A
  | .rle1Next => .unit 0x4B
  | .crcInit => .unit 0x50
  | .crcUpdate _ => .unit 0x51
  | .crcFinal => .unit 0x52
  | .crcCombine _ => .unit 0x53
  | .stepStreamHeader => .unit 0x60
  | .stepHeader => .unit 0x61
  | .stepTables => .unit 0x62
  | .stepSymbols => .unit 0x63
  | .stepPermute => .unit 0x64
  | .stepEmit => .unit 0x65
  | .stepCrcCheck => .unit 0x66
  | .stepTrailer => .unit 0x67

/-- The words of an instruction begin as the spec's tables say. -/
def EncodeForm.Statement (i : Instr) : Prop :=
  ∀ lens : List Nat, EncodeForm.startOf (encode lens i) = some (EncodeForm.expected i)

theorem EncodeForm.streamHeader (digit : BitVec 4) : EncodeForm.Statement (.streamHeader digit) := fun _ => rfl

theorem EncodeForm.blockMagic : EncodeForm.Statement (.blockMagic) := fun _ => rfl

theorem EncodeForm.blockCrc (c : Word) : EncodeForm.Statement (.blockCrc c) := fun _ => rfl

theorem EncodeForm.randomised (r : Bool) : EncodeForm.Statement (.randomised r) := fun _ => rfl

theorem EncodeForm.origPtr (p : BitVec 24) : EncodeForm.Statement (.origPtr p) := fun _ => rfl

theorem EncodeForm.usedMap (u : BitVec 16) : EncodeForm.Statement (.usedMap u) := fun _ => rfl

theorem EncodeForm.subMap (m : BitVec 16) : EncodeForm.Statement (.subMap m) := fun _ => rfl

theorem EncodeForm.nGroups (g : BitVec 3) : EncodeForm.Statement (.nGroups g) := fun _ => rfl

theorem EncodeForm.nSelectors (n : BitVec 15) : EncodeForm.Statement (.nSelectors n) := fun _ => rfl

theorem EncodeForm.selectorCode (j : Nat) : EncodeForm.Statement (.selectorCode j) := fun _ => rfl

theorem EncodeForm.lenSeed (l : BitVec 5) : EncodeForm.Statement (.lenSeed l) := fun _ => rfl

theorem EncodeForm.lenEnd : EncodeForm.Statement (.lenEnd) := fun _ => rfl

theorem EncodeForm.lenInc : EncodeForm.Statement (.lenInc) := fun _ => rfl

theorem EncodeForm.lenDec : EncodeForm.Statement (.lenDec) := fun _ => rfl

theorem EncodeForm.symbolCode (sym : BitVec 9) : EncodeForm.Statement (.symbolCode sym) := fun _ => rfl

theorem EncodeForm.eosMagic : EncodeForm.Statement (.eosMagic) := fun _ => rfl

theorem EncodeForm.combinedCrc (c : Word) : EncodeForm.Statement (.combinedCrc c) := fun _ => rfl

theorem EncodeForm.padding (bits : List Bool) : EncodeForm.Statement (.padding bits) := fun _ => rfl

theorem EncodeForm.hostOpen (operand : Word) : EncodeForm.Statement (.hostOpen operand) := fun _ => rfl

theorem EncodeForm.hostRead (n : Word) : EncodeForm.Statement (.hostRead n) := fun _ => rfl

theorem EncodeForm.hostClose (operand : Word) : EncodeForm.Statement (.hostClose operand) := fun _ => rfl

theorem EncodeForm.encOpen (level : Word) : EncodeForm.Statement (.encOpen level) := fun _ => rfl

theorem EncodeForm.encWrite (m : Word) (data : List Byte) : EncodeForm.Statement (.encWrite m data) := fun _ => rfl

theorem EncodeForm.encFinish (operand : Word) : EncodeForm.Statement (.encFinish operand) := fun _ => rfl

theorem EncodeForm.encClose (operand : Word) : EncodeForm.Statement (.encClose operand) := fun _ => rfl

theorem EncodeForm.bcReadBits (n : Nat) : EncodeForm.Statement (.bcReadBits n) := fun _ => rfl

theorem EncodeForm.bcReadBool : EncodeForm.Statement (.bcReadBool) := fun _ => rfl

theorem EncodeForm.bcReadUnary : EncodeForm.Statement (.bcReadUnary) := fun _ => rfl

theorem EncodeForm.bcReadInt32 : EncodeForm.Statement (.bcReadInt32) := fun _ => rfl

theorem EncodeForm.bcWriteBits (n : Nat) (v : Nat) : EncodeForm.Statement (.bcWriteBits n v) := fun _ => rfl

theorem EncodeForm.bcWriteBool (b : Bool) : EncodeForm.Statement (.bcWriteBool b) := fun _ => rfl

theorem EncodeForm.bcWriteUnary (j : Nat) : EncodeForm.Statement (.bcWriteUnary j) := fun _ => rfl

theorem EncodeForm.bcWriteInt32 (v : Word) : EncodeForm.Statement (.bcWriteInt32 v) := fun _ => rfl

theorem EncodeForm.bcFlush : EncodeForm.Statement (.bcFlush) := fun _ => rfl

theorem EncodeForm.haAllocate (f : List Nat) (maxLen : Nat) : EncodeForm.Statement (.haAllocate f maxLen) := fun _ => rfl

theorem EncodeForm.htBuild (g : Nat) : EncodeForm.Statement (.htBuild g) := fun _ => rfl

theorem EncodeForm.htDecode (g : Nat) : EncodeForm.Statement (.htDecode g) := fun _ => rfl

theorem EncodeForm.htCodes (lens : List Nat) : EncodeForm.Statement (.htCodes lens) := fun _ => rfl

theorem EncodeForm.mtfDecodeSymbol (sym : Nat) : EncodeForm.Statement (.mtfDecodeSymbol sym) := fun _ => rfl

theorem EncodeForm.mtfEncode (bytes : List Byte) (inUse : List Byte) : EncodeForm.Statement (.mtfEncode bytes inUse) := fun _ => rfl

theorem EncodeForm.piBuild : EncodeForm.Statement (.piBuild) := fun _ => rfl

theorem EncodeForm.piNext : EncodeForm.Statement (.piNext) := fun _ => rfl

theorem EncodeForm.derand (b : Byte) : EncodeForm.Statement (.derand b) := fun _ => rfl

theorem EncodeForm.rle1Next : EncodeForm.Statement (.rle1Next) := fun _ => rfl

theorem EncodeForm.crcInit : EncodeForm.Statement (.crcInit) := fun _ => rfl

theorem EncodeForm.crcUpdate (b : Byte) : EncodeForm.Statement (.crcUpdate b) := fun _ => rfl

theorem EncodeForm.crcFinal : EncodeForm.Statement (.crcFinal) := fun _ => rfl

theorem EncodeForm.crcCombine (c : Word) : EncodeForm.Statement (.crcCombine c) := fun _ => rfl

theorem EncodeForm.stepStreamHeader : EncodeForm.Statement (.stepStreamHeader) := fun _ => rfl

theorem EncodeForm.stepHeader : EncodeForm.Statement (.stepHeader) := fun _ => rfl

theorem EncodeForm.stepTables : EncodeForm.Statement (.stepTables) := fun _ => rfl

theorem EncodeForm.stepSymbols : EncodeForm.Statement (.stepSymbols) := fun _ => rfl

theorem EncodeForm.stepPermute : EncodeForm.Statement (.stepPermute) := fun _ => rfl

theorem EncodeForm.stepEmit : EncodeForm.Statement (.stepEmit) := fun _ => rfl

theorem EncodeForm.stepCrcCheck : EncodeForm.Statement (.stepCrcCheck) := fun _ => rfl

theorem EncodeForm.stepTrailer : EncodeForm.Statement (.stepTrailer) := fun _ => rfl

end Sys2Proof.Laws
end

