-- ==== Sys2Proof/Laws/Stage.lean ====
section
/-! SUPPORT. The MTF/RLE2 stage's operations, each said once: what a run writes to the block buffer, what counting does,
and how a run end completes. -/

namespace Sys2Proof.Machine

/-- A run touches the block buffer and `nblock` alone. -/
theorem pushBytes_frame (b : Byte) (n : Nat) (m : MtfStage) :
    (pushBytes b n m) = { m with ll := (pushBytes b n m).ll, nblock := (pushBytes b n m).nblock } := by
  induction n generalizing m with
  | zero => rfl
  | succ n ih =>
    simp only [pushBytes]
    rw [ih]

/-- `n` bytes written below `2^20`: `nblock` grows by `n`, and `LL` reads as the byte in the places written and as
before elsewhere. -/
theorem pushBytes_spec (b : Byte) (n : Nat) (m : MtfStage) (h : m.nblock.toNat + n < 2 ^ 20) :
    (pushBytes b n m).nblock.toNat = m.nblock.toNat + n ∧
      ∀ a, memGet (pushBytes b n m).ll a =
        if m.nblock.toNat ≤ a ∧ a < m.nblock.toNat + n then some b else memGet m.ll a := by
  induction n generalizing m with
  | zero =>
    refine ⟨rfl, fun a => ?_⟩
    rw [if_neg (by omega)]
    rfl
  | succ n ih =>
    have h1 : (m.nblock + 1).toNat = m.nblock.toNat + 1 := by
      rw [BitVec.toNat_add, show (1 : BitVec 20).toNat = 1 from rfl]
      omega
    obtain ⟨i1, i2⟩ := ih { m with ll := memSet m.ll m.nblock.toNat b, nblock := m.nblock + 1 }
      (by simp only [h1]; omega)
    simp only [h1] at i1 i2
    refine ⟨by simp only [pushBytes]; omega, fun a => ?_⟩
    simp only [pushBytes, i2, memGet_memSet]
    split <;> split <;> (try split) <;> first | rfl | omega

/-- A run keeps the canonical form of `LL`. -/
theorem pushBytes_wf (b : Byte) (n : Nat) (m : MtfStage) (h : Memory.wf m.ll = true) :
    Memory.wf (pushBytes b n m).ll = true := by
  induction n generalizing m with
  | zero => exact h
  | succ n ih => exact ih _ (memSet_wf _ _ h)

/-- A run that ends at or below a capacity of at most `2^20 - 1` keeps every index of `LL` below it. -/
theorem pushBytes_below {capacity : Nat} (b : Byte) (n : Nat) (m : MtfStage)
    (h : memBelow capacity m.ll = true) (hc : m.nblock.toNat + n ≤ capacity) (h20 : capacity < 2 ^ 20) :
    memBelow capacity (pushBytes b n m).ll = true := by
  induction n generalizing m with
  | zero => exact h
  | succ n ih =>
    have h1 : (m.nblock + 1).toNat = m.nblock.toNat + 1 := by
      rw [BitVec.toNat_add, show (1 : BitVec 20).toNat = 1 from rfl]
      omega
    refine ih _ (memSet_below _ h (by omega)) ?_
    simp only [h1]
    omega

/-- Counting a byte touches `freq` alone, and completes where the entry holds a value. -/
theorem countBytes_ok {b : Byte} {n : Nat} {m : MtfStage} {f : BitVec 20} (h : m.freq[b.toNat]? = some f) :
    countBytes b n m = .ok () { m with freq := m.freq.set b.toNat (f + BitVec.ofNat 20 n) } := by
  simp [countBytes, entry, h]

/-- A run end with no pending run. -/
theorem runEnd_of_zero {capacity : Nat} {seq : List Byte} {m : MtfStage} (h : m.runS.toNat = 0) :
    runEnd capacity seq m = .ok () { m with runS := 0, runK := 0 } := by
  simp [runEnd, h]

/-- A run end that fits: the byte at rank 0 is written `run_s` times and counted (R212). -/
theorem runEnd_of_fits {capacity : Nat} {seq : List Byte} {m : MtfStage} {v b : Byte} {f : BitVec 20}
    (h0 : m.runS.toNat ≠ 0) (hv : m.mtf[0]? = some v) (hb : seq[v.toNat]? = some b)
    (hf : m.freq[b.toNat]? = some f) (hc : m.nblock.toNat + m.runS.toNat ≤ capacity) :
    runEnd capacity seq m = .ok ()
      { pushBytes b m.runS.toNat m with
        freq := m.freq.set b.toNat (f + BitVec.ofNat 20 m.runS.toNat)
        runS := 0
        runK := 0 } := by
  have hfreq : (pushBytes b m.runS.toNat m).freq = m.freq := by rw [pushBytes_frame]
  have hcount := countBytes_ok (b := b) (n := m.runS.toNat) (m := pushBytes b m.runS.toNat m) (f := f)
    (by rw [hfreq]; exact hf)
  simp only [runEnd, if_neg h0, entry, hv, hb, Res.bind_ok, if_neg (Nat.not_lt.2 hc), hcount, hfreq]

/-- A run end that would pass the capacity raises, with nothing of the run written (R212). -/
theorem runEnd_of_overrun {capacity : Nat} {seq : List Byte} {m : MtfStage} {v b : Byte}
    (h0 : m.runS.toNat ≠ 0) (hv : m.mtf[0]? = some v) (hb : seq[v.toNat]? = some b)
    (hc : capacity < m.nblock.toNat + m.runS.toNat) :
    runEnd capacity seq m = .raised .blockOverrun m := by
  simp only [runEnd, if_neg h0, entry, hv, hb, Res.bind_ok, if_pos hc]

end Sys2Proof.Machine
end

