-- ==== Sys2Proof/Laws/State.lean ====
section
/-! SUPPORT. One lemma for each field under each named update of the state, so that no proof unfolds a record
update. -/

namespace Sys2Proof.Machine

/-! ### answer (R116) -/

@[simp] theorem answer_inst (r : Result) (s : State) : (answer r s).inst = s.inst := rfl
@[simp] theorem answer_fsm (r : Result) (s : State) : (answer r s).fsm = s.fsm := rfl
@[simp] theorem answer_stream (r : Result) (s : State) : (answer r s).stream = s.stream := rfl
@[simp] theorem answer_rd (r : Result) (s : State) : (answer r s).rd = s.rd := rfl
@[simp] theorem answer_blk (r : Result) (s : State) : (answer r s).blk = s.blk := rfl
@[simp] theorem answer_map (r : Result) (s : State) : (answer r s).map = s.map := rfl
@[simp] theorem answer_sel (r : Result) (s : State) : (answer r s).sel = s.sel := rfl
@[simp] theorem answer_groups (r : Result) (s : State) : (answer r s).groups = s.groups := rfl
@[simp] theorem answer_sym (r : Result) (s : State) : (answer r s).sym = s.sym := rfl
@[simp] theorem answer_win (r : Result) (s : State) : (answer r s).win = s.win := rfl
@[simp] theorem answer_perm (r : Result) (s : State) : (answer r s).perm = s.perm := rfl
@[simp] theorem answer_out (r : Result) (s : State) : (answer r s).out = s.out := rfl
@[simp] theorem answer_enc (r : Result) (s : State) : (answer r s).enc = s.enc := rfl
@[simp] theorem answer_host (r : Result) (s : State) : (answer r s).host = { s.host with results := s.host.results ++ [r] } := rfl
@[simp] theorem answer_txn (r : Result) (s : State) : (answer r s).txn = s.txn := rfl
@[simp] theorem answer_pos (r : Result) (s : State) : (answer r s).pos = s.pos := rfl
@[simp] theorem answer_tab (r : Result) (s : State) : (answer r s).tab = s.tab := rfl
@[simp] theorem answer_slot (r : Result) (s : State) : (answer r s).slot = s.slot := rfl
@[simp] theorem answer_ret (r : Result) (s : State) : (answer r s).ret = s.ret := rfl

/-! ### startBlock (R59) -/

@[simp] theorem startBlock_inst (s : State) : (startBlock s).inst = s.inst := rfl
@[simp] theorem startBlock_fsm (s : State) : (startBlock s).fsm = s.fsm := rfl
@[simp] theorem startBlock_stream (s : State) : (startBlock s).stream = s.stream := rfl
@[simp] theorem startBlock_rd (s : State) : (startBlock s).rd = s.rd := rfl
@[simp] theorem startBlock_blk (s : State) : (startBlock s).blk = s.blk := rfl
@[simp] theorem startBlock_map (s : State) : (startBlock s).map = { s.map with inUse := [], seqToUnseq := [] } := rfl
@[simp] theorem startBlock_sel (s : State) : (startBlock s).sel = { s.sel with selMtf := [], selectors := [] } := rfl
@[simp] theorem startBlock_groups (s : State) : (startBlock s).groups = Vector.replicate 6 Group.reset := rfl
@[simp] theorem startBlock_sym (s : State) : (startBlock s).sym = { s.sym with ll := [], freq := [] } := rfl
@[simp] theorem startBlock_win (s : State) : (startBlock s).win = s.win := rfl
@[simp] theorem startBlock_perm (s : State) : (startBlock s).perm = PermRegs.reset := rfl
@[simp] theorem startBlock_out (s : State) : (startBlock s).out = s.out := rfl
@[simp] theorem startBlock_enc (s : State) : (startBlock s).enc = s.enc := rfl
@[simp] theorem startBlock_host (s : State) : (startBlock s).host = s.host := rfl
@[simp] theorem startBlock_txn (s : State) : (startBlock s).txn = s.txn := rfl
@[simp] theorem startBlock_pos (s : State) : (startBlock s).pos = s.pos := rfl
@[simp] theorem startBlock_tab (s : State) : (startBlock s).tab = s.tab := rfl
@[simp] theorem startBlock_slot (s : State) : (startBlock s).slot = s.slot := rfl
@[simp] theorem startBlock_ret (s : State) : (startBlock s).ret = s.ret := rfl

/-! ### opened (R68, R301) -/

@[simp] theorem opened_inst (s : State) : (opened s).inst = .decoder := rfl
@[simp] theorem opened_fsm (s : State) : (opened s).fsm = .streamHeader := rfl
@[simp] theorem opened_stream (s : State) : (opened s).stream = StreamRegs.reset := rfl
@[simp] theorem opened_rd (s : State) : (opened s).rd = { Reader.reset with src := some (offeredSource s.host) } := rfl
@[simp] theorem opened_blk (s : State) : (opened s).blk = BlockRegs.reset := rfl
@[simp] theorem opened_map (s : State) : (opened s).map = SymbolMap.reset := rfl
@[simp] theorem opened_sel (s : State) : (opened s).sel = Selection.reset := rfl
@[simp] theorem opened_groups (s : State) : (opened s).groups = Vector.replicate 6 Group.reset := rfl
@[simp] theorem opened_sym (s : State) : (opened s).sym = MtfStage.reset := rfl
@[simp] theorem opened_win (s : State) : (opened s).win = WindowRegs.reset := rfl
@[simp] theorem opened_perm (s : State) : (opened s).perm = PermRegs.reset := rfl
@[simp] theorem opened_out (s : State) : (opened s).out = OutputRegs.reset := rfl
@[simp] theorem opened_enc (s : State) : (opened s).enc = s.enc := rfl
@[simp] theorem opened_host (s : State) : (opened s).host = { s.host with sources := s.host.sources.tail } := rfl
@[simp] theorem opened_txn (s : State) : (opened s).txn = s.txn := rfl
@[simp] theorem opened_pos (s : State) : (opened s).pos = .streamHeader := rfl
@[simp] theorem opened_tab (s : State) : (opened s).tab = TablesCursor.reset := rfl
@[simp] theorem opened_slot (s : State) : (opened s).slot = s.slot := rfl
@[simp] theorem opened_ret (s : State) : (opened s).ret = s.ret := rfl

/-! ### takeError (R345) -/

@[simp] theorem takeError_inst (e : Err) (s : State) : (takeError e s).inst = s.inst := by
  unfold takeError; split <;> rfl
@[simp] theorem takeError_fsm (e : Err) (s : State) : (takeError e s).fsm = .failed := by
  unfold takeError; split <;> rfl
@[simp] theorem takeError_stream (e : Err) (s : State) : (takeError e s).stream = { s.stream with errKind := errKindCode e, errSub := errSubOf e } := by
  unfold takeError; split <;> rfl
@[simp] theorem takeError_rd (e : Err) (s : State) : (takeError e s).rd = s.rd := by
  unfold takeError; split <;> rfl
@[simp] theorem takeError_blk (e : Err) (s : State) : (takeError e s).blk = s.blk := by
  unfold takeError; split <;> rfl
@[simp] theorem takeError_map (e : Err) (s : State) : (takeError e s).map = s.map := by
  unfold takeError; split <;> rfl
@[simp] theorem takeError_sel (e : Err) (s : State) : (takeError e s).sel = s.sel := by
  unfold takeError; split <;> rfl
@[simp] theorem takeError_groups (e : Err) (s : State) : (takeError e s).groups = s.groups := by
  unfold takeError; split <;> rfl
@[simp] theorem takeError_sym (e : Err) (s : State) : (takeError e s).sym = s.sym := by
  unfold takeError; split <;> rfl
@[simp] theorem takeError_win (e : Err) (s : State) : (takeError e s).win = s.win := by
  unfold takeError; split <;> rfl
@[simp] theorem takeError_perm (e : Err) (s : State) : (takeError e s).perm = s.perm := by
  unfold takeError; split <;> rfl
@[simp] theorem takeError_out (e : Err) (s : State) : (takeError e s).out = s.out := by
  unfold takeError; split <;> rfl
@[simp] theorem takeError_enc (e : Err) (s : State) : (takeError e s).enc = s.enc := by
  unfold takeError; split <;> rfl
@[simp] theorem takeError_txn (e : Err) (s : State) : (takeError e s).txn = none := by
  unfold takeError; split
  · rfl
  · assumption
@[simp] theorem takeError_pos (e : Err) (s : State) : (takeError e s).pos = s.pos := by
  unfold takeError; split <;> rfl
@[simp] theorem takeError_tab (e : Err) (s : State) : (takeError e s).tab = s.tab := by
  unfold takeError; split <;> rfl
@[simp] theorem takeError_slot (e : Err) (s : State) : (takeError e s).slot = s.slot := by
  unfold takeError; split <;> rfl
@[simp] theorem takeError_ret (e : Err) (s : State) : (takeError e s).ret = s.ret := by
  unfold takeError; split <;> rfl

/-- With a READ in flight the error is its result; without one nothing is answered. -/
theorem takeError_host (e : Err) (s : State) :
    (takeError e s).host =
      if s.txn.isSome then { s.host with results := s.host.results ++ [errResult e] } else s.host := by
  unfold takeError
  split <;> simp_all [answer]

/-! ### failEncoder (R324) -/

@[simp] theorem failEncoder_inst (e : Err) (s : State) : (failEncoder e s).inst = s.inst := rfl
@[simp] theorem failEncoder_fsm (e : Err) (s : State) : (failEncoder e s).fsm = s.fsm := rfl
@[simp] theorem failEncoder_stream (e : Err) (s : State) : (failEncoder e s).stream = s.stream := rfl
@[simp] theorem failEncoder_rd (e : Err) (s : State) : (failEncoder e s).rd = s.rd := rfl
@[simp] theorem failEncoder_blk (e : Err) (s : State) : (failEncoder e s).blk = s.blk := rfl
@[simp] theorem failEncoder_map (e : Err) (s : State) : (failEncoder e s).map = s.map := rfl
@[simp] theorem failEncoder_sel (e : Err) (s : State) : (failEncoder e s).sel = s.sel := rfl
@[simp] theorem failEncoder_groups (e : Err) (s : State) : (failEncoder e s).groups = s.groups := rfl
@[simp] theorem failEncoder_sym (e : Err) (s : State) : (failEncoder e s).sym = s.sym := rfl
@[simp] theorem failEncoder_win (e : Err) (s : State) : (failEncoder e s).win = s.win := rfl
@[simp] theorem failEncoder_perm (e : Err) (s : State) : (failEncoder e s).perm = s.perm := rfl
@[simp] theorem failEncoder_out (e : Err) (s : State) : (failEncoder e s).out = s.out := rfl
@[simp] theorem failEncoder_host (e : Err) (s : State) : (failEncoder e s).host = s.host := rfl
@[simp] theorem failEncoder_txn (e : Err) (s : State) : (failEncoder e s).txn = s.txn := rfl
@[simp] theorem failEncoder_pos (e : Err) (s : State) : (failEncoder e s).pos = s.pos := rfl
@[simp] theorem failEncoder_tab (e : Err) (s : State) : (failEncoder e s).tab = s.tab := rfl
@[simp] theorem failEncoder_slot (e : Err) (s : State) : (failEncoder e s).slot = s.slot := rfl
@[simp] theorem failEncoder_ret (e : Err) (s : State) : (failEncoder e s).ret = s.ret := rfl
@[simp] theorem failEncoder_enc (e : Err) (s : State) :
    (failEncoder e s).enc = { s.enc with state := .failed, errKind := errKindCode e, errSub := errSubOf e } := rfl

/-! ### emit (R306) -/

@[simp] theorem emit_inst (b : Byte) (s : State) : (emit b s).inst = s.inst := by
  unfold emit; split <;> rfl
@[simp] theorem emit_fsm (b : Byte) (s : State) : (emit b s).fsm = s.fsm := by
  unfold emit; split <;> rfl
@[simp] theorem emit_stream (b : Byte) (s : State) : (emit b s).stream = s.stream := by
  unfold emit; split <;> rfl
@[simp] theorem emit_rd (b : Byte) (s : State) : (emit b s).rd = s.rd := by
  unfold emit; split <;> rfl
@[simp] theorem emit_blk (b : Byte) (s : State) : (emit b s).blk = s.blk := by
  unfold emit; split <;> rfl
@[simp] theorem emit_map (b : Byte) (s : State) : (emit b s).map = s.map := by
  unfold emit; split <;> rfl
@[simp] theorem emit_sel (b : Byte) (s : State) : (emit b s).sel = s.sel := by
  unfold emit; split <;> rfl
@[simp] theorem emit_groups (b : Byte) (s : State) : (emit b s).groups = s.groups := by
  unfold emit; split <;> rfl
@[simp] theorem emit_sym (b : Byte) (s : State) : (emit b s).sym = s.sym := by
  unfold emit; split <;> rfl
@[simp] theorem emit_win (b : Byte) (s : State) : (emit b s).win = s.win := by
  unfold emit; split <;> rfl
@[simp] theorem emit_perm (b : Byte) (s : State) : (emit b s).perm = s.perm := by
  unfold emit; split <;> rfl
@[simp] theorem emit_out (b : Byte) (s : State) : (emit b s).out = s.out := by
  unfold emit; split <;> rfl
@[simp] theorem emit_enc (b : Byte) (s : State) : (emit b s).enc = s.enc := by
  unfold emit; split <;> rfl
@[simp] theorem emit_host (b : Byte) (s : State) : (emit b s).host = s.host := by
  unfold emit; split <;> rfl
@[simp] theorem emit_pos (b : Byte) (s : State) : (emit b s).pos = s.pos := by
  unfold emit; split <;> rfl
@[simp] theorem emit_tab (b : Byte) (s : State) : (emit b s).tab = s.tab := by
  unfold emit; split <;> rfl
@[simp] theorem emit_slot (b : Byte) (s : State) : (emit b s).slot = s.slot := by
  unfold emit; split <;> rfl
@[simp] theorem emit_ret (b : Byte) (s : State) : (emit b s).ret = s.ret := by
  unfold emit; split <;> rfl

@[simp] theorem emit_txn (b : Byte) (s : State) :
    (emit b s).txn = s.txn.map fun t => { t with out := t.out ++ [b] } := by
  unfold emit
  split <;> simp_all

/-! ### settleRead (R304) -/

@[simp] theorem completeRead_inst (t : ReadTxn) (s : State) : (completeRead t s).inst = s.inst := by
  unfold completeRead; split <;> rfl
@[simp] theorem completeRead_fsm (t : ReadTxn) (s : State) : (completeRead t s).fsm = s.fsm := by
  unfold completeRead; split <;> rfl
@[simp] theorem completeRead_rd (t : ReadTxn) (s : State) : (completeRead t s).rd = s.rd := by
  unfold completeRead; split <;> rfl
@[simp] theorem completeRead_blk (t : ReadTxn) (s : State) : (completeRead t s).blk = s.blk := by
  unfold completeRead; split <;> rfl
@[simp] theorem completeRead_map (t : ReadTxn) (s : State) : (completeRead t s).map = s.map := by
  unfold completeRead; split <;> rfl
@[simp] theorem completeRead_sel (t : ReadTxn) (s : State) : (completeRead t s).sel = s.sel := by
  unfold completeRead; split <;> rfl
@[simp] theorem completeRead_groups (t : ReadTxn) (s : State) : (completeRead t s).groups = s.groups := by
  unfold completeRead; split <;> rfl
@[simp] theorem completeRead_sym (t : ReadTxn) (s : State) : (completeRead t s).sym = s.sym := by
  unfold completeRead; split <;> rfl
@[simp] theorem completeRead_win (t : ReadTxn) (s : State) : (completeRead t s).win = s.win := by
  unfold completeRead; split <;> rfl
@[simp] theorem completeRead_perm (t : ReadTxn) (s : State) : (completeRead t s).perm = s.perm := by
  unfold completeRead; split <;> rfl
@[simp] theorem completeRead_out (t : ReadTxn) (s : State) : (completeRead t s).out = s.out := by
  unfold completeRead; split <;> rfl
@[simp] theorem completeRead_enc (t : ReadTxn) (s : State) : (completeRead t s).enc = s.enc := by
  unfold completeRead; split <;> rfl
@[simp] theorem completeRead_pos (t : ReadTxn) (s : State) : (completeRead t s).pos = s.pos := by
  unfold completeRead; split <;> rfl
@[simp] theorem completeRead_tab (t : ReadTxn) (s : State) : (completeRead t s).tab = s.tab := by
  unfold completeRead; split <;> rfl
@[simp] theorem completeRead_slot (t : ReadTxn) (s : State) : (completeRead t s).slot = s.slot := by
  unfold completeRead; split <;> rfl
@[simp] theorem completeRead_ret (t : ReadTxn) (s : State) : (completeRead t s).ret = s.ret := by
  unfold completeRead; split <;> rfl

@[simp] theorem completeRead_txn (t : ReadTxn) (s : State) : (completeRead t s).txn = none := by
  unfold completeRead; split <;> rfl

@[simp] theorem settleRead_inst (s : State) : (settleRead s).inst = s.inst := by
  unfold settleRead; split
  · split <;> simp
  · rfl
@[simp] theorem settleRead_fsm (s : State) : (settleRead s).fsm = s.fsm := by
  unfold settleRead; split
  · split <;> simp
  · rfl
@[simp] theorem settleRead_rd (s : State) : (settleRead s).rd = s.rd := by
  unfold settleRead; split
  · split <;> simp
  · rfl
@[simp] theorem settleRead_blk (s : State) : (settleRead s).blk = s.blk := by
  unfold settleRead; split
  · split <;> simp
  · rfl
@[simp] theorem settleRead_map (s : State) : (settleRead s).map = s.map := by
  unfold settleRead; split
  · split <;> simp
  · rfl
@[simp] theorem settleRead_sel (s : State) : (settleRead s).sel = s.sel := by
  unfold settleRead; split
  · split <;> simp
  · rfl
@[simp] theorem settleRead_groups (s : State) : (settleRead s).groups = s.groups := by
  unfold settleRead; split
  · split <;> simp
  · rfl
@[simp] theorem settleRead_sym (s : State) : (settleRead s).sym = s.sym := by
  unfold settleRead; split
  · split <;> simp
  · rfl
@[simp] theorem settleRead_win (s : State) : (settleRead s).win = s.win := by
  unfold settleRead; split
  · split <;> simp
  · rfl
@[simp] theorem settleRead_perm (s : State) : (settleRead s).perm = s.perm := by
  unfold settleRead; split
  · split <;> simp
  · rfl
@[simp] theorem settleRead_out (s : State) : (settleRead s).out = s.out := by
  unfold settleRead; split
  · split <;> simp
  · rfl
@[simp] theorem settleRead_enc (s : State) : (settleRead s).enc = s.enc := by
  unfold settleRead; split
  · split <;> simp
  · rfl
@[simp] theorem settleRead_pos (s : State) : (settleRead s).pos = s.pos := by
  unfold settleRead; split
  · split <;> simp
  · rfl
@[simp] theorem settleRead_tab (s : State) : (settleRead s).tab = s.tab := by
  unfold settleRead; split
  · split <;> simp
  · rfl
@[simp] theorem settleRead_slot (s : State) : (settleRead s).slot = s.slot := by
  unfold settleRead; split
  · split <;> simp
  · rfl
@[simp] theorem settleRead_ret (s : State) : (settleRead s).ret = s.ret := by
  unfold settleRead; split
  · split <;> simp
  · rfl

/-- With no READ in flight the loop condition changes nothing. -/
theorem settleRead_of_none {s : State} (h : s.txn = none) : settleRead s = s := by
  simp [settleRead, h]

/-- A READ that has its bytes, or has come to the end of the stream, is completed. -/
theorem settleRead_of_done {s : State} {t : ReadTxn} (h : s.txn = some t)
    (hd : t.want ≤ t.out.length ∨ s.fsm = .ended) : settleRead s = completeRead t s := by
  simp only [settleRead, h, if_pos hd]

/-- A READ that still needs a byte goes on. -/
theorem settleRead_of_open {s : State} {t : ReadTxn} (h : s.txn = some t)
    (hd : ¬(t.want ≤ t.out.length ∨ s.fsm = .ended)) : settleRead s = s := by
  simp only [settleRead, h, if_neg hd]

/-- What the loop condition can do to the stream registers: count the bytes of an OK result. -/
theorem settleRead_stream (s : State) :
    (settleRead s).stream = s.stream ∨
      ∃ t, s.txn = some t ∧
        (settleRead s).stream = { s.stream with outCount := s.stream.outCount + BitVec.ofNat 64 t.out.length } := by
  unfold settleRead
  split
  · rename_i t ht
    split
    · unfold completeRead
      split
      · exact .inl rfl
      · exact .inr ⟨t, ht, rfl⟩
    · exact .inl rfl
  · exact .inl rfl

end Sys2Proof.Machine
end

