-- ==== Sys2Proof/Laws/Step.lean ====
section
/-! SUPPORT. What a step can do, said once: it runs an instruction and settles the READ, answers an opcode that is no
command, or does nothing; and what fetching an instruction changes. -/

namespace Sys2Proof.Machine

open Host (Outcome)

/-- Settling answers next exactly where the outcome does. -/
theorem settle_eq_next {o : Outcome State Fault Refusal} {t : State} :
    settle o = .next t ↔ ∃ u, o = .next u ∧ t = settleRead u := by
  cases o <;> simp [settle, eq_comm]

/-- Everything a step that answers next can have done. -/
theorem step_cases {s t : State} (h : step s = .next t) :
    (∃ i s' u, fetch s = .run i s' ∧ exec i s' = .next u ∧ t = settleRead u) ∨
      (∃ s', fetch s = .illegal s' ∧ t = answer illegalCommandResult s') ∨ (fetch s = .idle ∧ t = s) := by
  unfold step at h
  split at h
  · rename_i i s' hf
    obtain ⟨u, hu, ht⟩ := settle_eq_next.1 h
    exact .inl ⟨i, s', u, hf, hu, ht⟩
  · rename_i s' hf
    cases h
    exact .inr (.inl ⟨s', hf, rfl⟩)
  · rename_i hf
    cases h
    exact .inr (.inr ⟨hf, rfl⟩)
  · cases h

/-- A command taken from the host's bytes changes nothing but those. -/
theorem fetchCommand_run {s s' : State} {i : Instr} (h : fetchCommand s = .run i s') :
    ∃ rest, decodeHost s.host.cmds = .ok i rest ∧ s' = { s with host := { s.host with cmds := rest } } := by
  unfold fetchCommand at h
  split at h
  · rename_i j rest hd
    cases h
    exact ⟨rest, hd, rfl⟩
  · cases h
  · cases h

/-- An opcode that is no command: its bytes are taken. -/
theorem fetchCommand_illegal {s s' : State} (h : fetchCommand s = .illegal s') :
    s' = { s with host := { s.host with cmds := s.host.cmds.drop 5 } } := by
  unfold fetchCommand at h
  split at h
  · cases h
  · cases h; rfl
  · cases h

/-- The operation of a state of `fsm` is run in the state itself. -/
theorem fetchStep_run {s s' : State} {i : Instr} (h : fetchStep s = .run i s') : s' = s := by
  unfold fetchStep at h
  split at h
  · split at h
    · cases h; rfl
    · cases h
  · cases h

theorem fetchStep_not_illegal (s s' : State) : fetchStep s ≠ .illegal s' := by
  unfold fetchStep
  split
  · split <;> simp
  · simp

/-- What fetching an instruction changes: the issue slot, which is emptied, and the host's bytes. -/
theorem fetch_run {s s' : State} {i : Instr} (h : fetch s = .run i s') :
    s' = { s with slot := .empty, host := { s.host with cmds := s'.host.cmds } } := by
  unfold fetch at h
  split at h
  · split at h
    · cases h; rfl
    · cases h
  · split at h
    · cases h; rfl
    · cases h
  · rename_i hs
    split at h
    · obtain rfl := fetchStep_run h
      rw [← hs]
    · obtain ⟨rest, -, rfl⟩ := fetchCommand_run h
      simp [← hs]

/-- With the issue slot empty, an opcode that is no command is met only between transactions. -/
theorem fetch_illegal {s s' : State} (h : fetch s = .illegal s') :
    s.slot = .empty ∧ s.txn = none ∧ s' = { s with host := { s.host with cmds := s.host.cmds.drop 5 } } := by
  unfold fetch at h
  split at h
  · split at h <;> cases h
  · split at h <;> cases h
  · rename_i hs
    split at h
    · exact absurd h (fetchStep_not_illegal s s')
    · rename_i ht
      exact ⟨hs, ht, fetchCommand_illegal h⟩

/-- The operation a READ in flight runs, by the state `fsm` holds (R305, R117). -/
theorem fetchStep_eq (s : State) :
    fetchStep s =
      match s.fsm with
      | .streamHeader => .run .stepStreamHeader s
      | .header => .run .stepHeader s
      | .tables => .run .stepTables s
      | .symbols => .run .stepSymbols s
      | .permute => .run .stepPermute s
      | .emit => .run .stepEmit s
      | .crcCheck => .run .stepCrcCheck s
      | .trailer => .run .stepTrailer s
      | .ended => .idle
      | .failed => .idle
      | .closed => .idle := by
  unfold fetchStep
  cases s.fsm <;> rfl

end Sys2Proof.Machine
end

