-- ==== Sys2Proof/Tests/Slice0.lean ====
section
/-! SUPPORT. Tests, each of one step or one operation on a small state, with the values of spec/95_test_vectors.md and
of the rules' own examples; an ill-formed term for each check of WellFormed; a word written out from the spec for every
constructor; and, for every statement with hypotheses, a state and operands that meet them. -/

namespace Sys2Proof.Tests

set_option Elab.async false

open Sys2Proof.Machine
open Host (Outcome)

/-! ### Helpers -/

/-- The state an outcome goes on with. -/
def nextOf (o : Outcome State Fault Refusal) : Option State :=
  match o with
  | .next s => some s
  | .fault _ => none
  | .refused _ => none

/-- One field of the state an outcome goes on with has this value. -/
def gives {α : Type} [DecidableEq α] (o : Outcome State Fault Refusal) (f : State → α) (v : α) : Bool :=
  match nextOf o with
  | some s => decide (f s = v)
  | none => false

/-- The outcome is this refusal. -/
def refuses (o : Outcome State Fault Refusal) (q : Refusal) : Bool :=
  match o with
  | .refused r => decide (r = q)
  | .next _ => false
  | .fault _ => false

/-- The outcome is this fault. -/
def faults (o : Outcome State Fault Refusal) (q : Fault) : Bool :=
  match o with
  | .fault r => decide (r = q)
  | .next _ => false
  | .refused _ => false

/-- A reader of these bytes from reset. -/
def readerOf (bytes : List Byte) : Reader := { Reader.reset with src := some { bytes := bytes, after := .ends } }

/-- An opened decoder instance in a state of `fsm` with these bytes still to come. -/
def decoderAt (f : Fsm) (bytes : List Byte) : State :=
  { State.reset with inst := .decoder, fsm := f, rd := readerOf bytes }

/-- The same with a READ in flight that wants 4 bytes. -/
def readingAt (f : Fsm) (bytes : List Byte) : State :=
  { decoderAt f bytes with txn := some { want := 4, out := [] } }

/-- An encoder instance just opened at a level, its header bytes put (R320). -/
def encoderOpen (level : Nat) : State :=
  { State.reset with
    inst := .encoder
    enc :=
      { encoderAt level none with
        wr := { Writer.reset with sink := [0x42, 0x5A, 0x68, BitVec.ofNat 8 (0x30 + level)], attached := true } } }

/-- A sink that takes this many bytes and then fails, with kind 7. -/
def sinkWith (room : Nat) : SinkFailure := { room := room, error := .unexpectedEndOfData }

/-- The same onto a sink that fails. -/
def encoderOnto (f : SinkFailure) : State :=
  { encoderOpen 9 with enc := { (encoderOpen 9).enc with wr := { (encoderOpen 9).enc.wr with failure := some f } } }

/-- An encoder that its sink's error has failed. -/
def failedEncoder : Encoder := { encoderAt 9 none with state := .failed, errKind := 7 }

/-- A decoder instance with these bytes to come, and what the source does after them. -/
def decoderOn (bytes : List Byte) (after : SourceEnd) : State :=
  { decoderAt .header [] with rd := { Reader.reset with src := some { bytes := bytes, after := after } } }

/-- The symbol map of a block with these byte values in use. -/
def mapOf (values : List Byte) : SymbolMap :=
  { inUse := (List.range 256).map fun b => values.contains (BitVec.ofNat 8 b)
    nInUse := BitVec.ofNat 9 values.length
    seqToUnseq := values
    alphaSize := BitVec.ofNat 9 (values.length + 2)
    eob := BitVec.ofNat 9 (values.length + 1) }

/-- A group with these lengths and no table. -/
def lensGroup (lens : List Nat) : Group := { Group.reset with len := lens.map (BitVec.ofNat 5) }

/-- A group built from these lengths. -/
def builtGroup (lens : List Nat) : Group :=
  match buildGroup lens.length (lensGroup lens) with
  | .ok _ g => g
  | .raised _ g => g
  | .fault _ => Group.reset
  | .refused _ => Group.reset

/-- The lengths of the `banana` block (R245). -/
def bananaLens : List Nat := [3, 3, 3, 1, 3]

/-- The SYMBOLS state of the `banana` block (R245), its symbols still to come. -/
def bananaSymbols (bits : List Byte) : State :=
  { readingAt .symbols bits with
    stream := { StreamRegs.reset with bs100k := 9 }
    map := mapOf [0x61, 0x62, 0x6E]
    sel := { nGroups := 2, nSelectors := 1, selMtf := [0, 1], selectors := [0] }
    groups := (State.reset.groups.set 0 (builtGroup bananaLens)).set 1 (builtGroup bananaLens) }

/-- A block buffer of these bytes, with their counts (R217). -/
def stageOf (bytes : List Byte) : MtfStage :=
  { MtfStage.reset with
    ll := (List.range bytes.length).map fun i => (i, bytes.getD i 0)
    freq := (List.range 256).map fun b => BitVec.ofNat 20 (bytes.count (BitVec.ofNat 8 b))
    nblock := BitVec.ofNat 20 bytes.length }

/-- `nnbaaa`, the permuted bytes of `banana` (R220). -/
def nnbaaa : List Byte := [0x6E, 0x6E, 0x62, 0x61, 0x61, 0x61]

/-- The PERMUTE state of the `banana` block (R291). -/
def bananaPermute : State :=
  { readingAt .permute [] with
    stream := { StreamRegs.reset with bs100k := 9 }
    blk := { storedCrc := 0xEFB6EC01, randomised := false, origPtr := 3 }
    sym := stageOf nnbaaa }

/-- A walk over these bytes in order, from position 0. -/
def walkOver (f : Fsm) (bytes : List Byte) : State :=
  { readingAt f [] with
    stream := { StreamRegs.reset with bs100k := 1 }
    sym := stageOf bytes
    perm := { cum := [], tt := (List.range bytes.length).map fun i => (i, BitVec.ofNat 20 (i + 1)) } }

/-! ### WellFormed: a term refused by each check -/

theorem test_wf_refuses_symbol : (Instr.symbolCode 258).wf = false := by decide
theorem test_wf_refuses_padding : (Instr.padding (List.replicate 8 false)).wf = false := by decide
theorem test_wf_refuses_data_count : (Instr.encWrite 2 [0x61]).wf = false := by decide
theorem test_wf_refuses_read_width : (Instr.bcReadBits 25).wf = false := by decide
theorem test_wf_refuses_write : (Instr.bcWriteBits 25 0).wf = false ∧ (Instr.bcWriteBits 3 8).wf = false := by decide
theorem test_wf_refuses_allocate :
    (Instr.haAllocate [] 1).wf = false ∧ (Instr.haAllocate [1] 0).wf = false ∧ (Instr.haAllocate [1] 33).wf = false := by decide

/-- R152 and R170 bound neither `j` nor a frequency. -/
theorem test_wf_unbounded :
    (Instr.bcWriteUnary (2 ^ 32)).wf = true ∧ (Instr.haAllocate [2 ^ 32, 1] 32).wf = true := by decide

theorem test_wf_refuses_group : (Instr.htBuild 6).wf = false ∧ (Instr.htDecode 6).wf = false := by decide
theorem test_wf_refuses_lengths :
    (Instr.htCodes []).wf = false ∧ (Instr.htCodes [0]).wf = false ∧ (Instr.htCodes [21]).wf = false := by decide
theorem test_wf_refuses_mtf_symbol : (Instr.mtfDecodeSymbol 258).wf = false := by decide
theorem test_wf_refuses_mtf_operands :
    (Instr.mtfEncode [] []).wf = false ∧ (Instr.mtfEncode [1] [2, 1]).wf = false ∧
      (Instr.mtfEncode [3] [1]).wf = false ∧ (Instr.mtfEncode [1] [1, 2]).wf = false := by decide
theorem test_wf_refuses_counts :
    ascending [1, 1] = false ∧ ascending [2, 1] = false ∧ ascending [1, 2] = true := by decide

/-! ### Decode: a word written out from the spec's encoding for every constructor -/

/-- The wire format in stream order (R101 to R109); `aaaaaaa`'s fields and the `banana` block's lengths. -/
theorem test_decode_wire_fixed :
    decode [] (.wire .streamHeader
        [false, true, false, false, false, false, true, false, false, true, false, true, true, false, true, false,
          false, true, true, false, true, false, false, false, false, false, true, true, true, false, false, true]) =
      some (.streamHeader 9) ∧
    decode [] (.wire .magic (bitsOfBytes [0x31, 0x41, 0x59, 0x26, 0x53, 0x59])) = some .blockMagic ∧
    decode [] (.wire .magic (bitsOfBytes [0x17, 0x72, 0x45, 0x38, 0x50, 0x90])) = some .eosMagic ∧
    decode [] (.wire .blockCrc (bitsOfBytes [0xEF, 0xB6, 0xEC, 0x01])) = some (.blockCrc 0xEFB6EC01) ∧
    decode [] (.wire .randomised [true]) = some (.randomised true) ∧
    decode [] (.wire .origPtr (bitsOfBytes [0x00, 0x00, 0x03])) = some (.origPtr 3) ∧
    decode [] (.wire .usedMap
        [false, false, false, false, false, false, true, false, false, false, false, false, false, false, false,
          false]) = some (.usedMap 0x0200) ∧
    decode [] (.wire .subMap (bitsOfBytes [0x60, 0x02])) = some (.subMap 0x6002) ∧
    decode [] (.wire .trailer (bitsOfBytes [0xEF, 0xB6, 0xEC, 0x01])) = some (.combinedCrc 0xEFB6EC01) := by
  decide +kernel

/-- Counts, selectors, lengths, symbols and padding (R104, R105, R107, R109). -/
theorem test_decode_wire_variable :
    decode [] (.wire .nGroups [true, true, false]) = some (.nGroups 6) ∧
    decode [] (.wire .nSelectors
        [true, false, false, false, true, true, false, false, true, false, true, false, false, true, false]) =
      some (.nSelectors 18002) ∧
    decode [] (.wire .selector [true, true, false]) = some (.selectorCode 2) ∧
    decode [] (.wire .lenSeed [false, false, false, true, true]) = some (.lenSeed 3) ∧
    decode [] (.wire .lenFlag [false]) = some .lenEnd ∧
    decode [] (.wire .lenFlag [true, false]) = some .lenInc ∧
    decode [] (.wire .lenFlag [true, true]) = some .lenDec ∧
    decode [3, 3, 2, 2, 2] (.wire .symbol [true, true, false]) = some (.symbolCode 0) ∧
    decode [] (.wire .padding [false, false, false, false]) = some (.padding [false, false, false, false]) := by
  decide +kernel

/-- The host commands (R115), the operand big-endian (log 6). -/
theorem test_decode_host :
    decode [] (.host [0x01, 0, 0, 0, 0]) = some (.hostOpen 0) ∧
    decode [] (.host [0x02, 0x7F, 0xFF, 0xFF, 0xFF]) = some (.hostRead 0x7FFFFFFF) ∧
    decode [] (.host [0x03, 0, 0, 0, 0]) = some (.hostClose 0) ∧
    decode [] (.host [0x11, 0, 0, 0, 9]) = some (.encOpen 9) ∧
    decode [] (.host [0x12, 0, 0, 0, 2, 0x61, 0x62]) = some (.encWrite 2 [0x61, 0x62]) ∧
    decode [] (.host [0x13, 0, 0, 0, 0]) = some (.encFinish 0) ∧
    decode [] (.host [0x14, 0, 0, 0, 0]) = some (.encClose 0) ∧
    decodeHost [0x07, 0, 0, 0, 0] = .bad (.unknownCode 7) ∧
    decodeHost [0x12, 0, 0, 0, 2, 0x61] = .bad .truncated := by
  decide +kernel

/-- The codes of R117 with their operands (log 6). -/
theorem test_decode_unit :
    decode [] (.unit [0x20, 24]) = some (.bcReadBits 24) ∧ decode [] (.unit [0x21]) = some .bcReadBool ∧
    decode [] (.unit [0x22]) = some .bcReadUnary ∧ decode [] (.unit [0x23]) = some .bcReadInt32 ∧
    decode [] (.unit [0x28, 3, 0, 0, 0, 5]) = some (.bcWriteBits 3 5) ∧
    decode [] (.unit [0x29, 1]) = some (.bcWriteBool true) ∧
    decode [] (.unit [0x2A, 3]) = some (.bcWriteUnary 3) ∧
    decode [] (.unit [0x2B, 0xDE, 0xAD, 0xBE, 0xEF]) = some (.bcWriteInt32 0xDEADBEEF) ∧
    decode [] (.unit [0x2C]) = some .bcFlush ∧
    decode [] (.unit [0x30, 31, 1, 5, 0]) = some (.haAllocate [5, 0] 32) ∧
    decode [] (.unit [0x38, 1]) = some (.htBuild 1) ∧ decode [] (.unit [0x39, 5]) = some (.htDecode 5) ∧
    decode [] (.unit [0x3A, 0, 2, 0, 1, 1]) = some (.htCodes [1, 2, 2]) := by
  decide +kernel

/-- Operands of any size (log 6): 2^32 is five bytes with 7 bits each, the least significant first. -/
theorem test_decode_unbounded :
    decode [] (.unit [0x2A, 0x80, 0x80, 0x80, 0x80, 0x10]) = some (.bcWriteUnary (2 ^ 32)) ∧
    decode [] (.unit [0x30, 31, 1, 0x80, 0x80, 0x80, 0x80, 0x10, 1]) = some (.haAllocate [2 ^ 32, 1] 32) := by
  decide +kernel

/-- The encoder's words of an operand of any size are read back. -/
theorem test_encode_unbounded (j : Nat) : decode [] (encode [] (.bcWriteUnary j)) = some (.bcWriteUnary j) := by
  have h := takeNat_putNat j []
  rw [List.append_nil] at h
  simp [encode, decode, decodeUnit, decodeUnitBody, bigOperand, h]

/-- The codes of R117 with their operands, continued. -/
theorem test_decode_unit_more :
    decode [] (.unit [0x40, 1, 1]) = some (.mtfDecodeSymbol 257) ∧
    decode [] (.unit [0x41, 0, 0, 0, 2, 0x62, 0x62, 0x61, 1, 0x61, 0x62]) =
      some (.mtfEncode [0x62, 0x62, 0x61] [0x61, 0x62]) ∧
    decode [] (.unit [0x48]) = some .piBuild ∧ decode [] (.unit [0x49]) = some .piNext ∧
    decode [] (.unit [0x4A, 0x61]) = some (.derand 0x61) ∧ decode [] (.unit [0x4B]) = some .rle1Next ∧
    decode [] (.unit [0x50]) = some .crcInit ∧ decode [] (.unit [0x51, 0x62]) = some (.crcUpdate 0x62) ∧
    decode [] (.unit [0x52]) = some .crcFinal ∧
    decode [] (.unit [0x53, 0xFC, 0x89, 0x19, 0x18]) = some (.crcCombine 0xFC891918) ∧
    decode [] (.unit [0x60]) = some .stepStreamHeader ∧ decode [] (.unit [0x61]) = some .stepHeader ∧
    decode [] (.unit [0x62]) = some .stepTables ∧ decode [] (.unit [0x63]) = some .stepSymbols ∧
    decode [] (.unit [0x64]) = some .stepPermute ∧ decode [] (.unit [0x65]) = some .stepEmit ∧
    decode [] (.unit [0x66]) = some .stepCrcCheck ∧ decode [] (.unit [0x67]) = some .stepTrailer := by
  decide +kernel

/-- What no row has is refused by name. -/
theorem test_decode_refuses :
    decodeUnit [0x24] = .bad (.unknownCode 0x24) ∧ decodeUnit [0x20, 25] = .bad .operandOutOfRange ∧
    decodeWire .magic [] (bitsOfBytes [0x31, 0x41, 0x59, 0x26, 0x53, 0x58]) = .bad .noSuchElement ∧
    decodeWire .symbol [2, 2, 2] [true, true] = .bad .noCodeword ∧
    decodeWire .symbol [2, 2, 2] [true] = .bad .noCodeword := by
  decide +kernel

/-- The words of the opcode table as the host numbers them. -/
theorem test_decode_table_words :
    decodeTableWord 32 0x425A6830 = some (.streamHeader 0) ∧
    decodeTableWord 48 0x314159265359 = some .blockMagic ∧ decodeTableWord 8 0x02 = some (.hostRead 0) ∧
    decodeTableWord 8 0x11 = some (.encOpen 0) ∧ decodeTableWord 8 0x41 = some (.mtfEncode [0] [0]) ∧
    decodeTableWord 8 0x67 = some .stepTrailer ∧ decodeTableWord 2 2 = some .lenInc ∧
    decodeTableWord 40 0x0400000002 = some (.hostRead 0x04000000) := by
  decide +kernel

/-! ### Bit channel: spec/95 section 2.1 and the examples of R140 to R154 -/

/-- R141: `B5 3C` at reset, three bits give 5 and leave 5 live after one fetch. -/
theorem test_read_bits :
    gives (execBcReadBits 3 (decoderAt .header [0xB5, 0x3C])) (fun s => (s.ret, s.rd.live, s.rd.inCount))
      (.nat 5, 5, 1) = true := by decide +kernel

/-- R140, 2.1: eight bits of the one byte `AB` after four were read raise, with one byte fetched. -/
theorem test_read_bits_past_end :
    gives (execBcReadBits 8 { decoderAt .header [] with rd := { readerOf [] with acc := 11, live := 4, inCount := 1 } })
      (fun s => (s.fsm, s.stream.errKind, s.rd.live, s.rd.inCount, s.rd.inEnded)) (.failed, 7, 4, 1, true) = true := by
  decide +kernel

/-- R146: more than 24 bits are refused. -/
theorem test_read_bits_refused :
    refuses (execBcReadBits 25 (decoderAt .header [1, 2, 3, 4])) .operandOutOfRange = true := by decide +kernel

/-- R142: the fourth bit of `B5`. -/
theorem test_read_bool :
    gives (execBcReadBool { decoderAt .header [] with rd := { readerOf [] with acc := 0x15, live := 5 } })
      (fun s => (s.ret, s.rd.live)) (.bool true, 4) = true := by decide +kernel

/-- R143: `FF FE` gives 15, and `FF` alone raises. -/
theorem test_read_unary :
    gives (execBcReadUnary (decoderAt .header [0xFF, 0xFE])) (fun s => (s.ret, s.rd.live, s.rd.inCount))
        (.nat 15, 0, 2) = true ∧
      gives (execBcReadUnary (decoderAt .header [0xFF])) (fun s => (s.fsm, s.stream.errKind)) (.failed, 7) = true := by
  decide +kernel

/-- R144, and the last row of 2.1: `11` live, then `00 31 41 59 26`. -/
theorem test_read_int32 :
    gives (execBcReadInt32 (decoderAt .header [0xDE, 0xAD, 0xBE, 0xEF])) (fun s => (s.ret, s.rd.live))
        (.nat 0xDEADBEEF, 0) = true ∧
      gives
        (execBcReadInt32
          { decoderAt .header [] with rd := { readerOf [0x00, 0x31, 0x41, 0x59, 0x26] with acc := 3, live := 2 } })
        (fun s => (s.ret, s.rd.live, s.rd.inCount)) (.nat 0xC00C5056, 2, 4) = true := by decide +kernel

/-- A source that never answers is the fault of R359; one that was detached has no move (R387). -/
theorem test_fetch_stops :
    faults (execBcReadBool { decoderAt .header [] with rd := { Reader.reset with src := some ⟨[], .silent⟩ } }) .fetchHangs =
        true ∧
      refuses (execBcReadBool { decoderAt .header [] with rd := Reader.reset }) .sourceDetached = true := by
  decide +kernel

/-- R359: a unary code of an endless source of `FF` never ends; a 0 bit anywhere in its round ends it. -/
theorem test_endless_source :
    faults (execBcReadUnary (decoderOn [0xFF] (.repeats 0xFF [0xFF]))) .inputNeverEnds = true ∧
      gives (execBcReadUnary (decoderOn [] (.repeats 0xFF [0xFE]))) (fun s => (s.ret, s.rd.inCount)) (.nat 15, 2) = true ∧
      gives (execBcReadBits 24 (decoderOn [] (.repeats 0xA5 []))) State.ret (.nat 0xA5A5A5) = true := by decide +kernel

/-- 2.1: `WriteBits(3, 5)` and then `WriteBits(5, 21)` put `B5` at once. -/
theorem test_write_bits :
    gives (execBcWriteBits 3 5 (encoderOpen 9)) (fun s => (s.enc.wr.acc, s.enc.wr.live)) (5, 3) = true ∧
      gives
        (execBcWriteBits 5 21
          { encoderOpen 9 with enc := { encoderAt 9 none with wr := { Writer.reset with acc := 5, live := 3, attached := true } } })
        (fun s => (s.enc.wr.sink, s.enc.wr.live)) ([0xB5], 0) = true := by decide +kernel

/-- R150: a value of `2^n` is refused. -/
theorem test_write_bits_refused : refuses (execBcWriteBits 3 8 (encoderOpen 9)) .operandOutOfRange = true := by
  decide +kernel

/-- R151. -/
theorem test_write_bool :
    gives (execBcWriteBool true (encoderOpen 9)) (fun s => (s.enc.wr.acc, s.enc.wr.live)) (1, 1) = true := by
  decide +kernel

/-- R152: `1110`, which a flush makes `E0`. -/
theorem test_write_unary :
    gives (execBcWriteUnary 3 (encoderOpen 9)) (fun s => (s.enc.wr.acc, s.enc.wr.live)) (14, 4) = true := by
  decide +kernel

/-- R153, after the header bytes of ENC_OPEN. -/
theorem test_write_int32 :
    gives (execBcWriteInt32 0xDEADBEEF (encoderOpen 9)) (fun s => (s.enc.wr.sink, s.enc.wr.live))
      ([0x42, 0x5A, 0x68, 0x39, 0xDE, 0xAD, 0xBE, 0xEF], 0) = true := by decide +kernel

/-- R85, R324: a sink with room for one more byte takes the first of four and fails at the second. -/
theorem test_sink_fails :
    gives (execBcWriteInt32 0xDEADBEEF (encoderOnto ⟨1, .corruptBlockHeader⟩))
      (fun s => (s.enc.state, s.enc.errKind, s.enc.errSub, s.enc.wr.sink))
      (.failed, 1, 3, [0x42, 0x5A, 0x68, 0x39, 0xDE]) = true := by decide +kernel

/-- R154: `001` is padded to `20`; with nothing live nothing is put. -/
theorem test_flush :
    gives
        (execBcFlush
          { encoderOpen 9 with enc := { encoderAt 9 none with wr := { Writer.reset with acc := 1, live := 3, attached := true } } })
        (fun s => (s.enc.wr.sink, s.enc.wr.live)) ([0x20], 0) = true ∧
      gives (execBcFlush (encoderOpen 9)) (fun s => s.enc.wr.sink) [0x42, 0x5A, 0x68, 0x39] = true := by
  decide +kernel

/-! ### Length allocator: R181 and spec/95 section 2.2 -/

/-- The fixtures of R181. -/
theorem test_allocate_fixtures :
    gives (execHaAllocate [1] 32 State.reset) State.ret (.nats [1]) = true ∧
      gives (execHaAllocate [1, 1, 1, 1, 1] 32 State.reset) State.ret (.nats [3, 3, 2, 2, 2]) = true ∧
      gives (execHaAllocate [0, 0, 1, 1, 1, 1] 3 State.reset) State.ret (.nats [3, 3, 3, 3, 2, 2]) = true := by
  decide +kernel

/-- Rescaling (R176) and the refusal of R174. -/
theorem test_allocate_rescales :
    gives (execHaAllocate [1, 2, 4, 8, 16, 32, 64, 128] 4 State.reset) State.ret
        (.nats [4, 4, 4, 4, 4, 4, 3, 1]) = true ∧
      refuses (execHaAllocate [1, 1, 1] 1 State.reset) .operandOutOfRange = true := by decide +kernel

/-! ### Huffman tables: spec/95 section 2.3 -/

/-- The tables of `[3, 3, 3, 1, 3]`, the `banana` groups. -/
theorem test_build :
    gives
      (execHtBuild 0
        { decoderAt .tables [] with
          map := mapOf [0x61, 0x62, 0x6E], sel := { Selection.reset with nGroups := 2 }
          groups := State.reset.groups.set 0 (lensGroup bananaLens) })
      (fun s => s.groups[0])
      { len := [3, 3, 3, 1, 3], minLen := 1, maxLen := 3, limit := [(1, 0), (2, 1), (3, 7)]
        base := [(1, 0), (2, 1), (3, 3)], perm := [3, 0, 1, 2, 4] } = true := by decide +kernel

/-- A group outside the block's groups is refused; lengths never read are the fault of R59. -/
theorem test_build_stops :
    refuses (execHtBuild 2 (bananaSymbols [])) .operandOutOfRange = true ∧
      faults
        (execHtBuild 0
          { decoderAt .tables [] with map := mapOf [0x61], sel := { Selection.reset with nGroups := 2 } })
        (.entryAbsent .len) = true := by decide +kernel

/-- `9B 00`: the first symbol is 0, of three bits. -/
theorem test_decode_symbol :
    gives (execHtDecode 0 (bananaSymbols [0x9B, 0x00])) (fun s => (s.ret, s.rd.live)) (.nat 0, 5) = true := by
  decide +kernel

/-- R199: `11` is no codeword of `[2, 2, 2]`; it raises after two bits. -/
theorem test_decode_no_codeword :
    gives (execHtDecode 0 { bananaSymbols [0xC0] with groups := State.reset.groups.set 0 (builtGroup [2, 2, 2]) })
      (fun s => (s.stream.errKind, s.stream.errSub, s.rd.live, s.rd.inCount)) (3, 0, 6, 1) = true := by decide +kernel

/-- The codewords of `[4, 4, 3, 2, 1]` and of `[2, 1, 3, 3]`. -/
theorem test_codes :
    gives (execHtCodes [4, 4, 3, 2, 1] State.reset) State.ret (.nats [14, 15, 6, 2, 0]) = true ∧
      gives (execHtCodes [2, 1, 3, 3] State.reset) State.ret (.nats [2, 0, 6, 7]) = true := by decide +kernel

/-! ### MTF/RLE2 stage: spec/95 section 2.4 and R220, R221 -/

/-- RUNB after RUNA: a run of 1 + 4 (R211); and the saturation at `CAP + 1` and 21. -/
theorem test_run_digit :
    gives
        (execMtfDecodeSymbol 1
          { bananaSymbols [] with sym := { stageInit MtfStage.reset with runS := 1, runK := 1 } })
        (fun s => (s.sym.runS, s.sym.runK)) (5, 2) = true ∧
      gives
        (execMtfDecodeSymbol 0
          { bananaSymbols [] with sym := { stageInit MtfStage.reset with runS := 900001, runK := 21 } })
        (fun s => (s.sym.runS, s.sym.runK)) (900001, 21) = true := by decide +kernel

/-- R220: the first symbol of `banana`, 3, writes `n`, the byte of rank 2. -/
theorem test_rank_symbol :
    gives (execMtfDecodeSymbol 3 { bananaSymbols [] with sym := stageInit MtfStage.reset })
      (fun s => (s.sym.ll, s.sym.mtf.take 3, s.sym.nblock, s.sym.freq[0x6E]?)) ([(0, 0x6E)], [2, 0, 1], 1, some 1) =
        true := by decide +kernel

/-- R212 and R214: `EOB` writes the pending run of rank 0. -/
theorem test_eob :
    gives
      (execMtfDecodeSymbol 4 { bananaSymbols [] with sym := { stageInit MtfStage.reset with runS := 3, runK := 2 } })
      (fun s => (s.sym.ll, s.sym.runS, s.sym.runK, s.sym.freq[0x61]?))
      ([(0, 0x61), (1, 0x61), (2, 0x61)], 0, 0, some 3) = true := by decide +kernel

/-- R221: a symbol at the capacity raises BlockOverrun, and nothing is written. -/
theorem test_block_overrun :
    gives
      (execMtfDecodeSymbol 2
        { bananaSymbols [] with sym := { stageInit MtfStage.reset with nblock := 900000, ll := [(899999, 0x61)] } })
      (fun s => (s.stream.errKind, s.stream.errSub, s.sym.ll, s.sym.nblock)) (4, 0, [(899999, 0x61)], 900000) =
        true := by decide +kernel

/-- The encoder's symbols of `nnbaaa` and of `bbaa`. -/
theorem test_mtf_encode :
    gives (execMtfEncode nnbaaa [0x61, 0x62, 0x6E] State.reset) State.ret (.nats [3, 0, 3, 3, 1, 4]) = true ∧
      gives (execMtfEncode [0x62, 0x62, 0x61, 0x61] [0x61, 0x62] State.reset) State.ret
        (.nats [2, 0, 2, 0, 3]) = true := by decide +kernel

/-! ### Block output: spec/95 sections 2.6 to 2.8 and R291 -/

/-- R276: `nnbaaa` gives `TT = [3, 4, 5, 2, 0, 1]`. -/
theorem test_permutation :
    gives (execPiBuild bananaPermute) (fun s => s.perm.tt) [(0, 3), (1, 4), (2, 5), (3, 2), (4, 0), (5, 1)] =
      true := by decide +kernel

/-- R277, R278: the walk of `banana` starts at 2, and its first byte is `b`. -/
theorem test_walk :
    gives
      (execPiNext
        { bananaPermute with
          fsm := .emit, perm := { cum := [], tt := [(0, 3), (1, 4), (2, 5), (3, 2), (4, 0), (5, 1)] }
          out := { OutputRegs.reset with walkPtr := 2 } })
      (fun s => (s.ret, s.out.walkPtr, s.out.walked)) (.byte 0x62, 5, 1) = true := by decide +kernel

/-- R278: with no walk byte left PI_NEXT has no move. -/
theorem test_walk_exhausted :
    refuses (execPiNext { bananaPermute with out := { OutputRegs.reset with walked := 6 } }) .walkExhausted = true := by
  decide +kernel

/-- R282: at walk index 0 the counter is loaded, to 618; where it comes to 1 the byte is masked. -/
theorem test_derand :
    gives (execDerand 0x61 State.reset) (fun s => (s.ret, s.out.rNToGo, s.out.rTPos)) (.byte 0x61, 618, 1) = true ∧
      gives (execDerand 0x61 { State.reset with out := { OutputRegs.reset with rNToGo := 2, rTPos := 1 } })
        (fun s => (s.ret, s.out.rNToGo, s.out.rTPos)) (.byte 0x60, 1, 1) = true := by decide +kernel

/-- 2.8: the fourth `a` takes its count; without one it raises. -/
theorem test_run_length :
    gives
        (execRle1Next
          { walkOver .emit [0x61, 0x61, 0x61, 0x61, 0x03] with
            out := { OutputRegs.reset with walkPtr := 3, walked := 3, rleLast := 0x61, rleCnt := 3 } })
        (fun s => (s.ret, s.out.rleRep, s.out.rleCnt, s.out.walked)) (.byte 0x61, 3, 0, 5) = true ∧
      gives
        (execRle1Next
          { walkOver .emit [0x61, 0x61, 0x61, 0x61] with
            out := { OutputRegs.reset with walkPtr := 3, walked := 3, rleLast := 0x61, rleCnt := 3 } })
        (fun s => (s.stream.errKind, s.stream.errSub, s.host.results, s.txn)) (1, 6, [.err 1 6], none) = true := by
  decide +kernel

/-- R286, R287: from the initial value, the byte `a`, whose block CRC is `0x19939B6B` (R288). -/
theorem test_crc :
    gives (execCrcInit { State.reset with out := { OutputRegs.reset with crcRun := 5 } }) (fun s => s.out.crcRun)
        0xFFFFFFFF = true ∧
      gives (execCrcUpdate 0x61 State.reset) (fun s => s.out.crcRun) (0x19939B6B ^^^ 0xFFFFFFFF) = true := by
  decide +kernel

/-- R288 and R290, with their examples. -/
theorem test_crc_final_combine :
    gives (execCrcFinal { State.reset with out := { OutputRegs.reset with crcRun := 0x104913FE } })
        (fun s => (s.ret, s.out.crcRun)) (.word 0xEFB6EC01, 0x104913FE) = true ∧
      gives (execCrcCombine 0xFC891918 { State.reset with stream := { StreamRegs.reset with combined := 0xEFB6EC01 } })
        (fun s => (s.stream.combined, s.stream.blocksDone)) (0x23E4C11B, 1) = true := by decide +kernel

/-! ### Wire elements: R231 to R243 -/

/-- R302: the digits 0 and 10 are illegal; 9 is not. -/
theorem test_stream_header_element :
    gives (execStreamHeader 0 State.reset) (fun s => (s.fsm, s.stream.errKind, s.stream.errSub)) (.failed, 1, 2) = true ∧
      gives (execStreamHeader 10 State.reset) (fun s => (s.fsm, s.stream.errKind, s.stream.errSub)) (.failed, 1, 2) =
        true ∧
      gives (execStreamHeader 9 State.reset) (fun s => (s.fsm, s.stream.bs100k)) (.header, 9) = true := by
  decide +kernel

/-- R231: the two magics. -/
theorem test_magics :
    gives (execBlockMagic (bananaSymbols [])) (fun s => (s.fsm, s.groups[0].len, s.map.inUse)) (.tables, [], []) =
        true ∧
      gives (execEosMagic State.reset) State.fsm .trailer = true := by decide +kernel

/-- R232, R233, R234. -/
theorem test_block_fields :
    gives (execBlockCrc 0xEFB6EC01 State.reset) (fun s => (s.blk.storedCrc, s.pos)) (0xEFB6EC01, .randomised) = true ∧
      gives (execRandomised true State.reset) (fun s => (s.blk.randomised, s.pos)) (true, .origPtr) = true ∧
      gives (execOrigPtr 3 State.reset) (fun s => (s.blk.origPtr, s.pos)) (3, .usedMap) = true := by decide +kernel

/-- The used map of 2.5, `8200`, and its last sub-map; no range marked is EmptySymbolMap (R236). -/
theorem test_symbol_map :
    gives (execUsedMap 0x8200 State.reset) (fun s => (s.tab.used, s.map.inUse, s.pos)) (0x8200, [], .subMap) = true ∧
      gives (execUsedMap 0 State.reset) (fun s => (s.stream.errKind, s.stream.errSub)) (1, 4) = true ∧
      gives
        (execSubMap 0x4000
          { State.reset with
            tab := { TablesCursor.reset with used := 0x8200 }
            map := { SymbolMap.reset with inUse := (List.range 96).map fun b => b == 3 } })
        (fun s => (s.map.seqToUnseq, s.map.nInUse, s.map.alphaSize, s.map.eob, s.pos))
        ([0x03, 0x61], 2, 4, 3, .nGroups) = true := by decide +kernel

/-- R237: 2 to 6 groups, 1 to 18002 selectors. -/
theorem test_counts :
    gives (execNGroups 7 State.reset) (fun s => (s.stream.errKind, s.stream.errSub, s.sel.nGroups)) (2, 1, 7) = true ∧
      gives (execNGroups 6 State.reset) (fun s => (s.sel.nGroups, s.pos)) (6, .nSelectors) = true ∧
      gives (execNSelectors 18003 State.reset) (fun s => (s.stream.errKind, s.stream.errSub)) (2, 2) = true ∧
      gives (execNSelectors 18002 { State.reset with sel := { Selection.reset with nGroups := 3 } })
        (fun s => (s.sel.selMtf, s.sel.selectors, s.pos)) ([0, 1, 2], [], .selector) = true := by decide +kernel

/-- R238: the third code of its example, and a position past the list. -/
theorem test_selector :
    gives
        (execSelectorCode 2
          { State.reset with sel := { nGroups := 3, nSelectors := 4, selMtf := [1, 0, 2], selectors := [1, 1] } })
        (fun s => (s.sel.selMtf, s.sel.selectors, s.pos)) ([2, 1, 0], [1, 1, 2], .selector) = true ∧
      gives
        (execSelectorCode 3
          { State.reset with sel := { nGroups := 3, nSelectors := 4, selMtf := [1, 0, 2], selectors := [1, 1] } })
        (fun s => (s.stream.errKind, s.stream.errSub)) (2, 3) = true := by decide +kernel

/-- R240: the seeds 0 and 21 fail at once, 20 does not; up from 20 fails at the next check, before the next bit. -/
theorem test_length_checks :
    gives (execLenSeed 0 State.reset) (fun s => (s.stream.errKind, s.stream.errSub)) (2, 4) = true ∧
      gives (execLenSeed 21 State.reset) (fun s => (s.stream.errKind, s.stream.errSub)) (2, 4) = true ∧
      gives (execLenSeed 20 State.reset) (fun s => (s.tab.curr, s.pos)) (20, .lenFlag) = true ∧
      gives (execLenInc { State.reset with tab := { TablesCursor.reset with curr := 20 } })
        (fun s => (s.stream.errKind, s.stream.errSub)) (2, 4) = true ∧
      gives (execLenDec { State.reset with tab := { TablesCursor.reset with curr := 4 } }) (fun s => s.tab.curr) 3 =
        true := by decide +kernel

/-- R240, R241: the last length of the last group, after which the tables are built and SYMBOLS begins. -/
theorem test_length_end :
    gives
      (execLenEnd
        { State.reset with
          map := mapOf [0x61, 0x62, 0x6E], sel := { Selection.reset with nGroups := 2 }
          groups := (State.reset.groups.set 0 (lensGroup bananaLens)).set 1 (lensGroup [3, 3, 3, 1])
          tab := { used := 0, g := 1, curr := 3 } })
      (fun s => (s.fsm, s.pos, s.groups[0].perm, s.groups[1].perm, s.groups[1].len))
      (.symbols, .symbol, [3, 0, 1, 2, 4], [3, 0, 1, 2, 4], [3, 3, 3, 1, 3]) = true := by decide +kernel

/-- R242: a new window without a selector raises; `EOB` moves to PERMUTE. -/
theorem test_symbol_element :
    gives (execSymbolCode 0 { bananaSymbols [] with win := { selIdx := 1, groupPos := 0, curGroup := 0 } })
        (fun s => (s.stream.errKind, s.stream.errSub)) (2, 5) = true ∧
      gives (execSymbolCode 4 (bananaSymbols [])) (fun s => (s.fsm, s.win)) (.permute, ⟨1, 49, 0⟩) = true := by
  decide +kernel

/-- R303, R86. -/
theorem test_trailer_element :
    gives (execCombinedCrc 1 State.reset) (fun s => (s.stream.errKind, s.fsm)) (6, .failed) = true ∧
      gives (execCombinedCrc 0 State.reset) State.fsm .ended = true ∧
      gives (execPadding [true] State.reset) (fun s => decide (s = State.reset)) true = true := by decide +kernel

/-! ### Steps: the P2 stream of spec/95 section 5 and the error vectors of section 3 -/

/-- R302: `BZ0` fails after three fetches; a digit of 1. -/
theorem test_step_stream_header :
    gives (execStepStreamHeader (readingAt .streamHeader [0x42, 0x5A, 0x30, 0x39]))
        (fun s => (s.stream.errKind, s.stream.errSub, s.rd.inCount)) (1, 1, 3) = true ∧
      gives (execStepStreamHeader (readingAt .streamHeader [0x42, 0x5A, 0x68, 0x31])) (fun s => (s.fsm, s.stream.bs100k))
        (.header, 1) = true := by decide +kernel

/-- R231. -/
theorem test_step_header :
    gives (execStepHeader (readingAt .header [0x31, 0x41, 0x59, 0x26, 0x53, 0x59])) State.fsm .tables = true ∧
      gives (execStepHeader (readingAt .header [0x31, 0x41, 0x59, 0x26, 0x53, 0x58]))
        (fun s => (s.stream.errKind, s.stream.errSub, s.rd.inCount)) (1, 3, 6) = true := by decide +kernel

/-- The TABLES state of the `banana` block, bytes 10 to 29 of the P2 stream still to come (R245). -/
def bananaTables : State :=
  readingAt .tables
    [0xEF, 0xB6, 0xEC, 0x01, 0x00, 0x00, 0x01, 0x81, 0x00, 0x30, 0x01, 0x20, 0x00, 0x21, 0x8F, 0x50, 0x63, 0xD4, 0x42,
      0xF1]

/-- R245: the tables of the `banana` block. -/
theorem test_step_tables :
    gives (execStepTables bananaTables) (fun s => (s.fsm, s.blk, s.map.seqToUnseq, s.sel))
        (.symbols, ⟨0xEFB6EC01, false, 3⟩, [0x61, 0x62, 0x6E], ⟨2, 1, [0, 1], [0]⟩) = true ∧
      gives (execStepTables bananaTables) (fun s => (s.groups[0].len, s.groups[1].len, s.rd.inCount, s.rd.live))
        ([3, 3, 3, 1, 3], [3, 3, 3, 1, 3], 18, 0) = true := by decide +kernel

/-- R220, R245: the symbols `0 100 0 0 101 111` of `banana`. -/
theorem test_step_symbols :
    gives (execStepSymbols (bananaSymbols [0x42, 0xF0]))
      (fun s => (s.fsm, s.sym.ll, s.sym.nblock, s.rd.live))
      (.permute, [(0, 0x6E), (1, 0x6E), (2, 0x62), (3, 0x61), (4, 0x61), (5, 0x61)], 6, 4) = true := by decide +kernel

/-- R274, R277: `origPtr = 6` fails; 3 starts the walk at 2. -/
theorem test_step_permute :
    gives (execStepPermute { bananaPermute with blk := { bananaPermute.blk with origPtr := 6 } })
        (fun s => (s.stream.errKind, s.stream.errSub)) (1, 5) = true ∧
      gives (execStepPermute bananaPermute) (fun s => (s.fsm, s.out.walkPtr, s.out.rleLast)) (.emit, 2, 256) = true := by
  decide +kernel

/-- R284: a byte is emitted and folded into the CRC; an exhausted block emits nothing. -/
theorem test_step_emit :
    gives (execStepEmit (walkOver .emit [0x61])) (fun s => (s.txn, s.out.crcRun))
        (some ⟨4, [0x61]⟩, 0x19939B6B ^^^ 0xFFFFFFFF) = true ∧
      gives (execStepEmit { walkOver .emit [0x61] with out := { OutputRegs.reset with walked := 1 } })
        (fun s => (s.fsm, s.txn)) (.crcCheck, some ⟨4, []⟩) = true := by decide +kernel

/-- R289, with its two examples. -/
theorem test_step_crc_check :
    gives
        (execStepCrcCheck
          { bananaPermute with fsm := .crcCheck, out := { OutputRegs.reset with crcRun := 0x104913FE } })
        (fun s => (s.fsm, s.stream.combined, s.stream.blocksDone)) (.header, 0xEFB6EC01, 1) = true ∧
      gives
        (execStepCrcCheck
          { bananaPermute with
            fsm := .crcCheck, out := { OutputRegs.reset with crcRun := 0x104913FE }
            blk := ⟨0xEFB6EC00, false, 3⟩ })
        (fun s => (s.stream.errKind, s.stream.combined)) (5, 0) = true := by decide +kernel

/-- R303: a trailer of 0 with nothing combined ends the stream; another raises. -/
theorem test_step_trailer :
    gives (execStepTrailer (readingAt .trailer [0, 0, 0, 0])) State.fsm .ended = true ∧
      gives (execStepTrailer (readingAt .trailer [0, 0, 0, 1])) (fun s => (s.stream.errKind, s.rd.inCount)) (6, 4) =
        true ∧
      refuses (execStepTrailer (readingAt .header [0, 0, 0, 0])) .stepNotSelected = true := by decide +kernel

/-! ### Host commands: spec/95 section 5 -/

/-- R301: OPEN attaches the source and answers OK; to an encoder it is IllegalCommand. -/
theorem test_open :
    gives (execHostOpen 0 { State.reset with host := ⟨[], [⟨[0x42], .ends⟩], [], []⟩ })
        (fun s => (s.inst, s.fsm, s.rd.src, s.host.results, windowRead s 0))
        (.decoder, .streamHeader, some ⟨[0x42], .ends⟩, [.ok []], 0) = true ∧
      gives (execHostOpen 0 (encoderOpen 9)) (fun s => (s.inst, s.host.results)) (.encoder, [.err 9 0]) = true := by
  decide +kernel

/-- P10: READ to an instance never opened, and above READ_MAX. -/
theorem test_read_illegal :
    gives (execHostRead 1 State.reset) (fun s => (s.inst, s.host.results)) (.neverOpened, [.err 9 0]) = true ∧
      gives (execHostRead 0x80000000 (decoderAt .failed [])) (fun s => (s.fsm, s.host.results)) (.failed, [.err 9 0]) =
        true := by decide +kernel

/-- R304: READ 0 runs no step; at END a READ is EOF; during a READ a second command has no move (R382). -/
theorem test_read :
    gives (execHostRead 0 (decoderAt .streamHeader [])) (fun s => (s.host.results, s.txn)) ([.ok []], none) = true ∧
      gives (execHostRead 1 (decoderAt .ended [])) (fun s => (s.host.results, s.txn)) ([.eof], none) = true ∧
      refuses (execHostRead 1 (readingAt .emit [])) .transactionInFlight = true := by decide +kernel

/-- R308: the latched error stays in the window after CLOSE: P5a's `0x905A`. -/
theorem test_close :
    gives
      (execHostClose 0
        { decoderAt .failed [] with stream := { StreamRegs.reset with bs100k := 9, errKind := 5 } })
      (fun s => (windowRead s 0, s.rd.src, s.host.results)) (0x905A, none, [.ok []]) = true := by decide +kernel

/-- R320: `ENC_OPEN 9` puts the header; the levels 0 and 10 are IllegalCommand. -/
theorem test_enc_open :
    gives (execEncOpen 9 State.reset) (fun s => (s.inst, s.enc.wr.sink, s.host.results))
        (.encoder, [0x42, 0x5A, 0x68, 0x39], [.ok []]) = true ∧
      gives (execEncOpen 0 State.reset) (fun s => (s.inst, s.host.results)) (.neverOpened, [.err 9 0]) = true ∧
      gives (execEncOpen 10 State.reset) (fun s => (s.inst, s.host.results)) (.neverOpened, [.err 9 0]) = true := by
  decide +kernel

/-- R324: the header onto a sink with room for two bytes; an empty queue of sinks stands for one that never fails. -/
theorem test_enc_open_fails :
    gives (execEncOpen 9 { State.reset with host := ⟨[], [], [some (sinkWith 2)], []⟩ })
      (fun s => (s.enc.wr.sink, s.host.sinks, s.host.results, windowRead s 0))
      ([0x42, 0x5A], [], [.err 7 0], 0x9072) = true := by decide +kernel

/-- P9: ENC_WRITE to a finished encoder. -/
theorem test_enc_write :
    gives (execEncWrite 1 [0x78] { encoderOpen 9 with enc := { encoderAt 9 none with state := .finished } })
      (fun s => (s.enc.state, s.host.results)) (.finished, [.err 8 0]) = true := by decide +kernel

/-- R324: ENC_FINISH onto a sink that fails answers the sink's error, which ENC_WRITE then answers again. -/
theorem test_enc_fails :
    gives (execEncFinish 0 (encoderOnto (sinkWith 3))) (fun s => (s.enc.state, s.enc.wr.sink, s.host.results))
        (.failed, [0x42, 0x5A, 0x68, 0x39, 0x17, 0x72, 0x45], [.err 7 0]) = true ∧
      gives
        (execEncWrite 1 [0x78]
          { encoderOpen 9 with enc := failedEncoder })
        (fun s => (s.enc.state, s.host.results)) (.failed, [.err 7 0]) = true := by decide +kernel

/-- R322: `ENC_OPEN 9`, `ENC_FINISH` put the P1 stream. -/
theorem test_enc_finish :
    gives (execEncFinish 0 (encoderOpen 9)) (fun s => (s.enc.state, s.enc.wr.sink))
      (.finished, [0x42, 0x5A, 0x68, 0x39, 0x17, 0x72, 0x45, 0x38, 0x50, 0x90, 0, 0, 0, 0]) = true := by decide +kernel

/-- R323: `ENC_OPEN 1`, `ENC_CLOSE` put a whole empty stream; P9's window after ENC_CLOSE. -/
theorem test_enc_close :
    gives (execEncClose 0 (encoderOpen 1)) (fun s => (s.enc.state, s.enc.wr.sink, s.enc.wr.attached))
        (.closed, [0x42, 0x5A, 0x68, 0x31, 0x17, 0x72, 0x45, 0x38, 0x50, 0x90, 0, 0, 0, 0], false) = true ∧
      gives (execEncClose 0 { encoderOpen 9 with enc := { encoderAt 9 none with state := .finished } })
        (fun s => windowRead s 0) 0x9003 = true ∧
      gives (execEncClose 0 (encoderOnto (sinkWith 3)))
        (fun s => (s.enc.state, s.enc.errKind, s.enc.wr.attached, s.host.results)) (.closed, 7, false, [.ok []]) =
        true := by decide +kernel

/-- R311, P1 of spec/95: the empty input's stream at level 9, and that every level's decodes to no byte. -/
theorem test_empty_stream :
    encodeStream 9 [] = some [0x42, 0x5A, 0x68, 0x39, 0x17, 0x72, 0x45, 0x38, 0x50, 0x90, 0, 0, 0, 0] ∧
      ∀ level ∈ [(1 : BitVec 4), 2, 3, 4, 5, 6, 7, 8, 9],
        ((encodeStream level []).bind fun s => decodeStream 8 { bytes := s, after := .ends }) =
          some (.output []) := by decide +kernel

/-- The bits of the `aaaaaaa` block of R292, from its magic to its `EOB`, as P3 of spec/95 has them. -/
def aaaaaaaBits : List Bool :=
  (bitsOfBytes
    [0x31, 0x41, 0x59, 0x26, 0x53, 0x59, 0x32, 0xA4, 0xB6, 0x23, 0x00, 0x00, 0x02, 0x41, 0x00, 0x08, 0x00, 0x20, 0x00,
      0x20, 0x00, 0x21, 0x00, 0x82, 0x0B]).take 200

/-- R321: the bits of a block keep the contract for the bytes they code, and for no others. -/
theorem test_contract :
    codesBlock (List.replicate 7 0x61) 1 aaaaaaaBits = true ∧
      codesBlock (List.replicate 6 0x61) 1 aaaaaaaBits = false ∧
      codesBlock (List.replicate 7 0x61) 1 (aaaaaaaBits ++ [true]) = false := by decide +kernel

/-- R311: the error of the last result is what `decode` gives; a stream cut short. -/
theorem test_decode_error :
    decodeStream 8 { bytes := [0x42, 0x5A, 0x68, 0x39, 0x17], after := .ends } = some (.error 7 0) := by
  decide +kernel

/-- R300, R347, R358: a step takes a command, answers an opcode that is none, and does nothing without one. -/
theorem test_step_commands :
    gives (step { State.reset with host := ⟨[0x02, 0, 0, 0, 1], [], [], []⟩ }) (fun s => s.host) ⟨[], [], [], [.err 9 0]⟩ =
        true ∧
      gives (step { decoderAt .streamHeader [] with host := ⟨[0x07, 0, 0, 0, 1, 0x03], [], [], []⟩ }) (fun s => s.host)
        ⟨[0x03], [], [], [.err 9 0]⟩ = true ∧
      gives (step State.reset) (fun s => decide (s = State.reset)) true = true := by decide +kernel

/-- R304, R306: the step that gathers the last byte wanted returns the READ, still in EMIT. -/
theorem test_step_read :
    gives (step { walkOver .emit [0x61, 0x62] with txn := some ⟨1, []⟩ })
      (fun s => (s.fsm, s.txn, s.host.results, s.stream.outCount)) (.emit, none, [.ok [0x61]], 1) = true := by
  decide +kernel

/-- Log 4: a word placed at reset is what the next step runs. -/
theorem test_fetch_word :
    gives (step (State.reset.withFetchWord 48 0x314159265359)) State.fsm .tables = true ∧
      gives (step (State.reset.withFetchWord 8 0x52)) State.ret (.word 0) = true ∧
      gives (step (State.reset.withFetchWord 8 0x11)) (fun s => s.host.results) [.err 9 0] = true := by
  decide +kernel

/-! ### Witnesses: for every statement with hypotheses, values that meet them together, clause by clause -/

theorem exists_next {o : Outcome State Fault Refusal} (h : (nextOf o).isSome = true) : ∃ t, o = .next t := by
  cases o with
  | next t => exact ⟨t, rfl⟩
  | fault f => cases h
  | refused r => cases h

/-- The lengths of an incomplete code, of whose two-bit strings `11` is none (R199). -/
def twoBitSymbols (bits : List Byte) : State :=
  { bananaSymbols bits with groups := State.reset.groups.set 0 (builtGroup [2, 2, 2]) }

theorem witness_DecodeEncodeRoundTrip :
    (Instr.encWrite 2 [0x61, 0x62]).wf = true ∧ ∀ sym, Instr.encWrite 2 [0x61, 0x62] ≠ .symbolCode sym :=
  ⟨by decide, fun _ h => by cases h⟩

theorem witness_SymbolCodeRoundTrip :
    (prefixLengths [1] = true ∧ (0 : BitVec 9).toNat < 1) ∧
      (prefixLengths [3, 3, 2, 2, 2] = true ∧ (4 : BitVec 9).toNat < 5) ∧
      (prefixLengths (List.replicate 258 20) = true ∧ (257 : BitVec 9).toNat < 258) := by decide +kernel

theorem witness_DecodeGivesWellFormed : decode [] (.unit [0x20, 24]) = some (.bcReadBits 24) := by decide

theorem witness_StepRunsDecodedInstruction :
    (({ State.reset with slot := .unit [0x52] } : State).slot = .unit [0x52] ∧
        decodeUnit [0x52] = .ok .crcFinal []) ∧
      decodeWire .magic (groupLens State.reset (symbolGroup State.reset)) (bitsOfBytes [0x17, 0x72, 0x45, 0x38, 0x50, 0x90]) =
        .ok .eosMagic [] ∧
      (State.reset.slot = .empty ∧ State.reset.txn = none ∧ State.reset.host.cmds = [] ∧
        decodeHost [0x02, 0, 0, 0, 4] = .ok (.hostRead 4) []) ∧
      ((readingAt .trailer []).slot = .empty ∧ (readingAt .trailer []).txn = some ⟨4, []⟩ ∧
        (readingAt .trailer []).fsm = .trailer) := by decide +kernel

theorem witness_OpenResetsEveryRegister :
    ({ State.reset with host := ⟨[], [⟨[0x42], .ends⟩], [], []⟩ } : State).inst ≠ .encoder ∧ State.reset.txn = none ∧
      ({ State.reset with host := ⟨[], [⟨[0x42], .ends⟩], [], []⟩ } : State).host.sources = ⟨[0x42], .ends⟩ :: [] := by
  decide +kernel

theorem witness_NeverOpenedAcceptsOnlyOpen :
    State.reset.inst = .neverOpened ∧ State.reset.txn = none ∧ 1 ≤ (9 : Word).toNat ∧ (9 : Word).toNat ≤ 9 := by
  decide +kernel

theorem witness_StatusWindow :
    0x20 ∉ [0x00, 0x04, 0x08, 0x0C, 0x10, 0x14, 0x18, 0x1C] ∧ (decoderAt .failed []).inst = .decoder ∧
      (encoderOpen 9).inst = .encoder ∧ 0x08 ∉ [0x00, 0x04] := by decide +kernel

theorem witness_IllegalCommandChangesNothing :
    (State.reset.slot = .empty ∧ State.reset.txn = none ∧
        (0x15 : Byte) ∉ ([0x01, 0x02, 0x03, 0x11, 0x12, 0x13, 0x14] : List Byte) ∧
        (0x00 : Byte) ∉ ([0x01, 0x02, 0x03, 0x11, 0x12, 0x13, 0x14] : List Byte)) ∧
      ((encoderOpen 9).txn = none ∧ (encoderOpen 9).inst = .encoder ∧ (decoderAt .ended []).txn = none ∧
        (decoderAt .ended []).inst = .decoder ∧ 2 ^ 31 - 1 < (0x80000000 : Word).toNat ∧ (0 : Word).toNat < 1 ∧
        9 < (10 : Word).toNat) := by decide +kernel

theorem witness_RaiseLatchesAndFails : (readingAt .trailer []).txn = some ⟨4, []⟩ := by decide +kernel

/-- A failed instance (P5a of spec/95), with these command bytes to come. -/
def failedWith (cmds : List Byte) : State :=
  { decoderAt .failed [] with
    stream := { StreamRegs.reset with bs100k := 9, errKind := 5 }, host := ⟨cmds, [], [], []⟩ }

theorem witness_FailedIsSticky :
    ((failedWith []).inst = .decoder ∧ (failedWith []).fsm = .failed ∧ (failedWith []).txn = none ∧
        (0x7FFFFFFF : Word).toNat ≤ 2 ^ 31 - 1) ∧
      (∃ t, step (failedWith [0x02, 0, 0, 0, 1]) = .next t) ∧ (∃ t, step (failedWith [0x03, 0, 0, 0, 0]) = .next t) ∧
      ∃ t, step (failedWith [0x01, 0, 0, 0, 0]) = .next t :=
  ⟨by decide +kernel, exists_next (by decide +kernel), exists_next (by decide +kernel),
    exists_next (by decide +kernel)⟩

theorem witness_ClosedIsSticky :
    ((decoderAt .closed []).inst = .decoder ∧ (decoderAt .closed []).fsm = .closed ∧
        (decoderAt .closed []).txn = none ∧ (decoderAt .closed []).slot = .empty ∧
        (0x7FFFFFFF : Word).toNat ≤ 2 ^ 31 - 1) ∧
      (∃ t, step { decoderAt .closed [] with host := ⟨[0x02, 0, 0, 0, 1], [], [], []⟩ } = .next t) ∧
      ∃ t, step { decoderAt .closed [] with host := ⟨[0x01, 0, 0, 0, 0], [], [], []⟩ } = .next t :=
  ⟨by decide +kernel, exists_next (by decide +kernel), exists_next (by decide +kernel)⟩

theorem witness_CloseDetachesSource :
    ((decoderAt .emit []).inst = .decoder ∧ (decoderAt .emit []).txn = none ∧
        (0x7FFFFFFF : Word).toNat ≤ 2 ^ 31 - 1) ∧
      ({ decoderAt .closed [] with rd := Reader.reset } : State).fsm = .closed ∧ Reader.reset.src = none := by
  decide +kernel

theorem witness_ReadCommand :
    ∀ f ∈ [Fsm.closed, .failed, .ended, .streamHeader, .emit],
      (decoderAt f []).inst = .decoder ∧ (decoderAt f []).txn = none ∧ (0x7FFFFFFF : Word).toNat ≤ 2 ^ 31 - 1 := by
  decide +kernel

theorem witness_ReadGathersAndReturns :
    ((readingAt .emit []).slot = .empty ∧ (readingAt .emit []).txn = some ⟨4, []⟩ ∧
        (readingAt .emit []).fsm = .emit ∧ ({ OutputRegs.reset with rleRep := 1 } : OutputRegs).rleRep ≠ 0) ∧
      ((walkOver .emit [0x61]).slot = .empty ∧ (walkOver .emit [0x61]).txn = some ⟨4, []⟩ ∧
        (walkOver .emit [0x61]).fsm = .emit ∧
        nextOutputByte (walkView (walkOver .emit [0x61])) (walkOver .emit [0x61]).out =
          .ok (some 0x61) { OutputRegs.reset with walkPtr := 1, walked := 1, rleLast := 0x61, rleCnt := 1 }) ∧
      (({ decoderAt .emit [] with txn := some ⟨1, [0x61]⟩ } : State).txn = some ⟨1, [0x61]⟩ ∧ 1 ≤ [(0x61 : Byte)].length ∧
        [(0x61 : Byte)] ≠ []) ∧
      ((readingAt .ended []).fsm = .ended ∧ (readingAt .ended []).txn = some ⟨4, []⟩) ∧
      ((readingAt .header []).fsm ≠ .ended ∧ ([] : List Byte).length < 4) := by decide +kernel

theorem witness_EncOpenWritesHeader :
    State.reset.inst ≠ .decoder ∧ State.reset.txn = none ∧ offeredSink State.reset.host = none ∧
      (1 ≤ (1 : Word).toNat ∧ (1 : Word).toNat ≤ 9) ∧
      (1 ≤ (9 : Word).toNat ∧ (9 : Word).toNat ≤ 9) ∧ (0 : Word).toNat < 1 ∧ 9 < (10 : Word).toNat := by
  decide +kernel

/-- Nothing buffered and nothing written; and a full block written to an empty buffer. -/
theorem witness_EncWriteCodesFullBlocks :
    ((encoderOpen 9).inst = .encoder ∧ (encoderOpen 9).txn = none ∧ (encoderOpen 9).enc.state = .isOpen ∧
        (encoderOpen 9).enc.wr.wf = true ∧ (encoderOpen 9).enc.wr.attached = true ∧
        (encoderOpen 9).enc.wr.failure = none) ∧
      (([] : List (List Byte)).flatten ++ [] = (encoderOpen 9).enc.buf ++ [] ∧
        ([] : List Byte).length < Config.encSplit (encoderOpen 9).enc.level) ∧
      ∃ x : List Byte, [x].flatten ++ [] = (encoderOpen 9).enc.buf ++ x ∧
        ∀ y ∈ [x], y.length = Config.encSplit (encoderOpen 9).enc.level :=
  ⟨by decide +kernel, ⟨rfl, Nat.succ_pos _⟩, List.replicate (Config.encSplit 9) 0, by simp [encoderOpen, encoderAt, Encoder.reset],
    fun y hy => by rw [List.mem_singleton.1 hy]; exact List.length_replicate⟩

theorem witness_EncFinishWritesTrailer :
    (encoderOpen 1).inst = .encoder ∧ (encoderOpen 1).txn = none ∧ (encoderOpen 1).enc.state = .isOpen ∧
      (encoderOpen 1).enc.wr.wf = true ∧ (encoderOpen 1).enc.wr.attached = true ∧
      (encoderOpen 1).enc.wr.failure = none := by decide +kernel

/-- An encoder in one of its states (R326). -/
def encoderIn (e : EncState) (attached : Bool) : State :=
  { encoderOpen 9 with
    enc := { encoderAt 9 none with state := e, wr := { Writer.reset with attached := attached } } }

theorem witness_EncoderStates :
    (∀ e ∈ [EncState.isOpen, .finished, .failed, .closed], ∀ b ∈ [true, false],
        (encoderIn e b).inst = .encoder ∧ (encoderIn e b).txn = none ∧ (encoderIn e b).enc.wr.wf = true ∧
          (encoderIn e b).enc.wr.failure = none ∧ (encoderIn e b).enc.buf = [] ∧
          (encoderIn e b).enc.state = e ∧ (encoderIn e b).enc.wr.attached = b) ∧
      ((encoderIn .isOpen true).enc.buf ++ []).length < Config.encSplit (encoderIn .isOpen true).enc.level ∧
      ∃ t, exec (.encWrite 0 []) (encoderIn .isOpen true) = .next t :=
  ⟨by decide +kernel, Nat.succ_pos _, exists_next (by decide +kernel)⟩

/-- Sinks that fail: one with no room and one with just enough for the trailer, for ENC_OPEN one with room for three bytes
and one with room for four; and a full block for ENC_WRITE. -/
theorem witness_EncoderStates_failing :
    (∀ f ∈ [sinkWith 0, sinkWith 10], (encoderOnto f).inst = .encoder ∧ (encoderOnto f).txn = none ∧
        (encoderOnto f).enc.state = .isOpen ∧ (encoderOnto f).enc.wr.attached = true ∧
        (encoderOnto f).enc.wr.wf = true ∧ (encoderOnto f).enc.wr.failure = some f ∧
        (encoderOnto f).enc.buf = []) ∧
      (0 < ((encoderOnto (sinkWith 0)).enc.wr.live.toNat + 87) / 8 ∧
        ((encoderOnto (sinkWith 10)).enc.wr.live.toNat + 87) / 8 ≤ 10) ∧
      (∃ data x : List Byte,
        x = ((encoderOnto (sinkWith 0)).enc.buf ++ data).take (Config.encSplit (encoderOnto (sinkWith 0)).enc.level) ∧
          x.length = Config.encSplit (encoderOnto (sinkWith 0)).enc.level) ∧
      ∀ k ∈ [3, 4], offeredSink { HostPort.reset with sinks := [some (sinkWith k)] } = some (sinkWith k) :=
  ⟨by decide +kernel, by decide +kernel,
    ⟨List.replicate (Config.encSplit (encoderOnto (sinkWith 0)).enc.level) 0, _, rfl, by simp⟩, by decide +kernel⟩

theorem witness_ReadBitsTakesNextBits :
    (24 ≤ 24 ∧ (decoderAt .header [1, 2, 3]).rd.wf = true ∧ 24 ≤ (decoderAt .header [1, 2, 3]).rd.pending.length) ∧
      0 ≤ (decoderAt .header []).rd.pending.length := by decide +kernel

theorem witness_ReadBoolUnaryInt32 :
    (decoderAt .header [0xE0]).rd.wf = true ∧
      (decoderAt .header [0xE0]).rd.pending = true :: [true, true, false, false, false, false, false] ∧
      (decoderAt .header [0xE0]).rd.pending = List.replicate 3 true ++ false :: [false, false, false, false] ∧
      (decoderAt .header [0xDE, 0xAD, 0xBE, 0xEF]).rd.pending = toBits 32 (0xDEADBEEF : Word).toNat ++ [] := by
  decide +kernel

/-- The tables of the `banana` block (R245). -/
def bananaBlockTables : BlockTables :=
  { crc := 0xEFB6EC01
    randomised := false
    origPtr := 3
    ranges := List.replicate 6 none ++ [some 0x6002] ++ List.replicate 9 none
    nGroups := 2
    positions := [0]
    lengths := List.replicate 2 { seed := 3, moves := [[], [], [], [false, false], [true, true]] } }

/-- The state with so many of its buffered bits left, and no byte more from the source, which then does this. -/
def withBits (live : BitVec 6) (acc : BitVec 64) (after : SourceEnd) (s : State) : State :=
  { s with rd := { Reader.reset with acc := acc, live := live, src := some { bytes := [], after := after } } }

/-- Some codewords of `[2, 2, 2]` are `00`, `01` and `10`; the bit `1` is none. -/
theorem witness_ReadPastEndRaises_units :
    (24 ≤ 24 ∧ (decoderAt .header [1, 2]).rd.wf = true ∧ (decoderAt .header [1, 2]).rd.finite = true ∧
        (decoderAt .header [1, 2]).rd.pending.length < 24) ∧
      (decoderAt .header []).rd.pending = [] ∧ (decoderAt .header [0xFF]).rd.pending.all id = true ∧
      ((decoderAt .header [1]).rd.pending.length < 16 ∧ 16 ≤ (decoderAt .header [1, 2, 3]).rd.pending.length ∧
        (decoderAt .header [1, 2, 3]).rd.pending.length < 32) ∧
      (0 < (withBits 1 1 .ends (twoBitSymbols [])).sel.nGroups.toNat ∧
        (withBits 1 1 .ends (twoBitSymbols [])).rd.wf = true ∧
        (withBits 1 1 .ends (twoBitSymbols [])).rd.pending.length < maxOf [2, 2, 2] ∧
        ∀ sym, sym < [2, 2, 2].length →
          ¬codeword [2, 2, 2] sym <+: (withBits 1 1 .ends (twoBitSymbols [])).rd.pending) := by decide +kernel

theorem witness_ReadPastEndRaises_steps :
    (∀ k ∈ [0, 1, 2, 3],
        (readingAt .streamHeader (([0x42, 0x5A, 0x68] : List Byte).take k)).rd.pending.length / 8 = k ∧
          (readingAt .streamHeader (([0x42, 0x5A, 0x68] : List Byte).take k)).rd.pending.take (8 * k) =
            bitsOfBytes (([0x42, 0x5A, 0x68] : List Byte).take k)) ∧
      ((readingAt .header [0x31, 0x41]).rd.pending.length < 24 ∧
        24 ≤ (readingAt .header [0x31, 0x41, 0x59, 0x26, 0x53]).rd.pending.length ∧
        (readingAt .header [0x31, 0x41, 0x59, 0x26, 0x53]).rd.pending.length < 48) ∧
      ((readingAt .trailer [0xEF]).rd.pending.length < 16 ∧
        16 ≤ (readingAt .trailer [0xEF, 0xB6, 0xEC]).rd.pending.length ∧
        (readingAt .trailer [0xEF, 0xB6, 0xEC]).rd.pending.length < 32) ∧
      (readingAt .tables [0xEF, 0xB6]).fsm = .tables ∧ (readingAt .tables [0xEF, 0xB6]).rd.wf = true ∧
      (readingAt .tables [0xEF, 0xB6]).rd.finite = true ∧ bananaBlockTables.legal = true ∧
      (readingAt .tables [0xEF, 0xB6]).rd.pending <+: bananaBlockTables.bits ∧
      (readingAt .tables [0xEF, 0xB6]).rd.pending.length < bananaBlockTables.bits.length := by decide +kernel

theorem witness_ReadPastEndRaises :
      ((decoderOn [1] .silent).rd.wf = true ∧ (decoderOn [1] .silent).rd.after = some .silent ∧
        (decoderOn [1] .silent).rd.pending.length < 9) ∧
      ((decoderOn [0xFF] (.repeats 0xFF [])).rd.wf = true ∧
        (decoderOn [0xFF] (.repeats 0xFF [])).rd.after = some (.repeats 0xFF []) ∧
        (decoderOn [0xFF] (.repeats 0xFF [])).rd.pending.all id = true) := by decide +kernel

theorem witness_WriterAppendsBits :
    (({ Writer.reset with acc := 127, live := 7, attached := true } : Writer).wf = true) ∧
      ((encoderOpen 9).enc.wr.wf = true ∧ (encoderOpen 9).enc.wr.attached = true ∧
        (encoderOpen 9).enc.wr.takes 4 = true) ∧
      (24 ≤ 24 ∧ 2 ^ 24 - 1 < 2 ^ 24) ∧ 0 < 2 ^ 0 ∧
      ((encoderOnto (sinkWith 1)).enc.wr.wf = true ∧ (encoderOnto (sinkWith 1)).enc.wr.attached = true ∧
        (encoderOnto (sinkWith 1)).enc.wr.takes 1 = true ∧
        (encoderOnto (sinkWith 1)).enc.wr.failure = some (sinkWith 1) ∧
        1 < ((encoderOnto (sinkWith 1)).enc.wr.live.toNat + (toBits 32 1).length) / 8) := by decide +kernel

theorem witness_WriteReadAgree :
    ∀ f ∈ [(24, 2 ^ 24 - 1), (0, 0), (1, 1)], f.1 ≤ 24 ∧ f.2 < 2 ^ f.1 := by decide +kernel

theorem witness_OperandsOutOfRangeRefused : 24 < 25 ∧ 2 ^ 3 ≤ 8 ∧ 1 < [1, 1, 1].length ∧ 2 ^ 1 < [1, 1, 1].length := by
  decide

theorem witness_AllocateGivesCompleteCode :
    (1 ≤ [7].length ∧ 1 ≤ 1 ∧ [7].length = 1) ∧ (1 ≤ [5, 0].length ∧ [5, 0].length ≤ 2 ^ 1 ∧ 2 ≤ [5, 0].length) ∧
      ([1, 1, 1].length ≤ 2 ^ 32 ∧ 32 ≤ 32) ∧
      ([5, 0].length ≤ 1 + 1 ∧ max ([5, 0].getD 1 0) 1 < max ([5, 0].getD 0 0) 1) ∧
      ([1, 0, 3].length ≤ 2 + 1 ∧ max ([1, 0, 3].getD 0 0) 1 = max ([1, 0, 3].getD 1 0) 1 ∧ 0 < 1) ∧
      (1 ≤ 1 ∧ 1 ≤ 32) := by decide +kernel

/-- The bound 3 is met at once; of the lower bounds, 2 needs a halving and 3 does not. -/
theorem witness_AllocateMeetsBound :
    1 ≤ [1, 1, 2, 4].length ∧ 1 ≤ 3 ∧ 3 ≤ 32 ∧ ([1, 1, 2, 4].length = 1 ∨ [1, 1, 2, 4].length ≤ 2 ^ 3) ∧
      (1 ≤ 2 ∧ 2 ≤ 3 ∧ [1, 1, 2, 4].length ≤ 2 ^ 2) ∧ (1 ≤ 3 ∧ 3 ≤ 3) ∧
      gives (execHaAllocate [1, 1, 2, 4] 3 State.reset) State.ret (.nats [3, 3, 2, 1]) = true ∧
      gives (execHaAllocate [1, 1, 2, 4] 2 State.reset) State.ret (.nats [2, 2, 2, 2]) = true := by
  decide +kernel

theorem witness_BuildMakesTables :
    0 < (bananaSymbols []).sel.nGroups.toNat ∧ (bananaSymbols []).groups[0]? = some (builtGroup bananaLens) ∧
      bananaLens = ((builtGroup bananaLens).len.take (bananaSymbols []).map.alphaSize.toNat).map BitVec.toNat ∧
      bananaLens.length = (bananaSymbols []).map.alphaSize.toNat ∧ 1 ≤ bananaLens.length ∧
      lengthsLegal bananaLens = true := by decide +kernel

theorem witness_DecodeReadsCodeword :
    (0 < (twoBitSymbols []).sel.nGroups.toNat ∧ (twoBitSymbols []).groups[0]? = some (builtGroup [2, 2, 2]) ∧
        [2, 2, 2] = (builtGroup [2, 2, 2]).len.map BitVec.toNat ∧ prefixLengths [2, 2, 2] = true ∧
        builtFrom 3 (builtGroup [2, 2, 2]) = true ∧ (twoBitSymbols [0x80]).rd.wf = true) ∧
      (twoBitSymbols [0x80]).rd.pending = codeword [2, 2, 2] 2 ++ [false, false, false, false, false, false] ∧
      (3 < 2 ^ maxOf [2, 2, 2] ∧ maxOf [2, 2, 2] ≤ (twoBitSymbols [0xC0]).rd.pending.length ∧
        (twoBitSymbols [0xC0]).rd.pending.take (maxOf [2, 2, 2]) = toBits (maxOf [2, 2, 2]) 3 ∧
        firstCodeFrom [2, 2, 2] (minOf [2, 2, 2]) (maxOf [2, 2, 2] - minOf [2, 2, 2]) +
          [2, 2, 2].count (maxOf [2, 2, 2]) ≤ 3) := by decide +kernel

theorem witness_CodesAreCanonical :
    1 ≤ [1, 20].length ∧ lengthsLegal [1, 20] = true ∧ kraft20 [1, 20] ≤ 2 ^ 20 := by decide +kernel

theorem witness_RunDigitAccumulates : 0 ≤ 1 ∧ 1 ≤ 1 := by decide

/-- The stage of `banana` with a pending run of `n` and `k` bytes written. -/
def stageWith (n : BitVec 21) (k : BitVec 20) : State :=
  { bananaSymbols [] with sym := { stageInit MtfStage.reset with runS := n, nblock := k } }

theorem witness_EobEndsRun :
    (2 ≤ (stageWith 2 0).map.eob.toNat ∧ (stageWith 2 0).sym.mtf[0]? = some 0 ∧
        (stageWith 2 0).map.seqToUnseq[(0 : Byte).toNat]? = some 0x61 ∧
        (stageWith 2 0).sym.freq[(0x61 : Byte).toNat]? = some 0 ∧ (stageWith 2 0).stream.bs100k.toNat ≤ 9) ∧
      (stageWith 2 899998).sym.nblock.toNat + (stageWith 2 899998).sym.runS.toNat ≤ 9 * 100000 ∧
      (0 < (stageWith 2 899999).sym.runS.toNat ∧
        9 * 100000 < (stageWith 2 899999).sym.nblock.toNat + (stageWith 2 899999).sym.runS.toNat) := by decide +kernel

theorem witness_RankSymbolWritesByte :
    (2 ≤ 3 ∧ 3 < (stageWith 0 0).map.eob.toNat ∧ (stageWith 0 0).sym.mtf[0]? = some 0 ∧
        (stageWith 0 0).map.seqToUnseq[(0 : Byte).toNat]? = some 0x61 ∧ (stageWith 0 0).sym.mtf[3 - 1]? = some 2 ∧
        (stageWith 0 0).map.seqToUnseq[(2 : Byte).toNat]? = some 0x6E ∧ (stageWith 0 0).sym.freq.length = 256) ∧
      (0 < (stageWith 2 899999).sym.runS.toNat ∧
        9 * 100000 < (stageWith 2 899999).sym.nblock.toNat + (stageWith 2 899999).sym.runS.toNat) ∧
      (stageWith 2 899997).sym.nblock.toNat + (stageWith 2 899997).sym.runS.toNat < 9 * 100000 ∧
      (stageWith 2 899998).sym.nblock.toNat + (stageWith 2 899998).sym.runS.toNat = 9 * 100000 ∧
      ((stageWith 0 900001).sym.runS = 0 ∧ 9 * 100000 < (stageWith 0 900001).sym.nblock.toNat) := by decide +kernel

theorem witness_MtfRoundTrip :
    mtfOperandsLegal nnbaaa [0x61, 0x62, 0x6E] = true ∧ nnbaaa.length ≤ 900000 ∧
      (mapOf [0x61, 0x62, 0x6E]).seqToUnseq = [0x61, 0x62, 0x6E] ∧
      (mapOf [0x61, 0x62, 0x6E]).eob.toNat = [0x61, 0x62, 0x6E].length + 1 := by decide +kernel

theorem witness_PermutationScatters : holdsBlock bananaPermute nnbaaa = true := by decide +kernel

theorem witness_WalkTakesByte :
    (walkOver .emit [0x61]).out.walked.toNat < (walkOver .emit [0x61]).sym.nblock.toNat ∧
      memGet (walkOver .emit [0x61]).sym.ll (walkOver .emit [0x61]).out.walkPtr.toNat = some 0x61 ∧
      memGet (walkOver .emit [0x61]).perm.tt (walkOver .emit [0x61]).out.walkPtr.toNat = some 1 ∧
      BitVec.ofNat 10 (Config.randTable.getD State.reset.out.rTPos.toNat 0) = 619 := by decide +kernel

/-- The output registers at the fourth equal byte of a group. -/
def fourthByte : OutputRegs := { OutputRegs.reset with walkPtr := 3, walked := 3, rleLast := 0x61, rleCnt := 3 }

theorem witness_RunLengthStage :
    ({ OutputRegs.reset with rleRep := 255 } : OutputRegs).rleRep ≠ 0 ∧
      (OutputRegs.reset.rleRep = 0 ∧ OutputRegs.reset.walked = State.reset.sym.nblock) ∧
      (afterWalk false 0x61 1 OutputRegs.reset = (0x61, { OutputRegs.reset with walkPtr := 1, walked := 1 }) ∧
        (0x61 : Byte).setWidth 9 ≠ OutputRegs.reset.rleLast) ∧
      ((0x61 : Byte).setWidth 9 = ({ OutputRegs.reset with rleLast := 0x61, rleCnt := 2 } : OutputRegs).rleLast ∧
        ({ OutputRegs.reset with rleLast := 0x61, rleCnt := 2 } : OutputRegs).rleCnt ≠ 3) ∧
      ((0x61 : Byte).setWidth 9 = fourthByte.rleLast ∧ fourthByte.rleCnt = 3 ∧
        (afterWalk false 0x61 4 fourthByte).2.walked = (walkOver .emit [0x61, 0x61, 0x61, 0x61]).sym.nblock) ∧
      ((afterWalk false 0x61 4 fourthByte).2.walked.toNat <
          (walkOver .emit [0x61, 0x61, 0x61, 0x61, 0x03]).sym.nblock.toNat ∧
        memGet (walkOver .emit [0x61, 0x61, 0x61, 0x61, 0x03]).sym.ll 4 = some 0x03 ∧
        memGet (walkOver .emit [0x61, 0x61, 0x61, 0x61, 0x03]).perm.tt 4 = some 5) := by decide +kernel

theorem witness_StreamHeaderStep :
    ((readingAt .streamHeader []).fsm = .streamHeader ∧ (readingAt .streamHeader []).rd.wf = true) ∧
      (∀ d ∈ [(1 : BitVec 4), 9], 1 ≤ d.toNat ∧ d.toNat ≤ 9 ∧
        (readingAt .streamHeader [0x42, 0x5A, 0x68, BitVec.ofNat 8 (0x30 + d.toNat)]).rd.pending =
          bitsOfBytes [0x42, 0x5A, 0x68, BitVec.ofNat 8 (0x30 + d.toNat)] ++ []) ∧
      (2 < 3 ∧ (0x30 : Byte) ≠ ([0x42, 0x5A, 0x68] : List Byte).getD 2 0 ∧
        (readingAt .streamHeader [0x42, 0x5A, 0x30]).rd.pending =
          bitsOfBytes (([0x42, 0x5A, 0x68] : List Byte).take 2 ++ [0x30]) ++ []) ∧
      ((0x30 : Byte).toNat < 0x31 ∧ 0x39 < (0x3A : Byte).toNat ∧
        (readingAt .streamHeader [0x42, 0x5A, 0x68, 0x3A]).rd.pending =
          bitsOfBytes [0x42, 0x5A, 0x68, 0x3A] ++ []) := by decide +kernel

theorem witness_HeaderStep :
    (readingAt .header [0x31, 0x41, 0x59, 0x26, 0x53, 0x59]).fsm = .header ∧
      (readingAt .header [0x31, 0x41, 0x59, 0x26, 0x53, 0x59]).rd.wf = true ∧
      (readingAt .header [0x31, 0x41, 0x59, 0x26, 0x53, 0x59]).rd.pending =
        toBits 48 (0x314159265359 : BitVec 48).toNat ++ [] := by decide +kernel

theorem witness_TablesStep :
    bananaTables.fsm = .tables ∧ bananaTables.rd.wf = true ∧ bananaBlockTables.legal = true ∧
      bananaTables.rd.pending = bananaBlockTables.bits ++ bitsOfBytes [0x42, 0xF1] := by decide +kernel

theorem witness_SymbolsStep :
    ((bananaSymbols [0x42, 0xF0]).fsm = .symbols ∧ (bananaSymbols [0x42, 0xF0]).rd.wf = true ∧
        groupsReady (bananaSymbols [0x42, 0xF0]) = true ∧
        symbolsLegal (bananaSymbols [0x42, 0xF0]) [3, 0, 3, 3, 1] = true) ∧
      (bananaSymbols [0x42, 0xF0]).rd.pending =
        symbolBits (bananaSymbols [0x42, 0xF0]) 0
            ([3, 0, 3, 3, 1] ++ [(bananaSymbols [0x42, 0xF0]).map.eob.toNat]) ++
          [false, false, false, false] ∧
      stageRun (cap (bananaSymbols [0x42, 0xF0]).stream) (bananaSymbols [0x42, 0xF0]).map
          ([3, 0, 3, 3, 1] ++ [(bananaSymbols [0x42, 0xF0]).map.eob.toNat])
          (stageInit (bananaSymbols [0x42, 0xF0]).sym) =
        .ok () (stageOf nnbaaa) := by decide +kernel

/-- Symbols of two bits, of one value in use (`EOB` is 2), in a block of no capacity. -/
def twoBitLevel0 (bits : List Byte) : State :=
  { twoBitSymbols bits with stream := StreamRegs.reset, map := mapOf [0x61] }

/-- The same with no selector. -/
def noSelectors : State :=
  { twoBitLevel0 [] with sel := { nGroups := 2, nSelectors := 0, selMtf := [0, 1], selectors := [] } }

/-- A run of one, pending. -/
def runOfOne : MtfStage := { stageInit MtfStage.reset with runS := 1, runK := 1 }

/-- A block of two-bit symbols: no selector, a run that a block of level 0 (`CAP` is 0) cannot take, a string above every codeword, and half a codeword. -/
theorem witness_SymbolsStep_errors :
    (groupsReady (twoBitLevel0 [0xC0]) = true ∧ symbolsBegun (twoBitLevel0 [0xC0]) [] = true ∧
        0 < 50 * (twoBitLevel0 [0xC0]).sel.nSelectors.toNat ∧
        symbolLens (twoBitLevel0 [0xC0]) 0 = [2, 2, 2]) ∧
      (groupsReady noSelectors = true ∧ symbolsBegun noSelectors [] = true ∧
        0 = 50 * noSelectors.sel.nSelectors.toNat) ∧
      (symbolsBegun (twoBitLevel0 [0x20]) [0] = true ∧ 2 ≤ (twoBitLevel0 [0x20]).map.eob.toNat ∧
        (twoBitLevel0 [0x20]).rd.pending =
          symbolBits (twoBitLevel0 [0x20]) 0 [0] ++ (codeword [2, 2, 2] 2 ++ [false, false, false, false]) ∧
        stageRun (cap (twoBitLevel0 [0x20]).stream) (twoBitLevel0 [0x20]).map [0]
            (stageInit (twoBitLevel0 [0x20]).sym) = .ok () runOfOne ∧
        stageSymbol (cap (twoBitLevel0 [0x20]).stream) (twoBitLevel0 [0x20]).map 2 runOfOne =
          .raised .blockOverrun runOfOne) ∧
      ((twoBitLevel0 [0xC0]).rd.pending.take (maxOf [2, 2, 2]) = toBits (maxOf [2, 2, 2]) 3 ∧
        firstCodeFrom [2, 2, 2] (minOf [2, 2, 2]) (maxOf [2, 2, 2] - minOf [2, 2, 2]) +
          [2, 2, 2].count (maxOf [2, 2, 2]) ≤ 3) ∧
      (withBits 1 1 .ends (twoBitLevel0 [])).rd.finite = true := by decide +kernel

theorem witness_PermuteStep :
    (bananaPermute.fsm = .permute ∧ holdsBlock bananaPermute nnbaaa = true ∧
        bananaPermute.blk.origPtr.toNat < nnbaaa.length) ∧
      ({ bananaPermute with blk := { bananaPermute.blk with origPtr := 6 } } : State).sym.nblock.toNat ≤
        (6 : BitVec 24).toNat := by decide +kernel

theorem witness_EmitStep :
    ((walkOver .emit [0x61]).fsm = .emit ∧ (walkOver .emit [0x61]).txn = some ⟨4, []⟩ ∧
        nextOutputByte (walkView (walkOver .emit [0x61])) (walkOver .emit [0x61]).out =
          .ok (some 0x61)
            { OutputRegs.reset with walkPtr := 1, walked := 1, rleLast := 0x61, rleCnt := 1 }) ∧
      ({ OutputRegs.reset with rleRep := 1 } : OutputRegs).rleRep ≠ 0 ∧
      ((readingAt .emit []).out.rleRep = 0 ∧ (readingAt .emit []).out.walked = (readingAt .emit []).sym.nblock) ∧
      nextOutputByte (walkView (walkOver .emit [0x61, 0x61, 0x61, 0x61])) fourthByte =
        .raised .rle1CountMissing { fourthByte with walkPtr := 4, walked := 4, rleCnt := 0 } := by decide +kernel

theorem witness_CrcCheckAndTrailerSteps :
    (readingAt .crcCheck []).fsm = .crcCheck ∧ (readingAt .trailer [0, 0, 0, 1]).fsm = .trailer ∧
      (readingAt .trailer [0, 0, 0, 1]).rd.wf = true ∧
      (readingAt .trailer [0, 0, 0, 1]).rd.pending = toBits 32 (1 : Word).toNat ++ [] := by decide +kernel

theorem witness_SymbolMapElements :
    ((0x0200 : BitVec 16).getLsbD (15 - 6) = true ∧ ∀ j, j < 6 → (0x0200 : BitVec 16).getLsbD (15 - j) = false) ∧
      ((0x0001 : BitVec 16).getLsbD (15 - 15) = true ∧
        ∀ j, j < 15 → (0x0001 : BitVec 16).getLsbD (15 - j) = false) ∧
      ((List.replicate (16 * 0) false).length = 16 * 0 ∧ (0x8200 : BitVec 16).getLsbD (15 - 6) = true ∧
        ∀ j, j < 6 → 0 < j → (0x8200 : BitVec 16).getLsbD (15 - j) = false) ∧
      ((List.replicate (16 * 6) false).length = 16 * 6 ∧
        ∀ j, j < 16 → 6 < j → (0x8200 : BitVec 16).getLsbD (15 - j) = false) ∧
      markedValues (List.replicate (16 * 6) false ++ toBits 16 (0x4000 : BitVec 16).toNat ++
          List.replicate (16 * (15 - 6)) false) ≠ [] ∧
      markedValues (List.replicate (16 * 6) false ++ toBits 16 (0 : BitVec 16).toNat ++
          List.replicate (16 * (15 - 6)) false) = [] := by decide +kernel

/-- The selectors of `banana` with room for another. -/
def oneSelectorToCome : State :=
  { bananaSymbols [] with sel := { (bananaSymbols []).sel with nSelectors := 2 } }

/-- In `bananaSymbols` the list of one selector is full, in `oneSelectorToCome` the next selector is the last. -/
theorem witness_GroupAndSelectorElements :
    (bananaSymbols []).sel.nGroups.toNat ≤ 2 ∧ 1 < (bananaSymbols []).sel.nGroups.toNat ∧
      (bananaSymbols []).sel.selMtf[1]? = some 1 ∧
      (bananaSymbols []).sel.nSelectors.toNat ≤ (bananaSymbols []).sel.selectors.length ∧
      1 < oneSelectorToCome.sel.nGroups.toNat ∧ oneSelectorToCome.sel.selMtf[1]? = some 1 ∧
      oneSelectorToCome.sel.selectors.length + 1 = oneSelectorToCome.sel.nSelectors.toNat := by decide +kernel

/-- The lengths of the two `banana` groups, but for the last symbol of group `g`, with this current length. -/
def lengthsAt (g : BitVec 3) (curr : BitVec 5) : State :=
  { State.reset with
    map := mapOf [0x61, 0x62, 0x6E]
    sel := { Selection.reset with nGroups := 2 }
    groups :=
      (State.reset.groups.set 0 (lensGroup (if g = 0 then [3, 3, 3, 1] else bananaLens))).set 1
        (lensGroup [3, 3, 3, 1])
    tab := { used := 0, g := g, curr := curr } }

theorem witness_LengthElements :
    ((lengthsAt 0 1).groups[(lengthsAt 0 1).tab.g.toNat]? = some (lensGroup [3, 3, 3, 1]) ∧
        (lengthsAt 1 1).groups[(lengthsAt 1 1).tab.g.toNat]? = some (lensGroup [3, 3, 3, 1])) ∧
      (¬(1 ≤ (lengthsAt 0 21).tab.curr.toNat ∧ (lengthsAt 0 21).tab.curr.toNat ≤ 20) ∧
        ¬(1 ≤ (lengthsAt 0 0).tab.curr.toNat ∧ (lengthsAt 0 0).tab.curr.toNat ≤ 20)) ∧
      (1 ≤ (lengthsAt 0 20).tab.curr.toNat ∧ (lengthsAt 0 20).tab.curr.toNat ≤ 20) ∧
      ((lensGroup [3, 3, 3]).len.length + 1 < (lengthsAt 0 1).map.alphaSize.toNat) ∧
      ((lengthsAt 0 1).map.alphaSize.toNat ≤ (lensGroup [3, 3, 3, 1]).len.length + 1 ∧
        (lengthsAt 0 1).tab.g.toNat + 1 < (lengthsAt 0 1).sel.nGroups.toNat) ∧
      ((lengthsAt 1 1).map.alphaSize.toNat = (lensGroup [3, 3, 3, 1]).len.length + 1 ∧
        (lengthsAt 1 1).sel.nGroups.toNat = (lengthsAt 1 1).tab.g.toNat + 1) := by decide +kernel

theorem witness_LengthElements_last :
    ∀ g other, g < (lengthsAt 1 1).tab.g.toNat → (lengthsAt 1 1).groups[g]? = some other →
      other.len.length = (lengthsAt 1 1).map.alphaSize.toNat := by
  intro g other hg h
  have hg : g < 1 := hg
  obtain rfl : g = 0 := by omega
  have h0 : (lengthsAt 1 1).groups[0]? = some (lensGroup bananaLens) := by decide +kernel
  rw [h0] at h
  cases h
  decide +kernel

theorem witness_SymbolCodeElement :
    (({ (bananaSymbols []) with win := ⟨1, 0, 0⟩ } : State).sel.nSelectors.toNat ≤ (1 : BitVec 15).toNat) ∧
      ((bananaSymbols []).win.groupPos = 0 ∧
        (bananaSymbols []).win.selIdx.toNat < (bananaSymbols []).sel.nSelectors.toNat ∧
        (bananaSymbols []).sel.selectors[(bananaSymbols []).win.selIdx.toNat]? = some 0) ∧
      ((1 : BitVec 9).toNat ≤ 1 ∧ 2 ≤ (bananaSymbols []).map.eob.toNat) ∧
      (stageSymbol 900000 (bananaSymbols []).map 4 { MtfStage.reset with nblock := 6 } =
        .ok () { MtfStage.reset with nblock := 6 }) ∧
      (stageSymbol 900000 (bananaSymbols []).map 2 { MtfStage.reset with nblock := 900000 } =
        .raised .blockOverrun
          { MtfStage.reset with
            nblock := 900000, mtf := 1 :: MtfStage.reset.mtf.eraseIdx 1 }) := by decide +kernel

/-- A step that meets an error (here the end of the input) and one of an encoder that has failed. -/
theorem witness_ErrorCodes :
    errorCodesOk (readingAt .header [0x31]) = true ∧ (∃ t, step (readingAt .header [0x31]) = .next t) ∧
      errorCodesOk { encoderOpen 9 with enc := failedEncoder } = true ∧
      (windowRead { encoderOpen 9 with enc := failedEncoder } 0).toNat / 16 % 16 = 7 :=
  ⟨by decide +kernel, exists_next (by decide +kernel), by decide +kernel, by decide +kernel⟩

theorem witness_RestingStatesKept :
    transactionsOk (walkOver .emit [0x61]) = true ∧ ∃ t, step (walkOver .emit [0x61]) = .next t :=
  ⟨by decide +kernel, exists_next (by decide +kernel)⟩

theorem witness_BitBuffersKept :
    ((readingAt .header [0x31, 0x41, 0x59, 0x26, 0x53, 0x59]).rd.wf = true ∧
        (readingAt .header [0x31, 0x41, 0x59, 0x26, 0x53, 0x59]).enc.wf = true) ∧
      ∃ t, step (readingAt .header [0x31, 0x41, 0x59, 0x26, 0x53, 0x59]) = .next t :=
  ⟨by decide +kernel, exists_next (by decide +kernel)⟩

theorem witness_ArraysKept : arraysOk bananaPermute = true ∧ ∃ t, step bananaPermute = .next t :=
  ⟨by decide +kernel, exists_next (by decide +kernel)⟩

theorem witness_RankTableKept :
    (bananaSymbols [0x42, 0xF0]).sym.mtf.Perm identityRanks ∧ ∃ t, step (bananaSymbols [0x42, 0xF0]) = .next t :=
  ⟨List.Perm.refl _, exists_next (by decide +kernel)⟩

theorem witness_UnitFrames :
    (∀ i ∈ [Instr.bcReadBits 24, .bcReadBool, .bcReadUnary, .bcReadInt32, .htDecode 0],
        (nextOf (exec i (bananaSymbols [0x42, 0xF0, 0, 0]))).isSome = true) ∧
      (∀ i ∈ [Instr.bcWriteBits 3 5, .bcWriteBool true, .bcWriteUnary 3, .bcWriteInt32 1, .bcFlush],
        (nextOf (exec i (encoderOpen 9))).isSome = true ∧ (encoderOpen 9).enc.wr.failure = none) ∧
      (nextOf (exec (.bcWriteInt32 1) (encoderOnto (sinkWith 1)))).isSome = true ∧
      (∀ i ∈ [Instr.haAllocate [5, 0] 17, .htCodes [1, 1], .mtfEncode [0x61] [0x61], .crcFinal, .crcInit, .crcUpdate 1,
          .crcCombine 1, .derand 1], (nextOf (exec i State.reset)).isSome = true) ∧
      (nextOf (exec (.htBuild 0) (bananaSymbols []))).isSome = true ∧
      (nextOf (exec .piBuild bananaPermute)).isSome = true ∧
      (∀ i ∈ [Instr.piNext, .rle1Next], (nextOf (exec i (walkOver .emit [0x61]))).isSome = true) ∧
      ∀ sym ∈ [0, 1, 2, 3, 4], (nextOf (exec (.mtfDecodeSymbol sym) (stageWith 2 0))).isSome = true := by
  decide +kernel

theorem witness_ElementFrames :
    (∀ i ∈ [Instr.usedMap 0x0200, .subMap 0x4000, .nGroups 2, .nSelectors 1, .lenSeed 3, .lenInc, .lenDec, .lenEnd],
        (nextOf (exec i (lengthsAt 0 3))).isSome = true) ∧
      (nextOf (exec (.selectorCode 0) (bananaSymbols []))).isSome = true ∧
      ∀ sym ∈ [(0 : BitVec 9), 1, 2, 3, 4], (nextOf (exec (.symbolCode sym) (stageWith 2 0))).isSome = true := by
  decide +kernel

theorem witness_StepAndCommandFrames :
    (nextOf (exec .stepStreamHeader (readingAt .streamHeader [0x42, 0x5A, 0x68, 0x39]))).isSome = true ∧
      (nextOf (exec .stepHeader (readingAt .header [0x31, 0x41, 0x59, 0x26, 0x53, 0x59]))).isSome = true ∧
      (nextOf (exec .stepTables bananaTables)).isSome = true ∧
      (nextOf (exec .stepSymbols (bananaSymbols [0x42, 0xF0]))).isSome = true ∧
      (nextOf (exec .stepPermute bananaPermute)).isSome = true ∧
      (nextOf (exec .stepEmit (walkOver .emit [0x61]))).isSome = true ∧
      (nextOf (exec .stepCrcCheck (readingAt .crcCheck []))).isSome = true ∧
      (nextOf (exec .stepTrailer (readingAt .trailer [0, 0, 0, 0]))).isSome = true ∧
      (∀ i ∈ [Instr.hostRead 1, .hostClose 0, .hostOpen 0, .encOpen 9, .encWrite 0 [], .encFinish 0, .encClose 0],
        (nextOf (exec i (decoderAt .emit []))).isSome = true) := by decide +kernel

end Sys2Proof.Tests
end

section
/-! PROOFS. The bit writer's operations (spec/40_bit_channel.md R150 to R154): what each appends on a sink with room,
and what a sink without room keeps. -/

namespace Sys2Proof.Machine

/-! ### A writer after bits were written to it -/

/-- `w'` is the writer `w` after `bits` were written to it, on a sink that took the bytes they complete (R150, R324). -/
structure Writer.Appended (bits : List Bool) (w w' : Writer) : Prop where
  bits_eq : w'.bits = w.bits ++ bits
  wf : w'.wf = true
  attached : w'.attached = true
  sink : w.sink <+: w'.sink
  failure : w'.failure = w.failureAfter ((w.live.toNat + bits.length) / 8)

/-- `w'` is the writer `w` whose sink failed with `f` while `bits` were written to it: the sink holds the first of the
bytes, as many as it had room for (R324, log 18). -/
structure Writer.CutOff (bits : List Bool) (f : SinkFailure) (w w' : Writer) : Prop where
  sinkBits : bitsOfBytes w'.sink = (w.bits ++ bits).take (8 * (w.sink.length + f.room))
  attached : w'.attached = true
  failure : w'.failure = some { f with room := 0 }

/-- `op` writes `bits` to the writer `w`: they are appended where the sink takes the bytes they complete, and the sink's
error is raised where it does not. -/
structure Writer.Writes (op : Writer → Res Writer Unit) (bits : List Bool) (w : Writer) : Prop where
  completes : w.takes ((w.live.toNat + bits.length) / 8) = true → ∃ w', op w = .ok () w' ∧ w.Appended bits w'
  raises : ∀ f, w.failure = some f → f.room < (w.live.toNat + bits.length) / 8 →
    ∃ w', op w = .raised f.error w' ∧ w.CutOff bits f w'

@[simp] theorem Writer.bits_length (w : Writer) : w.bits.length = 8 * w.sink.length + w.live.toNat := by
  simp [Writer.bits]

/-- With no bit live the bits written are those of the bytes put. -/
theorem Writer.bits_of_live_zero {w : Writer} (h : w.live = 0) : w.bits = bitsOfBytes w.sink := by
  simp [Writer.bits, h, toBits]

theorem Writer.live_le {w : Writer} (h : w.wf = true) : w.live.toNat ≤ 7 := ((Writer.wf_iff w).1 h).2

/-- A sink that does not take so many bytes fails, and has room for fewer. -/
theorem Writer.exists_room_lt {w : Writer} {k : Nat} (h : ¬w.takes k = true) :
    ∃ f, w.failure = some f ∧ f.room < k := by
  unfold Writer.takes at h
  split at h
  · exact absurd rfl h
  · rename_i f hf
    exact ⟨f, hf, by simpa using h⟩

theorem Writer.takes_of_le {w : Writer} {f : SinkFailure} {k : Nat} (hf : w.failure = some f) (h : k ≤ f.room) :
    w.takes k = true := by
  simp [Writer.takes, hf, h]

theorem Writer.takes_of_none {w : Writer} (k : Nat) (hf : w.failure = none) : w.takes k = true := by
  simp [Writer.takes, hf]

@[simp] theorem Writer.takes_zero (w : Writer) : w.takes 0 = true := by
  unfold Writer.takes
  cases w.failure <;> simp

/-- The bytes completed went to the sink, and the other bits are live. -/
theorem Writer.Appended.progress {bits : List Bool} {w w' : Writer} (h : w.Appended bits w') :
    w'.sink.length = w.sink.length + (w.live.toNat + bits.length) / 8 ∧
      w'.live.toNat = (w.live.toNat + bits.length) % 8 := by
  have hlive := Writer.live_le h.wf
  have hlen := congrArg List.length h.bits_eq
  obtain ⟨k, hk⟩ := h.sink
  have hsink := congrArg List.length hk
  simp only [Writer.bits_length, List.length_append] at hlen hsink
  omega

theorem Writer.Appended.refl {w : Writer} (hw : w.wf = true) (ha : w.attached = true) : w.Appended [] w := by
  have hlive := Writer.live_le hw
  have h0 : w.live.toNat / 8 = 0 := by omega
  exact ⟨by simp, hw, ha, List.prefix_refl _, by simp [h0]⟩

section
variable {b₁ b₂ : List Bool} {w w' : Writer}

theorem Writer.Appended.trans {w'' : Writer} (h₁ : w.Appended b₁ w') (h₂ : w'.Appended b₂ w'') :
    w.Appended (b₁ ++ b₂) w'' := by
  obtain ⟨-, hlive⟩ := h₁.progress
  refine ⟨by rw [h₂.bits_eq, h₁.bits_eq, List.append_assoc], h₂.wf, h₂.attached, h₁.sink.trans h₂.sink, ?_⟩
  have hfail := w.failureAfter_add ((w.live.toNat + b₁.length) / 8) ((w'.live.toNat + b₂.length) / 8)
  rw [← h₁.failure] at hfail
  rw [h₂.failure, List.length_append,
    show (w.live.toNat + (b₁.length + b₂.length)) / 8 =
      (w.live.toNat + b₁.length) / 8 + (w'.live.toNat + b₂.length) / 8 by omega]
  exact hfail

/-- A sink that takes the bytes of two strings takes those of the first. -/
theorem Writer.takes_append_left (h : w.takes ((w.live.toNat + (b₁ ++ b₂).length) / 8) = true) :
    w.takes ((w.live.toNat + b₁.length) / 8) = true := by
  have hle : (w.live.toNat + b₁.length) / 8 ≤ (w.live.toNat + (b₁ ++ b₂).length) / 8 := by
    rw [List.length_append]
    omega
  rw [← Nat.add_sub_of_le hle] at h
  exact (Writer.takes_split h).1

/-- A sink that takes the bytes of two strings takes those of the second once the first is written. -/
theorem Writer.Appended.takes_right (h₁ : w.Appended b₁ w')
    (h : w.takes ((w.live.toNat + (b₁ ++ b₂).length) / 8) = true) :
    w'.takes ((w'.live.toNat + b₂.length) / 8) = true := by
  obtain ⟨-, hlive⟩ := h₁.progress
  rw [List.length_append, show (w.live.toNat + (b₁.length + b₂.length)) / 8 =
      (w.live.toNat + b₁.length) / 8 + (w'.live.toNat + b₂.length) / 8 by omega] at h
  have h₂ := (Writer.takes_split h).2
  rw [← h₁.failure] at h₂
  exact h₂

/-- How a sink that fails does so once a first string is written: with less room, too little for the second string where
it was too little for both. -/
theorem Writer.Appended.failure_right {f : SinkFailure} (h₁ : w.Appended b₁ w') (hf : w.failure = some f)
    (hr : f.room < (w.live.toNat + (b₁ ++ b₂).length) / 8) (hle : (w.live.toNat + b₁.length) / 8 ≤ f.room) :
    w'.failure = some { f with room := f.room - (w.live.toNat + b₁.length) / 8 } ∧
      f.room - (w.live.toNat + b₁.length) / 8 < (w'.live.toNat + b₂.length) / 8 := by
  obtain ⟨-, hlive⟩ := h₁.progress
  rw [List.length_append] at hr
  exact ⟨by rw [h₁.failure, Writer.failureAfter, hf, Option.map_some], by omega⟩

/-- A sink that failed took as many bytes as it had room for. -/
theorem Writer.CutOff.sink_length {f : SinkFailure} (h : w.CutOff b₁ f w')
    (hr : f.room < (w.live.toNat + b₁.length) / 8) : w'.sink.length = w.sink.length + f.room := by
  have hlen := congrArg List.length h.sinkBits
  simp only [bitsOfBytes_length, List.length_take, List.length_append, Writer.bits_length] at hlen
  omega

/-- A sink that failed within a first string failed within the first and any second. -/
theorem Writer.CutOff.append {f : SinkFailure} (h : w.CutOff b₁ f w')
    (hr : f.room < (w.live.toNat + b₁.length) / 8) (b₂ : List Bool) : w.CutOff (b₁ ++ b₂) f w' := by
  refine ⟨?_, h.attached, h.failure⟩
  rw [h.sinkBits, ← List.append_assoc, List.take_append_of_le_length (l₁ := w.bits ++ b₁)]
  rw [List.length_append, Writer.bits_length]
  omega

/-- A sink that failed within a second string, after the first was written. -/
theorem Writer.CutOff.of_appended {w'' : Writer} {f : SinkFailure} (h₁ : w.Appended b₁ w')
    (hle : (w.live.toNat + b₁.length) / 8 ≤ f.room)
    (h₂ : w'.CutOff b₂ { f with room := f.room - (w.live.toNat + b₁.length) / 8 } w'') :
    w.CutOff (b₁ ++ b₂) f w'' := by
  obtain ⟨hsink, -⟩ := h₁.progress
  refine ⟨?_, h₂.attached, h₂.failure⟩
  rw [h₂.sinkBits, h₁.bits_eq, hsink, List.append_assoc]
  congr 2
  simp only
  omega

end

/-! ### The operations -/

/-- One operation after another writes the bits of the first and then those of the second. -/
theorem Writer.Writes.bind {op₁ op₂ : Writer → Res Writer Unit} {b₁ b₂ : List Bool} {w : Writer}
    (h₁ : w.Writes op₁ b₁) (h₂ : ∀ w', w.Appended b₁ w' → w'.Writes op₂ b₂) :
    w.Writes (fun w => (op₁ w).bind fun _ w' => op₂ w') (b₁ ++ b₂) where
  completes ht := by
    obtain ⟨w', e₁, a₁⟩ := h₁.completes (Writer.takes_append_left ht)
    obtain ⟨w'', e₂, a₂⟩ := (h₂ w' a₁).completes (a₁.takes_right ht)
    exact ⟨w'', by simp only [e₁, Res.bind_ok, e₂], a₁.trans a₂⟩
  raises f hf hr := by
    by_cases hroom : f.room < (w.live.toNat + b₁.length) / 8
    · obtain ⟨w', e₁, c₁⟩ := h₁.raises f hf hroom
      exact ⟨w', by simp only [e₁, Res.bind_raised], c₁.append hroom b₂⟩
    · have hle := Nat.le_of_not_lt hroom
      obtain ⟨w', e₁, a₁⟩ := h₁.completes (Writer.takes_of_le hf hle)
      obtain ⟨hf', hr'⟩ := a₁.failure_right hf hr hle
      obtain ⟨w'', e₂, c₂⟩ := (h₂ w' a₁).raises _ hf' hr'
      exact ⟨w'', by simp only [e₁, Res.bind_ok, e₂], .of_appended a₁ hle c₂⟩

section
variable {w : Writer} (hw : w.wf = true) (ha : w.attached = true)
include hw ha

/-- An operation that changes nothing writes no bits. -/
theorem Writer.writes_nothing : w.Writes (fun w => .ok () w) [] where
  completes _ := ⟨w, rfl, .refl hw ha⟩
  raises f _ hr := by
    have hlive := Writer.live_le hw
    simp only [List.length_nil] at hr
    omega

/-- `WriteBits` (R150) writes the bits of its value. -/
theorem writeBits_writes {n v : Nat} (hn : n ≤ 24) (hv : v < 2 ^ n) : w.Writes (writeBits n v) (toBits n v) where
  completes ht := by
    rw [toBits_length] at ht
    obtain ⟨w', e, hwf, hbits, hatt, -, hsink, hfail⟩ := writeBits_spec hn hv w hw ha ht
    exact ⟨w', e, hbits, hwf, hatt, hsink, by rw [hfail, toBits_length]⟩
  raises f hf hr := by
    rw [toBits_length] at hr
    obtain ⟨w', e, hbits, hatt, hlen, -, hfail⟩ := writeBits_fails hn hv w hw ha hf hr
    refine ⟨w', e, ?_, hatt, hfail⟩
    rw [← hbits, ← hlen, Writer.bits, List.take_left' (bitsOfBytes_length _)]

/-- `WriteBool` (R151) writes its bit. -/
theorem writeBool_writes (b : Bool) : w.Writes (writeBool b) [b] := by
  rw [← toBits_one b]
  exact writeBits_writes hw ha (by decide) b.toNat_lt

/-- `WriteInt32` (R153) writes 32 bits. -/
theorem writeInt32_writes (v : Word) : w.Writes (writeInt32 v) (toBits 32 v.toNat) := by
  have hv := v.isLt
  have hsplit : toBits 32 v.toNat = toBits 16 (v.toNat / 65536) ++ toBits 16 (v.toNat % 65536) := by
    rw [show toBits 16 (v.toNat % 65536) = toBits 16 v.toNat from toBits_mod 16 v.toNat]
    exact toBits_add 16 16 v.toNat
  rw [hsplit]
  exact (writeBits_writes hw ha (by decide) (by omega)).bind fun w' h =>
    writeBits_writes h.wf h.attached (by decide) (by omega)

/-- `Flush` (R154) fills the last byte with 0 bits. -/
theorem flush_writes : w.Writes flush (List.replicate ((8 - w.live.toNat) % 8) false) := by
  have hlive := Writer.live_le hw
  have hzeros : ∀ n, toBits n 0 = List.replicate n false := by
    intro n
    induction n with
    | zero => rfl
    | succ n ih => simp [toBits, ih, List.replicate_succ]
  by_cases h0 : 0 < w.live.toNat
  · have hmod : (8 - w.live.toNat) % 8 = 8 - w.live.toNat := by omega
    have hbits := writeBits_writes hw ha (n := 8 - w.live.toNat) (v := 0) (by omega) (Nat.two_pow_pos _)
    have e : flush w = writeBits (8 - w.live.toNat) 0 w := if_pos h0
    rw [hmod, ← hzeros]
    exact ⟨by rw [e]; exact hbits.completes, by rw [e]; exact hbits.raises⟩
  · have hmod : (8 - w.live.toNat) % 8 = 0 := by omega
    have hnone := Writer.writes_nothing hw ha
    have e : flush w = .ok () w := if_neg h0
    rw [hmod]
    exact ⟨by rw [e]; exact hnone.completes, by rw [e]; exact hnone.raises⟩

end

/-- `WriteUnary` (R152) writes `j` 1 bits and a 0 bit. -/
theorem writeUnary_writes (j : Nat) {w : Writer} (hw : w.wf = true) (ha : w.attached = true) :
    w.Writes (writeUnary j) (List.replicate j true ++ [false]) := by
  induction j generalizing w with
  | zero => exact writeBits_writes hw ha (by decide) (by decide)
  | succ j ih =>
    rw [List.replicate_succ, List.cons_append]
    exact (writeBits_writes hw ha (n := 1) (v := 1) (by decide) (by decide)).bind fun w' h => ih h.wf h.attached

/-- A string of bits is written as it stands. -/
theorem writeBitString_writes (bits : List Bool) {w : Writer} (hw : w.wf = true) (ha : w.attached = true) :
    w.Writes (writeBitString bits) bits := by
  induction bits generalizing w with
  | nil => exact Writer.writes_nothing hw ha
  | cons b rest ih => exact (writeBool_writes hw ha b).bind fun w' h => ih h.wf h.attached

/-! ### The operations issued on their own -/

/-- An operation of the bit writer that completes changes the writer alone. -/
theorem finishWriter_of_ok {op : Writer → Res Writer Unit} {s : State} {w : Writer} (h : op s.enc.wr = .ok () w) :
    finishWriter (onEncoder (onWriter op) s) = .next { s with enc := { s.enc with wr := w } } := by
  simp only [onEncoder, onWriter, h, Res.lift_ok, finishWriter]

/-- An operation of the bit writer that meets the sink's error fails the encoder (R324). -/
theorem finishWriter_of_raised {op : Writer → Res Writer Unit} {s : State} {w : Writer} {e : Err}
    (h : op s.enc.wr = .raised e w) :
    finishWriter (onEncoder (onWriter op) s) = .next
      { s with
        enc := { s.enc with wr := w, state := .failed, errKind := errKindCode e, errSub := errSubOf e } } := by
  simp only [onEncoder, onWriter, h, Res.lift_raised, finishWriter, failEncoder]

/-- What an operation of the bit writer issued on its own does on a sink that takes its bytes. -/
theorem Writer.Writes.finishWriter_completes {op : Writer → Res Writer Unit} {bits : List Bool} {s : State}
    (h : s.enc.wr.Writes op bits) {k : Nat} (hk : k = (s.enc.wr.live.toNat + bits.length) / 8)
    (ht : s.enc.wr.takes k = true) :
    ∃ w, finishWriter (onEncoder (onWriter op) s) = .next { s with enc := { s.enc with wr := w } } ∧
      s.enc.wr.Appended bits w ∧ w.failure = s.enc.wr.failureAfter k := by
  subst hk
  obtain ⟨w, e, a⟩ := h.completes ht
  exact ⟨w, finishWriter_of_ok e, a, a.failure⟩

/-- The writer's internal operations, each with the operation of the bit writer it runs and the bits it writes. -/
theorem exec_writer_cases {s : State} (hw : s.enc.wr.wf = true) (ha : s.enc.wr.attached = true) {i : Instr}
    {bits : List Bool}
    (h : (∃ n v, i = .bcWriteBits n v ∧ n ≤ 24 ∧ v < 2 ^ n ∧ bits = toBits n v) ∨
      (∃ b, i = .bcWriteBool b ∧ bits = [b]) ∨
      (∃ j, i = .bcWriteUnary j ∧ bits = List.replicate j true ++ [false]) ∨
      (∃ v : Word, i = .bcWriteInt32 v ∧ bits = toBits 32 v.toNat) ∨
      (i = .bcFlush ∧ bits = List.replicate ((8 - s.enc.wr.live.toNat) % 8) false)) :
    ∃ op, exec i s = finishWriter (onEncoder (onWriter op) s) ∧ s.enc.wr.Writes op bits := by
  obtain ⟨n, v, rfl, hn, hv, rfl⟩ | ⟨b, rfl, rfl⟩ | ⟨j, rfl, rfl⟩ | ⟨v, rfl, rfl⟩ | ⟨rfl, rfl⟩ := h
  · exact ⟨writeBits n v, rfl, writeBits_writes hw ha hn hv⟩
  · exact ⟨writeBool b, rfl, writeBool_writes hw ha b⟩
  · exact ⟨writeUnary j, rfl, writeUnary_writes j hw ha⟩
  · exact ⟨writeInt32 v, rfl, writeInt32_writes hw ha v⟩
  · exact ⟨flush, rfl, flush_writes hw ha⟩

/-- Settles O24: each operation writes its bits, by the composition of the `WriteBits` it is made of. -/
theorem writerAppendsBits : Obligations.WriterAppendsBits := by
  intro s hw ha
  have hlive := Writer.live_le hw
  refine ⟨fun n v hn hv ht => ?_, fun b ht => ?_, fun j ht => ?_, fun v ht => ?_, fun ht => ?_,
    fun i bits f hi hf hr => ?_⟩
  · obtain ⟨w, e, a, hfail⟩ := (writeBits_writes hw ha hn hv).finishWriter_completes (by rw [toBits_length]) ht
    exact ⟨w, e, a.bits_eq, a.wf, a.attached, a.sink, hfail⟩
  · obtain ⟨w, e, a, hfail⟩ := (writeBool_writes hw ha b).finishWriter_completes rfl ht
    exact ⟨w, e, a.bits_eq, a.wf, a.attached, a.sink, hfail⟩
  · obtain ⟨w, e, a, hfail⟩ := (writeUnary_writes j hw ha).finishWriter_completes (by simp [Nat.add_assoc]) ht
    exact ⟨w, e, by rw [a.bits_eq, List.append_assoc], a.wf, a.attached, a.sink, hfail⟩
  · obtain ⟨w, e, a, hfail⟩ := (writeInt32_writes hw ha v).finishWriter_completes (by rw [toBits_length]) ht
    exact ⟨w, e, a.bits_eq, a.wf, a.attached, a.sink, hfail⟩
  · obtain ⟨w, e, a, hfail⟩ := (flush_writes hw ha).finishWriter_completes (k := (s.enc.wr.live.toNat + 7) / 8)
      (by rw [List.length_replicate]; omega) ht
    have hl : w.live.toNat = 0 := by
      rw [a.progress.2, List.length_replicate]
      omega
    exact ⟨w, e, a.bits_eq, BitVec.eq_of_toNat_eq hl, a.wf, a.attached, a.sink, hfail⟩
  · obtain ⟨op, e, h⟩ := exec_writer_cases hw ha hi
    obtain ⟨w, er, c⟩ := h.raises f hf hr
    exact ⟨w, e.trans (finishWriter_of_raised er), c.sinkBits, c.attached, c.failure⟩

end Sys2Proof.Machine
end

section
/-! PROOFS. The encoder's blocks (spec/46_stream_controller.md R321): ENC_WRITE cuts what is buffered into full blocks
and codes them in order. -/

namespace Sys2Proof.Machine

/-! ### The commands of an open encoder -/

section
variable {s : State} (hi : s.inst = .encoder) (ht : s.txn = none) (ho : s.enc.state = .isOpen)
include hi ht ho

theorem exec_encWrite_of_open (m : Word) (data : List Byte) :
    exec (.encWrite m data) s = encoderReply (onEncoder (encodeData data) s) := by
  simp [exec, execEncWrite, command, hi, ht, ho]

theorem exec_encFinish_of_open (v : Word) : exec (.encFinish v) s = encoderReply (onEncoder encodeFinish s) := by
  simp [exec, execEncFinish, command, hi, ht, ho]

theorem exec_encClose_of_open (v : Word) : exec (.encClose v) s = closeReply (onEncoder encodeFinish s) := by
  simp [exec, execEncClose, command, hi, ht, ho]

end

/-- The encoder with the sink's error latched (R324). -/
def Encoder.failedWith (err : Err) (e : Encoder) : Encoder :=
  { e with state := .failed, errKind := errKindCode err, errSub := errSubOf err }

section
variable {op : Encoder → Res Encoder Unit} {s : State} {e : Encoder}

theorem encoderReply_of_ok (h : op s.enc = .ok () e) :
    encoderReply (onEncoder op s) =
      .next { s with enc := e, host := { s.host with results := s.host.results ++ [.ok []] } } := by
  simp only [onEncoder, h, Res.lift_ok, encoderReply, reply, answer]

theorem encoderReply_of_raised {err : Err} (h : op s.enc = .raised err e) :
    encoderReply (onEncoder op s) = .next
      { s with
        enc := e.failedWith err
        host := { s.host with results := s.host.results ++ [errResult err] } } := by
  simp only [onEncoder, h, Res.lift_raised, encoderReply, reply, answer, failEncoder, Encoder.failedWith]

theorem encoderReply_of_refused {q : Refusal} (h : op s.enc = .refused q) :
    encoderReply (onEncoder op s) = .refused q := by
  simp only [onEncoder, h, Res.lift_refused, encoderReply]

end

/-! ### One block -/

section
variable {x : List Byte} {e : Encoder}

theorem encodeBlock_refused (hc : contractHolds x e.level = false) :
    encodeBlock x e = .refused .encoderContract := by
  simp [encodeBlock, hc]

variable (hc : contractHolds x e.level = true) (hw : e.wr.wf = true) (ha : e.wr.attached = true)
include hc hw ha

/-- A block on a sink with room for it is written, and its CRC folded in. -/
theorem encodeBlock_completes
    (ht : e.wr.takes ((e.wr.live.toNat + (Config.encodeBlock x e.level).length) / 8) = true) :
    ∃ w, encodeBlock x e = .ok () { e with wr := w, combined := rotl1 e.combined ^^^ crcOf x } ∧
      e.wr.Appended (Config.encodeBlock x e.level) w := by
  obtain ⟨w, hok, a⟩ := (writeBitString_writes (Config.encodeBlock x e.level) hw ha).completes ht
  exact ⟨w, by simp only [encodeBlock, if_pos hc, onWriter, hok, Res.lift_ok, Res.bind_ok], a⟩

/-- A block the sink has no room for changes the writer alone. -/
theorem encodeBlock_raises {f : SinkFailure} (hf : e.wr.failure = some f)
    (hr : f.room < (e.wr.live.toNat + (Config.encodeBlock x e.level).length) / 8) :
    ∃ w, encodeBlock x e = .raised f.error { e with wr := w } ∧
      e.wr.CutOff (Config.encodeBlock x e.level) f w := by
  obtain ⟨w, hop, c⟩ := (writeBitString_writes (Config.encodeBlock x e.level) hw ha).raises f hf hr
  exact ⟨w, by simp only [encodeBlock, if_pos hc, onWriter, hop, Res.lift_raised, Res.bind_raised], c⟩

end

/-! ### The full blocks -/

@[simp] theorem blocksBits_cons (level : BitVec 4) (x : List Byte) (blocks : List (List Byte)) :
    blocksBits level (x :: blocks) = Config.encodeBlock x level ++ blocksBits level blocks := rfl

@[simp] theorem blocksBits_concat (level : BitVec 4) (blocks : List (List Byte)) (x : List Byte) :
    blocksBits level (blocks ++ [x]) = blocksBits level blocks ++ Config.encodeBlock x level := by
  simp [blocksBits]

theorem encSplit_pos (level : BitVec 4) : 0 < Config.encSplit level := Nat.succ_pos _

/-- The blocks can be coded: the parameter keeps its contract on each, and the sink has room for them. -/
def Encoder.CanCode (e : Encoder) (blocks : List (List Byte)) : Prop :=
  (∀ x ∈ blocks, contractHolds x e.level = true) ∧
    e.wr.takes ((e.wr.live.toNat + (blocksBits e.level blocks).length) / 8) = true

/-- The encoder once blocks are coded: their CRCs folded in, and the rest buffered. -/
def Encoder.coded (e : Encoder) (blocks : List (List Byte)) (rest : List Byte) (w : Writer) : Encoder :=
  { e with buf := rest, combined := foldCrcs e.combined blocks, wr := w }

theorem Encoder.canCode_nil {e : Encoder} (hw : e.wr.wf = true) : e.CanCode [] := by
  have hlive := Writer.live_le hw
  have h0 : e.wr.live.toNat / 8 = 0 := by omega
  exact ⟨by simp, by simp [blocksBits, h0]⟩

/-- Where blocks can be coded and one block more cannot, it breaks the contract or the sink has no room for it. -/
theorem Encoder.not_canCode_concat {e : Encoder} {blocks : List (List Byte)} {x : List Byte} (h : e.CanCode blocks)
    (hx : ¬e.CanCode (blocks ++ [x])) :
    contractHolds x e.level = false ∨
      (contractHolds x e.level = true ∧ ∃ f, e.wr.failure = some f ∧
        f.room < (e.wr.live.toNat + (blocksBits e.level (blocks ++ [x])).length) / 8) := by
  cases hc : contractHolds x e.level with
  | false => exact .inl rfl
  | true =>
    have hall : ∀ y ∈ blocks ++ [x], contractHolds y e.level = true :=
      List.forall_mem_append.2 ⟨h.1, List.forall_mem_singleton.2 hc⟩
    exact .inr ⟨rfl, Writer.exists_room_lt fun ht => hx ⟨hall, ht⟩⟩

/-- Either all of a list has a property, or there is a first element with which it is lost. -/
theorem exists_first_loss {α : Type} {P : List α → Prop} (h0 : P []) (l : List α) :
    P l ∨ ∃ before x after, l = before ++ x :: after ∧ P before ∧ ¬P (before ++ [x]) := by
  induction l using List.reverseRecOn with
  | nil => exact .inl h0
  | append_singleton l x ih =>
    by_cases hlx : P (l ++ [x])
    · exact .inl hlx
    · refine .inr ?_
      obtain hl | ⟨before, y, after, rfl, hb, hy⟩ := ih
      · exact ⟨l, x, [], rfl, hl, hlx⟩
      · exact ⟨before, y, after ++ [x], by simp, hb, hy⟩

/-- A buffer that fills no block is left as it is. -/
theorem encodeFull_of_short (k : Nat) {e : Encoder} (h : e.buf.length < Config.encSplit e.level) :
    encodeFull k e = .ok () e := by
  cases k with
  | zero => rfl
  | succ k => exact if_neg (Nat.not_le.2 h)

/-- A turn of the loop of ENC_WRITE codes the block the buffer begins with. -/
theorem encodeFull_of_block (k : Nat) {e : Encoder} {x rest : List Byte} (hbuf : e.buf = x ++ rest)
    (hx : x.length = Config.encSplit e.level) :
    encodeFull (k + 1) e = (encodeBlock x e).bind fun _ e =>
      encodeFull k { e with buf := e.buf.drop (Config.encSplit e.level) } := by
  have hfull : Config.encSplit e.level ≤ e.buf.length := by
    rw [hbuf, List.length_append]
    omega
  have htake : e.buf.take (Config.encSplit e.level) = x := by rw [hbuf, ← hx, List.take_left]
  simp only [encodeFull, if_pos hfull, htake]

/-- Blocks that can be coded are coded in as many turns of the loop. -/
theorem encodeFull_of_canCode (blocks : List (List Byte)) (rest : List Byte) (k : Nat) {e : Encoder}
    (hw : e.wr.wf = true) (ha : e.wr.attached = true) (hbuf : e.buf = blocks.flatten ++ rest)
    (hlen : ∀ x ∈ blocks, x.length = Config.encSplit e.level) (hcan : e.CanCode blocks) :
    ∃ w, encodeFull (blocks.length + k) e = encodeFull k (e.coded blocks rest w) ∧
      e.wr.Appended (blocksBits e.level blocks) w := by
  induction blocks generalizing e with
  | nil =>
    obtain rfl : rest = e.buf := hbuf.symm
    exact ⟨e.wr, by rw [List.length_nil, Nat.zero_add]; rfl, .refl hw ha⟩
  | cons x blocks ih =>
    obtain ⟨hc, ht⟩ := hcan
    rw [blocksBits_cons] at ht
    obtain ⟨hcx, hcs⟩ := List.forall_mem_cons.1 hc
    obtain ⟨hx, hlens⟩ := List.forall_mem_cons.1 hlen
    have hbuf' : e.buf = x ++ (blocks.flatten ++ rest) := by rw [hbuf, List.flatten_cons, List.append_assoc]
    obtain ⟨w₁, hblock, a₁⟩ := encodeBlock_completes hcx hw ha (Writer.takes_append_left ht)
    obtain ⟨w, hloop, a⟩ := ih
      (e := { e with wr := w₁, combined := rotl1 e.combined ^^^ crcOf x, buf := blocks.flatten ++ rest })
      a₁.wf a₁.attached rfl hlens ⟨hcs, a₁.takes_right ht⟩
    refine ⟨w, ?_, a₁.trans a⟩
    have hdrop : e.buf.drop (Config.encSplit e.level) = blocks.flatten ++ rest := by rw [hbuf', ← hx, List.drop_left]
    rw [List.length_cons, Nat.add_right_comm, encodeFull_of_block _ hbuf' hx, hblock, Res.bind_ok, hdrop]
    exact hloop

section
variable {e : Encoder} {data : List Byte} (hw : e.wr.wf = true) (ha : e.wr.attached = true)
include hw ha

/-- The body of ENC_WRITE once blocks that can be coded are: what is left of its bound is enough for the rest. -/
theorem encodeData_of_canCode {blocks : List (List Byte)} {rest : List Byte}
    (hbuf : e.buf ++ data = blocks.flatten ++ rest) (hlen : ∀ x ∈ blocks, x.length = Config.encSplit e.level)
    (hcan : e.CanCode blocks) :
    ∃ k w, encodeData data e = encodeFull k (e.coded blocks rest w) ∧ rest.length ≤ k ∧
      e.wr.Appended (blocksBits e.level blocks) w := by
  have hcount : blocks.length ≤ blocks.flatten.length := by
    have hsum : blocks.flatten.length = blocks.length * Config.encSplit e.level := by
      rw [List.length_flatten, List.map_congr_left hlen, List.map_const', List.sum_replicate, smul_eq_mul]
    rw [hsum]
    exact Nat.le_mul_of_pos_right _ (encSplit_pos _)
  have htotal : (e.buf ++ data).length = blocks.flatten.length + rest.length := by rw [hbuf, List.length_append]
  obtain ⟨k, hk⟩ := Nat.exists_eq_add_of_le (show blocks.length ≤ (e.buf ++ data).length by omega)
  obtain ⟨w, hloop, a⟩ := encodeFull_of_canCode blocks rest k (e := { e with buf := e.buf ++ data }) hw ha hbuf
    hlen hcan
  refine ⟨k, w, ?_, by omega, a⟩
  rw [encodeData, hk]
  exact hloop

/-- All full blocks are coded, and the rest stays buffered. -/
theorem encodeData_completes {blocks : List (List Byte)} {tail : List Byte}
    (hbuf : e.buf ++ data = blocks.flatten ++ tail) (hlen : ∀ x ∈ blocks, x.length = Config.encSplit e.level)
    (htail : tail.length < Config.encSplit e.level) (hcan : e.CanCode blocks) :
    ∃ w, encodeData data e = .ok () (e.coded blocks tail w) ∧ e.wr.Appended (blocksBits e.level blocks) w := by
  obtain ⟨k, w, hrun, -, a⟩ := encodeData_of_canCode hw ha hbuf hlen hcan
  exact ⟨w, hrun.trans (encodeFull_of_short k htail), a⟩

section
variable {before : List (List Byte)} {x rest : List Byte} (hbuf : e.buf ++ data = before.flatten ++ (x ++ rest))
  (hlen : ∀ y ∈ before, y.length = Config.encSplit e.level) (hx : x.length = Config.encSplit e.level)
  (hcan : e.CanCode before)
include hbuf hlen hx hcan

/-- The body of ENC_WRITE comes to the first block that cannot be coded. -/
theorem encodeData_reaches :
    ∃ k w, encodeData data e = ((encodeBlock x (e.coded before (x ++ rest) w)).bind fun _ e =>
        encodeFull k { e with buf := e.buf.drop (Config.encSplit e.level) }) ∧
      e.wr.Appended (blocksBits e.level before) w := by
  obtain ⟨k, w, hrun, hk, a⟩ := encodeData_of_canCode hw ha hbuf hlen hcan
  have hpos := encSplit_pos e.level
  rw [List.length_append] at hk
  obtain ⟨k, rfl⟩ := Nat.exists_eq_add_of_le' (show 1 ≤ k by omega)
  exact ⟨k, w, hrun.trans (encodeFull_of_block k rfl hx), a⟩

/-- A block on which the parameter breaks its contract is refused. -/
theorem encodeData_refused (hc : contractHolds x e.level = false) :
    encodeData data e = .refused .encoderContract := by
  obtain ⟨k, w, hrun, -⟩ := encodeData_reaches hw ha hbuf hlen hx hcan
  rw [hrun, encodeBlock_refused (e := e.coded before (x ++ rest) w) hc, Res.bind_refused]

/-- A block the sink has no room for stays buffered with all after it. -/
theorem encodeData_raises (hc : contractHolds x e.level = true) {f : SinkFailure} (hf : e.wr.failure = some f)
    (hr : f.room < (e.wr.live.toNat + (blocksBits e.level (before ++ [x])).length) / 8) :
    ∃ w, encodeData data e = .raised f.error (e.coded before (x ++ rest) w) ∧
      e.wr.CutOff (blocksBits e.level (before ++ [x])) f w := by
  obtain ⟨k, w₁, hrun, a⟩ := encodeData_reaches hw ha hbuf hlen hx hcan
  have hle : (e.wr.live.toNat + (blocksBits e.level before).length) / 8 ≤ f.room := by
    simpa [Writer.takes, hf] using hcan.2
  rw [blocksBits_concat] at hr ⊢
  obtain ⟨hf', hr'⟩ := a.failure_right hf hr hle
  obtain ⟨w, hblock, c⟩ := encodeBlock_raises (e := e.coded before (x ++ rest) w₁) hc a.wf a.attached hf' hr'
  exact ⟨w, by rw [hrun, hblock]; rfl, .of_appended a hle c⟩

end

end

/-- Settles O18: the blocks are coded up to the first that cannot be, by induction on the blocks. -/
theorem encWriteCodesFullBlocks : Obligations.EncWriteCodesFullBlocks := by
  intro m data s blocks tail hi ht ho hw ha hbuf hlen htail
  rw [exec_encWrite_of_open hi ht ho m data]
  obtain hcan | ⟨before, x, after, rfl, hcan, hlost⟩ := exists_first_loss (Encoder.canCode_nil hw) blocks
  · obtain ⟨w, hrun, a⟩ := encodeData_completes hw ha hbuf.symm hlen htail hcan
    exact .inr ⟨hcan.1, hcan.2, _, encoderReply_of_ok hrun, rfl, a.bits_eq, rfl, ho, rfl, rfl, rfl, a.wf, a.attached,
      a.sink, a.failure⟩
  · obtain ⟨hlens, hx⟩ : (∀ y ∈ before, y.length = Config.encSplit s.enc.level) ∧
        x.length = Config.encSplit s.enc.level :=
      ⟨fun y hy => hlen y (List.mem_append_left _ hy), hlen x (by simp)⟩
    have hbuf' : s.enc.buf ++ data = before.flatten ++ (x ++ (after.flatten ++ tail)) := by simp [← hbuf]
    refine .inl ⟨before, after, x, rfl, hcan.1, hcan.2, ?_⟩
    obtain hc | ⟨hc, f, hf, hr⟩ := Encoder.not_canCode_concat hcan hlost
    · exact .inl ⟨hc, encoderReply_of_refused (encodeData_refused hw ha hbuf' hlens hx hcan hc)⟩
    · obtain ⟨w, hrun, c⟩ := encodeData_raises hw ha hbuf' hlens hx hcan hc hf hr
      exact .inr ⟨hc, f, _, hf, hr, encoderReply_of_raised hrun, rfl, rfl, rfl,
        (List.append_assoc x after.flatten tail).symm, rfl, rfl, c.sinkBits, c.attached, c.failure⟩

end Sys2Proof.Machine
end

section
/-! PROOFS. The end of a coded stream (spec/46_stream_controller.md R322, R323): ENC_FINISH and ENC_CLOSE code what is
buffered as a last block and write the trailer. -/

namespace Sys2Proof.Machine

/-! ### The last block -/

/-- The bits of the last block; none where nothing is buffered (R322). -/
def Encoder.lastBits (e : Encoder) : List Bool := if e.buf = [] then [] else Config.encodeBlock e.buf e.level

/-- The combined CRC with that of the last block (R322). -/
def Encoder.lastCrc (e : Encoder) : Word :=
  if e.buf = [] then e.combined else rotl1 e.combined ^^^ crcOf e.buf

/-- ENC_FINISH up to the trailer (R322). -/
def encodeLast (e : Encoder) : Res Encoder Unit :=
  if e.buf = [] then .ok () e else (encodeBlock e.buf e).bind fun _ e => .ok () { e with buf := [] }

theorem encodeLast_refused {e : Encoder} (hb : e.buf ≠ []) (hc : contractHolds e.buf e.level = false) :
    encodeLast e = .refused .encoderContract := by
  rw [encodeLast, if_neg hb, encodeBlock_refused hc, Res.bind_refused]

section
variable {e : Encoder} (hc : e.buf = [] ∨ contractHolds e.buf e.level = true) (hw : e.wr.wf = true)
  (ha : e.wr.attached = true)
include hc hw ha

theorem encodeLast_completes (ht : e.wr.takes ((e.wr.live.toNat + e.lastBits.length) / 8) = true) :
    ∃ w, encodeLast e = .ok () { e with buf := [], combined := e.lastCrc, wr := w } ∧
      e.wr.Appended e.lastBits w := by
  by_cases hb : e.buf = []
  · refine ⟨e.wr, ?_, ?_⟩
    · rw [encodeLast, if_pos hb, Encoder.lastCrc, if_pos hb, ← hb]
    · rw [Encoder.lastBits, if_pos hb]
      exact .refl hw ha
  · simp only [Encoder.lastBits, Encoder.lastCrc, if_neg hb] at ht ⊢
    obtain ⟨w, hblock, a⟩ := encodeBlock_completes (hc.resolve_left hb) hw ha ht
    exact ⟨w, by rw [encodeLast, if_neg hb, hblock, Res.bind_ok], a⟩

theorem encodeLast_raises {f : SinkFailure} (hf : e.wr.failure = some f)
    (hr : f.room < (e.wr.live.toNat + e.lastBits.length) / 8) :
    ∃ w, encodeLast e = .raised f.error { e with wr := w } ∧ e.wr.CutOff e.lastBits f w := by
  have hlive := Writer.live_le hw
  by_cases hb : e.buf = []
  · rw [Encoder.lastBits, if_pos hb, List.length_nil] at hr
    omega
  · simp only [Encoder.lastBits, if_neg hb] at hr ⊢
    obtain ⟨w, hblock, c⟩ := encodeBlock_raises (hc.resolve_left hb) hw ha hf hr
    exact ⟨w, by rw [encodeLast, if_neg hb, hblock, Res.bind_raised], c⟩

end

/-! ### The trailer -/

/-- The end-of-stream magic and the combined CRC, filled to the byte boundary (R322). -/
def writeTrailer (c : Word) (w : Writer) : Res Writer Unit :=
  (writeBits 24 (Config.eosMagic / 2 ^ 24) w).bind fun _ w =>
    (writeBits 24 (Config.eosMagic % 2 ^ 24) w).bind fun _ w =>
      (writeInt32 c w).bind fun _ w => flush w

/-- The bits of the trailer of a writer with so many bits live. -/
def trailerBits (live : Nat) (c : Word) : List Bool :=
  toBits 48 Config.eosMagic ++ (toBits 32 c.toNat ++ List.replicate ((8 - live) % 8) false)

theorem trailerBits_length (live : Nat) (c : Word) : (trailerBits live c).length = 80 + (8 - live) % 8 := by
  simp [trailerBits]
  omega

theorem writeTrailer_writes (c : Word) {w : Writer} (hw : w.wf = true) (ha : w.attached = true) :
    w.Writes (writeTrailer c) (trailerBits w.live.toNat c) := by
  have hlive := Writer.live_le hw
  have hmagic : toBits 48 Config.eosMagic =
      toBits 24 (Config.eosMagic / 2 ^ 24) ++ toBits 24 (Config.eosMagic % 2 ^ 24) := by
    rw [toBits_mod]
    exact toBits_add 24 24 _
  rw [trailerBits, hmagic, List.append_assoc]
  refine (writeBits_writes hw ha (by decide) (by decide)).bind fun w₁ a₁ => ?_
  refine (writeBits_writes a₁.wf a₁.attached (by decide) (by decide)).bind fun w₂ a₂ => ?_
  refine (writeInt32_writes a₂.wf a₂.attached c).bind fun w₃ a₃ => ?_
  have hlive₃ : w₃.live.toNat = w.live.toNat := by
    rw [((a₁.trans a₂).trans a₃).progress.2]
    simp only [List.length_append, toBits_length]
    omega
  rw [← hlive₃]
  exact flush_writes a₃.wf a₃.attached

/-- Two operations of the writer one after the other are one, with what the encoder does after them. -/
theorem onWriter_andThen {op₁ op₂ : Writer → Res Writer Unit} {k₁ k₂ : Unit → Encoder → Res Encoder Unit}
    {e : Encoder} (h : ∀ w, k₁ () { e with wr := w } = (onWriter op₂ { e with wr := w }).bind k₂) :
    (onWriter op₁ e).bind k₁ = (onWriter (fun w => (op₁ w).bind fun _ w => op₂ w) e).bind k₂ := by
  simp only [onWriter] at h ⊢
  cases op₁ e.wr with
  | ok _ w => exact h w
  | raised err w => rfl
  | fault f => rfl
  | refused q => rfl

/-- ENC_FINISH is the last block and then the trailer. -/
theorem encodeFinish_eq (e : Encoder) :
    encodeFinish e = (encodeLast e).bind fun _ e =>
      (onWriter (writeTrailer e.combined) e).bind fun _ e => .ok () { e with state := .finished } := by
  have htrailer : ∀ e : Encoder,
      ((onWriter (writeBits 24 (Config.eosMagic / 2 ^ 24)) e).bind fun _ e =>
        (onWriter (writeBits 24 (Config.eosMagic % 2 ^ 24)) e).bind fun _ e =>
          (onWriter (writeInt32 e.combined) e).bind fun _ e =>
            (onWriter flush e).bind fun _ e => .ok () { e with state := .finished }) =
        (onWriter (writeTrailer e.combined) e).bind fun _ e => .ok () { e with state := .finished } := fun e =>
    onWriter_andThen fun w₁ => onWriter_andThen fun w₂ => onWriter_andThen fun w₃ => rfl
  simp only [← htrailer]
  rfl

/-! ### ENC_FINISH -/

/-- How many bits are live after the last block. -/
def Encoder.lastLive (e : Encoder) : Nat := (e.wr.live.toNat + e.lastBits.length) % 8

/-- All the bits ENC_FINISH writes (R322). -/
def Encoder.endBits (e : Encoder) : List Bool := e.lastBits ++ trailerBits e.lastLive e.lastCrc

/-- The bits ENC_FINISH writes end at a byte boundary. -/
theorem Encoder.endBits_length (e : Encoder) :
    e.wr.live.toNat + e.endBits.length = 8 * ((e.wr.live.toNat + e.lastBits.length + 87) / 8) := by
  rw [Encoder.endBits, List.length_append, trailerBits_length, Encoder.lastLive]
  omega

theorem Encoder.endBits_bytes (e : Encoder) :
    (e.wr.live.toNat + e.endBits.length) / 8 = (e.wr.live.toNat + e.lastBits.length + 87) / 8 := by
  rw [e.endBits_length]
  omega

/-- Once they are written no bit is live. -/
theorem Encoder.endBits_live {e : Encoder} {w : Writer} (h : e.wr.Appended e.endBits w) : w.live = 0 := by
  have hlive : w.live.toNat = 0 := by
    rw [h.progress.2, e.endBits_length, Nat.mul_mod_right]
  exact BitVec.eq_of_toNat_eq hlive

theorem encodeFinish_refused {e : Encoder} (hb : e.buf ≠ []) (hc : contractHolds e.buf e.level = false) :
    encodeFinish e = .refused .encoderContract := by
  rw [encodeFinish_eq, encodeLast_refused hb hc, Res.bind_refused]

section
variable {e : Encoder} (hc : e.buf = [] ∨ contractHolds e.buf e.level = true) (hw : e.wr.wf = true)
  (ha : e.wr.attached = true)
include hc hw ha

theorem encodeFinish_completes (ht : e.wr.takes ((e.wr.live.toNat + e.lastBits.length + 87) / 8) = true) :
    ∃ w, encodeFinish e = .ok () { e with buf := [], combined := e.lastCrc, wr := w, state := .finished } ∧
      e.wr.Appended e.endBits w := by
  rw [← e.endBits_bytes] at ht
  obtain ⟨w₁, hlast, a₁⟩ := encodeLast_completes hc hw ha (Writer.takes_append_left ht)
  have htrailer := writeTrailer_writes e.lastCrc a₁.wf a₁.attached
  rw [a₁.progress.2] at htrailer
  obtain ⟨w, hop, a⟩ := htrailer.completes (a₁.takes_right ht)
  exact ⟨w, by simp only [encodeFinish_eq, hlast, onWriter, hop, Res.bind_ok, Res.lift_ok], a₁.trans a⟩

/-- The sink fails in the last block, of which nothing is kept but the bytes put, or in the trailer. -/
theorem encodeFinish_raises {f : SinkFailure} (hf : e.wr.failure = some f)
    (hr : f.room < (e.wr.live.toNat + e.lastBits.length + 87) / 8) :
    ∃ e', encodeFinish e = .raised f.error e' ∧ e'.level = e.level ∧
      (f.room < (e.wr.live.toNat + e.lastBits.length) / 8 → e'.buf = e.buf ∧ e'.combined = e.combined) ∧
      ((e.wr.live.toNat + e.lastBits.length) / 8 ≤ f.room → e'.buf = [] ∧ e'.combined = e.lastCrc) ∧
      e.wr.CutOff e.endBits f e'.wr := by
  rw [← e.endBits_bytes] at hr
  by_cases hroom : f.room < (e.wr.live.toNat + e.lastBits.length) / 8
  · obtain ⟨w, hlast, c⟩ := encodeLast_raises hc hw ha hf hroom
    exact ⟨{ e with wr := w }, by rw [encodeFinish_eq, hlast, Res.bind_raised], rfl, fun _ => ⟨rfl, rfl⟩,
      fun h => absurd hroom (Nat.not_lt.2 h), c.append hroom _⟩
  · have hle := Nat.le_of_not_lt hroom
    obtain ⟨w₁, hlast, a₁⟩ := encodeLast_completes hc hw ha (Writer.takes_of_le hf hle)
    obtain ⟨hf', hr'⟩ := a₁.failure_right hf hr hle
    have htrailer := writeTrailer_writes e.lastCrc a₁.wf a₁.attached
    rw [a₁.progress.2] at htrailer
    obtain ⟨w, hop, c⟩ := htrailer.raises _ hf' hr'
    exact ⟨{ e with buf := [], combined := e.lastCrc, wr := w },
      by simp only [encodeFinish_eq, hlast, onWriter, hop, Res.bind_ok, Res.lift_raised, Res.bind_raised], rfl,
      fun h => absurd h hroom, fun _ => ⟨rfl, rfl⟩, .of_appended a₁ hle c⟩

end

/-! ### ENC_CLOSE -/

section
variable {op : Encoder → Res Encoder Unit} {s : State} {e : Encoder}

theorem closeReply_of_ok (h : op s.enc = .ok () e) :
    closeReply (onEncoder op s) = .next
      { s with
        enc := { e with state := .closed, wr := { e.wr with attached := false } }
        host := { s.host with results := s.host.results ++ [.ok []] } } := by
  simp only [onEncoder, h, Res.lift_ok, closeReply, reply, answer, encoderClosed]

theorem closeReply_of_raised {err : Err} (h : op s.enc = .raised err e) :
    closeReply (onEncoder op s) = .next
      { s with
        enc := { e.failedWith err with state := .closed, wr := { (e.failedWith err).wr with attached := false } }
        host := { s.host with results := s.host.results ++ [.ok []] } } := by
  simp only [onEncoder, h, Res.lift_raised, closeReply, reply, answer, encoderClosed, failEncoder, Encoder.failedWith]

theorem closeReply_of_refused {q : Refusal} (h : op s.enc = .refused q) :
    closeReply (onEncoder op s) = .refused q := by
  simp only [onEncoder, h, Res.lift_refused, closeReply]

end

/-- A sink that failed within the bits ENC_FINISH writes failed before those that fill the last byte. -/
theorem Encoder.endBits_cutOff {e : Encoder} {f : SinkFailure} {w : Writer} (h : e.wr.CutOff e.endBits f w)
    (hr : f.room < (e.wr.live.toNat + e.lastBits.length + 87) / 8) :
    bitsOfBytes w.sink =
      (e.wr.bits ++ e.lastBits ++ toBits 48 Config.eosMagic ++ toBits 32 e.lastCrc.toNat).take
        (8 * (e.wr.sink.length + f.room)) := by
  rw [h.sinkBits, Encoder.endBits, trailerBits, ← List.append_assoc, ← List.append_assoc, ← List.append_assoc,
    List.take_append_of_le_length]
  simp only [List.length_append, Writer.bits_length, toBits_length]
  omega

/-- Settles O19: the last block and the trailer as one string of bits, which the sink takes or cuts off. -/
theorem encFinishWritesTrailer : Obligations.EncFinishWritesTrailer := by
  intro v s last c hi ht ho hw ha hlast hcrc
  obtain rfl : last = s.enc.lastBits := hlast
  obtain rfl : c = s.enc.lastCrc := hcrc
  rw [exec_encFinish_of_open hi ht ho v, exec_encClose_of_open hi ht ho v]
  by_cases hc : s.enc.buf = [] ∨ contractHolds s.enc.buf s.enc.level = true
  · refine .inr ⟨hc, ?_⟩
    by_cases htakes : s.enc.wr.takes ((s.enc.wr.live.toNat + s.enc.lastBits.length + 87) / 8) = true
    · obtain ⟨w, hrun, a⟩ := encodeFinish_completes hc hw ha htakes
      have hlive := Encoder.endBits_live a
      have hacc : w.acc = 0 := by
        have hwf := ((Writer.wf_iff w).1 a.wf).1
        rw [hlive] at hwf
        exact BitVec.eq_of_toNat_eq (Nat.lt_one_iff.1 hwf)
      have hbits := a.bits_eq
      rw [Writer.bits_of_live_zero hlive, Encoder.endBits, trailerBits, ← List.append_assoc,
        ← List.append_assoc, ← List.append_assoc] at hbits
      exact .inr ⟨htakes, _, encoderReply_of_ok hrun, closeReply_of_ok hrun, rfl, rfl, rfl,
        ⟨_, Nat.mod_lt _ (by decide), hbits⟩, hlive, hacc, a.attached,
        by rw [a.failure, s.enc.endBits_bytes], rfl, rfl, rfl, a.sink⟩
    · obtain ⟨f, hf, hr⟩ := Writer.exists_room_lt htakes
      obtain ⟨e, hrun, hlevel, hearly, hlate, cut⟩ := encodeFinish_raises hc hw ha hf hr
      exact .inl ⟨f, _, hf, hr, encoderReply_of_raised hrun, closeReply_of_raised hrun, rfl, rfl, rfl, hlevel, hearly,
        hlate, Encoder.endBits_cutOff cut hr, cut.attached, cut.failure⟩
  · obtain ⟨hb, hbad⟩ := not_or.1 hc
    have hrun := encodeFinish_refused hb (Bool.eq_false_iff.2 hbad)
    exact .inl ⟨hb, Bool.eq_false_iff.2 hbad, encoderReply_of_refused hrun, closeReply_of_refused hrun⟩

end Sys2Proof.Machine
end

section
/-! PROOFS. The encoder's states (spec/46_stream_controller.md R320, R326): the header ENC_OPEN writes, and what each
command does in each state. -/

namespace Sys2Proof.Machine

/-! ### Bytes and their bits (R80) -/

/-- A field of `n` bits determines the number modulo `2^n`. -/
theorem toBits_inj (n a b : Nat) (h : toBits n a = toBits n b) : a % 2 ^ n = b % 2 ^ n := by
  induction n with
  | zero => rw [Nat.pow_zero, Nat.mod_one, Nat.mod_one]
  | succ n ih =>
    simp only [toBits, List.cons.injEq, decide_eq_decide] at h
    obtain ⟨hbit, hrest⟩ := h
    have hdigit : a / 2 ^ n % 2 = b / 2 ^ n % 2 := by omega
    rw [Nat.mod_pow_succ, Nat.mod_pow_succ, ih hrest, hdigit]

theorem bitsOfBytes_injective : Function.Injective bitsOfBytes := by
  intro xs
  induction xs with
  | nil =>
    intro ys h
    have hlen := congrArg List.length h
    simp only [bitsOfBytes_length] at hlen
    exact (List.length_eq_zero_iff.1 (by rw [List.length_nil] at hlen; omega)).symm
  | cons x xs ih =>
    intro ys h
    cases ys with
    | nil => simpa using congrArg List.length h
    | cons y ys =>
      obtain ⟨hbyte, hrest⟩ := List.append_inj (by simpa using h) (by rw [toBits_length, toBits_length])
      have hxy := toBits_inj 8 _ _ hbyte
      rw [Nat.mod_eq_of_lt x.isLt, Nat.mod_eq_of_lt y.isLt] at hxy
      rw [BitVec.eq_of_toNat_eq hxy, ih hrest]

theorem bitsOfBytes_take (bytes : List Byte) (k : Nat) :
    (bitsOfBytes bytes).take (8 * k) = bitsOfBytes (bytes.take k) := by
  by_cases hk : k ≤ bytes.length
  · have hlen : (bitsOfBytes (bytes.take k)).length = 8 * k := by
      rw [bitsOfBytes_length, List.length_take, Nat.min_eq_left hk]
    conv => lhs; rw [← List.take_append_drop k bytes, bitsOfBytes_append]
    exact List.take_left' hlen
  · rw [List.take_of_length_le (by rw [bitsOfBytes_length]; omega), List.take_of_length_le (by omega)]

/-! ### ENC_OPEN -/

/-- The header bytes of R320. -/
def headerBytes (level : Nat) : List Byte := [0x42, 0x5A, 0x68, BitVec.ofNat 8 (0x30 + level)]

/-- The header bytes as the bit writer puts them (R320). -/
def putHeader (level : Nat) (w : Writer) : Res Writer Unit :=
  (writeBits 8 0x42 w).bind fun _ w =>
    (writeBits 8 0x5A w).bind fun _ w => (writeBits 8 0x68 w).bind fun _ w => writeBits 8 (0x30 + level) w

theorem onWriter_bind (op₁ op₂ : Writer → Res Writer Unit) (e : Encoder) :
    ((onWriter op₁ e).bind fun _ e => onWriter op₂ e) = onWriter (fun w => (op₁ w).bind fun _ w => op₂ w) e := by
  simp only [onWriter]
  cases op₁ e.wr <;> rfl

theorem writeHeader_eq (level : Nat) (e : Encoder) : writeHeader level e = onWriter (putHeader level) e := by
  simp only [writeHeader, onWriter_bind]
  rfl

theorem putHeader_writes {level : Nat} (hl : level ≤ 9) {w : Writer} (hw : w.wf = true) (ha : w.attached = true) :
    w.Writes (putHeader level) (bitsOfBytes (headerBytes level)) := by
  have hbits : bitsOfBytes (headerBytes level) =
      toBits 8 0x42 ++ (toBits 8 0x5A ++ (toBits 8 0x68 ++ toBits 8 (0x30 + level))) := by
    have hdigit : (BitVec.ofNat 8 (0x30 + level)).toNat = 0x30 + level := by
      rw [BitVec.toNat_ofNat]
      omega
    simp only [headerBytes, bitsOfBytes_cons, hdigit]
    simp [bitsOfBytes]
  rw [hbits]
  refine (writeBits_writes hw ha (by decide) (by decide)).bind fun w₁ a₁ => ?_
  refine (writeBits_writes a₁.wf a₁.attached (by decide) (by decide)).bind fun w₂ a₂ => ?_
  refine (writeBits_writes a₂.wf a₂.attached (by decide) (by decide)).bind fun w₃ a₃ => ?_
  exact writeBits_writes a₃.wf a₃.attached (by decide) (by omega)

/-- The writer ENC_OPEN starts with, on a sink that fails so. -/
def Writer.fresh (sink : Option SinkFailure) : Writer := { Writer.reset with attached := true, failure := sink }

/-- The header on a sink with room for its four bytes. -/
theorem writeHeader_completes {level : Nat} (hl : level ≤ 9) {sink : Option SinkFailure}
    (ht : (Writer.fresh sink).takes 4 = true) :
    ∃ w, writeHeader level (encoderAt level sink) = .ok () { encoderAt level sink with wr := w } ∧
      w.sink = headerBytes level := by
  obtain ⟨w, hop, a⟩ := (putHeader_writes hl (w := Writer.fresh sink) rfl rfl).completes
    (by simpa [Writer.fresh, Writer.reset, headerBytes] using ht)
  have hlive : w.live = 0 := BitVec.eq_of_toNat_eq
    (a.progress.2.trans (by simp [Writer.fresh, Writer.reset, headerBytes]))
  have hbits := a.bits_eq
  rw [Writer.bits_of_live_zero hlive] at hbits
  refine ⟨w, ?_, bitsOfBytes_injective hbits⟩
  rw [writeHeader_eq, onWriter]
  exact congrArg _ hop

/-- The header on a sink with room for fewer. -/
theorem writeHeader_raises {level : Nat} (hl : level ≤ 9) {f : SinkFailure} (hr : f.room < 4) :
    ∃ w, writeHeader level (encoderAt level (some f)) = .raised f.error { encoderAt level (some f) with wr := w } ∧
      w.sink = (headerBytes level).take f.room := by
  obtain ⟨w, hop, c⟩ := (putHeader_writes hl (w := Writer.fresh (some f)) rfl rfl).raises f rfl
    (by simpa [Writer.fresh, Writer.reset, headerBytes] using hr)
  have hbits := c.sinkBits
  rw [show (Writer.fresh (some f)).bits = [] from rfl, show (Writer.fresh (some f)).sink = [] from rfl,
    List.nil_append, List.length_nil, Nat.zero_add, bitsOfBytes_take] at hbits
  refine ⟨w, ?_, bitsOfBytes_injective hbits⟩
  rw [writeHeader_eq, onWriter]
  exact congrArg _ hop

/-- ENC_OPEN that is accepted writes the header with the encoder set up and the sink handed over taken. -/
theorem exec_encOpen_of_legal {s : State} {level : Word} (hi : s.inst ≠ .decoder) (ht : s.txn = none)
    (h1 : 1 ≤ level.toNat) (h9 : level.toNat ≤ 9) :
    exec (.encOpen level) s = encoderReply (onEncoder (writeHeader level.toNat)
      { s with
        inst := .encoder
        enc := encoderAt level.toNat (offeredSink s.host)
        host := { s.host with sinks := s.host.sinks.tail } }) := by
  have hlegal : ¬(s.inst = .decoder ∨ level.toNat < 1 ∨ 9 < level.toNat) := by
    rintro (h | h | h)
    · exact hi h
    · omega
    · omega
  simp only [exec, execEncOpen, command, ht, if_neg hlegal]

/-! ### ENC_WRITE -/

/-- Data that fill no block only join the buffer. -/
theorem encodeData_of_short {data : List Byte} {e : Encoder}
    (h : (e.buf ++ data).length < Config.encSplit e.level) :
    encodeData data e = .ok () { e with buf := e.buf ++ data } :=
  encodeFull_of_short _ (e := { e with buf := e.buf ++ data }) h

/-- Bytes cut into blocks of one length and a shorter rest. -/
theorem exists_blocks {n : Nat} (hn : 0 < n) (l : List Byte) :
    ∃ (blocks : List (List Byte)) (tail : List Byte), blocks.flatten ++ tail = l ∧
      (∀ x ∈ blocks, x.length = n) ∧ tail.length < n := by
  by_cases hshort : l.length < n
  · exact ⟨[], l, rfl, by simp, hshort⟩
  · obtain ⟨blocks, tail, hcut, hlen, htail⟩ := exists_blocks hn (l.drop n)
    refine ⟨l.take n :: blocks, tail, ?_, List.forall_mem_cons.2 ⟨?_, hlen⟩, htail⟩
    · rw [List.flatten_cons, List.append_assoc, hcut, List.take_append_drop]
    · rw [List.length_take]
      omega
termination_by l.length
decreasing_by
  rw [List.length_drop]
  omega

/-- A block the parameter keeps its contract on has the ten bytes of its magic and its CRC (R321). -/
theorem encodeBlock_length {x : List Byte} {level : BitVec 4} (h : contractHolds x level = true) :
    80 ≤ (Config.encodeBlock x level).length := by
  simp only [contractHolds, codesBlock, Bool.and_eq_true, decide_eq_true_eq] at h
  have hlen := congrArg List.length h.1
  simp only [List.length_take, List.length_append, toBits_length] at hlen
  omega

/-- The first full block on a sink with room for fewer than ten bytes: it breaks the contract, or the sink fails in
it. -/
theorem encodeData_of_first_block {e : Encoder} {data x : List Byte} {f : SinkFailure} (hw : e.wr.wf = true)
    (ha : e.wr.attached = true) (hf : e.wr.failure = some f) (hroom : f.room < 10)
    (hx : x = (e.buf ++ data).take (Config.encSplit e.level)) (hlen : x.length = Config.encSplit e.level) :
    (contractHolds x e.level = false ∧ encodeData data e = .refused .encoderContract) ∨
      (contractHolds x e.level = true ∧ ∃ e', encodeData data e = .raised f.error e' ∧
        bitsOfBytes e'.wr.sink =
          (e.wr.bits ++ Config.encodeBlock x e.level).take (8 * (e.wr.sink.length + f.room))) := by
  have hbuf : e.buf ++ data =
      ([] : List (List Byte)).flatten ++ (x ++ (e.buf ++ data).drop (Config.encSplit e.level)) := by
    rw [hx, List.take_append_drop]
    rfl
  have hcan := Encoder.canCode_nil hw
  cases hc : contractHolds x e.level with
  | false => exact .inl ⟨rfl, encodeData_refused hw ha hbuf (by simp) hlen hcan hc⟩
  | true =>
    have hlong := encodeBlock_length hc
    have hone : blocksBits e.level ([] ++ [x]) = Config.encodeBlock x e.level := by simp [blocksBits]
    obtain ⟨w, hrun, c⟩ := encodeData_raises hw ha hbuf (by simp) hlen hcan hc hf (by rw [hone]; omega)
    rw [hone] at c
    exact .inr ⟨rfl, _, hrun, c.sinkBits⟩

/-! ### ENC_FINISH with nothing buffered -/

section
variable {e : Encoder} {f : SinkFailure} (hb : e.buf = []) (hw : e.wr.wf = true) (ha : e.wr.attached = true)
  (hf : e.wr.failure = some f)
include hb

theorem Encoder.lastBits_of_nil : e.lastBits = [] := if_pos hb

theorem Encoder.lastCrc_of_nil : e.lastCrc = e.combined := if_pos hb

include hw ha hf

/-- The trailer alone on a sink without room for it. -/
theorem encodeFinish_raises_of_nil (hr : f.room < (e.wr.live.toNat + 87) / 8) :
    ∃ e', encodeFinish e = .raised f.error e' ∧
      bitsOfBytes e'.wr.sink =
        (e.wr.bits ++ toBits 48 Config.eosMagic ++ toBits 32 e.combined.toNat).take
          (8 * (e.wr.sink.length + f.room)) ∧
      e'.wr.sink.length = e.wr.sink.length + f.room := by
  have hr' : f.room < (e.wr.live.toNat + e.lastBits.length + 87) / 8 := by rwa [Encoder.lastBits_of_nil hb]
  obtain ⟨e', hrun, -, -, -, cut⟩ := encodeFinish_raises (.inl hb) hw ha hf hr'
  have hbits := Encoder.endBits_cutOff cut hr'
  rw [Encoder.lastBits_of_nil hb, Encoder.lastCrc_of_nil hb, List.append_nil] at hbits
  exact ⟨e', hrun, hbits, cut.sink_length (by rwa [e.endBits_bytes])⟩

/-- The trailer alone on a sink with just enough room for it, or more. -/
theorem encodeFinish_completes_of_nil (hr : (e.wr.live.toNat + 87) / 8 ≤ f.room) :
    ∃ e', encodeFinish e = .ok () e' ∧ e'.state = .finished ∧
      e'.wr.sink.length = e.wr.sink.length + (e.wr.live.toNat + 87) / 8 := by
  obtain ⟨w, hrun, a⟩ := encodeFinish_completes (.inl hb) hw ha
    (Writer.takes_of_le hf (by rwa [Encoder.lastBits_of_nil hb]))
  have hsink := a.progress.1
  rw [e.endBits_bytes, Encoder.lastBits_of_nil hb] at hsink
  exact ⟨_, hrun, rfl, hsink⟩

end

/-! ### The states -/

section
variable {s : State} (hi : s.inst = .encoder) (ht : s.txn = none)
include hi ht

/-- ENC_CLOSE of an encoder that is not open closes it and puts nothing (R323). -/
theorem exec_encClose_of_not_open (ho : s.enc.state ≠ .isOpen) (v : Word) :
    exec (.encClose v) s = .next (answer (.ok []) { s with enc := encoderClosed s.enc }) := by
  simp only [exec, execEncClose, command, ht, hi, ne_eq, not_true_eq_false, if_false]
  cases hst : s.enc.state with
  | isOpen => exact absurd hst ho
  | finished => rfl
  | failed => rfl
  | closed => rfl

/-- ENC_WRITE and ENC_FINISH of a finished encoder (R326). -/
theorem exec_encWrite_encFinish_of_finished (hst : s.enc.state = .finished) :
    (∀ m data, exec (.encWrite m data) s = .next (answer (.err 8 0) s)) ∧
      ∀ v, exec (.encFinish v) s = .next (answer (.ok []) s) := by
  refine ⟨fun m data => ?_, fun v => ?_⟩
  · simp only [exec, execEncWrite, command, hi, ht, hst]
    rfl
  · simp only [exec, execEncFinish, command, hi, ht, hst]
    rfl

/-- ENC_WRITE and ENC_FINISH of a failed encoder (R326). -/
theorem exec_encWrite_encFinish_of_failed (hst : s.enc.state = .failed) :
    (∀ m data, exec (.encWrite m data) s = .next (answer (.err s.enc.errKind s.enc.errSub) s)) ∧
      ∀ v, exec (.encFinish v) s = .next (answer (.err s.enc.errKind s.enc.errSub) s) := by
  refine ⟨fun m data => ?_, fun v => ?_⟩
  · simp only [exec, execEncWrite, command, hi, ht, hst]
    rfl
  · simp only [exec, execEncFinish, command, hi, ht, hst]
    rfl

/-- ENC_WRITE and ENC_FINISH of a closed encoder (R326). -/
theorem exec_encWrite_encFinish_of_closed (hst : s.enc.state = .closed) :
    (∀ m data, exec (.encWrite m data) s = .next (answer (.err 8 0) s)) ∧
      ∀ v, exec (.encFinish v) s = .next (answer (.err 8 0) s) := by
  refine ⟨fun m data => ?_, fun v => ?_⟩
  · simp only [exec, execEncWrite, command, hi, ht, hst]
    rfl
  · simp only [exec, execEncFinish, command, hi, ht, hst]
    rfl

variable (ho : s.enc.state = .isOpen)
include ho

/-- ENC_WRITE on a sink that never fails keeps the encoder open (R326). -/
theorem exec_encWrite_keeps_open (hw : s.enc.wr.wf = true) (ha : s.enc.wr.attached = true)
    (hf : s.enc.wr.failure = none) {m : Word} {data : List Byte} {t : State}
    (h : exec (.encWrite m data) s = .next t) :
    t.enc.state = .isOpen ∧ t.host.results = s.host.results ++ [.ok []] := by
  obtain ⟨blocks, tail, hcut, hlen, htail⟩ := exists_blocks (encSplit_pos s.enc.level) (s.enc.buf ++ data)
  obtain ⟨before, after, x, -, -, -, ⟨-, hrefused⟩ | ⟨-, f, e, hsome, -⟩⟩ | ⟨-, -, e, hrun, -, -, -, hst, -⟩ :=
    encWriteCodesFullBlocks m data s blocks tail hi ht ho hw ha hcut hlen htail
  · rw [hrefused] at h
    cases h
  · rw [hf] at hsome
    cases hsome
  · rw [hrun] at h
    cases h
    exact ⟨hst, rfl⟩

end

/-- Settles O20: the table R326, each entry by the lemma of its command in its state. -/
theorem encoderStates : Obligations.EncoderStates := by
  intro s ht
  refine ⟨fun hi ho m data hshort => ?_, fun hi ho ha hw hf => ⟨fun m data t h => ?_, fun hc => ?_⟩,
    fun f hi ho ha hw hf => ⟨fun m data x hroom hx hlen => ?_, fun hb hr => ?_, fun hb hr => ?_⟩,
    fun hi hst => ?_, fun hi hst => ?_, fun hi hst => ?_, fun level hi h1 h9 => ⟨fun hsink => ?_, fun f hf hr => ?_⟩⟩
  · rw [exec_encWrite_of_open hi ht ho]
    exact encoderReply_of_ok (encodeData_of_short hshort)
  · exact exec_encWrite_keeps_open hi ht ho hw ha hf h
  · obtain ⟨w, hrun, a⟩ := encodeFinish_completes hc hw ha (Writer.takes_of_none _ hf)
    have hlive := Encoder.endBits_live a
    exact ⟨fun v => ⟨_, (exec_encFinish_of_open hi ht ho v).trans (encoderReply_of_ok hrun), rfl, rfl⟩,
      fun v => ⟨_, (exec_encClose_of_open hi ht ho v).trans (closeReply_of_ok hrun), rfl, hlive, rfl⟩⟩
  · rw [exec_encWrite_of_open hi ht ho]
    obtain ⟨hc, hrun⟩ | ⟨hc, e, hrun, hbits⟩ := encodeData_of_first_block hw ha hf hroom hx hlen
    · exact .inl ⟨hc, encoderReply_of_refused hrun⟩
    · exact .inr ⟨hc, _, encoderReply_of_raised hrun, rfl, rfl, rfl, hbits, rfl⟩
  · obtain ⟨e, hrun, hbits, hsink⟩ := encodeFinish_raises_of_nil hb hw ha hf hr
    exact ⟨fun v => ⟨_, (exec_encFinish_of_open hi ht ho v).trans (encoderReply_of_raised hrun), rfl, rfl, rfl, hbits,
        rfl⟩,
      fun v => ⟨_, (exec_encClose_of_open hi ht ho v).trans (closeReply_of_raised hrun), rfl, rfl, rfl, rfl, hsink,
        rfl⟩⟩
  · obtain ⟨e, hrun, hst, hsink⟩ := encodeFinish_completes_of_nil hb hw ha hf hr
    exact ⟨fun v => ⟨_, (exec_encFinish_of_open hi ht ho v).trans (encoderReply_of_ok hrun), hst, hsink, rfl⟩,
      fun v => ⟨_, (exec_encClose_of_open hi ht ho v).trans (closeReply_of_ok hrun), rfl, hsink, rfl⟩⟩
  · obtain ⟨hwrite, hfinish⟩ := exec_encWrite_encFinish_of_finished hi ht hst
    exact ⟨hwrite, hfinish, fun v => ⟨_, exec_encClose_of_not_open hi ht (by simp [hst]) v, rfl, rfl, rfl⟩⟩
  · obtain ⟨hwrite, hfinish⟩ := exec_encWrite_encFinish_of_failed hi ht hst
    exact ⟨hwrite, hfinish, fun v => ⟨_, exec_encClose_of_not_open hi ht (by simp [hst]) v, rfl, rfl, rfl⟩⟩
  · obtain ⟨hwrite, hfinish⟩ := exec_encWrite_encFinish_of_closed hi ht hst
    refine ⟨hwrite, hfinish, fun hdetached v => ?_⟩
    have hsame : encoderClosed s.enc = s.enc := by rw [encoderClosed, ← hst, ← hdetached]
    rw [exec_encClose_of_not_open hi ht (by simp [hst]) v, hsame]
  · have htakes : (Writer.fresh (offeredSink s.host)).takes 4 = true := by
      obtain hnone | ⟨f, hf, hr⟩ := hsink
      · exact Writer.takes_of_none _ hnone
      · exact Writer.takes_of_le hf hr
    obtain ⟨w, hrun, hsink'⟩ := writeHeader_completes h9 htakes
    exact ⟨_, (exec_encOpen_of_legal hi ht h1 h9).trans (encoderReply_of_ok hrun), rfl, rfl, hsink', rfl⟩
  · obtain ⟨w, hrun, hsink⟩ := writeHeader_raises h9 hr
    rw [← hf] at hrun
    exact ⟨_, (exec_encOpen_of_legal hi ht h1 h9).trans (encoderReply_of_raised hrun), rfl, rfl, rfl, hsink, rfl⟩

end Sys2Proof.Machine
end

section
/-! PROOFS. How an operation ends, as a judgement that follows its sequencing, and what one state hands on to the next:
the invariants of the state (spec/10_state.md R39, R45, R48, R51; spec/60_exceptions.md R340) and frames. -/

namespace Sys2Proof.Machine

/-! ### How an operation ends -/

/-- The state in which `r` ends, if it ends in one, meets `P` where `r` completed and `Q` where it raised. -/
def Res.Ends {σ α : Type} (P Q : σ → Prop) (r : Res σ α) : Prop :=
  match r with
  | .ok _ s => P s
  | .raised _ s => Q s
  | .fault _ => True
  | .refused _ => True

section
variable {σ τ α β : Type} {P P' Q Q' : σ → Prop}

theorem Res.Ends.mono {r : Res σ α} (h : r.Ends P Q) (hP : ∀ s, P s → P' s) (hQ : ∀ s, Q s → Q' s) :
    r.Ends P' Q' := by
  cases r with
  | ok a s => exact hP s h
  | raised e s => exact hQ s h
  | fault f => trivial
  | refused q => trivial

theorem Res.Ends.bind {r : Res σ α} {k : α → σ → Res σ β} (h : r.Ends P' Q)
    (hk : ∀ a s, P' s → (k a s).Ends P Q) : (r.bind k).Ends P Q := by
  cases r with
  | ok a s => exact hk a s h
  | raised e s => exact h
  | fault f => trivial
  | refused q => trivial

theorem Res.Ends.map {r : Res σ α} (g : α → β) (h : r.Ends P Q) : (r.map g).Ends P Q := by
  cases r <;> exact h

theorem Res.Ends.lift {r : Res σ α} {put : σ → τ} {R S : τ → Prop}
    (h : r.Ends (fun x => R (put x)) fun x => S (put x)) : (r.lift put).Ends R S := by
  cases r <;> exact h

/-- Reading an array entry changes nothing, and what follows has the entry. -/
theorem Res.Ends.entry {a : ArrayName} {x : Option α} {s : σ} {k : α → σ → Res σ β}
    (hk : ∀ v, x = some v → (k v s).Ends P Q) : ((Machine.entry a x s).bind k).Ends P Q := by
  cases x with
  | none => trivial
  | some v => exact hk v rfl

theorem Res.ends_true (r : Res σ α) : r.Ends (fun _ => True) fun _ => True := by cases r <;> trivial

end

/-! ### The invariants, as what one state hands on to the next -/

/-- The encoder's part of `errorCodesOk`: the kind latched is none or of 1 to 7, and a failed encoder has
latched one. -/
def Encoder.CodesOk (e : Encoder) : Prop := e.errKind.toNat ≤ 7 ∧ (e.state = .failed → e.errKind ≠ 0)

theorem errorCodesOk_iff (s : State) : errorCodesOk s = true ↔
    s.stream.errKind.toNat ≤ 7 ∧ (s.fsm = .failed → s.stream.errKind ≠ 0) ∧ s.enc.CodesOk ∧
      ∀ r ∈ s.host.results, resultCodeOk r = true := by
  simp only [errorCodesOk, Encoder.CodesOk, Bool.and_eq_true, Bool.or_eq_true, decide_eq_true_eq, List.all_eq_true,
    ne_eq, or_iff_not_imp_left, not_not]
  tauto

theorem arraysOk_iff (s : State) : arraysOk s = true ↔
    s.stream.bs100k.toNat ≤ 9 ∧ Memory.wf s.sym.ll = true ∧ memWf s.perm.tt = true ∧
      memBelow (cap s.stream) s.sym.ll = true ∧ memBelow (cap s.stream) s.perm.tt = true := by
  simp [arraysOk, and_assoc]

/-- `t` meets each of the invariants that `s` meets: the forms of the bit reader and of the bit writer (R39, R57), the
bounds of the arrays (R48, R51), the rank table (R45) and the error codes in use (R340). -/
structure Kept (s t : State) : Prop where
  reader : s.rd.wf = true → t.rd.wf = true
  encoder : s.enc.wf = true → t.enc.wf = true
  arrays : arraysOk s = true → arraysOk t = true
  ranks : s.sym.mtf.Perm identityRanks → t.sym.mtf.Perm identityRanks
  codes : errorCodesOk s = true → errorCodesOk t = true

theorem Kept.refl (s : State) : Kept s s := ⟨id, id, id, id, id⟩

theorem Kept.trans {s t u : State} (h : Kept s t) (h' : Kept t u) : Kept s u :=
  ⟨h'.reader ∘ h.reader, h'.encoder ∘ h.encoder, h'.arrays ∘ h.arrays, h'.ranks ∘ h.ranks, h'.codes ∘ h.codes⟩

/-- Only the FAILED state needs a latched error. -/
theorem errorCodesOk_setFsm {s : State} {f : Fsm} (hf : f ≠ .failed) (h : errorCodesOk s = true) :
    errorCodesOk { s with fsm := f } = true := by
  obtain ⟨hkind, -, henc, hres⟩ := (errorCodesOk_iff s).1 h
  exact (errorCodesOk_iff _).2 ⟨hkind, fun h' => absurd h' hf, henc, hres⟩

theorem errKindCode_range (e : Err) : 1 ≤ (errKindCode e).toNat ∧ (errKindCode e).toNat ≤ 7 := by
  cases e <;> decide

theorem errKindCode_ne_zero (e : Err) : errKindCode e ≠ 0 := by
  cases e <;> decide

theorem resultCodeOk_errResult (e : Err) : resultCodeOk (errResult e) = true := by
  cases e <;> rfl

theorem errorCodesOk_answer {s : State} {r : Result} (h : errorCodesOk s = true) (hr : resultCodeOk r = true) :
    errorCodesOk (answer r s) = true := by
  obtain ⟨hkind, hfsm, henc, hres⟩ := (errorCodesOk_iff s).1 h
  refine (errorCodesOk_iff _).2 ⟨hkind, hfsm, henc, ?_⟩
  simp only [answer_host, List.forall_mem_append, List.forall_mem_singleton]
  exact ⟨hres, hr⟩

theorem Kept.answer {s t : State} (h : Kept s t) {r : Result} (hr : resultCodeOk r = true) :
    Kept s (answer r t) :=
  ⟨h.reader, h.encoder, h.arrays, h.ranks, fun hs => errorCodesOk_answer (h.codes hs) hr⟩

/-- Taking an error latches a code of R340 and answers with it (R345). -/
theorem Kept.takeError (e : Err) (s : State) : Kept s (takeError e s) where
  reader h := by rwa [takeError_rd]
  encoder h := by rwa [takeError_enc]
  ranks h := by rwa [takeError_sym]
  arrays h := by
    rw [arraysOk_iff] at h ⊢
    rwa [takeError_stream, takeError_sym, takeError_perm]
  codes h := by
    obtain ⟨-, -, henc, hres⟩ := (errorCodesOk_iff s).1 h
    refine (errorCodesOk_iff _).2 ⟨?_, fun _ => ?_, ?_, ?_⟩
    · rw [takeError_stream]
      exact (errKindCode_range e).2
    · rw [takeError_stream]
      exact errKindCode_ne_zero e
    · rwa [takeError_enc]
    · rw [takeError_host]
      split
      · exact List.forall_mem_append.2 ⟨hres, List.forall_mem_singleton.2 (resultCodeOk_errResult e)⟩
      · exact hres

/-! ### Frames -/

/-- `f t s` is the state `s` with some fields taken from `t`. -/
structure IsFrame (f : State → State → State) : Prop where
  self : ∀ s, f s s = s
  again : ∀ t u s, f t (f u s) = f t s

/-- The fields of `g` are among those of `f`. -/
def Within (g f : State → State → State) : Prop := ∀ t s, f t (g t s) = f t s

/-- `t` is `s` but for the fields of the frame, and meets each invariant that `s` meets. -/
structure Move (f : State → State → State) (s t : State) : Prop where
  frame : t = f t s
  kept : Kept s t

/-- Where `r` ends in a state, it has changed `s` within the frame alone, and kept the invariants. -/
abbrev Res.Moves {α : Type} (f : State → State → State) (s : State) (r : Res State α) : Prop :=
  r.Ends (Move f s) (Move f s)

section
variable {f g : State → State → State} (hf : IsFrame f)
include hf

theorem IsFrame.refl (s : State) : Move f s s := ⟨(hf.self s).symm, Kept.refl s⟩

theorem IsFrame.trans {s t u : State} (h : Move f s t) (h' : Move f t u) : Move f s u :=
  ⟨calc u = f u t := h'.frame
      _ = f u (f t s) := congrArg _ h.frame
      _ = f u s := hf.again u t s,
    h.kept.trans h'.kept⟩

theorem IsFrame.widen {s t : State} (h : Move g s t) (hg : Within g f := by exact fun _ _ => rfl) : Move f s t :=
  ⟨calc t = f t t := (hf.self t).symm
      _ = f t (g t s) := congrArg _ h.frame
      _ = f t s := hg t s,
    h.kept⟩

theorem IsFrame.moves_widen {α : Type} {s : State} {r : Res State α} (h : r.Moves g s)
    (hg : Within g f := by exact fun _ _ => rfl) : r.Moves f s :=
  h.mono (fun _ h => hf.widen h hg) fun _ h => hf.widen h hg

/-- From a state that a move has led to, an operation leads to moves again. -/
theorem IsFrame.moves_after {α : Type} {s t : State} {r : Res State α} (h : r.Moves f t) (ht : Move f s t) :
    r.Moves f s :=
  h.mono (fun _ => hf.trans ht) fun _ => hf.trans ht

theorem IsFrame.bind {α β : Type} {s : State} {r : Res State α} {k : α → State → Res State β} (h : r.Moves f s)
    (hk : ∀ a t, (k a t).Moves f t) : (r.bind k).Moves f s :=
  Res.Ends.bind h fun a t ht => hf.moves_after (hk a t) ht

end

theorem withErrorOf_isFrame : IsFrame withErrorOf := ⟨fun _ => rfl, fun _ _ _ => rfl⟩

theorem takeError_move (e : Err) (s : State) : Move withErrorOf s (takeError e s) := by
  refine ⟨?_, Kept.takeError e s⟩
  unfold takeError
  split <;> rfl

/-- An operation over the whole state whose errors are taken. -/
theorem finish_move {f : State → State → State} (hf : IsFrame f) {s t : State} {r : Res State Unit}
    (h : r.Moves f s) (ht : finish r = .next t) (hg : Within withErrorOf f := by exact fun _ _ => rfl) :
    Move f s t := by
  obtain rfl | ⟨e, u, rfl, rfl⟩ := finish_eq_next.1 ht
  · exact h
  · exact hf.trans h (hf.widen (takeError_move e u) hg)

end Sys2Proof.Machine
end

section
/-! PROOFS. What the units of the decoder do to the state: the bit reader (spec/40_bit_channel.md), the tables of the
groups (spec/42_huffman_tables.md), the MTF/RLE2 stage (spec/43_mtf_rle2.md), the permutation inverter and the output
(spec/45_block_output.md), each as a frame that keeps the invariants. -/

namespace Sys2Proof.Machine

/-! ### The bit reader -/

/-- An operation of the bit reader that ends in a well-formed reader wherever it starts in one (R39). -/
abbrev Reader.Keeps {α : Type} (op : Reader → Res Reader α) : Prop :=
  ∀ r : Reader, r.wf = true → (op r).Ends (fun r' => r'.wf = true) fun r' => r'.wf = true

theorem takeByte_wf (b : Byte) (src : ByteSource) {r : Reader} (hw : r.wf = true) (hl : r.live.toNat < 24) :
    (takeByte b src r).wf = true :=
  (takeByte_spec (r := { r with src := some { bytes := b :: src.bytes, after := src.after } }) hw hl rfl).1

theorem refill_keeps {n : Nat} (hn : n ≤ 24) (k : Nat) : Reader.Keeps (refill k n) := by
  induction k with
  | zero => exact fun r hw => hw
  | succ k ih =>
    intro r hw
    simp only [refill]
    split
    · rename_i hlt
      cases fetchByte r with
      | byte b src => exact ih _ (takeByte_wf b src hw (by omega))
      | ended => exact hw
      | hangs => trivial
      | detached => trivial
    · exact hw

theorem takeLive_keeps (n : Nat) : Reader.Keeps (takeLive n) := by
  intro r hw
  have hlive := ((Reader.wf_iff r).1 hw).2
  have hleft : r.live.toNat - n < 2 ^ 6 := by omega
  have hacc : r.acc.toNat % 2 ^ (r.live.toNat - n) < 2 ^ 64 :=
    Nat.lt_of_lt_of_le (Nat.mod_lt _ (Nat.two_pow_pos _)) (Nat.pow_le_pow_right (by decide) (by omega))
  refine (Reader.wf_iff _).2 ?_
  simp only [BitVec.toNat_ofNat, Nat.mod_eq_of_lt hleft, Nat.mod_eq_of_lt hacc]
  exact ⟨Nat.mod_lt _ (Nat.two_pow_pos _), by omega⟩

theorem readBits_keeps (n : Nat) : Reader.Keeps (readBits n) := by
  intro r hw
  unfold readBits
  split
  · rename_i hn
    exact (refill_keeps hn n r hw).bind fun _ r' hw' => takeLive_keeps n r' hw'
  · trivial

theorem readBool_keeps : Reader.Keeps readBool := fun r hw => (readBits_keeps 1 r hw).map _

theorem readUnaryLoop_keeps (k j : Nat) : Reader.Keeps (readUnaryLoop k j) := by
  induction k generalizing j with
  | zero =>
    intro r hw
    simp only [readUnaryLoop]
    cases cycleOf r with
    | nil => exact (readBool_keeps r hw).bind fun _ _ hw' => hw'
    | cons b more => trivial
  | succ k ih =>
    intro r hw
    refine (readBool_keeps r hw).bind fun b r' hw' => ?_
    cases b with
    | true => exact ih (j + 1) r' hw'
    | false => exact hw'

theorem readUnary_keeps : Reader.Keeps readUnary := fun r hw => readUnaryLoop_keeps _ 0 r hw

theorem readInt32_keeps : Reader.Keeps readInt32 := fun r hw =>
  (readBits_keeps 16 r hw).bind fun _ r' hw' => (readBits_keeps 16 r' hw').bind fun _ _ hw'' => hw''

theorem symbolAt_keeps (grp : Group) (L v : Nat) : Reader.Keeps (symbolAt grp L v) := by
  intro r hw
  unfold symbolAt
  split
  · trivial
  · split
    · trivial
    · split
      · exact hw
      · trivial

theorem decodeLoop_keeps (grp : Group) (n L v : Nat) : Reader.Keeps (decodeLoop grp n L v) := by
  induction n generalizing L v with
  | zero =>
    intro r hw
    unfold decodeLoop
    split
    · trivial
    · split
      · exact symbolAt_keeps grp L v r hw
      · exact hw
  | succ n ih =>
    intro r hw
    unfold decodeLoop
    split
    · trivial
    · split
      · exact symbolAt_keeps grp L v r hw
      · exact (readBits_keeps 1 r hw).bind fun _ r' hw' => ih _ _ r' hw'

theorem decodeSymbol_keeps (grp : Group) : Reader.Keeps (decodeSymbol grp) := fun r hw =>
  (readBits_keeps _ r hw).bind fun _ r' hw' => decodeLoop_keeps grp _ _ _ r' hw'

/-- What an operation of the bit reader can change. -/
def readerFrame (t s : State) : State := { withErrorOf t s with rd := t.rd }

theorem readerFrame_isFrame : IsFrame readerFrame where
  self _ := rfl
  again _ _ _ := rfl

theorem onReader_moves {α : Type} {op : Reader → Res Reader α} (hop : Reader.Keeps op) (s : State) :
    (onReader op s).Moves readerFrame s := by
  refine Res.Ends.lift ?_
  by_cases hw : s.rd.wf = true
  · exact (hop s.rd hw).mono (fun _ hw' => ⟨rfl, fun _ => hw', id, id, id, id⟩)
      fun _ hw' => ⟨rfl, fun _ => hw', id, id, id, id⟩
  · exact (Res.ends_true _).mono (fun _ _ => ⟨rfl, fun h => absurd h hw, id, id, id, id⟩)
      fun _ _ => ⟨rfl, fun h => absurd h hw, id, id, id, id⟩

theorem decodeWith_moves (g : Nat) (s : State) : (decodeWith g s).Moves readerFrame s := by
  unfold decodeWith
  split
  · cases s.groups[g]? with
    | none => trivial
    | some grp => exact onReader_moves (decodeSymbol_keeps grp) s
  · trivial

/-! ### The decode tables -/

/-- What building a group's tables can change. -/
def groupsFrame (t s : State) : State := { s with groups := t.groups }

theorem groupsFrame_isFrame : IsFrame groupsFrame where
  self _ := rfl
  again _ _ _ := rfl

theorem buildTable_moves (g : Nat) (s : State) : (buildTable g s).Moves groupsFrame s := by
  unfold buildTable
  split
  · cases s.groups[g]? with
    | none => trivial
    | some grp =>
      exact ((Res.ends_true _).mono (fun _ _ => ⟨rfl, id, id, id, id, id⟩) fun _ _ => ⟨rfl, id, id, id, id, id⟩).lift
  · trivial

theorem buildTables_moves (n g : Nat) (s : State) : (buildTables n g s).Moves groupsFrame s := by
  induction n generalizing g s with
  | zero => exact groupsFrame_isFrame.refl s
  | succ n ih => exact groupsFrame_isFrame.bind (buildTable_moves g s) fun _ => ih (g + 1)

/-! ### The MTF/RLE2 stage -/

/-- What the stage keeps of its form: the rank table is permuted (R210), `LL` stays canonical, and its indices stay
below the capacity (R212, R213). -/
structure MtfStage.Kept (capacity : Nat) (m m' : MtfStage) : Prop where
  ranks : m'.mtf.Perm m.mtf
  canonical : Memory.wf m.ll = true → Memory.wf m'.ll = true
  below : capacity < 2 ^ 20 → memBelow capacity m.ll = true → memBelow capacity m'.ll = true

theorem MtfStage.Kept.refl (capacity : Nat) (m : MtfStage) : m.Kept capacity m := ⟨.refl _, id, fun _ => id⟩

theorem MtfStage.Kept.trans {capacity : Nat} {m m' m'' : MtfStage} (h : m.Kept capacity m')
    (h' : m'.Kept capacity m'') : m.Kept capacity m'' :=
  ⟨h'.ranks.trans h.ranks, h'.canonical ∘ h.canonical, fun hc => h'.below hc ∘ h.below hc⟩

theorem pushBytes_kept {capacity : Nat} (b : Byte) (n : Nat) (m : MtfStage) (h : m.nblock.toNat + n ≤ capacity) :
    m.Kept capacity (pushBytes b n m) where
  ranks := by rw [pushBytes_frame]
  canonical := pushBytes_wf b n m
  below hc hb := pushBytes_below b n m hb h hc

theorem countBytes_kept (capacity : Nat) (b : Byte) (n : Nat) (m : MtfStage) :
    (countBytes b n m).Ends (m.Kept capacity) (m.Kept capacity) :=
  Res.Ends.entry fun _ _ => ⟨.refl _, id, fun _ => id⟩

/-- A run written to the block buffer and counted. -/
theorem countBytes_pushBytes_kept {capacity : Nat} (b : Byte) (n : Nat) {m : MtfStage}
    (h : m.nblock.toNat + n ≤ capacity) :
    (countBytes b n (pushBytes b n m)).Ends (m.Kept capacity) (m.Kept capacity) :=
  (countBytes_kept capacity b n _).mono (fun _ => (pushBytes_kept b n m h).trans)
    fun _ => (pushBytes_kept b n m h).trans

theorem runEnd_kept (capacity : Nat) (seq : List Byte) (m : MtfStage) :
    (runEnd capacity seq m).Ends (m.Kept capacity) (m.Kept capacity) := by
  unfold runEnd
  split
  · exact ⟨.refl _, id, fun _ => id⟩
  · refine .entry fun v _ => .entry fun b _ => ?_
    split
    · exact .refl capacity m
    · rename_i hc
      exact (countBytes_pushBytes_kept b _ (Nat.le_of_not_lt hc)).bind fun _ _ h => ⟨h.ranks, h.canonical, h.below⟩

theorem rankSymbol_kept (capacity : Nat) (seq : List Byte) (sym : Nat) (m : MtfStage) :
    (rankSymbol capacity seq sym m).Ends (m.Kept capacity) (m.Kept capacity) := by
  refine .entry fun p hp => .entry fun b _ => ?_
  have hmoved : m.Kept capacity { m with mtf := p.2 } := ⟨moveToFront_perm hp, id, fun _ => id⟩
  simp only
  split
  · exact hmoved
  · rename_i hc
    have hroom : m.nblock.toNat + 1 ≤ capacity := Nat.lt_of_not_le hc
    exact (countBytes_pushBytes_kept (m := { m with mtf := p.2 }) b 1 hroom).mono (fun _ => hmoved.trans)
      fun _ => hmoved.trans

theorem stageSymbol_kept (capacity : Nat) (map : SymbolMap) (sym : Nat) (m : MtfStage) :
    (stageSymbol capacity map sym m).Ends (m.Kept capacity) (m.Kept capacity) := by
  unfold stageSymbol
  split
  · exact ⟨.refl _, id, fun _ => id⟩
  · split
    · refine (runEnd_kept capacity _ m).bind fun _ m' h => ?_
      split
      · exact h
      · exact (rankSymbol_kept capacity _ sym m').mono (fun _ => h.trans) fun _ => h.trans
    · trivial

/-- What the stage can change. -/
def stageFrame (t s : State) : State := { withErrorOf t s with sym := t.sym }

theorem stageFrame_isFrame : IsFrame stageFrame where
  self _ := rfl
  again _ _ _ := rfl

/-- A level of at most 9 makes a capacity of which every count fits in 20 bits. -/
theorem cap_lt {r : StreamRegs} (h : r.bs100k.toNat ≤ 9) : cap r < 2 ^ 20 := by
  simp only [cap, Config.capUnit]
  omega

theorem setStage_move {s : State} {m : MtfStage} (h : s.sym.Kept (cap s.stream) m) :
    Move stageFrame s { s with sym := m } := by
  refine ⟨rfl, id, id, fun ha => ?_, h.ranks.trans, id⟩
  obtain ⟨hlevel, hwf, htt, hbelow, htt'⟩ := (arraysOk_iff s).1 ha
  exact (arraysOk_iff _).2 ⟨hlevel, h.canonical hwf, htt, h.below (cap_lt hlevel) hbelow, htt'⟩

theorem mtfSymbol_moves (sym : Nat) (s : State) : (mtfSymbol sym s).Moves stageFrame s :=
  ((stageSymbol_kept _ _ _ _).mono (fun _ => setStage_move) fun _ => setStage_move).lift

theorem stageInit_move (s : State) : Move stageFrame s { s with sym := stageInit s.sym } := by
  refine ⟨rfl, id, id, fun ha => ?_, fun _ => .refl _, id⟩
  obtain ⟨hlevel, -, htt, -, htt'⟩ := (arraysOk_iff s).1 ha
  exact (arraysOk_iff _).2 ⟨hlevel, rfl, htt, rfl, htt'⟩

/-! ### The permutation inverter -/

/-- What PI_BUILD can change. -/
def permFrame (t s : State) : State := { s with perm := t.perm }

/-- What the scattering keeps of `TT`: it stays canonical, with its indices below the capacity (R276). -/
def PermRegs.Kept (capacity : Nat) (p p' : PermRegs) : Prop :=
  (memWf p.tt = true → memWf p'.tt = true) ∧ (memBelow capacity p.tt = true → memBelow capacity p'.tt = true)

theorem scatterOne_kept (capacity : Nat) (ll : Memory) (i : Nat) (p : PermRegs) :
    (scatterOne capacity ll i p).Ends (p.Kept capacity) (p.Kept capacity) := by
  refine .entry fun b _ => .entry fun c _ => ?_
  split
  · rename_i hc
    exact ⟨memSet_wf _ _, fun h => memSet_below _ h hc⟩
  · trivial

theorem scatter_kept (capacity : Nat) (ll : Memory) (n i : Nat) (p : PermRegs) :
    (scatter capacity ll n i p).Ends (p.Kept capacity) (p.Kept capacity) := by
  induction n generalizing i p with
  | zero => exact ⟨id, id⟩
  | succ n ih =>
    refine (scatterOne_kept capacity ll i p).bind fun _ p' h => ?_
    have hstep : ∀ p'', p'.Kept capacity p'' → p.Kept capacity p'' := fun _ h' => ⟨h'.1 ∘ h.1, h'.2 ∘ h.2⟩
    exact (ih (i + 1) p').mono hstep hstep

theorem buildPermutation_moves (s : State) : (buildPermutation s).Moves permFrame s := by
  unfold buildPermutation
  split
  · trivial
  · have hput : ∀ p, PermRegs.Kept (cap s.stream) s.perm p → Move permFrame s { s with perm := p } := by
      refine fun p h => ⟨rfl, id, id, fun ha => ?_, id, id⟩
      obtain ⟨hlevel, hwf, htt, hbelow, htt'⟩ := (arraysOk_iff s).1 ha
      exact (arraysOk_iff _).2 ⟨hlevel, hwf, h.1 htt, hbelow, h.2 htt'⟩
    refine Res.Ends.lift ?_
    exact (scatter_kept _ _ _ _ _).mono hput hput

/-! ### The output registers -/

/-- What an operation of the output registers can change. -/
def outputFrame (t s : State) : State := { s with out := t.out }

theorem onOutput_moves {α : Type} (op : OutputRegs → Res OutputRegs α) (s : State) :
    (onOutput op s).Moves outputFrame s :=
  ((Res.ends_true _).mono (fun _ _ => ⟨rfl, id, id, id, id, id⟩) fun _ _ => ⟨rfl, id, id, id, id, id⟩).lift

end Sys2Proof.Machine
end

section
/-! PROOFS. What the wire elements (spec/30_encoding.md) and the steps of the state machine (spec/44_block_engine.md
R230) do to the state, each as a frame that keeps the invariants. -/

namespace Sys2Proof.Machine

/-! ### The frames -/

/-- The stream header (R302). -/
def streamHeaderFrame (t s : State) : State :=
  { withErrorOf t s with
    rd := t.rd
    stream :=
      { s.stream with
        errKind := t.stream.errKind
        errSub := t.stream.errSub
        bs100k := t.stream.bs100k }
    sym := { s.sym with ll := t.sym.ll }
    perm := { s.perm with tt := t.perm.tt }
    pos := t.pos }

/-- The magics (R231). -/
def headerFrame (t s : State) : State :=
  { withErrorOf t s with
    rd := t.rd
    map := { s.map with inUse := t.map.inUse, seqToUnseq := t.map.seqToUnseq }
    sel := { s.sel with selMtf := t.sel.selMtf, selectors := t.sel.selectors }
    groups := t.groups
    sym := { s.sym with ll := t.sym.ll, freq := t.sym.freq }
    perm := t.perm
    pos := t.pos }

/-- An element that is checked only (R303). -/
def posFrame (t s : State) : State := { withErrorOf t s with pos := t.pos }

/-- The trailer (R303). -/
def trailerFrame (t s : State) : State := { withErrorOf t s with rd := t.rd, pos := t.pos }

/-- The fixed fields of a block (R232 to R234). -/
def fieldFrame (t s : State) : State := { withErrorOf t s with blk := t.blk, pos := t.pos }

/-- The symbol map (R236). -/
def mapFrame (t s : State) : State :=
  { withErrorOf t s with map := t.map, tab := { s.tab with used := t.tab.used }, pos := t.pos }

/-- The groups and their selectors (R237, R238). -/
def selectionFrame (t s : State) : State :=
  { withErrorOf t s with sel := t.sel, tab := { s.tab with g := t.tab.g }, pos := t.pos }

/-- The code lengths (R240, R241). -/
def lengthsFrame (t s : State) : State :=
  { withErrorOf t s with groups := t.groups, tab := { t.tab with used := s.tab.used }, pos := t.pos }

/-- The tables of a block (R232 to R241). -/
def tablesFrame (t s : State) : State :=
  { withErrorOf t s with
    rd := t.rd
    blk := t.blk
    map := t.map
    sel := t.sel
    groups := t.groups
    tab := t.tab
    pos := t.pos }

/-- A symbol's place in its window (R242). -/
def windowFrame (t s : State) : State := { withErrorOf t s with win := t.win }

/-- A symbol (R242, R243). -/
def symbolFrame (t s : State) : State := { withErrorOf t s with sym := t.sym, win := t.win }

/-- The symbols of a block (R242). -/
def symbolsFrame (t s : State) : State :=
  { withErrorOf t s with rd := t.rd, sym := t.sym, win := t.win, pos := t.pos }

/-- The permutation's inversion (R272). -/
def permuteFrame (t s : State) : State := { withErrorOf t s with perm := t.perm, out := t.out }

/-- A byte of the output (R284). -/
def emitFrame (t s : State) : State := { withErrorOf t s with out := t.out }

/-- The check of a block's CRC (R289). -/
def crcCheckFrame (t s : State) : State :=
  { withErrorOf t s with
    stream :=
      { s.stream with
        errKind := t.stream.errKind
        errSub := t.stream.errSub
        combined := t.stream.combined
        blocksDone := t.stream.blocksDone }
    pos := t.pos }

theorem streamHeaderFrame_isFrame : IsFrame streamHeaderFrame where
  self _ := rfl
  again _ _ _ := rfl

theorem headerFrame_isFrame : IsFrame headerFrame where
  self _ := rfl
  again _ _ _ := rfl

theorem trailerFrame_isFrame : IsFrame trailerFrame where
  self _ := rfl
  again _ _ _ := rfl

theorem mapFrame_isFrame : IsFrame mapFrame where
  self _ := rfl
  again _ _ _ := rfl

theorem lengthsFrame_isFrame : IsFrame lengthsFrame where
  self _ := rfl
  again _ _ _ := rfl

theorem tablesFrame_isFrame : IsFrame tablesFrame where
  self _ := rfl
  again _ _ _ := rfl

theorem symbolFrame_isFrame : IsFrame symbolFrame where
  self _ := rfl
  again _ _ _ := rfl

theorem symbolsFrame_isFrame : IsFrame symbolsFrame where
  self _ := rfl
  again _ _ _ := rfl

theorem permuteFrame_isFrame : IsFrame permuteFrame where
  self _ := rfl
  again _ _ _ := rfl

theorem emitFrame_isFrame : IsFrame emitFrame where
  self _ := rfl
  again _ _ _ := rfl

theorem crcCheckFrame_isFrame : IsFrame crcCheckFrame where
  self _ := rfl
  again _ _ _ := rfl

/-! ### Stream header, magics and trailer -/

theorem elemStreamHeader_moves (d : BitVec 4) (s : State) :
    (elemStreamHeader d s).Moves streamHeaderFrame s := by
  unfold elemStreamHeader
  split
  · exact streamHeaderFrame_isFrame.refl s
  · refine ⟨rfl, id, id, fun _ => (arraysOk_iff _).2 ⟨?_, rfl, rfl, rfl, rfl⟩, id,
      errorCodesOk_setFsm (f := .header) (by decide)⟩
    simp only
    omega

theorem elemBlockMagic_moves (s : State) : (elemBlockMagic s).Moves headerFrame s := by
  refine ⟨rfl, id, id, fun ha => ?_, id, errorCodesOk_setFsm (f := .tables) (by decide)⟩
  obtain ⟨hlevel, -⟩ := (arraysOk_iff s).1 ha
  exact (arraysOk_iff _).2 ⟨hlevel, rfl, rfl, rfl, rfl⟩

theorem elemEosMagic_moves (s : State) : (elemEosMagic s).Moves posFrame s :=
  ⟨rfl, id, id, id, id, errorCodesOk_setFsm (f := .trailer) (by decide)⟩

theorem elemCombinedCrc_moves (c : Word) (s : State) : (elemCombinedCrc c s).Moves posFrame s := by
  unfold elemCombinedCrc
  split
  · exact ⟨rfl, id, id, id, id, id⟩
  · exact ⟨rfl, id, id, id, id, errorCodesOk_setFsm (f := .ended) (by decide)⟩

/-! ### The elements of a block's tables -/

/-- The positions of the elements of a block's tables, and that of the first symbol after them (R232 to R241). -/
def tablesPos : WirePos → Bool
  | .streamHeader => false
  | .magic => false
  | .trailer => false
  | .padding => false
  | _ => true

/-- The operation moves within the frame, and where it completes the next element is one of the tables'. -/
abbrev Res.MovesOn {α : Type} (f : State → State → State) (s : State) (r : Res State α) : Prop :=
  r.Ends (fun t => Move f s t ∧ tablesPos t.pos = true) (Move f s)

theorem Res.MovesOn.moves {α : Type} {f : State → State → State} {s : State} {r : Res State α} (h : r.MovesOn f s) :
    r.Moves f s :=
  h.mono (fun _ => And.left) fun _ => id

theorem IsFrame.movesOn_after {f : State → State → State} (hf : IsFrame f) {α : Type} {s t : State}
    {r : Res State α} (h : r.MovesOn f t) (ht : Move f s t) : r.MovesOn f s :=
  h.mono (fun _ h' => ⟨hf.trans ht h'.1, h'.2⟩) fun _ => hf.trans ht

theorem IsFrame.movesOn_widen {f g : State → State → State} (hf : IsFrame f) {α : Type} {s : State}
    {r : Res State α} (h : r.MovesOn g s) (hg : Within g f := by exact fun _ _ => rfl) : r.MovesOn f s :=
  h.mono (fun _ h' => ⟨hf.widen h'.1 hg, h'.2⟩) fun _ h' => hf.widen h' hg

theorem IsFrame.bindOn {f : State → State → State} (hf : IsFrame f) {α β : Type} {s : State} {r : Res State α}
    {k : α → State → Res State β} (h : r.Moves f s) (hk : ∀ a t, (k a t).MovesOn f t) : (r.bind k).MovesOn f s :=
  Res.Ends.bind h fun a t ht => hf.movesOn_after (hk a t) ht

theorem elemBlockCrc_moves (c : Word) (s : State) : (elemBlockCrc c s).MovesOn fieldFrame s :=
  ⟨⟨rfl, id, id, id, id, id⟩, rfl⟩

theorem elemRandomised_moves (r : Bool) (s : State) : (elemRandomised r s).MovesOn fieldFrame s :=
  ⟨⟨rfl, id, id, id, id, id⟩, rfl⟩

theorem elemOrigPtr_moves (p : BitVec 24) (s : State) : (elemOrigPtr p s).MovesOn fieldFrame s :=
  ⟨⟨rfl, id, id, id, id, id⟩, rfl⟩

theorem finishMap_moves (xs : List Bool) (s : State) : (finishMap xs s).MovesOn mapFrame s := by
  unfold finishMap
  dsimp only
  split
  · exact ⟨rfl, id, id, id, id, id⟩
  · exact ⟨⟨rfl, id, id, id, id, id⟩, rfl⟩

theorem continueMap_moves (xs : List Bool) (s : State) : (continueMap xs s).MovesOn mapFrame s := by
  unfold continueMap
  dsimp only
  split
  · exact finishMap_moves _ s
  · exact ⟨⟨rfl, id, id, id, id, id⟩, rfl⟩

theorem elemUsedMap_moves (u : BitVec 16) (s : State) : (elemUsedMap u s).MovesOn mapFrame s :=
  mapFrame_isFrame.movesOn_after (continueMap_moves [] _) ⟨rfl, id, id, id, id, id⟩

theorem elemSubMap_moves (m : BitVec 16) (s : State) : (elemSubMap m s).MovesOn mapFrame s :=
  continueMap_moves _ s

theorem elemNGroups_moves (g : BitVec 3) (s : State) : (elemNGroups g s).MovesOn selectionFrame s := by
  unfold elemNGroups
  dsimp only
  split
  · exact ⟨rfl, id, id, id, id, id⟩
  · exact ⟨⟨rfl, id, id, id, id, id⟩, rfl⟩

theorem elemNSelectors_moves (n : BitVec 15) (s : State) : (elemNSelectors n s).MovesOn selectionFrame s := by
  unfold elemNSelectors
  dsimp only
  split
  · exact ⟨rfl, id, id, id, id, id⟩
  · exact ⟨⟨rfl, id, id, id, id, id⟩, rfl⟩

theorem elemSelectorCode_moves (j : Nat) (s : State) : (elemSelectorCode j s).MovesOn selectionFrame s := by
  unfold elemSelectorCode
  split
  · exact ⟨rfl, id, id, id, id, id⟩
  · refine .entry fun p _ => ?_
    dsimp only
    split
    · exact ⟨⟨rfl, id, id, id, id, id⟩, rfl⟩
    · exact ⟨⟨rfl, id, id, id, id, id⟩, rfl⟩

/-- The check of R240 changes nothing. -/
theorem checkLength_ends {P : State → Prop} {s : State} (h : P s) : (checkLength s).Ends P P := by
  unfold checkLength
  split <;> exact h

theorem elemLenSeed_moves (l : BitVec 5) (s : State) : (elemLenSeed l s).MovesOn lengthsFrame s := by
  unfold elemLenSeed
  cases s.groups[s.tab.g.toNat]? with
  | none => trivial
  | some grp =>
    refine Res.Ends.mono (P := fun t => Move lengthsFrame s t ∧ tablesPos t.pos = true) (checkLength_ends ?_)
      (fun _ => id) fun _ => And.left
    exact ⟨⟨rfl, id, id, id, id, id⟩, rfl⟩

/-- A length moved up or down: it is checked before and after (R240). -/
theorem moveLength_moves (l : State → BitVec 5) (s : State) :
    ((checkLength s).bind fun _ s => checkLength { s with tab := { s.tab with curr := l s }, pos := .lenFlag }).MovesOn
      lengthsFrame s := by
  refine (checkLength_ends (lengthsFrame_isFrame.refl s)).bind fun _ t ht => ?_
  refine Res.Ends.mono (P := fun u => Move lengthsFrame s u ∧ tablesPos u.pos = true) (checkLength_ends ?_)
    (fun _ => id) fun _ => And.left
  exact ⟨lengthsFrame_isFrame.trans ht ⟨rfl, id, id, id, id, id⟩, rfl⟩

theorem elemLenInc_moves (s : State) : (elemLenInc s).MovesOn lengthsFrame s :=
  moveLength_moves (fun s => s.tab.curr + 1) s

theorem elemLenDec_moves (s : State) : (elemLenDec s).MovesOn lengthsFrame s :=
  moveLength_moves (fun s => s.tab.curr - 1) s

theorem nextGroup_moves (s : State) : (nextGroup s).MovesOn lengthsFrame s := by
  unfold nextGroup
  split
  · exact lengthsFrame_isFrame.bindOn (lengthsFrame_isFrame.moves_widen (buildTables_moves _ 0 s))
      fun _ t => ⟨⟨rfl, id, id, id, id, errorCodesOk_setFsm (f := .symbols) (by decide)⟩, rfl⟩
  · exact ⟨⟨rfl, id, id, id, id, id⟩, rfl⟩

theorem elemLenEnd_moves (s : State) : (elemLenEnd s).MovesOn lengthsFrame s := by
  refine lengthsFrame_isFrame.bindOn (checkLength_ends (lengthsFrame_isFrame.refl s)) fun _ t => ?_
  cases t.groups[t.tab.g.toNat]? with
  | none => trivial
  | some grp =>
    dsimp only
    split
    · exact lengthsFrame_isFrame.movesOn_after (nextGroup_moves _) ⟨rfl, id, id, id, id, id⟩
    · exact ⟨⟨rfl, id, id, id, id, id⟩, rfl⟩

/-! ### Symbols -/

theorem beginSymbol_moves (s : State) : (beginSymbol s).Moves windowFrame s := by
  unfold beginSymbol
  split
  · split
    · exact ⟨rfl, id, id, id, id, id⟩
    · exact .entry fun g _ => ⟨rfl, id, id, id, id, id⟩
  · exact ⟨rfl, id, id, id, id, id⟩

theorem elemSymbolCode_moves (sym : Nat) (s : State) : (elemSymbolCode sym s).Moves stageFrame s := by
  refine stageFrame_isFrame.bind (mtfSymbol_moves sym s) fun _ t => ?_
  split
  · exact ⟨rfl, id, id, id, id, errorCodesOk_setFsm (f := .permute) (by decide)⟩
  · exact stageFrame_isFrame.refl t

theorem windowedSymbol_moves (sym : Nat) (s : State) :
    ((beginSymbol s).bind fun _ s => elemSymbolCode sym s).Moves symbolFrame s :=
  symbolFrame_isFrame.bind (symbolFrame_isFrame.moves_widen (beginSymbol_moves s)) fun _ t =>
    symbolFrame_isFrame.moves_widen (elemSymbolCode_moves sym t)

/-! ### Reading the elements -/

theorem readStreamMagic_moves (magic : List Byte) (s : State) :
    (readStreamMagic magic s).Moves readerFrame s := by
  induction magic generalizing s with
  | nil => exact readerFrame_isFrame.refl s
  | cons e rest ih =>
    refine readerFrame_isFrame.bind (onReader_moves (readBits_keeps 8) s) fun v t => ?_
    split
    · exact readerFrame_isFrame.refl t
    · exact ih t

theorem readStreamHeader_moves (s : State) : (readStreamHeader s).Moves streamHeaderFrame s := by
  refine streamHeaderFrame_isFrame.bind
    (streamHeaderFrame_isFrame.moves_widen (readStreamMagic_moves _ s)) fun _ t => ?_
  refine streamHeaderFrame_isFrame.bind
    (streamHeaderFrame_isFrame.moves_widen (onReader_moves (readBits_keeps 8) t)) fun d u => ?_
  split
  · exact streamHeaderFrame_isFrame.refl u
  · exact elemStreamHeader_moves _ u

theorem readMagic_moves (s : State) : (readMagic s).Moves headerFrame s := by
  have hread : ∀ s, (onReader (readBits 24) s).Moves headerFrame s := fun s =>
    headerFrame_isFrame.moves_widen (onReader_moves (readBits_keeps 24) s)
  refine headerFrame_isFrame.bind (hread s) fun hi t => headerFrame_isFrame.bind (hread t) fun lo u => ?_
  split
  · exact headerFrame_isFrame.moves_widen (elemEosMagic_moves u)
  · split
    · exact elemBlockMagic_moves u
    · exact headerFrame_isFrame.refl u

/-- A field of a block's tables is read, and an element made of it acted on. -/
theorem readTablesField_moves {α : Type} {op : Reader → Res Reader α} (hop : Reader.Keeps op)
    {k : α → State → Res State Unit} {g : State → State → State} (hk : ∀ a t, (k a t).MovesOn g t) (s : State)
    (hg : Within g tablesFrame := by exact fun _ _ => rfl) : ((onReader op s).bind k).MovesOn tablesFrame s :=
  tablesFrame_isFrame.bindOn (tablesFrame_isFrame.moves_widen (onReader_moves hop s)) fun a t =>
    tablesFrame_isFrame.movesOn_widen (hk a t) hg

theorem readLenFlag_moves (s : State) : (readLenFlag s).MovesOn tablesFrame s := by
  refine tablesFrame_isFrame.bindOn (checkLength_ends (tablesFrame_isFrame.refl s)) fun _ t => ?_
  refine readTablesField_moves (g := tablesFrame) readBool_keeps (fun more u => ?_) t
  cases more with
  | true =>
    refine readTablesField_moves (g := lengthsFrame) readBool_keeps (fun down v => ?_) u
    cases down with
    | true => exact elemLenDec_moves v
    | false => exact elemLenInc_moves v
  | false => exact tablesFrame_isFrame.movesOn_widen (elemLenEnd_moves u)

theorem readElement_moves_of_tables {s : State} (hp : tablesPos s.pos = true) (hs : s.pos ≠ .symbol) :
    (readElement s).MovesOn tablesFrame s := by
  unfold readElement
  cases hpos : s.pos with
  | streamHeader => simp [hpos, tablesPos] at hp
  | magic => simp [hpos, tablesPos] at hp
  | trailer => simp [hpos, tablesPos] at hp
  | padding => simp [hpos, tablesPos] at hp
  | symbol => exact absurd hpos hs
  | blockCrc =>
    exact readTablesField_moves readInt32_keeps (fun _ => elemBlockCrc_moves _) s
  | randomised =>
    exact readTablesField_moves readBool_keeps elemRandomised_moves s
  | origPtr =>
    exact readTablesField_moves (readBits_keeps 24) (fun _ => elemOrigPtr_moves _) s
  | usedMap =>
    exact readTablesField_moves (readBits_keeps 16) (fun _ => elemUsedMap_moves _) s
  | subMap =>
    exact readTablesField_moves (readBits_keeps 16) (fun _ => elemSubMap_moves _) s
  | nGroups =>
    exact readTablesField_moves (readBits_keeps 3)
      (fun _ => elemNGroups_moves _) s
  | nSelectors =>
    exact readTablesField_moves (readBits_keeps 15)
      (fun _ => elemNSelectors_moves _) s
  | selector =>
    exact readTablesField_moves readUnary_keeps elemSelectorCode_moves s
  | lenSeed =>
    exact readTablesField_moves (readBits_keeps 5) (fun _ => elemLenSeed_moves _) s
  | lenFlag => exact readLenFlag_moves s

theorem readSymbol_moves (s : State) : (readSymbol s).Moves symbolsFrame s := by
  refine symbolsFrame_isFrame.bind (symbolsFrame_isFrame.moves_widen (beginSymbol_moves s)) fun _ t => ?_
  refine symbolsFrame_isFrame.bind (symbolsFrame_isFrame.moves_widen (decodeWith_moves _ t)) fun sym u => ?_
  exact symbolsFrame_isFrame.moves_widen (elemSymbolCode_moves sym u)

/-! ### The bodies of the steps -/

theorem tablesLoop_moves (k : Nat) {s : State} (hp : tablesPos s.pos = true) (hs : s.pos ≠ .symbol) :
    (tablesLoop k s).Moves tablesFrame s := by
  induction k generalizing s with
  | zero =>
    unfold tablesLoop
    split
    · exact (readElement_moves_of_tables hp hs).moves
    · trivial
  | succ k ih =>
    refine (readElement_moves_of_tables hp hs).bind fun _ t ht => ?_
    split
    · exact ht.1
    · rename_i hne
      exact tablesFrame_isFrame.moves_after (ih ht.2 hne) ht.1

theorem tablesBody_moves (s : State) : (tablesBody s).Moves tablesFrame s :=
  tablesFrame_isFrame.moves_after (tablesLoop_moves _ (s := { s with pos := .blockCrc }) rfl (by simp))
    ⟨rfl, id, id, id, id, id⟩

theorem symbolsLoop_moves (k : Nat) (s : State) : (symbolsLoop k s).Moves symbolsFrame s := by
  induction k generalizing s with
  | zero => exact symbolsFrame_isFrame.refl s
  | succ k ih =>
    refine symbolsFrame_isFrame.bind (readSymbol_moves s) fun _ t => ?_
    split
    · exact symbolsFrame_isFrame.refl t
    · exact ih t

theorem symbolsBody_moves (s : State) : (symbolsBody s).Moves symbolsFrame s :=
  symbolsFrame_isFrame.moves_after (symbolsLoop_moves _ _)
    (symbolsFrame_isFrame.trans (symbolsFrame_isFrame.widen (stageInit_move s)) ⟨rfl, id, id, id, id, id⟩)

theorem permuteBody_moves (s : State) : (permuteBody s).Moves permuteFrame s := by
  unfold permuteBody
  split
  · exact permuteFrame_isFrame.refl s
  · refine permuteFrame_isFrame.bind
      (permuteFrame_isFrame.moves_widen (buildPermutation_moves s)) fun _ t => ?_
    exact .entry fun p _ => ⟨rfl, id, id, id, id, errorCodesOk_setFsm (f := .emit) (by decide)⟩

theorem emit_move (b : Byte) (s : State) : Move withErrorOf s (emit b s) := by
  unfold emit
  split
  · exact ⟨rfl, id, id, id, id, id⟩
  · exact withErrorOf_isFrame.refl s

theorem emitBody_moves (s : State) : (emitBody s).Moves emitFrame s := by
  refine emitFrame_isFrame.bind (emitFrame_isFrame.moves_widen (onOutput_moves _ s)) fun r t => ?_
  cases r with
  | none => exact ⟨rfl, id, id, id, id, errorCodesOk_setFsm (f := .crcCheck) (by decide)⟩
  | some b =>
    exact emitFrame_isFrame.trans (t := { t with out := { t.out with crcRun := crcUpdate t.out.crcRun b } })
      ⟨rfl, id, id, id, id, id⟩ (emitFrame_isFrame.widen (emit_move b _))

theorem crcCheckBody_moves (s : State) : (crcCheckBody s).Moves crcCheckFrame s := by
  unfold crcCheckBody
  split
  · exact crcCheckFrame_isFrame.refl s
  · exact ⟨rfl, id, id, id, id, errorCodesOk_setFsm (f := .header) (by decide)⟩

theorem readTrailer_moves (s : State) :
    ((onReader readInt32 s).bind fun v s => elemCombinedCrc (BitVec.ofNat 32 v) s).Moves trailerFrame s :=
  trailerFrame_isFrame.bind (trailerFrame_isFrame.moves_widen (onReader_moves readInt32_keeps s))
    fun _ t => trailerFrame_isFrame.moves_widen (elemCombinedCrc_moves _ t)

/-! ### The steps -/

/-- A step of the state machine moves within the frame of its body. -/
theorem stepOf_move {f : State → State → State} (hf : IsFrame f) {q : Fsm} {body : State → Res State Unit}
    {s t : State} (hb : (body s).Moves f s) (h : stepOf q body s = .next t)
    (hg : Within withErrorOf f := by exact fun _ _ => rfl) : Move f s t := by
  unfold stepOf at h
  split at h
  · exact finish_move hf hb h hg
  · cases h

section
variable {s t : State}

theorem exec_stepStreamHeader_move (h : exec .stepStreamHeader s = .next t) : Move streamHeaderFrame s t :=
  stepOf_move streamHeaderFrame_isFrame (body := fun s => readElement { s with pos := .streamHeader })
    (streamHeaderFrame_isFrame.moves_after (readStreamHeader_moves _) ⟨rfl, id, id, id, id, id⟩) h

theorem exec_stepHeader_move (h : exec .stepHeader s = .next t) : Move headerFrame s t :=
  stepOf_move headerFrame_isFrame (body := fun s => readElement { s with pos := .magic })
    (headerFrame_isFrame.moves_after (readMagic_moves _) ⟨rfl, id, id, id, id, id⟩) h

theorem exec_stepTables_move (h : exec .stepTables s = .next t) : Move tablesFrame s t :=
  stepOf_move tablesFrame_isFrame (tablesBody_moves s) h

theorem exec_stepSymbols_move (h : exec .stepSymbols s = .next t) : Move symbolsFrame s t :=
  stepOf_move symbolsFrame_isFrame (symbolsBody_moves s) h

theorem exec_stepPermute_move (h : exec .stepPermute s = .next t) : Move permuteFrame s t :=
  stepOf_move permuteFrame_isFrame (permuteBody_moves s) h

theorem exec_stepEmit_move (h : exec .stepEmit s = .next t) : Move emitFrame s t :=
  stepOf_move emitFrame_isFrame (emitBody_moves s) h

theorem exec_stepCrcCheck_move (h : exec .stepCrcCheck s = .next t) : Move crcCheckFrame s t :=
  stepOf_move crcCheckFrame_isFrame (crcCheckBody_moves s) h

theorem exec_stepTrailer_move (h : exec .stepTrailer s = .next t) : Move trailerFrame s t :=
  stepOf_move trailerFrame_isFrame (body := fun s => readElement { s with pos := .trailer })
    (trailerFrame_isFrame.moves_after (readTrailer_moves _) ⟨rfl, id, id, id, id, id⟩) h

end

end Sys2Proof.Machine
end

section
/-! PROOFS. What the encoder and the host commands (spec/46_stream_controller.md) do to the state; and that every step
keeps the invariants. -/

namespace Sys2Proof.Machine

/-! ### The bit writer -/

/-- What an operation that completes keeps of the bit writer: its form, and whether its sink is one that fails. -/
structure Writer.Kept (w w' : Writer) : Prop where
  wf : w.wf = true → w'.wf = true
  failure : w'.failure.isSome = w.failure.isSome

/-- An operation of the bit writer keeps its form, and raises on a sink that fails alone (R324). -/
abbrev Writer.Keeps (op : Writer → Res Writer Unit) : Prop :=
  ∀ w : Writer, (op w).Ends w.Kept fun w' => w.failure.isSome = true ∧ w'.failure.isSome = true

theorem Writer.Kept.refl (w : Writer) : w.Kept w := ⟨id, rfl⟩

theorem Writer.Kept.trans {w w' w'' : Writer} (h : w.Kept w') (h' : w'.Kept w'') : w.Kept w'' :=
  ⟨h'.wf ∘ h.wf, h'.failure.trans h.failure⟩

theorem Writer.Keeps.bind {op₁ op₂ : Writer → Res Writer Unit} (h₁ : Writer.Keeps op₁) (h₂ : Writer.Keeps op₂) :
    Writer.Keeps fun w => (op₁ w).bind fun _ w => op₂ w := fun w =>
  (h₁ w).bind fun _ w' hw' => (h₂ w').mono (fun _ => hw'.trans) fun _ h => ⟨hw'.failure ▸ h.1, h.2⟩

theorem putByte_ends (b : Byte) (w : Writer) :
    (putByte b w).Ends (fun w' => w'.failure.isSome = w.failure.isSome)
      fun w' => w.failure.isSome = true ∧ w'.failure.isSome = true := by
  unfold putByte
  split
  · cases hf : w.failure with
    | none => rfl
    | some f =>
      obtain ⟨room, e⟩ := f
      cases room with
      | zero => exact ⟨rfl, by rw [hf]; rfl⟩
      | succ room => rfl
  · trivial

theorem drain_ends (k : Nat) (w : Writer) :
    (drain k w).Ends
      (fun w' => (w.acc.toNat < 2 ^ w.live.toNat → w.live.toNat < 8 * (k + 1) → w'.wf = true) ∧
        w'.failure.isSome = w.failure.isSome)
      fun w' => w.failure.isSome = true ∧ w'.failure.isSome = true := by
  induction k generalizing w with
  | zero => exact ⟨fun hacc hlive => (Writer.wf_iff w).2 ⟨hacc, by omega⟩, rfl⟩
  | succ k ih =>
    simp only [drain]
    split
    · rename_i h8
      refine (putByte_ends _ w).bind fun _ w' hw' => (ih _).mono (fun w'' h => ⟨fun hacc hlive => ?_, ?_⟩) ?_
      · obtain ⟨hl, hacc', -⟩ := drain_turn w hacc h8
        have hl' : (BitVec.ofNat 5 (w.live.toNat - 8)).toNat = w.live.toNat - 8 := hl
        exact h.1 hacc' (by simp only [hl']; omega)
      · exact h.2.trans hw'
      · exact fun _ h => ⟨hw' ▸ h.1, h.2⟩
    · exact ⟨fun hacc _ => (Writer.wf_iff w).2 ⟨hacc, by omega⟩, rfl⟩

theorem writeBits_keeps (n v : Nat) : Writer.Keeps (writeBits n v) := by
  intro w
  by_cases hw : w.wf = true
  · by_cases h : n ≤ 24 ∧ v < 2 ^ n
    · obtain ⟨w₁, hrun, hlive, hacc, -, -, -, hfail⟩ := writeBits_eq h.1 h.2 w hw
      have h7 := Writer.live_le hw
      rw [hrun, ← hfail]
      exact (drain_ends 4 w₁).mono (fun w' h' => ⟨fun _ => h'.1 hacc (by omega), h'.2.trans (by rw [hfail])⟩)
        fun _ => id
    · have hrun : writeBits n v w = .refused .operandOutOfRange := if_neg h
      rw [hrun]
      trivial
  · unfold writeBits
    split
    · exact (drain_ends 4 _).mono (fun w' h' => ⟨fun hw' => absurd hw' hw, h'.2⟩) fun _ => id
    · trivial

theorem writeBool_keeps (b : Bool) : Writer.Keeps (writeBool b) := writeBits_keeps 1 b.toNat

theorem writeUnary_keeps (j : Nat) : Writer.Keeps (writeUnary j) := by
  induction j with
  | zero => exact writeBits_keeps 1 0
  | succ j ih => exact (writeBits_keeps 1 1).bind ih

theorem writeInt32_keeps (v : Word) : Writer.Keeps (writeInt32 v) :=
  (writeBits_keeps 16 _).bind (writeBits_keeps 16 _)

theorem flush_keeps : Writer.Keeps flush := by
  intro w
  unfold flush
  split
  · exact writeBits_keeps _ 0 w
  · exact .refl w

theorem writeBitString_keeps (bits : List Bool) : Writer.Keeps (writeBitString bits) := by
  induction bits with
  | nil => exact Writer.Kept.refl
  | cons b rest ih => exact (writeBool_keeps b).bind ih

/-! ### The encoder -/

theorem Encoder.wf_iff (e : Encoder) : e.wf = true ↔
    e.wr.wf = true ∨ (e.wr.failure.isSome = true ∧ (e.state = .failed ∨ e.state = .closed)) := by
  simp [Encoder.wf]

/-- What an operation of an open encoder keeps where it completes: the writer's form, and no error is latched. -/
structure Encoder.Kept (e e' : Encoder) : Prop where
  wr : e.wr.Kept e'.wr
  errKind : e'.errKind = e.errKind
  state : e'.state = .failed → e.state = .failed

/-- An operation of an open encoder, which raises on a sink that fails alone (R324). -/
abbrev Encoder.Keeps (op : Encoder → Res Encoder Unit) : Prop :=
  ∀ e : Encoder, (op e).Ends e.Kept fun e' => e.wr.failure.isSome = true ∧ e'.wr.failure.isSome = true

theorem Encoder.Kept.refl (e : Encoder) : e.Kept e := ⟨.refl _, rfl, id⟩

theorem Encoder.Kept.trans {e e' e'' : Encoder} (h : e.Kept e') (h' : e'.Kept e'') : e.Kept e'' :=
  ⟨h.wr.trans h'.wr, h'.errKind.trans h.errKind, h.state ∘ h'.state⟩

theorem Encoder.Keeps.bind {op₁ : Encoder → Res Encoder Unit} {op₂ : Encoder → Res Encoder Unit}
    (h₁ : Encoder.Keeps op₁) (h₂ : Encoder.Keeps op₂) : Encoder.Keeps fun e => (op₁ e).bind fun _ e => op₂ e := fun e =>
  (h₁ e).bind fun _ e' he' => (h₂ e').mono (fun _ => he'.trans) fun _ h => ⟨he'.wr.failure ▸ h.1, h.2⟩

/-- What an encoder has buffered does not count. -/
theorem Encoder.Keeps.withBuf {op : Encoder → Res Encoder Unit} (h : Encoder.Keeps op) (buf : List Byte) :
    Encoder.Keeps fun e => op { e with buf := buf } := fun e =>
  (h { e with buf := buf }).mono (fun _ h' => ⟨h'.wr, h'.errKind, h'.state⟩) fun _ => id

theorem onWriter_keeps {op : Writer → Res Writer Unit} (hop : Writer.Keeps op) : Encoder.Keeps (onWriter op) :=
  fun e => Res.Ends.lift ((hop e.wr).mono (fun _ h => ⟨h, rfl, id⟩) fun _ h => h)

theorem encodeBlock_keeps (x : List Byte) : Encoder.Keeps (encodeBlock x) := by
  intro e
  unfold encodeBlock
  split
  · exact (onWriter_keeps (writeBitString_keeps _) e).bind fun _ _ h => ⟨h.wr, h.errKind, h.state⟩
  · trivial

theorem encodeFull_keeps (k : Nat) : Encoder.Keeps (encodeFull k) := by
  induction k with
  | zero => exact Encoder.Kept.refl
  | succ k ih =>
    intro e
    simp only [encodeFull]
    split
    · refine (encodeBlock_keeps _ e).bind fun _ e' he' => ?_
      exact (ih.withBuf _ e').mono (fun _ => he'.trans) fun _ h => ⟨he'.wr.failure ▸ h.1, h.2⟩
    · exact .refl e

theorem encodeData_keeps (data : List Byte) : Encoder.Keeps (encodeData data) := fun e =>
  (encodeFull_keeps (e.buf ++ data).length).withBuf (e.buf ++ data) e

theorem encodeLast_keeps : Encoder.Keeps encodeLast := by
  intro e
  unfold encodeLast
  split
  · exact .refl e
  · exact (encodeBlock_keeps _ e).bind fun _ _ h => ⟨h.wr, h.errKind, h.state⟩

theorem writeTrailer_keeps (c : Word) : Writer.Keeps (writeTrailer c) :=
  (writeBits_keeps 24 _).bind ((writeBits_keeps 24 _).bind ((writeInt32_keeps c).bind flush_keeps))

theorem encodeFinish_keeps : Encoder.Keeps encodeFinish := by
  intro e
  rw [encodeFinish_eq]
  refine encodeLast_keeps.bind (op₂ := fun e => (onWriter (writeTrailer e.combined) e).bind fun _ e =>
    .ok () { e with state := .finished }) (fun e => ?_) e
  exact (onWriter_keeps (writeTrailer_keeps _) e).bind fun _ _ h => ⟨h.wr, h.errKind, nofun⟩

theorem writeHeader_keeps (level : Nat) : Encoder.Keeps (writeHeader level) := by
  intro e
  rw [writeHeader_eq]
  exact onWriter_keeps ((writeBits_keeps 8 _).bind
    ((writeBits_keeps 8 _).bind ((writeBits_keeps 8 _).bind (writeBits_keeps 8 _)))) e

/-! ### The commands of the encoder -/

/-- What a command of an encoder changes. -/
def encoderFrame (t s : State) : State :=
  { s with enc := t.enc, host := { s.host with results := t.host.results } }

/-- What ENC_OPEN changes. -/
def encOpenFrame (t s : State) : State :=
  { s with
    inst := t.inst
    enc := t.enc
    host := { s.host with sinks := t.host.sinks, results := t.host.results } }

theorem encoderFrame_isFrame : IsFrame encoderFrame where
  self _ := rfl
  again _ _ _ := rfl

theorem encOpenFrame_isFrame : IsFrame encOpenFrame where
  self _ := rfl
  again _ _ _ := rfl

/-- An encoder put in place of another that meets the encoder's invariants wherever the other does. -/
theorem setEncoder_move {s : State} {e : Encoder} (hwf : s.enc.wf = true → e.wf = true)
    (hcodes : s.enc.CodesOk → e.CodesOk) : Move encoderFrame s { s with enc := e } := by
  refine ⟨rfl, id, hwf, id, id, fun h => ?_⟩
  obtain ⟨hkind, hfsm, henc, hres⟩ := (errorCodesOk_iff s).1 h
  exact (errorCodesOk_iff _).2 ⟨hkind, hfsm, hcodes henc, hres⟩

theorem answer_move {s : State} {r : Result} (hr : errorCodesOk s = true → resultCodeOk r = true) :
    Move encoderFrame s (answer r s) :=
  ⟨rfl, id, id, id, id, fun h => errorCodesOk_answer h (hr h)⟩

theorem IsFrame.answer {f : State → State → State} (hf : IsFrame f) {s t : State} (h : Move f s t) {r : Result}
    (hr : resultCodeOk r = true) (hg : Within encoderFrame f := by exact fun _ _ => rfl) : Move f s (answer r t) :=
  hf.trans h (hf.widen (answer_move fun _ => hr) hg)

theorem Encoder.codesOk_failedWith (err : Err) (e : Encoder) : (e.failedWith err).CodesOk :=
  ⟨(errKindCode_range err).2, fun _ => errKindCode_ne_zero err⟩

theorem Encoder.Kept.codesOk {e e' : Encoder} (h : e.Kept e') (hc : e.CodesOk) : e'.CodesOk := by
  obtain ⟨hkind, hfailed⟩ := hc
  rw [Encoder.CodesOk, h.errKind]
  exact ⟨hkind, hfailed ∘ h.state⟩

/-- An open encoder's writer is well formed. -/
theorem Encoder.wf_of_open {e : Encoder} (ho : e.state = .isOpen) (h : e.wf = true) : e.wr.wf = true :=
  ((Encoder.wf_iff e).1 h).resolve_right (by simp [ho])

/-- Closing keeps the encoder's invariants. -/
theorem encoderClosed_move (s : State) : Move encoderFrame s { s with enc := encoderClosed s.enc } := by
  refine setEncoder_move (fun h => (Encoder.wf_iff _).2 ?_) fun h => ⟨h.1, nofun⟩
  exact ((Encoder.wf_iff _).1 h).imp id fun h => ⟨h.1, .inr rfl⟩

section
variable {s : State} (ho : s.enc.state = .isOpen) {op : Encoder → Res Encoder Unit} (hop : Encoder.Keeps op)
include ho hop

theorem encoder_completes_move {e : Encoder} (h : op s.enc = .ok () e) : Move encoderFrame s { s with enc := e } := by
  have hk : s.enc.Kept e := by simpa [h, Res.Ends] using hop s.enc
  exact setEncoder_move (fun hw => (Encoder.wf_iff e).2 (.inl (hk.wr.wf (Encoder.wf_of_open ho hw)))) hk.codesOk

omit ho in
theorem encoder_raises_move {err : Err} {e : Encoder} (h : op s.enc = .raised err e) :
    Move encoderFrame s { s with enc := e.failedWith err } := by
  have hk : s.enc.wr.failure.isSome = true ∧ e.wr.failure.isSome = true := by simpa [h, Res.Ends] using hop s.enc
  exact setEncoder_move (fun _ => (Encoder.wf_iff _).2 (.inr ⟨hk.2, .inl rfl⟩)) fun _ => e.codesOk_failedWith err

theorem encoderReply_move {t : State} (h : encoderReply (onEncoder op s) = .next t) : Move encoderFrame s t := by
  cases hrun : op s.enc with
  | ok _ e =>
    rw [encoderReply_of_ok hrun] at h
    cases h
    exact encoderFrame_isFrame.answer (encoder_completes_move ho hop hrun) (r := .ok []) rfl
  | raised err e =>
    rw [encoderReply_of_raised hrun] at h
    cases h
    exact encoderFrame_isFrame.answer (encoder_raises_move hop hrun) (resultCodeOk_errResult err)
  | fault f => simp [onEncoder, hrun, encoderReply] at h
  | refused q => simp [onEncoder, hrun, encoderReply] at h

theorem closeReply_move {t : State} (h : closeReply (onEncoder op s) = .next t) : Move encoderFrame s t := by
  cases hrun : op s.enc with
  | ok _ e =>
    rw [closeReply_of_ok hrun] at h
    cases h
    exact encoderFrame_isFrame.answer (encoderFrame_isFrame.trans (encoder_completes_move ho hop hrun)
      (encoderClosed_move _)) (r := .ok []) rfl
  | raised err e =>
    rw [closeReply_of_raised hrun] at h
    cases h
    exact encoderFrame_isFrame.answer (encoderFrame_isFrame.trans (encoder_raises_move hop hrun)
      (encoderClosed_move _)) (r := .ok []) rfl
  | fault f => simp [onEncoder, hrun, closeReply] at h
  | refused q => simp [onEncoder, hrun, closeReply] at h

end

end Sys2Proof.Machine
end

section
/-! PROOFS. The host commands (spec/46_stream_controller.md R301 to R323) as frames that keep the invariants; and that
every step keeps them, whatever instruction it runs. -/

namespace Sys2Proof.Machine

/-! ### The commands -/

/-- What READ changes by itself (R304). -/
def readFrame (t s : State) : State := { s with txn := t.txn, host := { s.host with results := t.host.results } }

/-- What CLOSE changes (R308). -/
def closeFrame (t s : State) : State :=
  { s with
    fsm := t.fsm
    rd := { s.rd with src := t.rd.src }
    host := { s.host with results := t.host.results } }

theorem command_eq_next {body : State → Host.Outcome State Fault Refusal} {s t : State} :
    command body s = .next t ↔ s.txn = none ∧ body s = .next t := by
  unfold command
  cases s.txn <;> simp

/-- A command answered IllegalCommand changes nothing (R347). -/
theorem answer_illegal_move {f : State → State → State} (s : State)
    (hg : answer illegalCommandResult s = f (answer illegalCommandResult s) s := by rfl) :
    Move f s (answer illegalCommandResult s) :=
  ⟨hg, (answer_move fun _ => rfl).kept⟩

/-- A READ that has gathered nothing: it goes on, or answers EOF at the end of the stream. -/
theorem settleRead_begin_move {n : Nat} (hn : n ≠ 0) (s : State) :
    Move readFrame s (settleRead { s with txn := some { want := n, out := [] } }) := by
  by_cases hend : s.fsm = .ended
  · have hdone := settleRead_of_done (s := { s with txn := some { want := n, out := [] } }) rfl (.inr hend)
    rw [hdone]
    exact ⟨rfl, id, id, id, id, fun h => errorCodesOk_answer (r := .eof) h rfl⟩
  · have hopen := settleRead_of_open (s := { s with txn := some { want := n, out := [] } }) rfl (by simp [hn, hend])
    rw [hopen]
    exact ⟨rfl, id, id, id, id, id⟩

theorem startRead_move {n : Nat} {s t : State} (h : startRead n s = .next t) : Move readFrame s t := by
  have hreply : ∀ r, (errorCodesOk s = true → resultCodeOk r = true) → Move readFrame s (answer r s) := fun r hr =>
    ⟨rfl, (answer_move hr).kept⟩
  unfold startRead at h
  split at h
  · cases h
    exact hreply _ fun _ => rfl
  · rename_i hfsm
    cases h
    refine hreply _ fun hok => ?_
    obtain ⟨hkind, hfailed, -⟩ := (errorCodesOk_iff s).1 hok
    have hpos : s.stream.errKind.toNat ≠ 0 := fun h0 => hfailed hfsm (BitVec.eq_of_toNat_eq h0)
    simp only [resultCodeOk, Bool.and_eq_true, decide_eq_true_eq]
    omega
  · split at h
    · cases h
      exact hreply _ fun _ => rfl
    · rename_i hn
      cases h
      exact settleRead_begin_move hn s

theorem exec_hostRead_move {n : Word} {s t : State} (h : exec (.hostRead n) s = .next t) : Move readFrame s t := by
  simp only [exec, execHostRead, command_eq_next] at h
  obtain ⟨-, h⟩ := h
  split at h
  · cases h
    exact answer_illegal_move s
  · exact startRead_move h

theorem exec_hostClose_move {v : Word} {s t : State} (h : exec (.hostClose v) s = .next t) : Move closeFrame s t := by
  simp only [exec, execHostClose, command_eq_next] at h
  obtain ⟨-, h⟩ := h
  split at h
  · cases h
    exact answer_illegal_move s
  · cases h
    exact ⟨rfl, id, id, id, id, fun h => errorCodesOk_answer (errorCodesOk_setFsm (f := .closed) (by decide) h) rfl⟩

/-- OPEN is answered IllegalCommand, or leaves the state of R68. -/
theorem exec_hostOpen_cases {v : Word} {s t : State} (h : exec (.hostOpen v) s = .next t) :
    t = answer illegalCommandResult s ∨ t = answer (.ok []) (opened s) := by
  simp only [exec, execHostOpen, command_eq_next] at h
  obtain ⟨-, h⟩ := h
  cases hi : s.inst with
  | encoder =>
    rw [hi] at h
    cases h
    exact .inl rfl
  | decoder =>
    rw [hi] at h
    cases h
    exact .inr rfl
  | neverOpened =>
    rw [hi] at h
    cases h
    exact .inr rfl

/-- The registers OPEN leaves meet every invariant. -/
theorem opened_kept (s : State) : Kept s (opened s) where
  reader _ := rfl
  encoder := id
  arrays _ := rfl
  ranks _ := .refl _
  codes h := by
    obtain ⟨-, -, henc, hres⟩ := (errorCodesOk_iff s).1 h
    exact (errorCodesOk_iff _).2 ⟨Nat.zero_le 7, nofun, henc, hres⟩

theorem exec_hostOpen_kept {v : Word} {s t : State} (h : exec (.hostOpen v) s = .next t) : Kept s t := by
  obtain rfl | rfl := exec_hostOpen_cases h
  · exact (Kept.refl s).answer rfl
  · exact (opened_kept s).answer rfl

/-- The encoder that ENC_OPEN sets up meets every invariant. -/
theorem encoderAt_move (level : Nat) (s : State) :
    Move encOpenFrame s
      { s with
        inst := .encoder
        enc := encoderAt level (offeredSink s.host)
        host := { s.host with sinks := s.host.sinks.tail } } := by
  refine ⟨rfl, id, fun _ => rfl, id, id, fun h => ?_⟩
  obtain ⟨hkind, hfsm, -, hres⟩ := (errorCodesOk_iff s).1 h
  exact (errorCodesOk_iff _).2 ⟨hkind, hfsm, ⟨Nat.zero_le 7, nofun⟩, hres⟩

theorem exec_encOpen_move {l : Word} {s t : State} (h : exec (.encOpen l) s = .next t) : Move encOpenFrame s t := by
  simp only [exec, execEncOpen, command_eq_next] at h
  obtain ⟨-, h⟩ := h
  split at h
  · cases h
    exact answer_illegal_move s
  · exact encOpenFrame_isFrame.trans (encoderAt_move l.toNat s)
      (encOpenFrame_isFrame.widen (encoderReply_move rfl (writeHeader_keeps _) h))

/-- A command of an encoder that is not open is answered with the error latched, with StreamClosed, or OK. -/
theorem answer_latched_move {s : State} (hfailed : s.enc.state = .failed) :
    Move encoderFrame s (answer (.err s.enc.errKind s.enc.errSub) s) := by
  refine answer_move fun hok => ?_
  obtain ⟨-, -, ⟨hkind, hlatched⟩, -⟩ := (errorCodesOk_iff s).1 hok
  have hpos : s.enc.errKind.toNat ≠ 0 := fun h0 => hlatched hfailed (BitVec.eq_of_toNat_eq h0)
  simp only [resultCodeOk, Bool.and_eq_true, decide_eq_true_eq]
  omega

theorem exec_encWrite_move {m : Word} {data : List Byte} {s t : State} (h : exec (.encWrite m data) s = .next t) :
    Move encoderFrame s t := by
  simp only [exec, execEncWrite, command_eq_next] at h
  obtain ⟨-, h⟩ := h
  split at h
  · cases h
    exact answer_illegal_move s
  · cases hst : s.enc.state with
    | isOpen =>
      rw [hst] at h
      exact encoderReply_move hst (encodeData_keeps data) h
    | finished =>
      rw [hst] at h
      cases h
      exact answer_move fun _ => rfl
    | failed =>
      rw [hst] at h
      cases h
      exact answer_latched_move hst
    | closed =>
      rw [hst] at h
      cases h
      exact answer_move fun _ => rfl

theorem exec_encFinish_move {v : Word} {s t : State} (h : exec (.encFinish v) s = .next t) :
    Move encoderFrame s t := by
  simp only [exec, execEncFinish, command_eq_next] at h
  obtain ⟨-, h⟩ := h
  split at h
  · cases h
    exact answer_illegal_move s
  · cases hst : s.enc.state with
    | isOpen =>
      rw [hst] at h
      exact encoderReply_move hst encodeFinish_keeps h
    | finished =>
      rw [hst] at h
      cases h
      exact answer_move fun _ => rfl
    | failed =>
      rw [hst] at h
      cases h
      exact answer_latched_move hst
    | closed =>
      rw [hst] at h
      cases h
      exact answer_move fun _ => rfl

theorem exec_encClose_move {v : Word} {s t : State} (h : exec (.encClose v) s = .next t) :
    Move encoderFrame s t := by
  simp only [exec, execEncClose, command_eq_next] at h
  obtain ⟨-, h⟩ := h
  split at h
  · cases h
    exact answer_illegal_move s
  · split at h
    · rename_i hst
      exact closeReply_move hst encodeFinish_keeps h
    · cases h
      exact encoderFrame_isFrame.answer (encoderClosed_move s) (r := .ok []) rfl

/-! ### Every instruction -/

section
variable {s t : State} {f : State → State → State}

theorem finish_kept {r : Res State Unit} (hr : r.Moves f s) (h : finish r = .next t) : Kept s t := by
  obtain rfl | ⟨e, u, rfl, rfl⟩ := finish_eq_next.1 h
  · exact hr.kept
  · exact hr.kept.trans (Kept.takeError e u)

theorem finishRet_kept {α : Type} {g : α → UnitResult} {r : Res State α} (hr : r.Moves f s)
    (h : finishRet g r = .next t) : Kept s t := by
  obtain ⟨a, u, rfl, rfl⟩ | ⟨e, u, rfl, rfl⟩ := finishRet_eq_next.1 h
  · exact hr.kept.trans ⟨id, id, id, id, id⟩
  · exact hr.kept.trans (Kept.takeError e u)

theorem finishWriter_kept {op : Writer → Res Writer Unit} (hop : Writer.Keeps op)
    (h : finishWriter (onEncoder (onWriter op) s) = .next t) : Kept s t := by
  cases hrun : op s.enc.wr with
  | ok _ w =>
    have hw : s.enc.wr.Kept w := by simpa [hrun, Res.Ends] using hop s.enc.wr
    rw [finishWriter_of_ok hrun] at h
    cases h
    refine (setEncoder_move (e := { s.enc with wr := w }) (fun hwf => (Encoder.wf_iff _).2 ?_) id).kept
    exact ((Encoder.wf_iff _).1 hwf).imp hw.wf fun h => ⟨hw.failure.trans h.1, h.2⟩
  | raised e w =>
    have hw : s.enc.wr.failure.isSome = true ∧ w.failure.isSome = true := by
      simpa [hrun, Res.Ends] using hop s.enc.wr
    rw [finishWriter_of_raised hrun] at h
    cases h
    exact (setEncoder_move (fun _ => (Encoder.wf_iff _).2 (.inr ⟨hw.2, .inl rfl⟩)) fun _ =>
      Encoder.codesOk_failedWith e { s.enc with wr := w }).kept
  | fault g => simp [onEncoder, onWriter, hrun, finishWriter] at h
  | refused q => simp [onEncoder, onWriter, hrun, finishWriter] at h

end

theorem allocate_moves (f : List Nat) (maxLen : Nat) (s : State) : (allocate f maxLen s).Moves withErrorOf s := by
  unfold allocate
  split
  · trivial
  · split
    · exact withErrorOf_isFrame.refl s
    · split
      · trivial
      · exact withErrorOf_isFrame.refl s

theorem codes_moves (lens : List Nat) (s : State) : (codes lens s).Moves withErrorOf s := by
  unfold codes
  split
  · trivial
  · exact withErrorOf_isFrame.refl s

theorem mtfEncode_moves (bytes inUse : List Byte) (s : State) : (mtfEncode bytes inUse s).Moves withErrorOf s := by
  unfold mtfEncode
  split
  · cases mtfEncodeLoop inUse bytes (List.range inUse.length) 0 with
    | some out => exact withErrorOf_isFrame.refl s
    | none => trivial
  · trivial

/-- Every instruction that gives a next state keeps every invariant. -/
theorem exec_kept {i : Instr} {s t : State} (h : exec i s = .next t) : Kept s t := by
  cases i with
  | streamHeader d => exact finish_kept (elemStreamHeader_moves d s) h
  | blockMagic => exact finish_kept (elemBlockMagic_moves s) h
  | blockCrc c => exact finish_kept (elemBlockCrc_moves c s).moves h
  | randomised r => exact finish_kept (elemRandomised_moves r s).moves h
  | origPtr p => exact finish_kept (elemOrigPtr_moves p s).moves h
  | usedMap u => exact finish_kept (elemUsedMap_moves u s).moves h
  | subMap m => exact finish_kept (elemSubMap_moves m s).moves h
  | nGroups g => exact finish_kept (elemNGroups_moves g s).moves h
  | nSelectors n => exact finish_kept (elemNSelectors_moves n s).moves h
  | selectorCode j => exact finish_kept (elemSelectorCode_moves j s).moves h
  | lenSeed l => exact finish_kept (elemLenSeed_moves l s).moves h
  | lenEnd => exact finish_kept (elemLenEnd_moves s).moves h
  | lenInc => exact finish_kept (elemLenInc_moves s).moves h
  | lenDec => exact finish_kept (elemLenDec_moves s).moves h
  | symbolCode sym => exact finish_kept (windowedSymbol_moves sym.toNat s) h
  | eosMagic => exact finish_kept (elemEosMagic_moves s) h
  | combinedCrc c => exact finish_kept (elemCombinedCrc_moves c s) h
  | padding bits => exact finish_kept (r := elemPadding bits s) (withErrorOf_isFrame.refl s) h
  | hostOpen v => exact exec_hostOpen_kept h
  | hostRead n => exact (exec_hostRead_move h).kept
  | hostClose v => exact (exec_hostClose_move h).kept
  | encOpen l => exact (exec_encOpen_move h).kept
  | encWrite m data => exact (exec_encWrite_move h).kept
  | encFinish v => exact (exec_encFinish_move h).kept
  | encClose v => exact (exec_encClose_move h).kept
  | bcReadBits n => exact finishRet_kept (onReader_moves (readBits_keeps n) s) h
  | bcReadBool => exact finishRet_kept (onReader_moves readBool_keeps s) h
  | bcReadUnary => exact finishRet_kept (onReader_moves readUnary_keeps s) h
  | bcReadInt32 => exact finishRet_kept (onReader_moves readInt32_keeps s) h
  | bcWriteBits n v => exact finishWriter_kept (writeBits_keeps n v) h
  | bcWriteBool b => exact finishWriter_kept (writeBool_keeps b) h
  | bcWriteUnary j => exact finishWriter_kept (writeUnary_keeps j) h
  | bcWriteInt32 v => exact finishWriter_kept (writeInt32_keeps v) h
  | bcFlush => exact finishWriter_kept flush_keeps h
  | haAllocate f maxLen => exact finishRet_kept (allocate_moves f maxLen s) h
  | htBuild g => exact finish_kept (buildTable_moves g s) h
  | htDecode g => exact finishRet_kept (decodeWith_moves g s) h
  | htCodes lens => exact finishRet_kept (codes_moves lens s) h
  | mtfDecodeSymbol sym => exact finish_kept (mtfSymbol_moves sym s) h
  | mtfEncode bytes inUse => exact finishRet_kept (mtfEncode_moves bytes inUse s) h
  | piBuild => exact finish_kept (buildPermutation_moves s) h
  | piNext => exact finishRet_kept (onOutput_moves _ s) h
  | rle1Next => exact finishRet_kept (onOutput_moves _ s) h
  | derand b =>
    cases h
    exact ⟨id, id, id, id, id⟩
  | crcInit =>
    cases h
    exact ⟨id, id, id, id, id⟩
  | crcUpdate b =>
    cases h
    exact ⟨id, id, id, id, id⟩
  | crcFinal =>
    cases h
    exact ⟨id, id, id, id, id⟩
  | crcCombine c =>
    cases h
    exact ⟨id, id, id, id, id⟩
  | stepStreamHeader => exact (exec_stepStreamHeader_move h).kept
  | stepHeader => exact (exec_stepHeader_move h).kept
  | stepTables => exact (exec_stepTables_move h).kept
  | stepSymbols => exact (exec_stepSymbols_move h).kept
  | stepPermute => exact (exec_stepPermute_move h).kept
  | stepEmit => exact (exec_stepEmit_move h).kept
  | stepCrcCheck => exact (exec_stepCrcCheck_move h).kept
  | stepTrailer => exact (exec_stepTrailer_move h).kept

/-! ### Every step -/

theorem settleRead_kept (s : State) : Kept s (settleRead s) := by
  unfold settleRead
  split
  · split
    · unfold completeRead
      split
      · refine Kept.answer ?_ rfl
        exact ⟨id, id, id, id, id⟩
      · refine Kept.answer ?_ rfl
        exact ⟨id, id, id, id, id⟩
    · exact Kept.refl s
  · exact Kept.refl s

/-- Every step keeps every invariant. -/
theorem step_kept {s t : State} (h : step s = .next t) : Kept s t := by
  obtain ⟨i, s', u, hfetch, hexec, rfl⟩ | ⟨s', hfetch, rfl⟩ | ⟨-, rfl⟩ := step_cases h
  · have hs : Kept s s' := by
      rw [fetch_run hfetch]
      exact ⟨id, id, id, id, id⟩
    exact (hs.trans (exec_kept hexec)).trans (settleRead_kept u)
  · obtain ⟨-, -, rfl⟩ := fetch_illegal hfetch
    refine Kept.answer ?_ rfl
    exact ⟨id, id, id, id, id⟩
  · exact Kept.refl t

/-- Settles O54: every step keeps the forms of both bit buffers, by `step_kept`. -/
theorem bitBuffersKept : Obligations.BitBuffersKept :=
  fun _ _ hrd henc h => ⟨(step_kept h).reader hrd, (step_kept h).encoder henc⟩

/-- Settles O55: every step keeps the forms and bounds of the arrays, by `step_kept`. -/
theorem arraysKept : Obligations.ArraysKept := fun _ _ hs h => (step_kept h).arrays hs

/-- Settles O56: every step keeps the rank table a permutation, by `step_kept`. -/
theorem rankTableKept : Obligations.RankTableKept := fun _ _ hs h => (step_kept h).ranks hs

end Sys2Proof.Machine
end

section
/-! PROOFS. Frames of the steps and commands; the error codes (spec/60_exceptions.md R340); the status window
(spec/10_state.md R67); the elements of fixed effect; and the header ENC_OPEN writes. -/

namespace Sys2Proof.Machine

/-- Settles O60: each frame is that of the operation's move. -/
theorem stepAndCommandFrames : Obligations.StepAndCommandFrames := by
  intro s t
  refine ⟨fun h => (exec_stepStreamHeader_move h).frame, fun h => (exec_stepHeader_move h).frame,
    fun h => (exec_stepTables_move h).frame, fun h => (exec_stepSymbols_move h).frame,
    fun h => (exec_stepPermute_move h).frame, fun h => (exec_stepEmit_move h).frame,
    fun h => (exec_stepCrcCheck_move h).frame, fun h => (exec_stepTrailer_move h).frame,
    fun n h => (exec_hostRead_move h).frame, fun v h => (exec_hostClose_move h).frame, fun v h => ?_,
    fun l h => (exec_encOpen_move h).frame, fun i hi h => ?_⟩
  · obtain rfl | rfl := exec_hostOpen_cases h
    · exact ⟨rfl, rfl, rfl, rfl, rfl, rfl⟩
    · exact ⟨rfl, rfl, rfl, rfl, rfl, rfl⟩
  · obtain ⟨m, data, rfl⟩ | ⟨v, rfl⟩ | ⟨v, rfl⟩ := hi
    · exact (exec_encWrite_move h).frame
    · exact (exec_encFinish_move h).frame
    · exact (exec_encClose_move h).frame

/-- Settles O57: every register holds its value of R68 or R57. -/
theorem resetMeetsInvariants : Obligations.ResetMeetsInvariants := ⟨rfl, rfl, rfl, rfl, .refl _, rfl⟩

/-! ### The status word -/

theorem fsmCode_lt (f : Fsm) : fsmCode f < 16 := by cases f <;> decide

theorem encStateCode_lt (e : EncState) : encStateCode e < 16 := by cases e <;> decide

/-- The fields of STATUS do not overlap (R67). -/
theorem statusWord_toNat {code : Nat} (hcode : code < 16) (kind sub level : BitVec 4) (randomised : Bool) :
    (statusWord code kind.toNat sub.toNat level.toNat randomised).toNat =
      code + 16 * kind.toNat + 256 * sub.toNat + 4096 * level.toNat + 65536 * randomised.toNat := by
  have hkind := kind.isLt
  have hsub := sub.isLt
  have hlevel := level.isLt
  have hrand := randomised.toNat_lt
  rw [statusWord, BitVec.toNat_ofNat]
  omega

/-- A field of a word is a number cut out of it. -/
theorem extractLsb'_eq_of_toNat {w n start : Nat} {x : BitVec w} {y : BitVec n}
    (h : x.toNat / 2 ^ start % 2 ^ n = y.toNat) : x.extractLsb' start n = y := by
  apply BitVec.eq_of_toNat_eq
  rw [BitVec.extractLsb'_toNat, Nat.shiftRight_eq_div_pow, h]

section
variable {code : Nat} (hcode : code < 16) (kind sub level : BitVec 4) (randomised : Bool)
include hcode

/-- STATUS shows its fields (R67). -/
theorem statusWord_fields :
    (statusWord code kind.toNat sub.toNat level.toNat randomised).extractLsb' 0 4 = BitVec.ofNat 4 code ∧
      (statusWord code kind.toNat sub.toNat level.toNat randomised).extractLsb' 4 4 = kind ∧
      (statusWord code kind.toNat sub.toNat level.toNat randomised).extractLsb' 8 4 = sub ∧
      (statusWord code kind.toNat sub.toNat level.toNat randomised).extractLsb' 12 4 = level ∧
      (statusWord code kind.toNat sub.toNat level.toNat randomised).extractLsb' 17 15 = 0 ∧
      (statusWord code kind.toNat sub.toNat level.toNat randomised).extractLsb' 16 16 =
        BitVec.ofNat 16 randomised.toNat := by
  have hkind := kind.isLt
  have hsub := sub.isLt
  have hlevel := level.isLt
  have hrand := randomised.toNat_lt
  have hword := statusWord_toNat hcode kind sub level randomised
  refine ⟨extractLsb'_eq_of_toNat ?_, extractLsb'_eq_of_toNat ?_, extractLsb'_eq_of_toNat ?_,
    extractLsb'_eq_of_toNat ?_, extractLsb'_eq_of_toNat ?_, extractLsb'_eq_of_toNat ?_⟩
  all_goals rw [hword]
  · rw [BitVec.toNat_ofNat]
    omega
  · omega
  · omega
  · omega
  · rw [show (0 : BitVec 15).toNat = 0 from rfl]
    omega
  · rw [BitVec.toNat_ofNat]
    omega

/-- The flag of a randomised block is bit 16 (R67). -/
theorem statusWord_randomised :
    (statusWord code kind.toNat sub.toNat level.toNat randomised).getLsbD 16 = randomised := by
  have hkind := kind.isLt
  have hsub := sub.isLt
  have hlevel := level.isLt
  have hword := statusWord_toNat hcode kind sub level randomised
  rw [← BitVec.testBit_toNat, hword, Nat.testBit_eq_decide_div_mod_eq]
  cases randomised
  · simp only [Bool.toNat_false, decide_eq_false_iff_not]
    omega
  · simp only [Bool.toNat_true, decide_eq_true_eq]
    omega

end

/-! ### The window -/

theorem windowRead_of_decoder {s : State} (hi : s.inst = .decoder) (offset : Nat) :
    windowRead s offset = decoderWindow s offset := by
  rw [windowRead, hi]

theorem windowRead_of_encoder {s : State} (hi : s.inst = .encoder) (offset : Nat) :
    windowRead s offset = encoderWindow s offset := by
  rw [windowRead, hi]

theorem decoderWindow_unlisted (s : State) {offset : Nat}
    (h : offset ∉ [0x00, 0x04, 0x08, 0x0C, 0x10, 0x14, 0x18, 0x1C]) : decoderWindow s offset = 0 := by
  unfold decoderWindow
  split
  case h_9 => rfl
  all_goals exact absurd (by decide) h

theorem encoderWindow_unlisted (s : State) {offset : Nat} (h : offset ∉ [0x00, 0x04]) :
    encoderWindow s offset = 0 := by
  unfold encoderWindow
  split
  · exact absurd (by decide) h
  · exact absurd (by decide) h
  · rfl

/-- Settles O8: each word by its fields. -/
theorem statusWindow : Obligations.StatusWindow := by
  refine ⟨⟨rfl, rfl, rfl, rfl, rfl, rfl, rfl, rfl, rfl, rfl, rfl⟩, ⟨rfl, rfl, rfl, rfl⟩, fun s =>
    ⟨fun _ _ => rfl, fun offset h => ?_, fun hi => ?_, fun hi => ?_⟩⟩
  · cases hi : s.inst with
    | neverOpened => rw [windowRead, hi]
    | decoder => rw [windowRead_of_decoder hi, decoderWindow_unlisted s h]
    | encoder =>
      rw [windowRead_of_encoder hi, encoderWindow_unlisted s fun h' => h ?_]
      simp only [List.mem_cons] at h' ⊢
      tauto
  · simp only [windowRead_of_decoder hi]
    obtain ⟨hcode, hkind, hsub, hlevel, hrest, -⟩ := statusWord_fields (fsmCode_lt s.fsm) s.stream.errKind
      s.stream.errSub s.stream.bs100k s.blk.randomised
    have hrand := statusWord_randomised (fsmCode_lt s.fsm) s.stream.errKind s.stream.errSub s.stream.bs100k
      s.blk.randomised
    have hn := s.sym.nblock.isLt
    refine ⟨hcode, hkind, hsub, hlevel, hrand, hrest, rfl, rfl, rfl, ?_, ?_, extractLsb'_eq_of_toNat ?_,
      extractLsb'_eq_of_toNat ?_, rfl⟩
    · exact (extractLsb'_eq_of_toNat (by simp [decoderWindow])).symm
    · exact (extractLsb'_eq_of_toNat (by simp [decoderWindow])).symm
    · simp only [decoderWindow, BitVec.toNat_setWidth]
      omega
    · simp only [decoderWindow, BitVec.toNat_setWidth, BitVec.ofNat_eq_ofNat, BitVec.toNat_ofNat]
      omega
  · simp only [windowRead_of_encoder hi]
    obtain ⟨hcode, hkind, hsub, hlevel, -, hrest⟩ := statusWord_fields (encStateCode_lt s.enc.state) s.enc.errKind
      s.enc.errSub s.enc.level false
    exact ⟨hcode, hkind, hsub, hlevel, hrest, rfl, fun offset h => encoderWindow_unlisted s h⟩

/-! ### The error codes -/

/-- The kind shown in STATUS is the one latched. -/
theorem windowRead_kind_le {s : State} (h : errorCodesOk s = true) : (windowRead s 0x00).toNat / 16 % 16 ≤ 7 := by
  obtain ⟨hkind, -, ⟨hkind', -⟩, -⟩ := (errorCodesOk_iff s).1 h
  cases hi : s.inst with
  | neverOpened =>
    have hzero : windowRead s 0x00 = 0 := by rw [windowRead, hi]
    rw [hzero]
    decide
  | decoder =>
    have hcode := fsmCode_lt s.fsm
    have hsub := s.stream.errSub.isLt
    rw [windowRead_of_decoder hi, decoderWindow, statusWord_toNat hcode]
    omega
  | encoder =>
    have hcode := encStateCode_lt s.enc.state
    have hsub := s.enc.errSub.isLt
    rw [windowRead_of_encoder hi, encoderWindow, statusWord_toNat hcode]
    omega

/-- Settles O11: the tables by evaluation, and that no other code is used by `step_kept`. -/
theorem errorCodes : Obligations.ErrorCodes :=
  ⟨rfl, rfl, rfl, rfl, rfl, rfl, rfl, rfl, rfl, rfl, rfl, rfl, rfl, rfl, rfl, rfl, rfl, rfl, fun _ => rfl, rfl,
    fun _ _ => rfl, fun _ => windowRead_kind_le, fun _ _ hs h => (step_kept h).codes hs⟩

/-! ### The elements of fixed effect -/

theorem elemStreamHeader_of_legal {d : BitVec 4} (hd : 1 ≤ d.toNat ∧ d.toNat ≤ 9) (s : State) :
    elemStreamHeader d s = .ok ()
      { s with
        stream := { s.stream with bs100k := d }
        sym := { s.sym with ll := [] }
        perm := { s.perm with tt := [] }
        fsm := .header
        pos := .magic } :=
  if_neg (by omega)

theorem elemStreamHeader_of_illegal {d : BitVec 4} (hd : ¬(1 ≤ d.toNat ∧ d.toNat ≤ 9)) (s : State) :
    elemStreamHeader d s = .raised .badBlockSizeDigit s :=
  if_pos (by omega)

/-- Settles O48: each element by its rule, the two that are checked by cases on the check. -/
theorem headerAndFieldElements : Obligations.HeaderAndFieldElements := by
  refine fun s => ⟨fun d => ?_, rfl, rfl, fun _ => rfl, fun _ => rfl, fun _ => rfl, fun c => ?_, fun _ => rfl⟩
  · change finish (elemStreamHeader d s) = _
    split
    · rename_i hd
      rw [elemStreamHeader_of_legal hd]
      rfl
    · rename_i hd
      rw [elemStreamHeader_of_illegal hd]
      rfl
  · change finish (elemCombinedCrc c s) = _
    unfold elemCombinedCrc
    by_cases hc : c = s.stream.combined
    · rw [if_neg (not_not.2 hc), if_pos hc]
      rfl
    · rw [if_pos hc, if_neg hc]
      rfl

/-! ### ENC_OPEN -/

/-- Whole bytes appended to a writer with no bit live leave none live. -/
theorem Writer.Appended.eq_of_bytes {w w' : Writer} {bytes : List Byte} (h : w.Appended (bitsOfBytes bytes) w')
    (hl : w.live = 0) :
    w' = { acc := 0, live := 0, sink := w.sink ++ bytes, attached := true,
           failure := w.failureAfter bytes.length } := by
  have hzero : w.live.toNat = 0 := by rw [hl]; rfl
  have hlive : w'.live = 0 := by
    apply BitVec.eq_of_toNat_eq
    rw [h.progress.2, hzero, bitsOfBytes_length, Nat.zero_add, Nat.mul_mod_right]
    rfl
  have hacc : w'.acc = 0 := by
    have hwf := ((Writer.wf_iff w').1 h.wf).1
    rw [hlive] at hwf
    exact BitVec.eq_of_toNat_eq (Nat.lt_one_iff.1 hwf)
  have hsink : w'.sink = w.sink ++ bytes := by
    have hbits := h.bits_eq
    rw [Writer.bits_of_live_zero hlive, Writer.bits_of_live_zero hl, ← bitsOfBytes_append] at hbits
    exact bitsOfBytes_injective hbits
  have hfail : w'.failure = w.failureAfter bytes.length := by
    rw [h.failure, hzero, bitsOfBytes_length, Nat.zero_add, Nat.mul_div_cancel_left _ (by decide)]
  have hatt := h.attached
  obtain ⟨acc, live, sink, attached, failure⟩ := w'
  simp_all only

/-- The header on a sink that never fails. -/
theorem writeHeader_of_never_fails {level : Nat} (hl : level ≤ 9) :
    writeHeader level (encoderAt level none) = .ok ()
      { encoderAt level none with
        wr := { acc := 0, live := 0, sink := headerBytes level, attached := true, failure := none } } := by
  obtain ⟨w, hop, a⟩ := (putHeader_writes hl (w := Writer.fresh none) rfl rfl).completes rfl
  rw [a.eq_of_bytes rfl] at hop
  rw [writeHeader_eq, onWriter]
  exact congrArg _ hop

/-- Settles O17: the header is the four bytes written to the fresh writer. -/
theorem encOpenWritesHeader : Obligations.EncOpenWritesHeader := by
  refine fun level s hi ht => ⟨fun h1 h9 hsink => ?_, fun hlevel => ?_⟩
  · have hrun := writeHeader_of_never_fails h9
    rw [exec_encOpen_of_legal hi ht h1 h9, hsink, encoderReply_of_ok hrun, ← BitVec.ofNat_toNat]
    rfl
  · simp only [exec, execEncOpen, command, ht, if_pos (Or.inr hlevel)]
    rfl

end Sys2Proof.Machine
end

section
/-! PROOFS. Reading bits that are known (spec/40_bit_channel.md R140, R141): the fields that stand there are given,
and exactly their bits are taken; STEP_STREAM_HEADER and STEP_HEADER. -/

namespace Sys2Proof.Machine

/-! ### A field that stands at the head of the bits to come -/

theorem Reader.TakenTo.wf {n : Nat} {r r' : Reader} (h : r.TakenTo n r') : r'.wf = true := h.2.2.2.2.1

theorem Reader.TakenTo.pending {n : Nat} {r r' : Reader} (h : r.TakenTo n r') : r'.pending = r.pending.drop n := h.1

theorem Reader.takenTo_zero {r : Reader} (hw : r.wf = true) : r.TakenTo 0 r := by
  have hf : r.fetches 0 = 0 := by
    unfold Reader.fetches
    omega
  exact ⟨rfl, by rw [hf], by simp [hf], rfl, hw, rfl⟩

/-- `op` reads the bits `bits` at the head of those to come as the value `v`, and takes exactly those. -/
def Reader.Reads {α : Type} (op : Reader → Res Reader α) (bits : List Bool) (v : α) : Prop :=
  ∀ (r : Reader) (rest : List Bool), r.wf = true → r.pending = bits ++ rest →
    ∃ r', op r = .ok v r' ∧ r.TakenTo bits.length r' ∧ r'.pending = rest

theorem readBits_reads {n x : Nat} (hn : n ≤ 24) (hx : x < 2 ^ n) : Reader.Reads (readBits n) (toBits n x) x := by
  intro r rest hw hp
  obtain ⟨v, r', hrun, hv, hbits, ht⟩ := readBits_spec hn r hw (by simp [hp])
  rw [hp, List.take_left' (toBits_length n x)] at hbits
  have hvx := toBits_inj n _ _ hbits
  rw [Nat.mod_eq_of_lt hv, Nat.mod_eq_of_lt hx] at hvx
  refine ⟨r', by rw [hrun, hvx], by rwa [toBits_length], ?_⟩
  rw [ht.pending, hp, List.drop_left' (toBits_length n x)]

section
variable {α β : Type}

/-- One read after another takes the bits of both. -/
theorem Reader.Reads.bind {op : Reader → Res Reader α} {bits bits' : List Bool} {v : α} {w : β}
    {k : α → Reader → Res Reader β} (h : Reader.Reads op bits v) (hk : Reader.Reads (k v) bits' w) :
    Reader.Reads (fun r => (op r).bind k) (bits ++ bits') w := by
  intro r rest hw hp
  rw [List.append_assoc] at hp
  obtain ⟨r₁, hrun₁, ht₁, hp₁⟩ := h r _ hw hp
  obtain ⟨r₂, hrun₂, ht₂, hp₂⟩ := hk r₁ rest ht₁.wf hp₁
  refine ⟨r₂, by simp only [hrun₁, Res.bind_ok, hrun₂], ?_, hp₂⟩
  rw [List.length_append]
  exact Reader.takenTo_add ht₁ ht₂

theorem onReader_of_ok {op : Reader → Res Reader α} {s : State} {v : α} {r : Reader} (h : op s.rd = .ok v r) :
    onReader op s = .ok v { s with rd := r } := by
  rw [onReader, h, Res.lift_ok]

theorem onReader_of_raised {op : Reader → Res Reader α} {s : State} {e : Err} {r : Reader}
    (h : op s.rd = .raised e r) : onReader op s = .raised e { s with rd := r } := by
  rw [onReader, h, Res.lift_raised]

/-- A step of the state machine whose state `fsm` holds runs its body. -/
theorem stepOf_of_fsm {f : Fsm} {s : State} (h : s.fsm = f) (body : State → Res State Unit) :
    stepOf f body s = finish (body s) :=
  if_pos h

theorem finish_of_raised {r : Res State Unit} {e : Err} {s : State} (h : r = .raised e s) :
    finish r = .next (takeError e s) := by
  rw [h, finish]

theorem finish_of_ok {r : Res State Unit} {s : State} (h : r = .ok () s) : finish r = .next s := by
  rw [h, finish]

end

/-! ### The stream header (R302) -/

theorem bitsOfBytes_singleton (x : Byte) : bitsOfBytes [x] = toBits 8 x.toNat := by
  rw [bitsOfBytes_cons]
  exact List.append_nil _

/-- A byte that stands at the head of the bits to come. -/
theorem readBits_reads_byte (x : Byte) : Reader.Reads (readBits 8) (bitsOfBytes [x]) x.toNat := by
  rw [bitsOfBytes_singleton]
  exact readBits_reads (by decide) x.isLt

/-- Expected bytes are read one after another. -/
theorem readStreamMagic_of_match (magic : List Byte) {s : State} {rest : List Bool} (hw : s.rd.wf = true)
    (hp : s.rd.pending = bitsOfBytes magic ++ rest) :
    ∃ r, readStreamMagic magic s = .ok () { s with rd := r } ∧ s.rd.TakenTo (8 * magic.length) r ∧
      r.pending = rest := by
  induction magic generalizing s with
  | nil => exact ⟨s.rd, rfl, Reader.takenTo_zero hw, hp⟩
  | cons e magic ih =>
    rw [bitsOfBytes_cons, List.append_assoc, ← bitsOfBytes_singleton] at hp
    obtain ⟨r₁, hrun₁, ht₁, hp₁⟩ := readBits_reads_byte e s.rd _ hw hp
    obtain ⟨r₂, hrun₂, ht₂, hp₂⟩ := ih (s := { s with rd := r₁ }) ht₁.wf hp₁
    refine ⟨r₂, ?_, ?_, hp₂⟩
    · simp only [readStreamMagic, onReader_of_ok hrun₁, Res.bind_ok, ne_eq, not_true_eq_false, if_false, hrun₂]
    · rw [List.length_cons, Nat.mul_succ, Nat.add_comm]
      exact Reader.takenTo_add ht₁ ht₂

/-- A byte other than the one expected raises as soon as it is read. -/
theorem readStreamMagic_of_mismatch (magic : List Byte) {e x : Byte} (hx : x ≠ e) (more : List Byte) {s : State}
    {rest : List Bool} (hw : s.rd.wf = true) (hp : s.rd.pending = bitsOfBytes (magic ++ [x]) ++ rest) :
    ∃ r, readStreamMagic (magic ++ e :: more) s = .raised .badStreamMagic { s with rd := r } ∧
      s.rd.TakenTo (8 * (magic.length + 1)) r := by
  induction magic generalizing s with
  | nil =>
    obtain ⟨r, hrun, ht, -⟩ := readBits_reads_byte x s.rd rest hw hp
    have hne : x.toNat ≠ e.toNat := fun h => hx (BitVec.eq_of_toNat_eq h)
    refine ⟨r, ?_, ht⟩
    simp only [List.nil_append, readStreamMagic, onReader_of_ok hrun, Res.bind_ok, if_pos hne]
  | cons y magic ih =>
    rw [List.cons_append, bitsOfBytes_cons, List.append_assoc, ← bitsOfBytes_singleton] at hp
    obtain ⟨r₁, hrun₁, ht₁, hp₁⟩ := readBits_reads_byte y s.rd _ hw hp
    obtain ⟨r₂, hrun₂, ht₂⟩ := ih (s := { s with rd := r₁ }) ht₁.wf hp₁
    refine ⟨r₂, ?_, ?_⟩
    · simp only [List.cons_append, readStreamMagic, onReader_of_ok hrun₁, Res.bind_ok, ne_eq, not_true_eq_false,
        if_false, hrun₂]
    · rw [List.length_cons, show 8 * (magic.length + 1 + 1) = 8 + 8 * (magic.length + 1) by omega]
      exact Reader.takenTo_add ht₁ ht₂

/-- The three fixed bytes and any fourth: the fourth is the digit. -/
theorem readStreamHeader_of_magic {x : Byte} {s : State} {rest : List Bool} (hw : s.rd.wf = true)
    (hp : s.rd.pending = bitsOfBytes [0x42, 0x5A, 0x68, x] ++ rest) :
    ∃ r, readStreamHeader s =
        (if x.toNat < 0x31 ∨ 0x39 < x.toNat then .raised .badBlockSizeDigit { s with rd := r }
        else elemStreamHeader (BitVec.ofNat 4 (x.toNat - 0x30)) { s with rd := r }) ∧
      s.rd.TakenTo 32 r := by
  have hsplit : s.rd.pending = bitsOfBytes Config.streamMagic ++ (bitsOfBytes [x] ++ rest) := by
    rw [hp, ← List.append_assoc, ← bitsOfBytes_append]
    rfl
  obtain ⟨r₁, hrun₁, ht₁, hp₁⟩ := readStreamMagic_of_match _ hw hsplit
  obtain ⟨r₂, hrun₂, ht₂, -⟩ := readBits_reads_byte x r₁ rest ht₁.wf hp₁
  refine ⟨r₂, ?_, Reader.takenTo_add ht₁ ht₂⟩
  rw [readStreamHeader, hrun₁, Res.bind_ok, onReader_of_ok (s := { s with rd := r₁ }) hrun₂, Res.bind_ok]

theorem exec_stepStreamHeader_of_fsm {s : State} (hf : s.fsm = .streamHeader) :
    exec .stepStreamHeader s = finish (readStreamHeader { s with pos := .streamHeader }) :=
  stepOf_of_fsm hf fun s => readElement { s with pos := .streamHeader }

/-- Settles O41: the header's bytes one after another, the digit by cases on its range. -/
theorem streamHeaderStep : Obligations.StreamHeaderStep := by
  intro s rest hf hw
  rw [exec_stepStreamHeader_of_fsm hf]
  refine ⟨fun d h1 h9 hp => ?_, fun k x hk hx hp => ?_, fun x hx hp => ?_⟩
  · obtain ⟨r, hrun, ht⟩ := readStreamHeader_of_magic (s := { s with pos := .streamHeader }) hw hp
    have hdigit : (BitVec.ofNat 8 (0x30 + d.toNat)).toNat = 0x30 + d.toNat := by
      rw [BitVec.toNat_ofNat]
      omega
    rw [hdigit, if_neg (by omega), Nat.add_sub_cancel_left, BitVec.ofNat_toNat, BitVec.setWidth_eq,
      elemStreamHeader_of_legal ⟨h1, h9⟩] at hrun
    exact ⟨r, finish_of_ok hrun, ht⟩
  · have hk' : k < Config.streamMagic.length := hk
    have hmagic : Config.streamMagic = Config.streamMagic.take k ++ Config.streamMagic.getD k 0 ::
        Config.streamMagic.drop (k + 1) := by
      rw [List.getD_eq_getElem _ _ hk', List.getElem_cons_drop, List.take_append_drop]
    obtain ⟨r, hrun, ht⟩ := readStreamMagic_of_mismatch (Config.streamMagic.take k)
      (e := Config.streamMagic.getD k 0) hx (Config.streamMagic.drop (k + 1))
      (s := { s with pos := .streamHeader }) hw hp
    rw [List.length_take, Nat.min_eq_left hk'.le] at ht
    refine ⟨r, finish_of_raised ?_, ht⟩
    rw [readStreamHeader, hmagic, hrun, Res.bind_raised]
  · obtain ⟨r, hrun, ht⟩ := readStreamHeader_of_magic (s := { s with pos := .streamHeader }) hw hp
    rw [if_pos hx] at hrun
    exact ⟨r, finish_of_raised hrun, ht⟩

/-! ### The magics (R231) -/

/-- 48 bits read as two halves. -/
theorem readMagic_of_pending {m : BitVec 48} {s : State} {rest : List Bool} (hw : s.rd.wf = true)
    (hp : s.rd.pending = toBits 48 m.toNat ++ rest) :
    ∃ r, s.rd.TakenTo 48 r ∧ readMagic s =
      if m.toNat = Config.eosMagic then elemEosMagic { s with rd := r }
      else if m.toNat = Config.blockMagic then elemBlockMagic { s with rd := r }
      else .raised .corruptBlockHeader { s with rd := r } := by
  have hm := m.isLt
  have hsplit : toBits 48 m.toNat = toBits 24 (m.toNat / 2 ^ 24) ++ toBits 24 (m.toNat % 2 ^ 24) := by
    rw [toBits_mod]
    exact toBits_add 24 24 _
  rw [hsplit, List.append_assoc] at hp
  obtain ⟨r₁, hrun₁, ht₁, hp₁⟩ := readBits_reads (by decide) (by omega) s.rd _ hw hp
  obtain ⟨r₂, hrun₂, ht₂, -⟩ := readBits_reads (by decide) (Nat.mod_lt _ (by decide)) r₁ rest ht₁.wf hp₁
  refine ⟨r₂, Reader.takenTo_add ht₁ ht₂, ?_⟩
  rw [readMagic, onReader_of_ok hrun₁, Res.bind_ok, onReader_of_ok (s := { s with rd := r₁ }) hrun₂, Res.bind_ok,
    Nat.div_add_mod']

/-- Settles O42: the two halves are read as one number, then by cases on the two magics. -/
theorem headerStep : Obligations.HeaderStep := by
  intro s m rest hf hw hp
  obtain ⟨r, ht, hrun⟩ := readMagic_of_pending (s := { s with pos := .magic }) hw hp
  refine ⟨r, ht, ?_⟩
  have hstep : exec .stepHeader s = finish (readMagic { s with pos := .magic }) :=
    stepOf_of_fsm hf fun s => readElement { s with pos := .magic }
  have heos : m.toNat = Config.eosMagic ↔ m = 0x177245385090 := BitVec.toNat_inj (y := 0x177245385090)
  have hblock : m.toNat = Config.blockMagic ↔ m = 0x314159265359 := BitVec.toNat_inj (y := 0x314159265359)
  simp only [heos, hblock] at hrun
  rw [hstep, hrun]
  by_cases h₁ : m = 0x177245385090
  · rw [if_pos h₁, if_pos h₁]
    rfl
  · rw [if_neg h₁, if_neg h₁]
    by_cases h₂ : m = 0x314159265359
    · rw [if_pos h₂, if_pos h₂]
      rfl
    · rw [if_neg h₂, if_neg h₂]
      rfl

end Sys2Proof.Machine
end

section
/-! PROOFS. The MTF/RLE2 stage gives back what MTF_ENCODE was given (spec/43_mtf_rle2.md R218, R219). -/

namespace Sys2Proof.Machine

/-! ### What the stage has written -/

/-- The stage has written the bytes `done` to the block buffer, and has a place for the count of every byte value. -/
structure MtfStage.Wrote (done : List Byte) (m : MtfStage) : Prop where
  count : m.nblock.toNat = done.length
  bytes : ∀ i, i < done.length → memGet m.ll i = done[i]?
  freq : m.freq.length = 256

theorem stageInit_wrote (m : MtfStage) : (stageInit m).Wrote [] := ⟨rfl, nofun, List.length_replicate⟩

section
variable {done : List Byte} {m : MtfStage} (hm : m.Wrote done) {n : Nat}
include hm

/-- A run written to the block buffer follows what was written before. -/
theorem MtfStage.Wrote.push (b : Byte) (hn : done.length + n < 2 ^ 20) :
    (pushBytes b n m).Wrote (done ++ List.replicate n b) := by
  obtain ⟨hcount, hread⟩ := pushBytes_spec b n m (by rw [hm.count]; exact hn)
  refine ⟨by rw [hcount, hm.count, List.length_append, List.length_replicate], fun i hi => ?_, ?_⟩
  · rw [hread, hm.count]
    rw [List.length_append, List.length_replicate] at hi
    by_cases hlt : i < done.length
    · rw [if_neg (by omega), hm.bytes i hlt, List.getElem?_append_left hlt]
    · rw [if_pos (by omega), List.getElem?_append_right (by omega), List.getElem?_replicate, if_pos (by omega)]
  · rw [pushBytes_frame]
    exact hm.freq

/-- Every byte value can be counted. -/
theorem MtfStage.Wrote.countBytes_ok (b : Byte) (n : Nat) :
    ∃ freq, countBytes b n m = .ok () { m with freq := freq } ∧ freq.length = 256 := by
  have hb : b.toNat < m.freq.length := by
    rw [hm.freq]
    exact b.isLt
  exact ⟨_, Machine.countBytes_ok (List.getElem?_eq_getElem hb), by rw [List.length_set, hm.freq]⟩

/-- A run end writes the pending run of the byte at rank 0. -/
theorem MtfStage.Wrote.runEnd {capacity : Nat} {seq : List Byte} {v b : Byte} (hv : m.mtf[0]? = some v)
    (hb : seq[v.toNat]? = some b) (hs : m.runS.toNat = n) (hroom : done.length + n ≤ capacity)
    (hcap : capacity < 2 ^ 20) :
    ∃ m', runEnd capacity seq m = .ok () m' ∧ m'.Wrote (done ++ List.replicate n b) ∧ m'.mtf = m.mtf ∧ m'.runS = 0 ∧
      m'.runK = 0 := by
  subst hs
  by_cases h0 : m.runS.toNat = 0
  · refine ⟨_, runEnd_of_zero h0, ?_, rfl, rfl, rfl⟩
    rw [h0, List.replicate_zero, List.append_nil]
    exact ⟨hm.count, hm.bytes, hm.freq⟩
  · have hbf : b.toNat < m.freq.length := by
      rw [hm.freq]
      exact b.isLt
    have hpush := hm.push b (show done.length + m.runS.toNat < 2 ^ 20 by omega)
    refine ⟨_, runEnd_of_fits h0 hv hb (List.getElem?_eq_getElem hbf) (by rw [hm.count]; exact hroom),
      ⟨hpush.count, hpush.bytes, by rw [List.length_set, hm.freq]⟩, ?_, rfl, rfl⟩
    rw [pushBytes_frame]

/-- A rank symbol writes the byte at its rank, which moves to the front. -/
theorem MtfStage.Wrote.rankSymbol {capacity : Nat} {seq : List Byte} {sym : Nat} {v b : Byte}
    (hv : m.mtf[sym - 1]? = some v) (hb : seq[v.toNat]? = some b) (hroom : done.length < capacity)
    (hcap : capacity < 2 ^ 20) :
    ∃ m', rankSymbol capacity seq sym m = .ok () m' ∧ m'.Wrote (done ++ [b]) ∧
      m'.mtf = v :: m.mtf.eraseIdx (sym - 1) ∧ m'.runS = m.runS ∧ m'.runK = m.runK := by
  have hmoved : MtfStage.Wrote done { m with mtf := v :: m.mtf.eraseIdx (sym - 1) } := ⟨hm.count, hm.bytes, hm.freq⟩
  have hpush := hmoved.push (n := 1) b (by omega)
  obtain ⟨freq, hcount, hlen⟩ := hpush.countBytes_ok b 1
  refine ⟨{ pushBytes b 1 { m with mtf := v :: m.mtf.eraseIdx (sym - 1) } with freq := freq }, ?_,
    ⟨hpush.count, hpush.bytes, hlen⟩, ?_⟩
  · simp only [Machine.rankSymbol, entry, moveToFront_some hv, hb, Res.bind_ok, hm.count,
      if_neg (Nat.not_le.2 hroom), hcount]
  · rw [pushBytes_frame]
    exact ⟨rfl, rfl, rfl⟩

end

/-! ### The digits of a run (R211, R218) -/

theorem stageRun_append (capacity : Nat) (map : SymbolMap) (xs ys : List Nat) (m : MtfStage) :
    stageRun capacity map (xs ++ ys) m = (stageRun capacity map xs m).bind fun _ m' => stageRun capacity map ys m' := by
  induction xs generalizing m with
  | nil => rfl
  | cons x xs ih =>
    simp only [List.cons_append, stageRun]
    cases stageSymbol capacity map x m with
    | ok _ m' => exact ih m'
    | raised e m' => rfl
    | fault f => rfl
    | refused q => rfl

/-- A run digit that does not saturate. -/
theorem stageSymbol_digit {capacity : Nat} (map : SymbolMap) {sym a j : Nat} {m : MtfStage} (hsym : sym ≤ 1)
    (ha : m.runS.toNat = a) (hj : m.runK.toNat = j) (hroom : a + (sym + 1) * 2 ^ j ≤ capacity)
    (hcap : capacity < 2 ^ 20) :
    ∃ m', stageSymbol capacity map sym m = .ok () m' ∧ m' = { m with runS := m'.runS, runK := m'.runK } ∧
      m'.runS.toNat = a + (sym + 1) * 2 ^ j ∧ m'.runK.toNat = j + 1 := by
  subst ha hj
  have hj : m.runK.toNat < 20 := by
    by_contra hge
    have hpow : 2 ^ 20 ≤ 2 ^ m.runK.toNat := Nat.pow_le_pow_right (by decide) (by omega)
    have hmul : 2 ^ m.runK.toNat ≤ (sym + 1) * 2 ^ m.runK.toNat := Nat.le_mul_of_pos_left _ (Nat.succ_pos sym)
    omega
  refine ⟨_, if_pos hsym, rfl, ?_, ?_⟩
  · simp only [runDigit, BitVec.toNat_ofNat]
    omega
  · simp only [runDigit, BitVec.toNat_ofNat]
    omega

/-- The digits of `n`, given to the stage, add `n` to the pending run. -/
theorem stageRun_runDigits {capacity : Nat} (hcap : capacity < 2 ^ 20) (map : SymbolMap) (k : Nat) {n a j : Nat}
    {m : MtfStage} (hk : n ≤ k) (ha : m.runS.toNat = a) (hj : m.runK.toNat = j) (hroom : a + n * 2 ^ j ≤ capacity) :
    ∃ m', stageRun capacity map (runDigits k n) m = .ok () m' ∧ m' = { m with runS := m'.runS, runK := m'.runK } ∧
      m'.runS.toNat = a + n * 2 ^ j := by
  induction k generalizing n a j m with
  | zero =>
    obtain rfl : n = 0 := by omega
    exact ⟨m, rfl, rfl, by rw [ha, Nat.zero_mul, Nat.add_zero]⟩
  | succ k ih =>
    by_cases h0 : n = 0
    · subst h0
      refine ⟨m, ?_, rfl, by rw [ha, Nat.zero_mul, Nat.add_zero]⟩
      rw [runDigits, if_pos rfl]
      rfl
    · obtain ⟨sym, rest, hsym, hdigits, hn⟩ :
          ∃ sym rest, sym ≤ 1 ∧ runDigits (k + 1) n = sym :: runDigits k rest ∧ n = sym + 1 + 2 * rest := by
        by_cases hodd : n % 2 = 1
        · exact ⟨0, (n - 1) / 2, by decide, by rw [runDigits, if_neg h0, if_pos hodd], by omega⟩
        · exact ⟨1, (n - 2) / 2, by decide, by rw [runDigits, if_neg h0, if_neg hodd], by omega⟩
      have hsplit : a + n * 2 ^ j = a + (sym + 1) * 2 ^ j + rest * 2 ^ (j + 1) := by
        rw [hn, Nat.pow_succ]
        ring
      rw [hsplit] at hroom ⊢
      obtain ⟨m₁, hrun₁, hm₁, ha₁, hj₁⟩ := stageSymbol_digit map hsym ha hj (by omega) hcap
      obtain ⟨m₂, hrun₂, hm₂, ha₂⟩ := ih (by omega) ha₁ hj₁ hroom
      refine ⟨m₂, by rw [hdigits, stageRun, hrun₁, Res.bind_ok, hrun₂], ?_, ha₂⟩
      rw [hm₂, hm₁]

/-! ### The whole loop -/

theorem exists_idxOf? {α : Type} [DecidableEq α] {a : α} {l : List α} (h : a ∈ l) :
    ∃ i, l.idxOf? a = some i ∧ l[i]? = some a := by
  obtain ⟨i, hi⟩ := Option.isSome_iff_exists.1 (List.isSome_idxOf?.2 h)
  obtain ⟨hlt, ha, -⟩ := List.idxOf?_eq_some_iff.1 hi
  exact ⟨i, hi, List.getElem?_eq_some_iff.2 ⟨hlt, ha⟩⟩

/-- The stage stands where the encoder does: its rank table begins with the encoder's rank list, and it has no pending
run (R45, R218). -/
structure MtfStage.Follows (ranks : List Nat) (m : MtfStage) : Prop where
  mtf : ∃ tail, m.mtf = ranks.map (BitVec.ofNat 8) ++ tail
  runS : m.runS = 0
  runK : m.runK = 0

/-- The byte at a rank of the encoder's list is at that rank of the stage. -/
theorem MtfStage.Follows.getElem? {ranks : List Nat} {m : MtfStage} (h : m.Follows ranks) {j idx : Nat}
    (hj : ranks[j]? = some idx) : m.mtf[j]? = some (BitVec.ofNat 8 idx) := by
  obtain ⟨tail, hmtf⟩ := h.mtf
  obtain ⟨hlt, rfl⟩ := List.getElem?_eq_some_iff.1 hj
  rw [hmtf, List.getElem?_append_left (by rwa [List.length_map]), List.getElem?_map, hj, Option.map_some]

/-- The first ranks of the stage are those of the encoder (R45). -/
theorem stageInit_follows {n : Nat} (hn : n ≤ 256) (m : MtfStage) : (stageInit m).Follows (List.range n) := by
  have hsplit : List.range 256 = List.range n ++ (List.range (256 - n)).map (n + ·) := by
    rw [← List.range_add, Nat.add_sub_cancel' hn]
  exact ⟨⟨_, by rw [stageInit, identityRanks, hsplit, List.map_append]⟩, rfl, rfl⟩

section
variable {inUse : List Byte} {capacity : Nat} {map : SymbolMap} (hn : inUse.length ≤ 256) (hcap : capacity < 2 ^ 20)
  (hseq : map.seqToUnseq = inUse) (heob : map.eob.toNat = inUse.length + 1)
include hn hcap hseq

/-- The digits of a pending run and then the run end: the run of the byte at rank 0 is written. -/
theorem stageRun_run {ranks : List Nat} {done : List Byte} {m : MtfStage} (hm : m.Wrote done)
    (hf : m.Follows ranks) {idx : Nat} {b : Byte} (hidx : ranks[0]? = some idx) (hb : inUse[idx]? = some b) {n : Nat}
    (hroom : done.length + n ≤ capacity) :
    ∃ m₁ m₂, stageRun capacity map (runDigits n n) m = .ok () m₁ ∧
      runEnd capacity map.seqToUnseq m₁ = .ok () m₂ ∧ m₂.Wrote (done ++ List.replicate n b) ∧ m₂.Follows ranks := by
  have hlt : idx < inUse.length := (List.getElem?_eq_some_iff.1 hb).1
  have hv : (BitVec.ofNat 8 idx).toNat = idx := by
    rw [BitVec.toNat_ofNat]
    omega
  obtain ⟨m₁, hrun₁, hm₁, hn₁⟩ := stageRun_runDigits hcap map n (Nat.le_refl n) (a := 0) (j := 0)
    (by rw [hf.runS]; rfl) (by rw [hf.runK]; rfl) (by omega)
  have hw₁ : m₁.Wrote done := by
    rw [hm₁]
    exact ⟨hm.count, hm.bytes, hm.freq⟩
  have hmtf₁ : m₁.mtf = m.mtf := by rw [hm₁]
  obtain ⟨m₂, hrun₂, hw₂, hmtf₂, hs₂, hk₂⟩ := hw₁.runEnd (seq := map.seqToUnseq)
    (by rw [hmtf₁]; exact hf.getElem? hidx) (by rw [hv, hseq]; exact hb) (by rw [hn₁]; omega) hroom hcap
  refine ⟨m₁, m₂, hrun₁, hrun₂, hw₂, ?_, hs₂, hk₂⟩
  rw [hmtf₂, hmtf₁]
  exact hf.mtf

/-- The rank symbol of a byte: the byte is written and moves to the front. -/
theorem rankSymbol_of_follows {ranks : List Nat} {done : List Byte} {m : MtfStage} (hm : m.Wrote done)
    (hf : m.Follows ranks) {idx j : Nat} {b : Byte} (hj : ranks[j]? = some idx) (hb : inUse[idx]? = some b)
    (hroom : done.length < capacity) :
    ∃ m', rankSymbol capacity map.seqToUnseq (j + 1) m = .ok () m' ∧ m'.Wrote (done ++ [b]) ∧
      m'.Follows (idx :: ranks.eraseIdx j) := by
  have hlt : idx < inUse.length := (List.getElem?_eq_some_iff.1 hb).1
  have hv : (BitVec.ofNat 8 idx).toNat = idx := by
    rw [BitVec.toNat_ofNat]
    omega
  obtain ⟨m', hrun, hw, hmtf, hs, hk⟩ := hm.rankSymbol (sym := j + 1) (seq := map.seqToUnseq) (hf.getElem? hj)
    (by rw [hv, hseq]; exact hb) hroom hcap
  refine ⟨m', hrun, hw, ?_, hs.trans hf.runS, hk.trans hf.runK⟩
  obtain ⟨tail, htail⟩ := hf.mtf
  have hjlt : j < (ranks.map (BitVec.ofNat 8)).length := by
    rw [List.length_map]
    exact (List.getElem?_eq_some_iff.1 hj).1
  exact ⟨tail, by rw [hmtf, Nat.add_sub_cancel, htail, List.eraseIdx_append_of_lt_length hjlt, List.eraseIdx_map,
    List.map_cons, List.cons_append]⟩

include heob

/-- What the encoder makes of bytes, the stage gives back. -/
theorem stageRun_mtfEncodeLoop {rest : List Byte} (hrest : ∀ b ∈ rest, b ∈ inUse) {ranks : List Nat}
    (hranks : ranks.Perm (List.range inUse.length)) {idx₀ : Nat} {b₀ : Byte} (hidx₀ : ranks[0]? = some idx₀)
    (hb₀ : inUse[idx₀]? = some b₀) {zrun : Nat} {done : List Byte} {m : MtfStage} (hm : m.Wrote done)
    (hf : m.Follows ranks) (hroom : done.length + zrun + rest.length ≤ capacity) :
    ∃ syms m', mtfEncodeLoop inUse rest ranks zrun = some syms ∧ stageRun capacity map syms m = .ok () m' ∧
      m'.Wrote (done ++ List.replicate zrun b₀ ++ rest) := by
  have hpos : idx₀ < inUse.length := (List.getElem?_eq_some_iff.1 hb₀).1
  induction rest generalizing ranks idx₀ b₀ zrun done m with
  | nil =>
    obtain ⟨m₁, m₂, hrun₁, hrun₂, hw, -⟩ := stageRun_run hn hcap hseq hm hf hidx₀ hb₀ (n := zrun) hroom
    refine ⟨_, m₂, rfl, ?_, by rwa [List.append_nil]⟩
    have heob' : stageSymbol capacity map (inUse.length + 1) m₁ = .ok () m₂ := by
      rw [stageSymbol, if_neg (by omega), if_pos heob.ge, hrun₂, Res.bind_ok, if_pos heob.symm]
    rw [stageRun_append, hrun₁, Res.bind_ok, stageRun, heob']
    rfl
  | cons b rest ih =>
    obtain ⟨hbmem, hmore⟩ := List.forall_mem_cons.1 hrest
    rw [List.length_cons] at hroom
    obtain ⟨idx, hidx, hb⟩ := exists_idxOf? hbmem
    have hlt : idx < inUse.length := (List.getElem?_eq_some_iff.1 hb).1
    obtain ⟨j, hj, hranksj⟩ := exists_idxOf? (hranks.mem_iff.2 (List.mem_range.2 hlt))
    obtain ⟨hjlt, hjval⟩ := List.getElem?_eq_some_iff.1 hranksj
    cases j with
    | zero =>
      obtain rfl : idx₀ = idx := Option.some.inj (hidx₀.symm.trans hranksj)
      obtain rfl : b₀ = b := Option.some.inj (hb₀.symm.trans hb)
      obtain ⟨syms, m', henc, hrun, hw⟩ := ih hmore hranks hidx₀ hb₀ (zrun := zrun + 1) hm hf (by omega) hpos
      refine ⟨syms, m', by simp only [mtfEncodeLoop, hidx, hj, henc], hrun, ?_⟩
      rw [List.replicate_succ', ← List.append_assoc, List.append_assoc] at hw
      exact hw
    | succ j =>
      have hperm : (idx :: ranks.eraseIdx (j + 1)).Perm (List.range inUse.length) := by
        rw [← hjval]
        exact (List.getElem_cons_eraseIdx_perm hjlt).trans hranks
      have hjn : j + 1 < inUse.length := by
        have hlen := hranks.length_eq
        rw [List.length_range] at hlen
        omega
      obtain ⟨m₁, m₂, hrun₁, hrun₂, hw₂, hf₂⟩ := stageRun_run hn hcap hseq hm hf hidx₀ hb₀ (n := zrun) (by omega)
      obtain ⟨m₃, hrun₃, hw₃, hf₃⟩ := rankSymbol_of_follows hn hcap hseq hw₂ hf₂ hranksj hb
        (by rw [List.length_append, List.length_replicate]; omega)
      obtain ⟨syms, m', henc, hrun, hw⟩ := ih hmore hperm rfl hb (zrun := 0) hw₃ hf₃
        (by simp only [List.length_append, List.length_replicate, List.length_singleton]; omega) hlt
      have hrank : stageSymbol capacity map (j + 2) m₁ = .ok () m₃ := by
        rw [stageSymbol, if_neg (by omega), if_pos (by omega), hrun₂, Res.bind_ok, if_neg (by omega), hrun₃]
      refine ⟨runDigits zrun zrun ++ (j + 2) :: syms, m', by simp only [mtfEncodeLoop, hidx, hj, henc], ?_, ?_⟩
      · rw [stageRun_append, hrun₁, Res.bind_ok, stageRun, hrank, Res.bind_ok, hrun]
      · rw [List.replicate_zero, List.append_nil, List.append_assoc, List.singleton_append] at hw
        exact hw

end

/-! ### The round trip -/

theorem blockBytes_of_memGet {ll : Memory} {bytes : List Byte} (n i : Nat) (hi : i + n = bytes.length)
    (h : ∀ k, k < bytes.length → memGet ll k = bytes[k]?) : blockBytes ll n i = some (bytes.drop i) := by
  induction n generalizing i with
  | zero => rw [blockBytes, List.drop_of_length_le (by omega)]
  | succ n ih =>
    have hlt : i < bytes.length := by omega
    simp only [blockBytes, h i hlt, List.getElem?_eq_getElem hlt, ih (i + 1) (by omega)]
    rw [List.drop_eq_getElem_cons hlt]

/-- An ascending list has each byte value once at most. -/
theorem ascending_pairwise {l : List Byte} (h : ascending l = true) : l.Pairwise fun a b => a.toNat < b.toNat := by
  induction l with
  | nil => exact .nil
  | cons a rest ih =>
    cases rest with
    | nil => exact List.pairwise_singleton _ a
    | cons b rest =>
      simp only [ascending, Bool.and_eq_true, decide_eq_true_eq] at h
      obtain ⟨hab, hrest⟩ := h
      have hpair := ih hrest
      refine List.pairwise_cons.2 ⟨List.forall_mem_cons.2 ⟨hab, fun c hc => ?_⟩, hpair⟩
      exact hab.trans ((List.pairwise_cons.1 hpair).1 c hc)

theorem ascending_length_le {l : List Byte} (h : ascending l = true) : l.length ≤ 256 := by
  have hnodup : (l.map BitVec.toNat).Nodup := (List.pairwise_map.2 (ascending_pairwise h)).imp Nat.ne_of_lt
  have hsub : l.map BitVec.toNat ⊆ List.range 256 := by
    intro x hx
    obtain ⟨b, -, rfl⟩ := List.mem_map.1 hx
    exact List.mem_range.2 b.isLt
  have hlen := (List.subperm_of_subset hnodup hsub).length_le
  rwa [List.length_map, List.length_range] at hlen

/-- Settles O35: the stage follows the encoder's loop, by induction on the bytes. -/
theorem mtfRoundTrip : Obligations.MtfRoundTrip := by
  intro bytes inUse capacity map m s hlegal hroom hcap hseq heob
  have h := hlegal
  simp only [mtfOperandsLegal, Bool.and_eq_true, decide_eq_true_eq, List.all_eq_true, List.contains_iff_mem] at h
  obtain ⟨⟨⟨⟨hpos, -⟩, hasc⟩, hbytes⟩, -⟩ := h
  have hn : inUse.length ≤ 256 := ascending_length_le hasc
  have hne : 0 < inUse.length := by
    obtain ⟨b, hb⟩ := List.exists_mem_of_length_pos hpos
    exact List.length_pos_of_mem (hbytes b hb)
  have hcap' : capacity < 2 ^ 20 := by omega
  obtain ⟨syms, m', henc, hrun, hw⟩ := stageRun_mtfEncodeLoop hn hcap' hseq heob hbytes (.refl _)
    (List.getElem?_range hne) (List.getElem?_eq_getElem hne) (zrun := 0) (stageInit_wrote m) (stageInit_follows hn m)
    (by simpa using hroom)
  rw [List.replicate_zero, List.append_nil, List.nil_append] at hw
  refine ⟨syms, m', ?_, hrun, hw.count, ?_⟩
  · simp only [exec, execMtfEncode, mtfEncode, if_pos hlegal, henc, finishRet]
  · rw [blockBytes_of_memGet _ 0 (Nat.zero_add _) hw.bytes, List.drop_zero]

end Sys2Proof.Machine
end

section
/-! PROOFS. Reading past the end of the bits to come (spec/40_bit_channel.md R140): a source that ends raises, one that
never answers hangs. -/

namespace Sys2Proof.Machine

/-- `o` is a read that took `k` of the bits to come and then wanted more than there are (R140, R359; log 17). -/
structure Reader.PastEnd {α : Type} (k : Nat) (r : Reader) (o : Res Reader α) : Prop where
  ends : r.finite = true → ∃ r', o = .raised .unexpectedEndOfData r' ∧ r.EndedAfter k r'
  hangs : r.after = some .silent → o = .fault .fetchHangs

section
variable {α β : Type} {k : Nat} {r : Reader}

theorem Reader.PastEnd.bind {o : Res Reader α} (h : r.PastEnd k o) (f : α → Reader → Res Reader β) :
    r.PastEnd k (o.bind f) where
  ends hf := by
    obtain ⟨r', ho, he⟩ := h.ends hf
    exact ⟨r', by rw [ho, Res.bind_raised], he⟩
  hangs hs := by rw [h.hangs hs, Res.bind_fault]

/-- The bits taken before the failing read stay taken. -/
theorem Reader.TakenTo.endedAfter {m : Nat} {r₁ r₂ : Reader} (h : r.TakenTo m r₁) (hm : m ≤ r.pending.length)
    (h' : r₁.EndedAfter k r₂) : r.EndedAfter (m + k) r₂ := by
  obtain ⟨hp, hlive, hin, -, -, hafter⟩ := h
  obtain ⟨hp', hlive', hin', hend', hw', hafter'⟩ := h'
  have hlen := congrArg List.length hp
  rw [List.length_drop] at hlen
  have hsrc := r₁.pending_length
  have hcount : (r.pending.length - r.live.toNat) / 8 =
      r.fetches m + (r₁.pending.length - r₁.live.toNat) / 8 := by omega
  refine ⟨by rw [hp', hp, List.drop_drop], hlive', ?_, hend', hw', hafter'.trans hafter⟩
  rw [hin', hin, hcount, BitVec.ofNat_add]
  ac_rfl

theorem Reader.TakenTo.pastEnd {m : Nat} {r₁ : Reader} (h : r.TakenTo m r₁) (hm : m ≤ r.pending.length)
    {o : Res Reader α} (h' : r₁.PastEnd k o) : r.PastEnd (m + k) o := by
  have hafter : r₁.after = r.after := h.2.2.2.2.2
  refine ⟨fun hf => ?_, fun hs => h'.hangs (hafter.trans hs)⟩
  obtain ⟨r₂, ho, he⟩ := h'.ends (by rwa [Reader.finite, hafter])
  exact ⟨r₂, ho, h.endedAfter hm he⟩

end

/-- A byte that joins the accumulator is one of those fetched before the source's end. -/
theorem takeByte_endedAfter {r r' : Reader} {b : Byte} {bytes : List Byte} {after : SourceEnd} (hw : r.wf = true)
    (hlive : r.live.toNat < 24) (hs : r.src = some { bytes := b :: bytes, after := after })
    (h : (takeByte b { bytes := bytes, after := after } r).EndedAfter 0 r') : r.EndedAfter 0 r' := by
  obtain ⟨-, hl, hp⟩ := takeByte_spec hw hlive hs
  obtain ⟨hp', hlive', hin', hend', hw', hafter'⟩ := h
  rw [hp] at hp' hin'
  have hsrc : r.pending.length = r.live.toNat + 8 * (bytes.length + 1) := by
    rw [Reader.pending_length, Reader.sourceBits, hs, bitsOfBytes_length, List.length_cons]
  have hcount : (r.pending.length - r.live.toNat) / 8 = 1 +
      (r.pending.length - (takeByte b { bytes := bytes, after := after } r).live.toNat) / 8 := by omega
  refine ⟨hp', hlive', ?_, hend', hw', hafter'.trans ?_⟩
  · rw [hin', hcount, BitVec.ofNat_add, ← BitVec.add_assoc]
    rfl
  · simp [takeByte, Reader.after, hs]

theorem refill_pastEnd {n : Nat} (hn : n ≤ 24) (k : Nat) {r : Reader} (hw : r.wf = true)
    (hp : r.pending.length < n) (hk : n - r.live.toNat ≤ 8 * k) : r.PastEnd 0 (refill k n r) := by
  have hlen := r.pending_length
  induction k generalizing r with
  | zero => omega
  | succ k ih =>
    have hlive : r.live.toNat < n := by omega
    match hs : r.src with
    | none =>
      exact ⟨fun hf => by simp [Reader.finite, Reader.after, hs] at hf, fun h => by simp [Reader.after, hs] at h⟩
    | some { bytes := b :: bytes, after := after } =>
      obtain ⟨hw₁, hl₁, hp₁⟩ := takeByte_spec hw (by omega) hs
      have h := ih hw₁ (by rwa [hp₁]) (by omega) (Reader.pending_length _)
      have hafter : (takeByte b { bytes := bytes, after := after } r).after = r.after := by
        simp [takeByte, Reader.after, hs]
      have hfetch : fetchByte r = .byte b { bytes := bytes, after := after } := by simp only [fetchByte, hs]
      simp only [refill, if_pos hlive, hfetch]
      refine ⟨fun hf => ?_, fun hsilent => h.hangs (hafter.trans hsilent)⟩
      obtain ⟨r', ho, he⟩ := h.ends (by rwa [Reader.finite, hafter])
      exact ⟨r', ho, takeByte_endedAfter hw (by omega) hs he⟩
    | some { bytes := [], after := after } =>
      have hbits : r.pending.length = r.live.toNat := by
        rw [hlen, Reader.sourceBits, hs]
        rfl
      have hafter : r.after = some after := by rw [Reader.after, hs, Option.map_some]
      refine ⟨fun hf => ?_, fun hsilent => ?_⟩
      · obtain rfl : after = .ends := by simpa [Reader.finite, hafter] using hf
        have hfetch : fetchByte r = .ended := by simp only [fetchByte, hs]
        simp only [refill, if_pos hlive, hfetch]
        exact ⟨_, rfl, rfl, hbits.symm, by simp [hbits], rfl, hw, rfl⟩
      · obtain rfl : after = .silent := by simpa [hafter] using hsilent
        have hfetch : fetchByte r = .hangs := by simp only [fetchByte, hs]
        simp only [refill, if_pos hlive, hfetch]

theorem readBits_pastEnd {n : Nat} (hn : n ≤ 24) {r : Reader} (hw : r.wf = true) (hp : r.pending.length < n) :
    r.PastEnd 0 (readBits n r) := by
  have hrun : readBits n r = (refill n n r).bind fun _ r' => takeLive n r' := if_pos hn
  rw [hrun]
  exact (refill_pastEnd hn n hw hp (by omega)).bind _

end Sys2Proof.Machine
end

section
/-! PROOFS. Canonical codes (spec/42_huffman_tables.md R190 to R197): the rows of the length loop, the codewords, and a
group's decode tables by length. -/

namespace Sys2Proof

/-! ### Shortest and longest length -/

theorem minOf_le {lens : List Nat} {l : Nat} (h : l ∈ lens) : minOf lens ≤ l := by
  have hfold : ∀ (rest : List Nat) (a : Nat), rest.foldl min a ≤ a ∧ ∀ x ∈ rest, rest.foldl min a ≤ x := by
    intro rest
    induction rest with
    | nil => exact fun a => ⟨Nat.le_refl a, nofun⟩
    | cons x rest ih =>
      intro a
      obtain ⟨hle, hall⟩ := ih (min a x)
      exact ⟨hle.trans (Nat.min_le_left a x), List.forall_mem_cons.2 ⟨hle.trans (Nat.min_le_right a x), hall⟩⟩
  cases lens with
  | nil => cases h
  | cons a rest =>
    obtain ⟨hle, hall⟩ := hfold rest a
    obtain rfl | hrest := List.mem_cons.1 h
    · exact hle
    · exact hall l hrest

theorem le_maxOf {lens : List Nat} {l : Nat} (h : l ∈ lens) : l ≤ maxOf lens := by
  have hfold : ∀ (rest : List Nat) (a : Nat), a ≤ rest.foldl max a ∧ ∀ x ∈ rest, x ≤ rest.foldl max a := by
    intro rest
    induction rest with
    | nil => exact fun a => ⟨Nat.le_refl a, nofun⟩
    | cons x rest ih =>
      intro a
      obtain ⟨hle, hall⟩ := ih (max a x)
      exact ⟨(Nat.le_max_left a x).trans hle, List.forall_mem_cons.2 ⟨(Nat.le_max_right a x).trans hle, hall⟩⟩
  exact (hfold lens 0).2 l h

end Sys2Proof

namespace Sys2Proof.Machine

theorem shorterThan_succ (lens : List Nat) (L : Nat) :
    shorterThan lens (L + 1) = shorterThan lens L + lens.count L := by
  simp only [shorterThan]
  induction lens with
  | nil => rfl
  | cons a lens ih =>
    rw [List.countP_cons, List.countP_cons, List.count_cons, ih]
    simp only [decide_eq_true_eq, beq_iff_eq]
    split <;> split <;> split <;> omega

theorem shorterThan_mono (lens : List Nat) {L M : Nat} (h : L ≤ M) : shorterThan lens L ≤ shorterThan lens M :=
  List.countP_mono_left fun l _ hl => by
    simp only [decide_eq_true_eq] at hl ⊢
    omega

theorem shorterThan_minOf (lens : List Nat) : shorterThan lens (minOf lens) = 0 := by
  refine List.countP_eq_zero.2 fun l hl => ?_
  have := minOf_le hl
  simpa using this

/-! ### The rows of the length loop (R190) -/

/-- `firstCode` at length `L` (R190, R192). -/
def firstAt (lens : List Nat) (L : Nat) : Nat := firstCodeFrom lens (minOf lens) (L - minOf lens)

theorem firstAt_minOf (lens : List Nat) : firstAt lens (minOf lens) = 0 := by
  rw [firstAt, Nat.sub_self]
  rfl

theorem firstAt_succ {lens : List Nat} {L : Nat} (h : minOf lens ≤ L) :
    firstAt lens (L + 1) = 2 * (firstAt lens L + lens.count L) := by
  rw [firstAt, firstAt, Nat.succ_sub h, firstCodeFrom, Nat.add_sub_cancel' h]

/-- The row of the length loop at length `L`. -/
def rowAt (lens : List Nat) (L : Nat) : LenRow :=
  { len := L, first := firstAt lens L, index := shorterThan lens L, count := lens.count L }

theorem lenRows_eq {lens : List Nat} (n : Nat) {L : Nat} (h : minOf lens ≤ L) :
    lenRows lens n L (firstAt lens L) (shorterThan lens L) = (List.range' L n).map (rowAt lens) := by
  induction n generalizing L with
  | zero => rfl
  | succ n ih =>
    rw [lenRows, List.range'_succ, List.map_cons, ← ih (Nat.le_succ_of_le h), firstAt_succ h, shorterThan_succ,
      Nat.mul_comm 2]
    rfl

/-- The rows are those of the lengths from the shortest to the longest. -/
theorem rowsOf_eq (lens : List Nat) :
    rowsOf lens = (List.range' (minOf lens) (maxOf lens + 1 - minOf lens)).map (rowAt lens) := by
  rw [← lenRows_eq _ (Nat.le_refl _), firstAt_minOf, shorterThan_minOf]
  rfl

/-- An array with an entry for each index of a range. -/
theorem memGet_map_range' {w : Nat} (f : Nat → BitVec w) (n : Nat) {j L : Nat} (hj : j ≤ L) (hL : L < j + n) :
    memGet ((List.range' j n).map fun i => (i, f i)) L = some (f L) := by
  induction n generalizing j with
  | zero => omega
  | succ n ih =>
    rw [List.range'_succ, List.map_cons, memGet]
    by_cases h : j = L
    · rw [if_pos h, h]
    · rw [if_neg h]
      exact ih (by omega) (by omega)

theorem firstCodeOf_eq {lens : List Nat} {L : Nat} (hmin : minOf lens ≤ L) (hmax : L ≤ maxOf lens) :
    firstCodeOf lens L = firstAt lens L := by
  have hfind : ∀ (n j : Nat), j ≤ L → L < j + n →
      ((List.range' j n).map (rowAt lens)).find? (fun r => r.len == L) = some (rowAt lens L) := by
    intro n
    induction n with
    | zero => omega
    | succ n ih =>
      intro j hj hL
      rw [List.range'_succ, List.map_cons, List.find?_cons]
      by_cases h : j = L
      · subst h
        simp [rowAt]
      · have hne : ((rowAt lens j).len == L) = false := by simpa [rowAt] using h
        rw [hne]
        exact ih (j + 1) (by omega) (by omega)
  rw [firstCodeOf, rowsOf_eq, hfind _ _ hmin (by omega)]
  rfl

/-! ### The Kraft sum (R171, R194) -/

/-- The Kraft sum of the lengths below `L`, in units of `2^-20`. -/
def kraftBelow (lens : List Nat) (L : Nat) : Nat := (lens.map fun l => if l < L then 2 ^ (20 - l) else 0).sum

theorem kraftBelow_succ (lens : List Nat) (L : Nat) :
    kraftBelow lens (L + 1) = kraftBelow lens L + lens.count L * 2 ^ (20 - L) := by
  simp only [kraftBelow]
  induction lens with
  | nil => simp
  | cons a lens ih =>
    rw [List.map_cons, List.map_cons, List.sum_cons, List.sum_cons, ih, List.count_cons]
    by_cases heq : a = L
    · subst heq
      simp only [Nat.lt_succ_self, if_true, Nat.lt_irrefl, if_false, beq_self_eq_true, Nat.add_mul]
      omega
    · have hlt : a < L + 1 ↔ a < L := by omega
      simp only [hlt, beq_iff_eq, heq, if_false, Nat.add_zero]
      omega

theorem kraftBelow_le (lens : List Nat) (L : Nat) : kraftBelow lens L ≤ kraft20 lens := by
  simp only [kraftBelow, kraft20]
  induction lens with
  | nil => exact Nat.le_refl 0
  | cons a lens ih =>
    rw [List.map_cons, List.map_cons, List.sum_cons, List.sum_cons]
    refine Nat.add_le_add ?_ ih
    split
    · exact Nat.le_refl _
    · exact Nat.zero_le _

theorem kraftBelow_minOf (lens : List Nat) : kraftBelow lens (minOf lens) = 0 := by
  refine List.sum_eq_zero_iff.2 fun x hx => ?_
  obtain ⟨l, hl, rfl⟩ := List.mem_map.1 hx
  exact if_neg (Nat.not_lt.2 (minOf_le hl))

/-- `firstCode` at a length, in units of `2^-20`, is the Kraft sum of the shorter lengths. -/
theorem firstAt_mul {lens : List Nat} {L : Nat} (hmin : minOf lens ≤ L) (h20 : L ≤ 20) :
    firstAt lens L * 2 ^ (20 - L) = kraftBelow lens L := by
  induction L, hmin using Nat.le_induction with
  | base => rw [firstAt_minOf, kraftBelow_minOf, Nat.zero_mul]
  | succ L hmin ih =>
    have hpow : 2 ^ (20 - L) = 2 * 2 ^ (20 - (L + 1)) := by
      rw [← Nat.pow_succ']
      congr 1
      omega
    rw [kraftBelow_succ, ← ih (by omega), firstAt_succ hmin, hpow]
    ring

/-- The codewords of a length are below `2^L` where the code is not oversubscribed. -/
theorem firstAt_add_count_le {lens : List Nat} (hk : kraft20 lens ≤ 2 ^ 20) {L : Nat} (hmin : minOf lens ≤ L)
    (h20 : L ≤ 20) : firstAt lens L + lens.count L ≤ 2 ^ L := by
  have hsum : (firstAt lens L + lens.count L) * 2 ^ (20 - L) ≤ 2 ^ L * 2 ^ (20 - L) := by
    rw [Nat.add_mul, firstAt_mul hmin h20, ← kraftBelow_succ, ← Nat.pow_add, Nat.add_sub_cancel' h20]
    exact (kraftBelow_le lens _).trans hk
  exact Nat.le_of_mul_le_mul_right hsum (Nat.two_pow_pos _)

theorem shorterThan_le_firstAt {lens : List Nat} {L : Nat} (hmin : minOf lens ≤ L) :
    shorterThan lens L ≤ firstAt lens L := by
  induction L, hmin using Nat.le_induction with
  | base => rw [shorterThan_minOf]; exact Nat.zero_le _
  | succ L hmin ih =>
    rw [shorterThan_succ, firstAt_succ hmin]
    omega

/-- From a length to a longer one, `firstCode` leaves all codewords of the shorter behind. -/
theorem mul_two_pow_le_firstAt {lens : List Nat} {L : Nat} (hmin : minOf lens ≤ L) (d : Nat) :
    (firstAt lens L + lens.count L) * 2 ^ (d + 1) ≤ firstAt lens (L + (d + 1)) := by
  induction d with
  | zero => rw [firstAt_succ hmin]; omega
  | succ d ih =>
    rw [← Nat.add_assoc, firstAt_succ (by omega), Nat.pow_succ, ← Nat.mul_assoc]
    omega

/-! ### Symbols and their ranks (R191) -/

theorem symbolsOf_length (L i : Nat) (lens : List Nat) : (symbolsOf L i lens).length = lens.count L := by
  induction lens generalizing i with
  | nil => rfl
  | cons a lens ih =>
    rw [symbolsOf, List.count_cons]
    by_cases h : a = L
    · rw [if_pos h, List.length_cons, ih, if_pos (beq_iff_eq.2 h)]
    · rw [if_neg h, ih, if_neg (by simpa using h), Nat.add_zero]

/-- The rank of a symbol is how many symbols before it have its length. -/
theorem symbolsOf_getElem? {L : Nat} (i : Nat) {lens : List Nat} {sym : Nat} (h : lens[sym]? = some L) :
    (symbolsOf L i lens)[(lens.take sym).count L]? = some (i + sym) := by
  induction lens generalizing i sym with
  | nil => simp at h
  | cons a lens ih =>
    cases sym with
    | zero =>
      obtain rfl : a = L := by simpa using h
      simp [symbolsOf]
    | succ sym =>
      rw [List.getElem?_cons_succ] at h
      have hrest := ih (i + 1) h
      rw [show i + (sym + 1) = i + 1 + sym by omega, ← hrest, symbolsOf, List.take_succ_cons, List.count_cons]
      by_cases hL : a = L
      · rw [if_pos hL, if_pos (beq_iff_eq.2 hL), List.getElem?_cons_succ]
      · rw [if_neg hL, if_neg (by simpa using hL)]
        rfl

/-- Every rank is some symbol's. -/
theorem exists_symbol_of_rank {L rank : Nat} {lens : List Nat} (h : rank < lens.count L) :
    ∃ sym, lens[sym]? = some L ∧ (lens.take sym).count L = rank := by
  induction lens generalizing rank with
  | nil => simp at h
  | cons a lens ih =>
    rw [List.count_cons] at h
    by_cases hL : a = L
    · rw [if_pos (beq_iff_eq.2 hL)] at h
      cases rank with
      | zero => exact ⟨0, by simp [hL], by simp⟩
      | succ rank =>
        obtain ⟨sym, hsym, hrank⟩ := ih (Nat.lt_of_succ_lt_succ h)
        exact ⟨sym + 1, by simpa using hsym, by simp [hL, hrank]⟩
    · rw [if_neg (by simpa using hL)] at h
      obtain ⟨sym, hsym, hrank⟩ := ih h
      exact ⟨sym + 1, by simpa using hsym, by simp [hL, hrank]⟩

theorem rank_lt_count {L : Nat} {lens : List Nat} {sym : Nat} (h : lens[sym]? = some L) :
    (lens.take sym).count L < lens.count L := by
  have hlt := (List.getElem?_eq_some_iff.1 (symbolsOf_getElem? 0 h)).1
  rwa [symbolsOf_length] at hlt

/-- `perm` lists the symbols by length and then by rank (R190, R191). -/
theorem permOf_getElem? {lens : List Nat} {sym L : Nat} (h : lens[sym]? = some L) :
    (permOf lens)[shorterThan lens L + (lens.take sym).count L]? = some sym := by
  have hmem : L ∈ lens := List.mem_of_getElem? h
  have hflat : ∀ (n j : Nat), j ≤ L → L < j + n →
      ((List.range' j n).flatMap fun l => symbolsOf l 0 lens)[
        shorterThan lens L - shorterThan lens j + (lens.take sym).count L]? = some sym := by
    intro n
    induction n with
    | zero => omega
    | succ n ih =>
      intro j hj hL
      rw [List.range'_succ, List.flatMap_cons]
      by_cases heq : j = L
      · subst heq
        rw [Nat.sub_self, Nat.zero_add, List.getElem?_append_left
          (by rw [symbolsOf_length]; exact rank_lt_count h), symbolsOf_getElem? 0 h, Nat.zero_add]
      · have hrest := ih (j + 1) (by omega) (by omega)
        have hle := shorterThan_mono lens (show j + 1 ≤ L by omega)
        rw [shorterThan_succ] at hrest hle
        rw [List.getElem?_append_right (by rw [symbolsOf_length]; omega), symbolsOf_length, ← hrest]
        congr 1
        omega
  have hrows : permOf lens =
      (List.range' (minOf lens) (maxOf lens + 1 - minOf lens)).flatMap fun l => symbolsOf l 0 lens := by
    rw [permOf, rowsOf_eq, List.flatMap_map]
    rfl
  have hmin := minOf_le hmem
  have hmax := le_maxOf hmem
  have h0 := hflat (maxOf lens + 1 - minOf lens) (minOf lens) hmin (by omega)
  rwa [shorterThan_minOf, Nat.sub_zero, ← hrows] at h0

/-! ### Codewords (R197) -/

/-- The codeword of a symbol is the first of its length and its rank. -/
theorem codeOf_eq {lens : List Nat} {sym L : Nat} (h : lens[sym]? = some L) :
    codeOf lens sym = firstAt lens L + (lens.take sym).count L := by
  have hmem : L ∈ lens := List.mem_of_getElem? h
  rw [codeOf, List.getD_eq_getElem?_getD, h, Option.getD_some, firstCodeOf_eq (minOf_le hmem) (le_maxOf hmem)]

theorem codeword_eq {lens : List Nat} {sym L : Nat} (h : lens[sym]? = some L) :
    codeword lens sym = toBits L (codeOf lens sym) := by
  rw [codeword, List.getD_eq_getElem?_getD, h, Option.getD_some]

/-- A candidate between the first codeword of a length and the last is the codeword of a symbol. -/
theorem exists_codeword {lens : List Nat} {L v : Nat} (hfirst : firstAt lens L ≤ v)
    (hlast : v < firstAt lens L + lens.count L) : ∃ sym, lens[sym]? = some L ∧ codeOf lens sym = v := by
  obtain ⟨sym, hsym, hrank⟩ := exists_symbol_of_rank (L := L) (rank := v - firstAt lens L) (lens := lens) (by omega)
  exact ⟨sym, hsym, by rw [codeOf_eq hsym, hrank]; omega⟩

end Sys2Proof.Machine
end

section
/-! PROOFS. The symbol decoder (spec/42_huffman_tables.md R195) on a group whose tables are of a code that decodes: a
codeword gives its symbol, bits above every codeword raise, and bits that end before a codeword does are read past. -/

namespace Sys2Proof.Machine

/-! ### A group's tables -/

/-- The group's tables are those of the lengths, which are of a code that decodes (R190, R194). -/
structure Group.Decodes (lens : List Nat) (grp : Group) : Prop where
  legal : ∀ l ∈ lens, 1 ≤ l ∧ l ≤ 20
  nonempty : lens ≠ []
  short : lens.length ≤ 258
  kraft : kraft20 lens ≤ 2 ^ 20
  minLen : grp.minLen.toNat = minOf lens
  maxLen : grp.maxLen.toNat = maxOf lens
  limit : grp.limit = limitOf lens
  base : grp.base = baseOf lens
  perm : grp.perm = (permOf lens).map (BitVec.ofNat 9)

theorem minOf_mem {lens : List Nat} (h : lens ≠ []) : minOf lens ∈ lens := by
  cases lens with
  | nil => exact absurd rfl h
  | cons a rest =>
    have hfold : ∀ (rest : List Nat) (a : Nat), rest.foldl min a ∈ a :: rest := by
      intro rest
      induction rest with
      | nil => exact fun a => List.mem_cons_self
      | cons x rest ih =>
        intro a
        have hmem := ih (min a x)
        rw [List.foldl_cons]
        obtain h | h := List.mem_cons.1 hmem
        · rw [h]
          obtain h' | h' := Nat.le_total a x
          · simp [Nat.min_eq_left h']
          · simp [Nat.min_eq_right h']
        · exact List.mem_cons_of_mem _ (List.mem_cons_of_mem _ h)
    exact hfold rest a

theorem maxOf_le {lens : List Nat} {n : Nat} (h : ∀ l ∈ lens, l ≤ n) : maxOf lens ≤ n := by
  have hfold : ∀ (rest : List Nat) (a : Nat), a ≤ n → (∀ x ∈ rest, x ≤ n) → rest.foldl max a ≤ n := by
    intro rest
    induction rest with
    | nil => exact fun a ha _ => ha
    | cons x rest ih =>
      intro a ha hrest
      obtain ⟨hx, hrest⟩ := List.forall_mem_cons.1 hrest
      exact ih (max a x) (Nat.max_le.2 ⟨ha, hx⟩) hrest
  exact hfold lens 0 (Nat.zero_le n) h

theorem prefixLengths_iff (lens : List Nat) : prefixLengths lens = true ↔
    1 ≤ lens.length ∧ lens.length ≤ 258 ∧ (∀ l ∈ lens, 1 ≤ l ∧ l ≤ 20) ∧ kraft20 lens ≤ 2 ^ 20 := by
  simp only [prefixLengths, lengthsLegal, Bool.and_eq_true, decide_eq_true_eq, List.all_eq_true, and_assoc]
  exact Iff.rfl

/-- Tables that HT_BUILD would leave as they are, over lengths of a code that decodes. -/
theorem Group.decodes_of_builtFrom {lens : List Nat} {grp : Group} (hlens : lens = grp.len.map BitVec.toNat)
    (hprefix : prefixLengths lens = true) (hbuilt : builtFrom lens.length grp = true) : grp.Decodes lens := by
  obtain ⟨hpos, hshort, hlegal, hkraft⟩ := (prefixLengths_iff lens).1 hprefix
  have hlen : lens.length = grp.len.length := by rw [hlens, List.length_map]
  have hcond : ¬(lens.length = 0 ∨ grp.len.length < lens.length) := by omega
  have htake : (grp.len.take lens.length).map BitVec.toNat = lens := by rw [hlen, List.take_length, ← hlens]
  have hgrp := of_decide_eq_true hbuilt
  simp only [buildGroup, if_neg hcond, htake, Res.ok.injEq, true_and] at hgrp
  have hnonempty : lens ≠ [] := List.ne_nil_of_length_pos hpos
  have hmin := (hlegal _ (minOf_mem hnonempty)).2
  have hmax := maxOf_le fun l hl => (hlegal l hl).2
  refine ⟨hlegal, hnonempty, hshort, hkraft, ?_, ?_, ?_, ?_, ?_⟩
  · rw [← congrArg Group.minLen hgrp, BitVec.toNat_ofNat]
    omega
  · rw [← congrArg Group.maxLen hgrp, BitVec.toNat_ofNat]
    omega
  · exact (congrArg Group.limit hgrp).symm
  · exact (congrArg Group.base hgrp).symm
  · exact (congrArg Group.perm hgrp).symm

section
variable {lens : List Nat} {grp : Group} (hd : grp.Decodes lens)
include hd

theorem Group.Decodes.minOf_range : 1 ≤ minOf lens ∧ minOf lens ≤ 20 := hd.legal _ (minOf_mem hd.nonempty)

theorem Group.Decodes.maxOf_le : maxOf lens ≤ 20 := Machine.maxOf_le fun l hl => (hd.legal l hl).2

theorem Group.Decodes.minOf_le_maxOf : minOf lens ≤ maxOf lens := le_maxOf (minOf_mem hd.nonempty)

variable {L : Nat} (hmin : minOf lens ≤ L) (hmax : L ≤ maxOf lens)
include hmin hmax

/-- `limit` is the last codeword of the length (R192). -/
theorem Group.Decodes.limit_toInt :
    ∃ lim, memGet grp.limit L = some lim ∧ lim.toInt = (firstAt lens L : Int) + lens.count L - 1 := by
  have h20 := hd.maxOf_le
  have hkraft := firstAt_add_count_le hd.kraft hmin (by omega)
  have hpow : 2 ^ L ≤ 2 ^ 20 := Nat.pow_le_pow_right (by decide) (by omega)
  refine ⟨BitVec.ofInt 32 ((firstAt lens L : Int) + lens.count L - 1), ?_, ?_⟩
  · rw [hd.limit, limitOf, rowsOf_eq, List.map_map]
    exact memGet_map_range' _ _ hmin (by omega)
  · rw [BitVec.toInt_ofInt]
    exact Int.bmod_eq_of_le (by omega) (by omega)

/-- `base` takes a codeword of the length to its place in `perm` (R193). -/
theorem Group.Decodes.base_toNat :
    ∃ b, memGet grp.base L = some b ∧ b.toNat = firstAt lens L - shorterThan lens L := by
  have h20 := hd.maxOf_le
  have hkraft := firstAt_add_count_le hd.kraft hmin (by omega)
  have hpow : 2 ^ L ≤ 2 ^ 20 := Nat.pow_le_pow_right (by decide) (by omega)
  have hindex := shorterThan_le_firstAt hmin
  refine ⟨BitVec.ofInt 32 ((firstAt lens L : Int) - shorterThan lens L), ?_, ?_⟩
  · rw [hd.base, baseOf, rowsOf_eq, List.map_map]
    exact memGet_map_range' _ _ hmin (by omega)
  · rw [BitVec.toNat_ofInt]
    omega

/-! ### One length (R195) -/

/-- A candidate above the codewords of its length needs one bit more, or is of no codeword. -/
theorem Group.Decodes.decodeLoop_miss {v : Nat} (hv : firstAt lens L + lens.count L ≤ v) (n : Nat) (r : Reader) :
    decodeLoop grp n L v r =
      match n with
      | 0 => .raised .invalidHuffmanCode r
      | k + 1 => (readBits 1 r).bind fun b r' => decodeLoop grp k (L + 1) (2 * v + b) r' := by
  obtain ⟨lim, hlim, hval⟩ := hd.limit_toInt hmin hmax
  have hgt : ¬(v : Int) ≤ lim.toInt := by omega
  cases n <;> simp only [decodeLoop, hlim, if_neg hgt]

end

/-- The codeword of a symbol is its candidate at its length. -/
theorem Group.Decodes.decodeLoop_hit {lens : List Nat} {grp : Group} (hd : grp.Decodes lens) {sym L : Nat}
    (hsym : lens[sym]? = some L) (n : Nat) (r : Reader) :
    decodeLoop grp n L (codeOf lens sym) r = .ok sym r := by
  have hmem : L ∈ lens := List.mem_of_getElem? hsym
  have hmin := minOf_le hmem
  have hmax := le_maxOf hmem
  obtain ⟨lim, hlim, hval⟩ := hd.limit_toInt hmin hmax
  obtain ⟨b, hb, hbase⟩ := hd.base_toNat hmin hmax
  have hcode := codeOf_eq hsym
  have hrank := rank_lt_count hsym
  have hindex := shorterThan_le_firstAt hmin
  have hle : (codeOf lens sym : Int) ≤ lim.toInt := by omega
  have hplace : codeOf lens sym - b.toNat = shorterThan lens L + (lens.take sym).count L := by omega
  have hperm : grp.perm[codeOf lens sym - b.toNat]? = some (BitVec.ofNat 9 sym) := by
    rw [hd.perm, List.getElem?_map, hplace, permOf_getElem? hsym, Option.map_some]
  have hlt : sym < 258 := (List.getElem?_eq_some_iff.1 hsym).1.trans_le hd.short
  have hsym9 : (BitVec.ofNat 9 sym).toNat = sym := by
    rw [BitVec.toNat_ofNat]
    omega
  unfold decodeLoop
  simp only [hlim, if_pos hle, symbolAt, hb, if_neg (show ¬codeOf lens sym < b.toNat by omega), hperm, hsym9]

/-! ### The loop -/

section
variable {lens : List Nat} {grp : Group} (hd : grp.Decodes lens)
include hd

/-- The loop passes the lengths at which the candidate is above every codeword. -/
theorem Group.Decodes.decodeLoop_skip (d n : Nat) {L w : Nat} (hmin : minOf lens ≤ L) (hmax : L + d ≤ maxOf lens)
    (hw : firstAt lens (L + d) ≤ w) {r : Reader} (hr : r.wf = true) {rest : List Bool}
    (hp : r.pending = toBits d w ++ rest) :
    ∃ r', decodeLoop grp (d + n) L (w / 2 ^ d) r = decodeLoop grp n (L + d) w r' ∧ r.TakenTo d r' ∧
      r'.pending = rest := by
  induction d generalizing L r with
  | zero => exact ⟨r, by simp, Reader.takenTo_zero hr, hp⟩
  | succ d ih =>
    have hmiss : firstAt lens L + lens.count L ≤ w / 2 ^ (d + 1) :=
      (Nat.le_div_iff_mul_le (Nat.two_pow_pos _)).2 ((mul_two_pow_le_firstAt hmin d).trans hw)
    have hbits : toBits (d + 1) w = toBits 1 (w / 2 ^ d % 2) ++ toBits d w := by
      rw [Nat.add_comm, toBits_add, show w / 2 ^ d % 2 = w / 2 ^ d % 2 ^ 1 from rfl, toBits_mod]
    rw [hbits, List.append_assoc] at hp
    obtain ⟨r₁, hrun₁, ht₁, hp₁⟩ :=
      readBits_reads (n := 1) (x := w / 2 ^ d % 2) (by decide) (Nat.mod_lt _ (by decide)) r _ hr hp
    rw [toBits_length] at ht₁
    have hnext : 2 * (w / 2 ^ (d + 1)) + w / 2 ^ d % 2 = w / 2 ^ d := by
      rw [Nat.pow_succ, ← Nat.div_div_eq_div_mul]
      omega
    have hlen : L + 1 + d = L + (d + 1) := by omega
    obtain ⟨r₂, hrun₂, ht₂, hp₂⟩ := ih (L := L + 1) (by omega) (by omega) (by rw [hlen]; exact hw) ht₁.wf hp₁
    refine ⟨r₂, ?_, ?_, hp₂⟩
    · rw [Nat.add_right_comm, hd.decodeLoop_miss hmin (by omega) hmiss]
      simp only [hrun₁, Res.bind_ok, hnext, hrun₂, hlen]
    · rw [Nat.add_comm]
      exact Reader.takenTo_add ht₁ ht₂

/-- The candidate of the shortest length, and then the loop to the length `L`. -/
theorem Group.Decodes.decodeSymbol_skip {L w : Nat} (hmin : minOf lens ≤ L) (hmax : L ≤ maxOf lens)
    (hfirst : firstAt lens L ≤ w) (hw : w < 2 ^ L) {r : Reader} (hr : r.wf = true) {rest : List Bool}
    (hp : r.pending = toBits L w ++ rest) :
    ∃ r', decodeSymbol grp r = decodeLoop grp (maxOf lens - L) L w r' ∧ r.TakenTo L r' ∧ r'.pending = rest := by
  obtain ⟨d, rfl⟩ := Nat.exists_eq_add_of_le hmin
  have h20 := hd.minOf_range.2
  have hhigh : w / 2 ^ d < 2 ^ minOf lens := by
    rw [Nat.div_lt_iff_lt_mul (Nat.two_pow_pos d), ← Nat.pow_add]
    exact hw
  rw [toBits_add, List.append_assoc] at hp
  obtain ⟨r₁, hrun₁, ht₁, hp₁⟩ := readBits_reads (by omega) hhigh r _ hr hp
  rw [toBits_length] at ht₁
  obtain ⟨r₂, hrun₂, ht₂, hp₂⟩ := hd.decodeLoop_skip d (maxOf lens - (minOf lens + d)) (Nat.le_refl _) hmax hfirst
    ht₁.wf hp₁
  refine ⟨r₂, ?_, Reader.takenTo_add ht₁ ht₂, hp₂⟩
  rw [decodeSymbol, hd.minLen, hd.maxLen, hrun₁, Res.bind_ok, ← hrun₂]
  congr 1
  omega

/-- The codeword of a symbol decodes to the symbol, and exactly its bits are taken. -/
theorem Group.Decodes.decodeSymbol_reads {sym : Nat} (hsym : sym < lens.length) :
    Reader.Reads (decodeSymbol grp) (codeword lens sym) sym := by
  intro r rest hr hp
  obtain ⟨L, hL⟩ : ∃ L, lens[sym]? = some L := ⟨_, List.getElem?_eq_getElem hsym⟩
  have hmem : L ∈ lens := List.mem_of_getElem? hL
  have hmin := minOf_le hmem
  have hcode := codeOf_eq hL
  have hrank := rank_lt_count hL
  have hkraft := firstAt_add_count_le hd.kraft hmin (hd.legal L hmem).2
  rw [codeword_eq hL] at hp ⊢
  obtain ⟨r', hrun, ht, hp'⟩ := hd.decodeSymbol_skip hmin (le_maxOf hmem) (by omega) (w := codeOf lens sym) (by omega)
    hr hp
  exact ⟨r', by rw [hrun, hd.decodeLoop_hit hL], by rwa [toBits_length], hp'⟩

/-- Bits above every codeword raise after the longest length. -/
theorem Group.Decodes.decodeSymbol_above {v : Nat} (hv : v < 2 ^ maxOf lens)
    (habove : firstAt lens (maxOf lens) + lens.count (maxOf lens) ≤ v) {r : Reader} (hr : r.wf = true)
    {rest : List Bool} (hp : r.pending = toBits (maxOf lens) v ++ rest) :
    ∃ r', decodeSymbol grp r = .raised .invalidHuffmanCode r' ∧ r.TakenTo (maxOf lens) r' := by
  obtain ⟨r', hrun, ht, -⟩ := hd.decodeSymbol_skip hd.minOf_le_maxOf (Nat.le_refl _) (by omega) hv hr hp
  refine ⟨r', ?_, ht⟩
  rw [hrun, Nat.sub_self, hd.decodeLoop_miss hd.minOf_le_maxOf (Nat.le_refl _) habove]

/-! ### Too few bits -/

omit hd in
/-- A candidate that is no codeword, and not below those of its length, is above them. -/
theorem miss_of_noCodeword {L v : Nat} {bits : List Bool} (hfirst : firstAt lens L ≤ v)
    (hno : noCodeword lens (toBits L v ++ bits)) : firstAt lens L + lens.count L ≤ v := by
  by_contra hlt
  obtain ⟨sym, hsym, rfl⟩ := exists_codeword hfirst (Nat.lt_of_not_le hlt)
  refine hno sym (List.getElem?_eq_some_iff.1 hsym).1 ?_
  rw [codeword_eq hsym]
  exact List.prefix_append _ _

/-- The loop over bits that end before the longest length and have no codeword at their head. -/
theorem Group.Decodes.decodeLoop_pastEnd (bits : List Bool) {n L v : Nat} (hmin : minOf lens ≤ L)
    (hn : L + n = maxOf lens) (hshort : bits.length < n) (hfirst : firstAt lens L ≤ v)
    (hno : noCodeword lens (toBits L v ++ bits)) {r : Reader} (hr : r.wf = true) (hp : r.pending = bits) :
    r.PastEnd bits.length (decodeLoop grp n L v r) := by
  induction bits generalizing n L v r with
  | nil =>
    obtain ⟨n, rfl⟩ := Nat.exists_eq_add_of_lt hshort
    rw [hd.decodeLoop_miss hmin (by omega) (miss_of_noCodeword hfirst hno)]
    exact (readBits_pastEnd (by decide) hr (by simp [hp])).bind _
  | cons b bits ih =>
    have hmiss := miss_of_noCodeword hfirst hno
    rw [List.length_cons] at hshort
    obtain ⟨n, rfl⟩ := Nat.exists_eq_add_of_le' (show 1 ≤ n by omega)
    obtain ⟨r₁, hrun₁, ht₁, hp₁⟩ := readBits_reads (n := 1) (by decide) b.toNat_lt r bits hr
      (by rw [toBits_one]; exact hp)
    have hbits : toBits (L + 1) (2 * v + b.toNat) = toBits L v ++ [b] := by
      rw [← toBits_one, ← toBits_join L 1 v _ b.toNat_lt, Nat.pow_one, Nat.mul_comm]
    have h := ih (n := n) (L := L + 1) (v := 2 * v + b.toNat) (by omega) (by omega) (by omega)
      (by rw [firstAt_succ hmin]; omega) (by rw [hbits, List.append_assoc]; exact hno) ht₁.wf hp₁
    rw [hd.decodeLoop_miss hmin (by omega) hmiss]
    simp only [hrun₁, Res.bind_ok]
    rw [List.length_cons, Nat.add_comm]
    exact ht₁.pastEnd (by simp [hp]) h

/-- Bits that end before a codeword does are read past. -/
theorem Group.Decodes.decodeSymbol_pastEnd {r : Reader} (hr : r.wf = true) (hshort : r.pending.length < maxOf lens)
    (hno : noCodeword lens r.pending) : r.PastEnd (takenOfPartial lens r.pending) (decodeSymbol grp r) := by
  have h20 := hd.minOf_range.2
  rw [decodeSymbol, hd.minLen, hd.maxLen]
  by_cases hlt : r.pending.length < minOf lens
  · rw [takenOfPartial, if_pos hlt]
    exact (readBits_pastEnd (by omega) hr hlt).bind _
  · have hle := Nat.le_of_not_lt hlt
    rw [takenOfPartial, if_neg hlt]
    obtain ⟨v, r₁, hrun₁, hv, hbits, ht₁⟩ := readBits_spec (by omega) r hr hle
    have hsplit : r.pending = toBits (minOf lens) v ++ r₁.pending := by
      rw [hbits, ht₁.pending, List.take_append_drop]
    have hlen := congrArg List.length hsplit
    rw [List.length_append, toBits_length] at hlen
    have h := hd.decodeLoop_pastEnd r₁.pending (n := maxOf lens - minOf lens) (L := minOf lens) (v := v)
      (Nat.le_refl _) (Nat.add_sub_cancel' hd.minOf_le_maxOf) (by omega) (by rw [firstAt_minOf]; exact Nat.zero_le v)
      (by rwa [← hsplit]) ht₁.wf rfl
    rw [hrun₁, Res.bind_ok, hlen]
    exact ht₁.pastEnd hle h

end

end Sys2Proof.Machine
end

section
/-! PROOFS. The SYMBOLS step (spec/44_block_engine.md R242, R243): the loop over codewords that the stage takes, and
what it meets after them. -/

namespace Sys2Proof.Machine

/-- The SYMBOLS step of `s` before its symbol `i`: the stage, the reader, and the window of R242 after `i` symbols. -/
def symbolsAt (s : State) (i : Nat) (m : MtfStage) (r : Reader) : State :=
  { s with rd := r, sym := m, win := windowAfter s i, pos := .symbol }

theorem symbolsBody_eq (s : State) :
    symbolsBody s = symbolsLoop (50 * s.sel.nSelectors.toNat) (symbolsAt s 0 (stageInit s.sym) s.rd) := rfl

/-! ### What the premises give -/

theorem symbolBits_append (s : State) (xs ys : List Nat) (i : Nat) :
    symbolBits s i (xs ++ ys) = symbolBits s i xs ++ symbolBits s (i + xs.length) ys := by
  induction xs generalizing i with
  | nil => rfl
  | cons x xs ih =>
    simp only [List.cons_append, symbolBits, ih, List.append_assoc, List.length_cons, Nat.add_right_comm, Nat.add_assoc]

theorem symbolBits_concat (s : State) (xs : List Nat) (x : Nat) :
    symbolBits s 0 (xs ++ [x]) = symbolBits s 0 xs ++ codeword (symbolLens s xs.length) x := by
  rw [symbolBits_append, Nat.zero_add, symbolBits, symbolBits, List.append_nil]

theorem symbolsBegun_iff {s : State} {body : List Nat} : symbolsBegun s body = true ↔
    (∀ sym ∈ body, sym < s.map.eob.toNat) ∧ s.map.alphaSize.toNat = s.map.eob.toNat + 1 ∧ 2 ≤ s.map.eob.toNat ∧
      body.length ≤ 50 * s.sel.nSelectors.toNat := by
  simp only [symbolsBegun, Bool.and_eq_true, decide_eq_true_eq, List.all_eq_true, and_assoc]

theorem symbolsLegal_iff {s : State} {body : List Nat} : symbolsLegal s body = true ↔
    symbolsBegun s body = true ∧ body.length < 50 * s.sel.nSelectors.toNat := by
  rw [symbolsBegun_iff]
  simp only [symbolsLegal, Bool.and_eq_true, decide_eq_true_eq, List.all_eq_true, and_assoc]
  exact ⟨fun ⟨hbody, halpha, heob, hlt⟩ => ⟨hbody, halpha, heob, Nat.le_of_lt hlt, hlt⟩,
    fun ⟨hbody, halpha, heob, _, hlt⟩ => ⟨hbody, halpha, heob, hlt⟩⟩

theorem windowAfter_succ (s : State) (n : Nat) : windowAfter s (n + 1) =
    { selIdx := BitVec.ofNat 15 (n / 50 + 1)
      groupPos := BitVec.ofNat 6 (49 - n % 50)
      curGroup := s.sel.selectors.getD (n / 50) 0 } := rfl

/-- Before a window's first symbol no symbol of the last one is left, and its selector is the next (R242). -/
theorem windowAfter_of_full {s : State} {i : Nat} (hmod : i % 50 = 0) (hi : i / 50 < 2 ^ 15) :
    (windowAfter s i).groupPos = 0 ∧ (windowAfter s i).selIdx.toNat = i / 50 := by
  match i with
  | 0 => exact ⟨rfl, rfl⟩
  | n + 1 =>
    have hlast : 49 - n % 50 = 0 := by omega
    refine ⟨by rw [windowAfter_succ, hlast]; rfl, ?_⟩
    simp only [windowAfter_succ, BitVec.toNat_ofNat]
    omega

section
variable {s : State} (hg : groupsReady s = true) {i : Nat} (hi : i < 50 * s.sel.nSelectors.toNat)
include hg hi

/-- A symbol within the selectors has a group, whose tables are of a code that decodes. -/
theorem group_of_groupsReady : ∃ (g : BitVec 3) (grp : Group), s.sel.selectors[i / 50]? = some g ∧
    g.toNat < s.sel.nGroups.toNat ∧ s.groups[g.toNat]? = some grp ∧
      (symbolLens s i).length = s.map.alphaSize.toNat ∧ grp.Decodes (symbolLens s i) := by
  simp only [groupsReady, Bool.and_eq_true, decide_eq_true_eq, List.all_eq_true] at hg
  obtain ⟨hlen, hall⟩ := hg
  have hlt : i / 50 < s.sel.selectors.length := by omega
  have hsel := List.getElem?_eq_getElem hlt
  obtain ⟨hgroup, hready⟩ := hall _ (List.getElem_mem hlt)
  match hgrp : s.groups[s.sel.selectors[i / 50].toNat]? with
  | none => simp only [hgrp, Bool.false_eq_true] at hready
  | some grp =>
    simp only [hgrp, Bool.and_eq_true, decide_eq_true_eq] at hready
    obtain ⟨⟨halpha, hprefix⟩, hbuilt⟩ := hready
    have hlens : symbolLens s i = grp.len.map BitVec.toNat := by
      simp only [symbolLens, hsel, groupLens, hgrp]
    have hcount : (symbolLens s i).length = s.map.alphaSize.toNat := by rw [hlens, List.length_map, halpha]
    exact ⟨_, grp, hsel, hgroup, hgrp, hcount,
      Group.decodes_of_builtFrom hlens (by rwa [hlens]) (by rwa [hcount])⟩

/-- The window registers count the symbols (R242). -/
theorem beginSymbol_symbolsAt (m : MtfStage) (r : Reader) :
    beginSymbol (symbolsAt s i m r) = .ok () (symbolsAt s (i + 1) m r) := by
  obtain ⟨g, grp, hsel, -, -, -, -⟩ := group_of_groupsReady hg hi
  have hn := s.sel.nSelectors.isLt
  have hget : s.sel.selectors.getD (i / 50) 0 = g := by rw [List.getD_eq_getElem?_getD, hsel, Option.getD_some]
  by_cases hmod : i % 50 = 0
  · obtain ⟨hpos, hidx⟩ := windowAfter_of_full (s := s) hmod (by omega)
    have hselIdx : (windowAfter s i).selIdx + 1 = BitVec.ofNat 15 (i / 50 + 1) := by
      rw [BitVec.ofNat_add, ← hidx, BitVec.ofNat_toNat, BitVec.setWidth_eq]
      rfl
    have hroom : ¬s.sel.nSelectors.toNat ≤ (windowAfter s i).selIdx.toNat := by omega
    rw [← hidx] at hsel
    simp only [beginSymbol, symbolsAt, if_pos hpos, if_neg hroom, hsel, entry, Res.bind_ok, hselIdx, windowAfter_succ,
      hmod, hget, Config.groupSize, Nat.sub_zero]
  · obtain ⟨n, rfl⟩ : ∃ n, i = n + 1 := ⟨i - 1, by omega⟩
    have hdiv : (n + 1) / 50 = n / 50 := by omega
    have hstep : BitVec.ofNat 6 (49 - n % 50) - 1 = BitVec.ofNat 6 (49 - (n + 1) % 50) := by bv_omega
    have hpos : ¬BitVec.ofNat 6 (49 - n % 50) = 0 := by bv_omega
    simp only [beginSymbol, symbolsAt, windowAfter_succ, if_neg hpos, hstep, hdiv]

/-- The next symbol is decoded in its group, and the stage takes it. -/
theorem readSymbol_symbolsAt : ∃ grp : Group, (symbolLens s i).length = s.map.alphaSize.toNat ∧
    grp.Decodes (symbolLens s i) ∧ ∀ (m : MtfStage) (r : Reader), readSymbol (symbolsAt s i m r) =
      (onReader (decodeSymbol grp) (symbolsAt s (i + 1) m r)).bind fun sym s => elemSymbolCode sym s := by
  obtain ⟨g, grp, hsel, hlt, hgrp, hcount, hd⟩ := group_of_groupsReady hg hi
  refine ⟨grp, hcount, hd, fun m r => ?_⟩
  have hcur : (symbolsAt s (i + 1) m r).win.curGroup = g := by
    simp only [symbolsAt, windowAfter_succ, List.getD_eq_getElem?_getD, hsel, Option.getD_some]
  have hdecode : decodeWith g.toNat (symbolsAt s (i + 1) m r) =
      onReader (decodeSymbol grp) (symbolsAt s (i + 1) m r) := by
    have hgrp' : (symbolsAt s (i + 1) m r).groups[g.toNat]? = some grp := hgrp
    rw [decodeWith, if_pos (show g.toNat < (symbolsAt s (i + 1) m r).sel.nGroups.toNat from hlt), hgrp']
  rw [readSymbol, beginSymbol_symbolsAt hg hi, Res.bind_ok, hcur, hdecode]

/-- A codeword at the head of the bits to come gives its symbol to the stage. -/
theorem readSymbol_reads {sym : Nat} (hsym : sym < s.map.alphaSize.toNat) (m : MtfStage) {r : Reader} {rest : List Bool}
    (hr : r.wf = true) (hp : r.pending = codeword (symbolLens s i) sym ++ rest) :
    ∃ r', readSymbol (symbolsAt s i m r) = elemSymbolCode sym (symbolsAt s (i + 1) m r') ∧
      r.TakenTo (codeword (symbolLens s i) sym).length r' ∧ r'.pending = rest := by
  obtain ⟨grp, hcount, hd, hread⟩ := readSymbol_symbolsAt hg hi
  obtain ⟨r', hrun, ht, hp'⟩ := hd.decodeSymbol_reads (hcount ▸ hsym) r rest hr hp
  refine ⟨r', ?_, ht, hp'⟩
  rw [hread, onReader_of_ok (s := symbolsAt s (i + 1) m r) hrun, Res.bind_ok]
  rfl

end

/-! ### The stage takes the symbol -/

section
variable {s : State} {i sym : Nat} {m m' : MtfStage} {r : Reader}

theorem mtfSymbol_symbolsAt : mtfSymbol sym (symbolsAt s i m r) =
    (stageSymbol (cap s.stream) s.map sym m).lift fun m' => symbolsAt s i m' r := rfl

/-- A symbol below `EOB` leaves the loop running. -/
theorem elemSymbolCode_of_ok (hsym : sym ≠ s.map.eob.toNat)
    (h : stageSymbol (cap s.stream) s.map sym m = .ok () m') :
    elemSymbolCode sym (symbolsAt s i m r) = .ok () (symbolsAt s i m' r) := by
  rw [elemSymbolCode, mtfSymbol_symbolsAt, h, Res.lift_ok, Res.bind_ok]
  exact if_neg hsym

/-- `EOB` ends it. -/
theorem elemSymbolCode_eob (h : stageSymbol (cap s.stream) s.map s.map.eob.toNat m = .ok () m') :
    elemSymbolCode s.map.eob.toNat (symbolsAt s i m r) = .ok () { symbolsAt s i m' r with fsm := .permute } := by
  rw [elemSymbolCode, mtfSymbol_symbolsAt, h, Res.lift_ok, Res.bind_ok]
  exact if_pos rfl

theorem elemSymbolCode_of_raised {e : Err} (h : stageSymbol (cap s.stream) s.map sym m = .raised e m') :
    elemSymbolCode sym (symbolsAt s i m r) = .raised e (symbolsAt s i m' r) := by
  rw [elemSymbolCode, mtfSymbol_symbolsAt, h, Res.lift_raised, Res.bind_raised]

end

/-! ### The loop -/

theorem symbolsLoop_of_raised {k : Nat} {s t : State} {e : Err} (h : readSymbol s = .raised e t) :
    symbolsLoop (k + 1) s = .raised e t := by
  rw [symbolsLoop, h, Res.bind_raised]

theorem symbolsLoop_of_eob {k : Nat} {s t : State} (hk : 0 < k) (h : readSymbol s = .ok () { t with fsm := .permute }) :
    symbolsLoop k s = .ok () { t with fsm := .permute } := by
  obtain ⟨k, rfl⟩ := Nat.exists_eq_add_of_lt hk
  rw [Nat.zero_add, symbolsLoop, h, Res.bind_ok, if_pos rfl]

section
variable {s : State} (hf : s.fsm = .symbols) (hg : groupsReady s = true)
  (halpha : s.map.alphaSize.toNat = s.map.eob.toNat + 1)
include hf hg halpha

/-- Symbols below `EOB` that the stage takes leave the loop after them, with exactly their bits taken. -/
theorem symbolsLoop_run {body : List Nat} (hbody : ∀ sym ∈ body, sym < s.map.eob.toNat) (k : Nat) {i : Nat}
    (hi : i + body.length ≤ 50 * s.sel.nSelectors.toNat) {m m' : MtfStage} {r : Reader} {rest : List Bool}
    (hr : r.wf = true) (hp : r.pending = symbolBits s i body ++ rest)
    (hm : stageRun (cap s.stream) s.map body m = .ok () m') :
    ∃ r', symbolsLoop (body.length + k) (symbolsAt s i m r) = symbolsLoop k (symbolsAt s (i + body.length) m' r') ∧
      r.TakenTo (symbolBits s i body).length r' ∧ r'.pending = rest := by
  induction body generalizing i m r with
  | nil =>
    obtain rfl : m = m' := (Res.ok.inj hm).2
    exact ⟨r, by simp, Reader.takenTo_zero hr, hp⟩
  | cons sym body ih =>
    obtain ⟨hsym, hbody⟩ := List.forall_mem_cons.1 hbody
    rw [List.length_cons] at hi
    rw [symbolBits, List.append_assoc] at hp
    obtain ⟨r₁, hread, ht₁, hp₁⟩ := readSymbol_reads hg (by omega) (by omega) m hr hp
    obtain ⟨⟨⟩, m₁, hm₁, hm⟩ := Res.bind_eq_ok.1 hm
    obtain ⟨r₂, hrun, ht₂, hp₂⟩ := ih hbody (by omega) ht₁.wf hp₁ hm
    refine ⟨r₂, ?_, ?_, hp₂⟩
    · rw [List.length_cons, Nat.add_right_comm, symbolsLoop, hread, elemSymbolCode_of_ok hsym.ne hm₁, Res.bind_ok,
        if_neg (show (symbolsAt s (i + 1) m₁ r₁).fsm ≠ .permute by rw [symbolsAt, hf]; decide), hrun, Nat.add_assoc,
        Nat.add_comm 1]
    · rw [symbolBits, List.length_append]
      exact Reader.takenTo_add ht₁ ht₂

/-- The step after its first symbols. -/
theorem exec_stepSymbols_run {body : List Nat} (hbody : ∀ sym ∈ body, sym < s.map.eob.toNat)
    (hlen : body.length ≤ 50 * s.sel.nSelectors.toNat) (hr : s.rd.wf = true) {rest : List Bool}
    (hp : s.rd.pending = symbolBits s 0 body ++ rest) {m : MtfStage}
    (hm : stageRun (cap s.stream) s.map body (stageInit s.sym) = .ok () m) :
    ∃ r, exec .stepSymbols s =
        finish (symbolsLoop (50 * s.sel.nSelectors.toNat - body.length) (symbolsAt s body.length m r)) ∧
      s.rd.TakenTo (symbolBits s 0 body).length r ∧ r.pending = rest := by
  obtain ⟨k, hk⟩ := Nat.exists_eq_add_of_le hlen
  obtain ⟨r, hrun, ht, hp'⟩ := symbolsLoop_run hf hg halpha hbody k (i := 0) (by omega) hr hp hm
  refine ⟨r, ?_, ht, hp'⟩
  have hstep : exec .stepSymbols s = finish (symbolsBody s) := stepOf_of_fsm hf symbolsBody
  rw [hstep, symbolsBody_eq, hk, hrun, Nat.zero_add, Nat.add_sub_cancel_left]

end

/-! ### What may follow the first symbols -/

section
variable {s : State} (hg : groupsReady s = true) {i : Nat} (hi : i < 50 * s.sel.nSelectors.toNat) {m : MtfStage}
  {r : Reader} (hr : r.wf = true)
include hg hi hr

/-- An error of the stage is taken after the symbol's bits. -/
theorem readSymbol_of_raised {sym : Nat} (hsym : sym < s.map.alphaSize.toNat) {rest : List Bool}
    (hp : r.pending = codeword (symbolLens s i) sym ++ rest) {e : Err} {m' : MtfStage}
    (hm : stageSymbol (cap s.stream) s.map sym m = .raised e m') :
    ∃ r', readSymbol (symbolsAt s i m r) = .raised e (symbolsAt s (i + 1) m' r') ∧
      r.TakenTo (codeword (symbolLens s i) sym).length r' := by
  obtain ⟨r', hread, ht, -⟩ := readSymbol_reads hg hi hsym m hr hp
  exact ⟨r', hread.trans (elemSymbolCode_of_raised hm), ht⟩

/-- Bits above every codeword raise after the longest length. -/
theorem readSymbol_above {v : Nat} (hv : v < 2 ^ maxOf (symbolLens s i))
    (habove : firstAt (symbolLens s i) (maxOf (symbolLens s i)) +
      (symbolLens s i).count (maxOf (symbolLens s i)) ≤ v) {rest : List Bool}
    (hp : r.pending = toBits (maxOf (symbolLens s i)) v ++ rest) :
    ∃ r', readSymbol (symbolsAt s i m r) = .raised .invalidHuffmanCode (symbolsAt s (i + 1) m r') ∧
      r.TakenTo (maxOf (symbolLens s i)) r' := by
  obtain ⟨grp, -, hd, hread⟩ := readSymbol_symbolsAt hg hi
  obtain ⟨r', hrun, ht⟩ := hd.decodeSymbol_above hv habove hr hp
  refine ⟨r', ?_, ht⟩
  rw [hread, onReader_of_raised (s := symbolsAt s (i + 1) m r) hrun, Res.bind_raised]
  rfl

end

theorem Res.bind_assoc {σ α β γ : Type} (r : Res σ α) (f : α → σ → Res σ β) (g : β → σ → Res σ γ) :
    (r.bind f).bind g = r.bind fun a s => (f a s).bind g := by
  cases r <;> rfl

/-- A step that begins with a read past the end of the bits to come. -/
theorem Reader.PastEnd.readsPastEnd {α : Type} {op : Reader → Res Reader α} {k : Nat} {i : Instr} {s t : State}
    (h : s.rd.PastEnd k (op t.rd)) {f : α → State → Res State Unit}
    (hrun : exec i s = finish ((onReader op t).bind f)) : ReadsPastEnd i k s fun r => { t with rd := r } := by
  refine ⟨fun hf => ?_, fun hs => ?_⟩
  · obtain ⟨r, hop, he⟩ := h.ends hf
    exact ⟨r, by rw [hrun, onReader_of_raised hop, Res.bind_raised, finish], he⟩
  · rw [hrun, onReader, h.hangs hs, Res.lift_fault, Res.bind_fault, finish]

/-! ### The obligation -/

/-- Settles O44: the first symbols by the loop, and then each thing that may follow them. -/
theorem symbolsStep : Obligations.SymbolsStep := by
  refine ⟨fun s body rest m hf hr hg hlegal hp hm => ?_, fun s body rest m hf hr hg hbegun hp hm => ?_⟩
  · obtain ⟨hbegun, hlt⟩ := symbolsLegal_iff.1 hlegal
    obtain ⟨hbody, halpha, -, hlen⟩ := symbolsBegun_iff.1 hbegun
    rw [symbolBits_concat, List.append_assoc] at hp
    rw [stageRun_append] at hm
    obtain ⟨⟨⟩, m₀, hm₀, hm⟩ := Res.bind_eq_ok.1 hm
    obtain ⟨⟨⟩, m₁, hm₁, hm⟩ := Res.bind_eq_ok.1 hm
    obtain rfl : m₁ = m := (Res.ok.inj hm).2
    obtain ⟨r₀, hrun, ht₀, hp₀⟩ := exec_stepSymbols_run hf hg halpha hbody hlen hr hp hm₀
    obtain ⟨r₁, hread, ht₁, -⟩ := readSymbol_reads hg hlt (by omega) m₀ ht₀.wf hp₀
    refine ⟨r₁, ?_, ?_⟩
    · rw [hrun, symbolsLoop_of_eob (by omega) (hread.trans (elemSymbolCode_eob hm₁))]
      rfl
    · rw [symbolBits_concat, List.length_append]
      exact Reader.takenTo_add ht₀ ht₁
  · obtain ⟨hbody, halpha, -, hlen⟩ := symbolsBegun_iff.1 hbegun
    obtain ⟨r₀, hrun, ht₀, hp₀⟩ := exec_stepSymbols_run hf hg halpha hbody hlen hr hp hm
    refine ⟨fun hall => ⟨r₀, ?_, ht₀⟩, fun lens hlens hlt => ?_⟩
    · rw [hrun, hall, Nat.sub_self]
      rfl
    · subst hlens
      obtain ⟨k, hk⟩ := Nat.exists_eq_add_of_lt hlt
      rw [hk, Nat.add_assoc, Nat.add_sub_cancel_left] at hrun
      refine ⟨fun sym rest' e m' hsym hrest hm' => ?_, fun v hv _ htake habove => ?_, fun hshort hno => ?_⟩
      · obtain ⟨r₁, hread, ht₁⟩ := readSymbol_of_raised hg hlt ht₀.wf (by omega) (hp₀.trans hrest) hm'
        refine ⟨r₁, hrun.trans (finish_of_raised (symbolsLoop_of_raised hread)), ?_⟩
        rw [symbolBits_concat, List.length_append]
        exact Reader.takenTo_add ht₀ ht₁
      · have hsplit : r₀.pending = toBits (maxOf (symbolLens s body.length)) v ++
            rest.drop (maxOf (symbolLens s body.length)) := by
          rw [hp₀, ← htake, List.take_append_drop]
        obtain ⟨r₁, hread, ht₁⟩ := readSymbol_above hg hlt ht₀.wf hv habove hsplit
        exact ⟨r₁, hrun.trans (finish_of_raised (symbolsLoop_of_raised hread)), Reader.takenTo_add ht₀ ht₁⟩
      · obtain ⟨grp, -, hd, hread⟩ := readSymbol_symbolsAt hg hlt
        subst hp₀
        have hend := ht₀.pastEnd (by simp [hp]) (hd.decodeSymbol_pastEnd ht₀.wf hshort hno)
        rw [symbolsLoop, hread, Res.bind_assoc] at hrun
        exact hend.readsPastEnd (t := symbolsAt s (body.length + 1) m r₀) hrun

end Sys2Proof.Machine
end

section
/-! PROOFS. The operations of the units issued on their own: BC_READ_BITS (spec/40_bit_channel.md R140, R141), and what
each operation leaves unchanged. -/

namespace Sys2Proof.Machine

/-- An operation of the bit reader, issued on its own, that completes. -/
theorem finishRet_onReader_of_ok {α : Type} {op : Reader → Res Reader α} (f : α → UnitResult) {s : State} {v : α}
    {r : Reader} (h : op s.rd = .ok v r) : finishRet f (onReader op s) = .next { s with rd := r, ret := f v } := by
  rw [onReader_of_ok h, finishRet]

/-- Settles O21: what `readBits` does when the bits needed are there, by `readBits_spec`. -/
theorem readBitsTakesNextBits : Obligations.ReadBitsTakesNextBits := by
  intro n s hn hw hp
  obtain ⟨v, r, hrun, hv, hbits, ht⟩ := readBits_spec hn s.rd hw hp
  exact ⟨v, r, finishRet_onReader_of_ok .nat hrun, hv, hbits, ht⟩

/-! ### Frames of an operation issued on its own -/

section
variable {s t : State}

/-- An operation that returns a value: its frame, and what is returned. -/
theorem finishRet_frame {α : Type} {f : State → State → State} (hf : IsFrame f) {g : α → UnitResult} {r : Res State α}
    (hr : r.Moves f s) (h : finishRet g r = .next t) (herror : Within withErrorOf f := by exact fun _ _ => rfl)
    (hret : ∀ (t s : State) (x : UnitResult), f { t with ret := x } s = f t s := by exact fun _ _ _ => rfl) :
    t = { f t s with ret := t.ret } := by
  obtain ⟨a, u, rfl, rfl⟩ | ⟨e, u, rfl, rfl⟩ := finishRet_eq_next.1 h
  · rw [hret]
    exact congrArg (fun x : State => { x with ret := g a }) hr.frame
  · have hframe := (hf.trans hr (hf.widen (takeError_move e u) herror)).frame
    exact congrArg (fun x : State => { x with ret := (takeError e u).ret }) hframe

/-- An operation of the bit writer: the writer, and the latched error of a sink that fails. -/
theorem finishWriter_frame {op : Writer → Res Writer Unit} (hop : Writer.Keeps op)
    (h : finishWriter (onEncoder (onWriter op) s) = .next t) :
    t = { s with
      enc :=
        { s.enc with
          wr := t.enc.wr
          state := t.enc.state
          errKind := t.enc.errKind
          errSub := t.enc.errSub } } ∧
      (s.enc.wr.failure = none →
        t.enc.state = s.enc.state ∧ t.enc.errKind = s.enc.errKind ∧ t.enc.errSub = s.enc.errSub) := by
  cases hrun : op s.enc.wr with
  | ok _ w =>
    rw [finishWriter_of_ok hrun] at h
    cases h
    exact ⟨rfl, fun _ => ⟨rfl, rfl, rfl⟩⟩
  | raised e w =>
    have hfails : s.enc.wr.failure.isSome = true := by
      have hend := hop s.enc.wr
      rw [hrun] at hend
      exact hend.1
    rw [finishWriter_of_raised hrun] at h
    cases h
    refine ⟨rfl, fun hnone => ?_⟩
    rw [hnone] at hfails
    cases hfails
  | fault g => simp [onEncoder, onWriter, hrun, finishWriter] at h
  | refused q => simp [onEncoder, onWriter, hrun, finishWriter] at h

/-- An operation that only computes a value: it completes in the state it starts in, or gives no next state. -/
def Res.Pure {α : Type} (s : State) (r : Res State α) : Prop := r.Ends (· = s) fun _ => False

theorem finishRet_pure_frame {α : Type} {f : α → UnitResult} {r : Res State α} (hr : r.Pure s)
    (h : finishRet f r = .next t) : t = { s with ret := t.ret } := by
  obtain ⟨a, u, rfl, rfl⟩ | ⟨e, u, rfl, -⟩ := finishRet_eq_next.1 h
  · obtain rfl : u = s := hr
    rfl
  · exact hr.elim

theorem allocate_pure (f : List Nat) (maxLen : Nat) (s : State) : (allocate f maxLen s).Pure s := by
  unfold allocate
  split
  · trivial
  · split
    · rfl
    · split
      · trivial
      · rfl

theorem codes_pure (lens : List Nat) (s : State) : (codes lens s).Pure s := by
  unfold codes
  split
  · trivial
  · rfl

theorem mtfEncode_pure (bytes inUse : List Byte) (s : State) : (mtfEncode bytes inUse s).Pure s := by
  unfold mtfEncode
  split
  · cases mtfEncodeLoop inUse bytes (List.range inUse.length) 0 with
    | some out => rfl
    | none => trivial
  · trivial

/-- HT_BUILD replaces the tables of its group alone, and not its lengths (R190). -/
theorem exec_htBuild_frame {g : Nat} (h : exec (.htBuild g) s = .next t) :
    t = { s with groups := t.groups } ∧ (∀ i, i ≠ g → t.groups[i]? = s.groups[i]?) ∧
      (t.groups[g]?).map Group.len = (s.groups[g]?).map Group.len := by
  have h : finish (buildTable g s) = .next t := h
  unfold buildTable at h
  split at h
  · split at h
    · rename_i grp hgrp
      unfold buildGroup at h
      split at h
      · cases h
      · cases h
        refine ⟨rfl, fun i hi => Vector.getElem?_setIfInBounds_ne (Ne.symm hi), ?_⟩
        have hg : g < 6 := (Vector.getElem?_eq_some_iff.1 hgrp).1
        rw [Vector.getElem?_setIfInBounds_self_of_lt hg, hgrp]
        rfl
    · cases h
  · cases h

end

/-! ### The permutation inverter and the output registers -/

theorem scatter_ends (capacity : Nat) (ll : Memory) (n i : Nat) (p : PermRegs) :
    (scatter capacity ll n i p).Ends (fun _ => True) fun _ => False := by
  induction n generalizing i p with
  | zero => trivial
  | succ n ih =>
    have hone : (scatterOne capacity ll i p).Ends (fun _ => True) fun _ => False := by
      refine .entry fun b _ => .entry fun c _ => ?_
      split <;> trivial
    exact hone.bind fun _ p' _ => ih (i + 1) p'

/-- PI_BUILD changes the permutation's arrays alone, and raises nothing (R275, R276). -/
theorem buildPermutation_ends (s : State) : (buildPermutation s).Ends (fun t => t = permFrame t s) fun _ => False := by
  unfold buildPermutation
  split
  · trivial
  · exact ((scatter_ends _ _ _ _ _).mono (fun _ _ => rfl) fun _ h => h).lift

/-- The masked walk byte changes the derandomiser's registers alone (R282). -/
theorem derandomise_frame (b : Byte) (o : OutputRegs) :
    (derandomise b o).2 =
      { o with rNToGo := (derandomise b o).2.rNToGo, rTPos := (derandomise b o).2.rTPos } := by
  unfold derandomise
  split <;> rfl

/-- What the walk changes of the output registers (R278). -/
def walkFrame (o' o : OutputRegs) : OutputRegs :=
  { o with walkPtr := o'.walkPtr, walked := o'.walked, rNToGo := o'.rNToGo, rTPos := o'.rTPos }

theorem nextWalkByte_ends (v : WalkView) (o : OutputRegs) :
    (nextWalkByte v o).Ends (fun o' => o' = walkFrame o' o) fun _ => False := by
  unfold nextWalkByte
  split
  · refine .entry fun b _ => .entry fun next _ => ?_
    simp only
    split
    · rw [Res.Ends, derandomise_frame]
      rfl
    · rfl
  · trivial

/-- The run-length stage leaves the running CRC alone (R285). -/
theorem nextOutputByte_ends (v : WalkView) (o : OutputRegs) :
    (nextOutputByte v o).Ends (fun o' => o'.crcRun = o.crcRun) fun o' => o'.crcRun = o.crcRun := by
  have hwalk : ∀ o : OutputRegs,
      (nextWalkByte v o).Ends (fun o' => o'.crcRun = o.crcRun) fun o' => o'.crcRun = o.crcRun := fun o =>
    (nextWalkByte_ends v o).mono (fun _ h => h ▸ rfl) fun _ h => h.elim
  unfold nextOutputByte
  split
  · rfl
  · split
    · rfl
    · refine (hwalk o).bind fun b o₁ h₁ => ?_
      split
      · exact h₁
      · split
        · simp only
          split
          · exact h₁
          · exact ((hwalk { o₁ with rleCnt := 0 }).mono (fun _ h => h.trans h₁) fun _ h => h.trans h₁).bind
              fun _ _ h => h
        · exact h₁

section
variable {s t : State}

theorem exec_piBuild_frame (h : exec .piBuild s = .next t) : t = { s with perm := t.perm } := by
  have hend := buildPermutation_ends s
  obtain hok | ⟨e, u, hraised, -⟩ := finish_eq_next.1 (show finish (buildPermutation s) = .next t from h)
  · rw [hok] at hend
    exact hend
  · rw [hraised] at hend
    exact hend.elim

theorem exec_piNext_frame (h : exec .piNext s = .next t) :
    t = { s with
      out :=
        { s.out with
          walkPtr := t.out.walkPtr
          walked := t.out.walked
          rNToGo := t.out.rNToGo
          rTPos := t.out.rTPos }
      ret := t.ret } := by
  have hend : (onOutput (nextWalkByte (walkView s)) s).Ends
      (fun u => u = { s with out := walkFrame u.out s.out }) fun _ => False :=
    ((nextWalkByte_ends (walkView s) s.out).mono
      (fun _ h => congrArg (fun o : OutputRegs => { s with out := o }) h) fun _ h => h).lift
  obtain ⟨b, u, hok, rfl⟩ | ⟨e, u, hraised, -⟩ := finishRet_eq_next.1 h
  · rw [hok] at hend
    exact congrArg (fun x : State => { x with ret := .byte b }) hend
  · rw [hraised] at hend
    exact hend.elim

/-- What the run-length stage can change. -/
def rle1Frame (t s : State) : State := { withErrorOf t s with out := { t.out with crcRun := s.out.crcRun } }

theorem rle1Frame_isFrame : IsFrame rle1Frame where
  self _ := rfl
  again _ _ _ := rfl

theorem exec_rle1Next_frame (h : exec .rle1Next s = .next t) : t = { rle1Frame t s with ret := t.ret } := by
  have hput : ∀ o : OutputRegs, o.crcRun = s.out.crcRun → Move rle1Frame s { s with out := o } := fun o ho =>
    ⟨by rw [rle1Frame, ← ho]; rfl, id, id, id, id, id⟩
  have hmoves : (onOutput (nextOutputByte (walkView s)) s).Moves rle1Frame s :=
    ((nextOutputByte_ends (walkView s) s.out).mono hput hput).lift
  exact finishRet_frame rle1Frame_isFrame hmoves h

end

/-! ### The entries of `LL` a decoded symbol stores to -/

/-- `LL` reads as before but in the `n` entries from `nblock` on. -/
def MtfStage.StoresTo (n : Nat) (m m' : MtfStage) : Prop :=
  ∀ a, a < m.nblock.toNat ∨ m.nblock.toNat + n ≤ a → memGet m'.ll a = memGet m.ll a

theorem MtfStage.StoresTo.trans {j k : Nat} {m m' m'' : MtfStage} (h : m.StoresTo j m')
    (hn : m'.nblock.toNat = m.nblock.toNat + j) (h' : m'.StoresTo k m'') : m.StoresTo (j + k) m'' :=
  fun a ha => (h' a (by omega)).trans (h a (by omega))

theorem MtfStage.storesTo_of_ll {m m' : MtfStage} (n : Nat) (h : m'.ll = m.ll) : m.StoresTo n m' :=
  fun _ _ => by rw [h]

/-- A run written and counted. -/
theorem countBytes_pushBytes_stores (b : Byte) (n : Nat) {m : MtfStage} (h : m.nblock.toNat + n < 2 ^ 20) :
    (countBytes b n (pushBytes b n m)).Ends
      (fun m' => m.StoresTo n m' ∧ m'.nblock.toNat = m.nblock.toNat + n) (m.StoresTo n) := by
  obtain ⟨hn, hll⟩ := pushBytes_spec b n m h
  exact .entry fun f _ => ⟨fun a ha => (hll a).trans (if_neg (by omega)), hn⟩

section
variable {capacity : Nat} (hcap : capacity < 2 ^ 20)
include hcap

theorem runEnd_stores (seq : List Byte) (m : MtfStage) :
    (runEnd capacity seq m).Ends
      (fun m' => m.StoresTo m.runS.toNat m' ∧ m'.nblock.toNat = m.nblock.toNat + m.runS.toNat)
      (m.StoresTo m.runS.toNat) := by
  unfold runEnd
  split
  · rename_i h0
    exact ⟨m.storesTo_of_ll _ rfl, by rw [h0]; rfl⟩
  · refine .entry fun v _ => .entry fun b _ => ?_
    split
    · exact m.storesTo_of_ll _ rfl
    · exact (countBytes_pushBytes_stores b _ (by omega)).bind fun _ _ h => h

theorem rankSymbol_stores (seq : List Byte) (sym : Nat) (m : MtfStage) :
    (rankSymbol capacity seq sym m).Ends (m.StoresTo 1) (m.StoresTo 1) := by
  refine .entry fun p _ => .entry fun b _ => ?_
  simp only
  split
  · exact m.storesTo_of_ll _ rfl
  · exact (countBytes_pushBytes_stores (m := { m with mtf := p.2 }) b 1 (by simp only; omega)).mono
      (fun _ h => h.1) fun _ h => h

/-- A decoded symbol stores the pending run's bytes and, for a rank symbol, one more (R212, R213). -/
theorem stageSymbol_stores (map : SymbolMap) (sym : Nat) (m : MtfStage) {n : Nat}
    (hn : n = if sym ≤ 1 then 0 else m.runS.toNat + if sym = map.eob.toNat then 0 else 1) :
    (stageSymbol capacity map sym m).Ends (m.StoresTo n) (m.StoresTo n) := by
  subst hn
  unfold stageSymbol
  split
  · exact m.storesTo_of_ll _ rfl
  · have hrun := runEnd_stores hcap map.seqToUnseq m
    by_cases heob : sym = map.eob.toNat
    · rw [if_pos heob, if_pos heob.le]
      exact hrun.bind fun _ m₁ h₁ => by rw [if_pos heob]; exact h₁.1
    · rw [if_neg heob]
      split
      · refine (hrun.mono (fun _ => id) fun m₁ h₁ a ha => h₁ a (by omega)).bind fun _ m₁ h₁ => ?_
        exact (rankSymbol_stores hcap _ sym m₁).mono (fun _ => h₁.1.trans h₁.2) fun _ => h₁.1.trans h₁.2
      · trivial

end

theorem exec_mtfDecodeSymbol_frame {sym : Nat} {s t : State} (h : exec (.mtfDecodeSymbol sym) s = .next t) :
    t = { withErrorOf t s with sym := t.sym } ∧
      (s.stream.bs100k.toNat ≤ 9 → ∀ a,
        (a < s.sym.nblock.toNat ∨
          s.sym.nblock.toNat +
            (if sym ≤ 1 then 0 else s.sym.runS.toNat + (if sym = s.map.eob.toNat then 0 else 1)) ≤ a) →
        memGet t.sym.ll a = memGet s.sym.ll a) := by
  have h : finish (mtfSymbol sym s) = .next t := h
  refine ⟨(finish_move stageFrame_isFrame (mtfSymbol_moves sym s) h).frame, fun hlevel => ?_⟩
  generalize hn : (if sym ≤ 1 then 0 else s.sym.runS.toNat + if sym = s.map.eob.toNat then 0 else 1) = n
  have hstores : (mtfSymbol sym s).Ends (fun u => s.sym.StoresTo n u.sym) fun u => s.sym.StoresTo n u.sym :=
    Res.Ends.lift (R := fun u : State => s.sym.StoresTo n u.sym) (S := fun u => s.sym.StoresTo n u.sym)
      (stageSymbol_stores (cap_lt hlevel) s.map sym s.sym hn.symm)
  obtain hok | ⟨e, u, hraised, rfl⟩ := finish_eq_next.1 h
  · rw [hok] at hstores
    exact hstores
  · rw [hraised] at hstores
    rw [takeError_sym]
    exact hstores

/-- Settles O58: the frame of each unit's operation. -/
theorem unitFrames : Obligations.UnitFrames := by
  intro s t
  refine ⟨fun i hi h => ?_, fun i hi h => ?_, fun i hi h => ?_, fun g => exec_htBuild_frame, fun i hi h => ?_,
    fun c h => ?_, fun b h => ?_, exec_piBuild_frame, exec_piNext_frame, exec_rle1Next_frame,
    fun sym => exec_mtfDecodeSymbol_frame⟩
  · obtain ⟨n, rfl⟩ | rfl | rfl | rfl | ⟨g, rfl⟩ := hi
    · exact finishRet_frame readerFrame_isFrame (onReader_moves (readBits_keeps n) s) h
    · exact finishRet_frame readerFrame_isFrame (onReader_moves readBool_keeps s) h
    · exact finishRet_frame readerFrame_isFrame (onReader_moves readUnary_keeps s) h
    · exact finishRet_frame readerFrame_isFrame (onReader_moves readInt32_keeps s) h
    · exact finishRet_frame readerFrame_isFrame (decodeWith_moves g s) h
  · obtain ⟨n, v, rfl⟩ | ⟨b, rfl⟩ | ⟨j, rfl⟩ | ⟨v, rfl⟩ | rfl := hi
    · exact finishWriter_frame (writeBits_keeps n v) h
    · exact finishWriter_frame (writeBool_keeps b) h
    · exact finishWriter_frame (writeUnary_keeps j) h
    · exact finishWriter_frame (writeInt32_keeps v) h
    · exact finishWriter_frame flush_keeps h
  · obtain ⟨f, maxLen, rfl⟩ | ⟨lens, rfl⟩ | ⟨bytes, inUse, rfl⟩ | rfl := hi
    · exact finishRet_pure_frame (allocate_pure f maxLen s) h
    · exact finishRet_pure_frame (codes_pure lens s) h
    · exact finishRet_pure_frame (mtfEncode_pure bytes inUse s) h
    · cases h
      rfl
  · obtain rfl | ⟨b, rfl⟩ := hi <;> cases h <;> rfl
  · cases h
    rfl
  · cases h
    exact congrArg (fun o : OutputRegs => { s with out := o, ret := .byte (derandomise b s.out).1 })
      (derandomise_frame b s.out)

end Sys2Proof.Machine
end

section
/-! PROOFS. The operand forms of the bit reader (spec/40_bit_channel.md R142 to R144): a boolean, a unary number and a
32-bit integer, where their bits are there and where they are not; and reading from an endless source (R359). -/

namespace Sys2Proof.Machine

/-! ### The bits there are -/

theorem Reader.TakenTo.after {n : Nat} {r r' : Reader} (h : r.TakenTo n r') : r'.after = r.after := h.2.2.2.2.2

theorem Reader.reads_ok {α : Type} (v : α) : Reader.Reads (fun r => .ok v r) [] v :=
  fun r _ hw hp => ⟨r, rfl, Reader.takenTo_zero hw, hp⟩

/-- A boolean (R142). -/
theorem readBool_reads (b : Bool) : Reader.Reads readBool [b] b := by
  intro r rest hw hp
  obtain ⟨r', hrun, ht, hp'⟩ := readBits_reads (n := 1) (by decide) b.toNat_lt r rest hw (by rwa [toBits_one])
  refine ⟨r', ?_, ht, hp'⟩
  rw [readBool, hrun]
  cases b <;> rfl

/-- A 32-bit integer: its halves one after the other (R144). -/
theorem readInt32_reads {v : Nat} (hv : v < 2 ^ 32) : Reader.Reads readInt32 (toBits 32 v) v := by
  have hsplit : toBits 32 v = toBits 16 (v / 2 ^ 16) ++ (toBits 16 (v % 2 ^ 16) ++ []) := by
    rw [toBits_mod, List.append_nil]
    exact toBits_add 16 16 v
  have hjoin : v / 2 ^ 16 * 65536 + v % 2 ^ 16 = v := Nat.div_add_mod' v 65536
  have hhi := readBits_reads (n := 16) (x := v / 2 ^ 16) (by decide) (by omega)
  have hlo := readBits_reads (n := 16) (x := v % 2 ^ 16) (by decide) (by omega)
  rw [hsplit]
  refine hhi.bind (hlo.bind (w := v) ?_)
  rw [hjoin]
  exact Reader.reads_ok v

theorem available_eq (r : Reader) : available r = r.pending.length + 8 * (cycleOf r).length := by
  rw [available, Reader.pending_length, Reader.sourceBits]
  cases r.src with
  | none => rfl
  | some src => rw [bitsOfBytes_length]

/-- A unary number: its 1 bits and the 0 bit after them (R143). -/
theorem readUnaryLoop_reads {k n : Nat} (hk : n < k) (j : Nat) :
    Reader.Reads (readUnaryLoop k j) (List.replicate n true ++ [false]) (j + n) := by
  induction n generalizing k j with
  | zero =>
    obtain ⟨k, rfl⟩ := Nat.exists_eq_add_of_lt hk
    rw [Nat.zero_add]
    exact (readBool_reads false).bind (bits' := []) (Reader.reads_ok j)
  | succ n ih =>
    obtain ⟨k, rfl⟩ := Nat.exists_eq_add_of_le' (show 1 ≤ k by omega)
    have hmore := ih (k := k) (by omega) (j + 1)
    rw [Nat.add_assoc, Nat.add_comm 1 n] at hmore
    exact (readBool_reads true).bind hmore

theorem readUnary_reads (j : Nat) : Reader.Reads readUnary (List.replicate j true ++ [false]) j := by
  intro r rest hw hp
  have hk : j < available r := by
    rw [available_eq, hp]
    simp only [List.length_append, List.length_replicate, List.length_singleton]
    omega
  have h := readUnaryLoop_reads hk 0 r rest hw hp
  rwa [Nat.zero_add] at h

/-! ### Too few bits -/

section
variable {α β : Type} {k : Nat} {r : Reader}

theorem Reader.PastEnd.map {o : Res Reader α} (h : r.PastEnd k o) (f : α → β) : r.PastEnd k (o.map f) where
  ends hf := by
    obtain ⟨r', ho, he⟩ := h.ends hf
    exact ⟨r', by rw [ho, Res.map], he⟩
  hangs hs := by rw [h.hangs hs, Res.map]

/-- What an endless source gives round and round depends on what it does after its bytes alone. -/
theorem cycleOf_eq (r : Reader) : cycleOf r =
    match r.after with
    | some (.repeats b more) => b :: more
    | _ => [] := by
  unfold cycleOf Reader.after
  cases r.src with
  | none => rfl
  | some src =>
    obtain ⟨bytes, after⟩ := src
    cases after <;> rfl

theorem cycleOf_congr {r' : Reader} (h : r'.after = r.after) : cycleOf r' = cycleOf r := by
  rw [cycleOf_eq, cycleOf_eq, h]

/-- Only a source that ends or hangs is read past its end. -/
theorem Reader.PastEnd.of_not_endless {o : Res Reader α} (h : cycleOf r = [] → r.PastEnd k o) : r.PastEnd k o where
  ends hf := by
    have hends : r.after = some .ends := by simpa [Reader.finite] using hf
    exact (h (by rw [cycleOf_eq, hends])).ends hf
  hangs hs := (h (by rw [cycleOf_eq, hs])).hangs hs

end

theorem readBool_pastEnd {r : Reader} (hw : r.wf = true) (hp : r.pending = []) : r.PastEnd 0 (readBool r) :=
  (readBits_pastEnd (n := 1) (by decide) hw (by simp [hp])).map _

/-- A 32-bit integer whose bits are not all there: its second half is read where those of the first are (R144). -/
theorem readInt32_pastEnd {r : Reader} (hw : r.wf = true) (hp : r.pending.length < 32) :
    r.PastEnd (if r.pending.length < 16 then 0 else 16) (readInt32 r) := by
  unfold readInt32
  split
  · rename_i hlt
    exact (readBits_pastEnd (by decide) hw hlt).bind _
  · rename_i hge
    have hle := Nat.le_of_not_lt hge
    obtain ⟨hi, r₁, hrun, -, -, ht⟩ := readBits_spec (n := 16) (by decide) r hw hle
    have hshort : r₁.pending.length < 16 := by
      rw [ht.pending, List.length_drop]
      omega
    rw [hrun, Res.bind_ok]
    exact ht.pastEnd hle ((readBits_pastEnd (by decide) ht.wf hshort).bind _)

/-- Nothing but 1 bits, and no end of them: all are taken, and the read of the next one fails (R143). -/
theorem readUnaryLoop_pastEnd (k j : Nat) {r : Reader} (hw : r.wf = true) (hcycle : cycleOf r = [])
    (hones : r.pending.all id = true) (hk : r.pending.length ≤ k) :
    r.PastEnd r.pending.length (readUnaryLoop k j r) := by
  induction k generalizing j r with
  | zero =>
    have hp : r.pending = [] := List.eq_nil_of_length_eq_zero (Nat.le_zero.1 hk)
    rw [readUnaryLoop, hcycle, hp]
    exact (readBool_pastEnd hw hp).bind _
  | succ k ih =>
    rw [readUnaryLoop]
    match hp : r.pending with
    | [] => exact (readBool_pastEnd hw hp).bind _
    | b :: rest =>
      rw [hp, List.all_cons, Bool.and_eq_true] at hones
      obtain ⟨rfl, hrest⟩ : b = true ∧ rest.all id = true := hones
      obtain ⟨r₁, hrun, ht, hp₁⟩ := readBool_reads true r rest hw hp
      have hcycle₁ : cycleOf r₁ = [] := (cycleOf_congr ht.after).trans hcycle
      have h := ih (j + 1) ht.wf hcycle₁ (by rwa [hp₁]) (by rw [hp₁]; rw [hp] at hk; exact Nat.le_of_succ_le_succ hk)
      rw [hp₁] at h
      rw [hrun, Res.bind_ok, if_pos rfl, List.length_cons, Nat.add_comm]
      exact ht.pastEnd (by simp [hp]) h

theorem readUnary_pastEnd {r : Reader} (hw : r.wf = true) (hones : r.pending.all id = true) :
    r.PastEnd r.pending.length (readUnary r) :=
  .of_not_endless fun hcycle =>
    readUnaryLoop_pastEnd _ 0 hw hcycle hones (by rw [available_eq]; exact Nat.le_add_right _ _)

/-! ### An endless source (R359, log 17) -/

/-- The bits of so many rounds of an endless source. -/
def roundBits (round : List Byte) (j : Nat) : List Bool := bitsOfBytes (List.replicate j round).flatten

theorem roundBits_add (round : List Byte) (i j : Nat) :
    roundBits round (i + j) = roundBits round i ++ roundBits round j := by
  rw [roundBits, List.replicate_add, List.flatten_append, bitsOfBytes_append]
  rfl

section
variable {b : Byte} {more : List Byte}

/-- A byte fetched from an endless source, where the bytes listed for it are first filled up by a round, if none is
left. -/
theorem fetchByte_of_repeats {r : Reader} (hafter : r.after = some (.repeats b more)) :
    ∃ (x : Byte) (rest : List Byte) (i : Nat),
      fetchByte r = .byte x { bytes := rest, after := .repeats b more } ∧ i ≤ 1 ∧
        { r with src := some { bytes := x :: rest, after := .repeats b more } }.pending =
          r.pending ++ roundBits (b :: more) i := by
  obtain ⟨⟨bytes, after⟩, hs, rfl⟩ : ∃ src : ByteSource, r.src = some src ∧ src.after = .repeats b more :=
    Option.map_eq_some_iff.1 hafter
  cases bytes with
  | nil =>
    refine ⟨b, more, 1, by simp only [fetchByte, hs], Nat.le_refl 1, ?_⟩
    simp [Reader.pending, Reader.sourceBits, hs, roundBits, bitsOfBytes]
  | cons x rest =>
    refine ⟨x, rest, 0, by simp only [fetchByte, hs], Nat.zero_le 1, ?_⟩
    simp [Reader.pending, Reader.sourceBits, hs, roundBits, bitsOfBytes]

/-- A refill from an endless source always completes: a round for each byte fetched is more than enough. -/
theorem refill_of_repeats {n : Nat} (hn : n ≤ 24) (k : Nat) {r : Reader} (hw : r.wf = true)
    (hafter : r.after = some (.repeats b more)) (hk : n - r.live.toNat ≤ 8 * k) :
    ∃ r' j, refill k n r = .ok () r' ∧ r'.wf = true ∧ n ≤ r'.live.toNat ∧ r'.after = some (.repeats b more) ∧
      j ≤ r.fetches n ∧ r'.pending = r.pending ++ roundBits (b :: more) j := by
  induction k generalizing r with
  | zero =>
    exact ⟨r, 0, rfl, hw, by omega, hafter, Nat.zero_le _, by simp [roundBits, bitsOfBytes]⟩
  | succ k ih =>
    simp only [refill]
    split
    · rename_i hlt
      obtain ⟨x, rest, i, hfetch, hi, hp⟩ := fetchByte_of_repeats hafter
      obtain ⟨hw₁, hl₁, hp₁⟩ := takeByte_spec
        (r := { r with src := some { bytes := x :: rest, after := .repeats b more } }) hw
        (Nat.lt_of_lt_of_le hlt hn) rfl
      obtain ⟨r', j, hrun, hw', hlive, hafter', hj, hp'⟩ := ih hw₁ rfl (by rw [hl₁]; simp only; omega)
      rw [hfetch]
      refine ⟨r', i + j, hrun, hw', hlive, hafter', ?_, ?_⟩
      · simp only [Reader.fetches, hl₁] at hj ⊢
        omega
      · rw [hp', hp₁, hp, List.append_assoc, ← roundBits_add]
    · exact ⟨r, 0, rfl, hw, by omega, hafter, Nat.zero_le _, by simp [roundBits, bitsOfBytes]⟩

/-- A field read from an endless source: its next bits, and those of as many rounds as it takes. -/
theorem readBits_of_repeats {n : Nat} (hn : n ≤ 24) {r : Reader} (hw : r.wf = true)
    (hafter : r.after = some (.repeats b more)) :
    ∃ v r' j, readBits n r = .ok v r' ∧ v < 2 ^ n ∧ j ≤ 3 ∧ n ≤ (r.pending ++ roundBits (b :: more) j).length ∧
      toBits n v = (r.pending ++ roundBits (b :: more) j).take n ∧
      r'.pending = (r.pending ++ roundBits (b :: more) j).drop n ∧ r'.wf = true ∧ r'.after = r.after := by
  obtain ⟨r₁, j, hrun, hw₁, hlive, hafter₁, hj, hp⟩ := refill_of_repeats hn n hw hafter (by omega)
  have hready : n ≤ r₁.pending.length := by
    rw [Reader.pending_length]
    omega
  have hagain : refill n n r₁ = .ok () r₁ := by
    cases n with
    | zero => rfl
    | succ n => rw [refill, if_neg (Nat.not_lt.2 hlive)]
  have hsame : readBits n r = readBits n r₁ := by
    rw [readBits, readBits, hrun, hagain]
  obtain ⟨v, r', hread, hv, hbits, ht⟩ := readBits_spec hn r₁ hw₁ hready
  obtain ⟨hp', -, -, -, hw', hafter'⟩ := ht
  refine ⟨v, r', j, hsame.trans hread, hv, ?_, ?_⟩
  · unfold Reader.fetches at hj
    omega
  · rw [← hp]
    exact ⟨hready, hbits, hp', hw', hafter'.trans (hafter₁.trans hafter.symm)⟩

/-- Rounds of bytes `0xFF` are nothing but 1 bits. -/
theorem roundBits_of_ones {round : List Byte} (h : ∀ x ∈ round, x = 0xFF) (j : Nat) :
    (roundBits round j).all id = true := by
  have hbytes : ∀ bytes : List Byte, (∀ x ∈ bytes, x = 0xFF) → (bitsOfBytes bytes).all id = true := by
    intro bytes hall
    rw [bitsOfBytes, List.all_flatMap, List.all_eq_true]
    intro x hx
    rw [hall x hx]
    decide
  refine hbytes _ fun x hx => ?_
  obtain ⟨l, hl, hxl⟩ := List.mem_flatten.1 hx
  rw [(List.mem_replicate.1 hl).2] at hxl
  exact h x hxl

/-- A unary code of nothing but 1 bits never ends. -/
theorem readUnaryLoop_never_ends (hround : ∀ x ∈ b :: more, x = 0xFF) (k j : Nat) {r : Reader} (hw : r.wf = true)
    (hafter : r.after = some (.repeats b more)) (hones : r.pending.all id = true) :
    readUnaryLoop k j r = .fault .inputNeverEnds := by
  induction k generalizing j r with
  | zero => rw [readUnaryLoop, cycleOf_eq, hafter]
  | succ k ih =>
    obtain ⟨v, r', i, hrun, hv, -, hlen, hbits, hp, hw', hafter'⟩ := readBits_of_repeats (n := 1) (by decide) hw hafter
    have hall : (r.pending ++ roundBits (b :: more) i).all id = true := by
      rw [List.all_append, hones, roundBits_of_ones hround, Bool.and_self]
    generalize r.pending ++ roundBits (b :: more) i = bits at hlen hbits hp hall
    obtain ⟨x, rest, rfl⟩ := List.exists_cons_of_length_pos hlen
    rw [List.all_cons, Bool.and_eq_true] at hall
    obtain ⟨rfl, hrest⟩ : x = true ∧ rest.all id = true := hall
    obtain rfl : v = 1 := by
      have hmod := toBits_inj 1 v 1 hbits
      omega
    have hbool : readBool r = .ok true r' := by
      rw [readBool, hrun]
      rfl
    rw [readUnaryLoop, hbool, Res.bind_ok, if_pos rfl]
    exact ih (j + 1) hw' (hafter'.trans hafter) (by rw [hp]; exact hrest)

end

end Sys2Proof.Machine
end

section
/-! PROOFS. Operations and steps that read past the end of the bits to come: HT_DECODE (spec/42_huffman_tables.md R195),
STEP_STREAM_HEADER and STEP_TRAILER (spec/46_stream_controller.md R302, R303), STEP_HEADER (spec/44_block_engine.md
R231); and BC_READ_BITS from an endless source (R359). -/

namespace Sys2Proof.Machine

/-- A read past the end by an operation issued on its own. -/
theorem Reader.PastEnd.readsPastEnd_ret {α : Type} {op : Reader → Res Reader α} {k : Nat} {i : Instr} {s : State}
    {f : α → UnitResult} (h : s.rd.PastEnd k (op s.rd)) (hrun : exec i s = finishRet f (onReader op s)) :
    ReadsPastEnd i k s fun r => { s with rd := r } := by
  refine ⟨fun hf => ?_, fun hs => ?_⟩
  · obtain ⟨r, hop, he⟩ := h.ends hf
    exact ⟨r, by rw [hrun, onReader_of_raised hop, finishRet], he⟩
  · rw [hrun, onReader, h.hangs hs, Res.lift_fault, finishRet]

/-- HT_DECODE on a group whose tables are of a code that decodes: bits that end before a codeword does. -/
theorem exec_htDecode_pastEnd {s : State} (hw : s.rd.wf = true) {g : Nat} {grp : Group} {lens : List Nat}
    (hg : g < s.sel.nGroups.toNat) (hgrp : s.groups[g]? = some grp) (hd : grp.Decodes lens)
    (hshort : s.rd.pending.length < maxOf lens) (hno : noCodeword lens s.rd.pending) :
    ReadsPastEnd (.htDecode g) (takenOfPartial lens s.rd.pending) s fun r => { s with rd := r } := by
  refine (hd.decodeSymbol_pastEnd hw hshort hno).readsPastEnd_ret (f := .nat) ?_
  simp only [exec, execHtDecode, decodeWith, if_pos hg, hgrp]

theorem readStreamMagic_append (magic more : List Byte) (s : State) :
    readStreamMagic (magic ++ more) s = (readStreamMagic magic s).bind fun _ s => readStreamMagic more s := by
  induction magic generalizing s with
  | nil => rfl
  | cons e magic ih =>
    rw [List.cons_append, readStreamMagic, readStreamMagic, Res.bind_assoc]
    congr 1
    funext v s
    split
    · rfl
    · exact ih s

/-- After the first expected bytes, the stream header reads one byte more. -/
theorem readStreamHeader_after (k : Nat) {s t : State}
    (h : readStreamMagic (Config.streamMagic.take k) s = .ok () t) :
    ∃ f, readStreamHeader s = (onReader (readBits 8) t).bind f := by
  have hmore : readStreamMagic Config.streamMagic s = readStreamMagic (Config.streamMagic.drop k) t := by
    conv => lhs; rw [← List.take_append_drop k Config.streamMagic]
    rw [readStreamMagic_append, h, Res.bind_ok]
  rw [readStreamHeader, hmore]
  cases Config.streamMagic.drop k with
  | nil => exact ⟨_, rfl⟩
  | cons e more => exact ⟨_, by rw [readStreamMagic, Res.bind_assoc]⟩

/-- STEP_STREAM_HEADER where the bits end within the byte after `k` good ones (R302). -/
theorem exec_stepStreamHeader_pastEnd {s : State} (hw : s.rd.wf = true) (hf : s.fsm = .streamHeader) {k : Nat}
    (hk : k < 4) (hlen : s.rd.pending.length / 8 = k)
    (hp : s.rd.pending.take (8 * k) = bitsOfBytes (Config.streamMagic.take k)) :
    ReadsPastEnd .stepStreamHeader (8 * k) s fun r => { s with rd := r, pos := .streamHeader } := by
  have hsplit : s.rd.pending = bitsOfBytes (Config.streamMagic.take k) ++ s.rd.pending.drop (8 * k) := by
    rw [← hp, List.take_append_drop]
  have hmagic : (Config.streamMagic.take k).length = k := by
    rw [List.length_take]
    exact Nat.min_eq_left (Nat.le_of_lt_succ hk)
  obtain ⟨r₁, hrun, ht, hp₁⟩ :=
    readStreamMagic_of_match (Config.streamMagic.take k) (s := { s with pos := .streamHeader }) hw hsplit
  rw [hmagic] at ht
  obtain ⟨f, hf'⟩ := readStreamHeader_after k hrun
  have hshort : r₁.pending.length < 8 := by
    rw [hp₁, List.length_drop]
    omega
  have hle : 8 * k ≤ s.rd.pending.length := by omega
  have hend : s.rd.PastEnd (8 * k) (readBits 8 r₁) :=
    ht.pastEnd hle (readBits_pastEnd (by decide) ht.wf hshort)
  exact hend.readsPastEnd (t := { s with pos := .streamHeader, rd := r₁ }) (f := f)
    (by rw [exec_stepStreamHeader_of_fsm hf, hf'])

/-- STEP_HEADER where the bits end within the magic (R231). -/
theorem exec_stepHeader_pastEnd {s : State} (hw : s.rd.wf = true) (hf : s.fsm = .header)
    (hp : s.rd.pending.length < 48) :
    ReadsPastEnd .stepHeader (if s.rd.pending.length < 24 then 0 else 24) s
      fun r => { s with rd := r, pos := .magic } := by
  have hstep : exec .stepHeader s = finish (readMagic { s with pos := .magic }) :=
    stepOf_of_fsm hf fun s => readElement { s with pos := .magic }
  split
  · rename_i hlt
    exact (readBits_pastEnd (by decide) hw hlt).readsPastEnd (t := { s with pos := .magic })
      (hstep.trans (by rw [readMagic]))
  · rename_i hge
    have hle := Nat.le_of_not_lt hge
    obtain ⟨hi, r₁, hrun, -, -, ht⟩ := readBits_spec (n := 24) (by decide) s.rd hw hle
    have hshort : r₁.pending.length < 24 := by
      rw [ht.pending, List.length_drop]
      omega
    exact (ht.pastEnd hle (readBits_pastEnd (by decide) ht.wf hshort)).readsPastEnd
      (t := { s with pos := .magic, rd := r₁ })
      (hstep.trans (by rw [readMagic, onReader_of_ok (s := { s with pos := .magic }) hrun, Res.bind_ok]))

/-- STEP_TRAILER where the bits end within the combined CRC (R303). -/
theorem exec_stepTrailer_pastEnd {s : State} (hw : s.rd.wf = true) (hf : s.fsm = .trailer)
    (hp : s.rd.pending.length < 32) :
    ReadsPastEnd .stepTrailer (if s.rd.pending.length < 16 then 0 else 16) s
      fun r => { s with rd := r, pos := .trailer } :=
  (readInt32_pastEnd hw hp).readsPastEnd (t := { s with pos := .trailer })
    (f := fun v s => elemCombinedCrc (BitVec.ofNat 32 v) s)
    (stepOf_of_fsm hf fun s => readElement { s with pos := .trailer })

/-- BC_READ_BITS from an endless source. -/
theorem exec_bcReadBits_of_repeats {n : Nat} (hn : n ≤ 24) {s : State} (hw : s.rd.wf = true) {b : Byte}
    {more : List Byte} (hafter : s.rd.after = some (.repeats b more)) :
    ∃ (v : Nat) (r : Reader),
      exec (.bcReadBits n) s = .next { s with rd := r, ret := .nat v } ∧ v < 2 ^ n ∧
        toBits n v = (s.rd.pending ++ bitsOfBytes (List.replicate 3 (b :: more)).flatten).take n ∧
        r.wf = true ∧ r.after = s.rd.after := by
  obtain ⟨v, r, j, hrun, hv, hj, hlen, hbits, -, hw', hafter'⟩ := readBits_of_repeats hn hw hafter
  refine ⟨v, r, finishRet_onReader_of_ok .nat hrun, hv, ?_, hw', hafter'⟩
  obtain ⟨i, hi⟩ := Nat.exists_eq_add_of_le hj
  have hthree : bitsOfBytes (List.replicate 3 (b :: more)).flatten =
      roundBits (b :: more) j ++ roundBits (b :: more) i := by
    rw [← roundBits_add, ← hi]
    rfl
  rw [hthree, ← List.append_assoc, List.take_append_of_le_length hlen, hbits]

end Sys2Proof.Machine
end

section
/-! PROOFS. The elements of a block's tables one after another (spec/44_block_engine.md R232 to R241), as fields read at
the stream's position: what an element gives where its bits are there, and where they end within it. -/

namespace Sys2Proof.Machine

/-! ### A field of the bits to come -/

/-- `op` reads `bits` as `v`, and reads past the end of any bits that stop short of them. -/
structure Reader.Field {α : Type} (op : Reader → Res Reader α) (bits : List Bool) (v : α) : Prop where
  reads : Reader.Reads op bits v
  short : ∀ r : Reader, r.wf = true → r.pending <+: bits → r.pending.length < bits.length →
    ∃ k, k ≤ r.pending.length ∧ r.PastEnd k (op r)

theorem readBits_field {n v : Nat} (hn : n ≤ 24) (hv : v < 2 ^ n) : Reader.Field (readBits n) (toBits n v) v where
  reads := readBits_reads hn hv
  short _ hw _ hlt := ⟨0, Nat.zero_le _, readBits_pastEnd hn hw (by rwa [toBits_length] at hlt)⟩

theorem readBool_field (b : Bool) : Reader.Field readBool [b] b where
  reads := readBool_reads b
  short _ hw _ hlt := ⟨0, Nat.zero_le _, readBool_pastEnd hw (List.eq_nil_of_length_eq_zero (Nat.lt_one_iff.1 hlt))⟩

theorem readInt32_field {v : Nat} (hv : v < 2 ^ 32) : Reader.Field readInt32 (toBits 32 v) v where
  reads := readInt32_reads hv
  short r hw _ hlt := by
    rw [toBits_length] at hlt
    refine ⟨_, ?_, readInt32_pastEnd hw hlt⟩
    split
    · exact Nat.zero_le _
    · omega

/-- What stops within a list followed by one entry more, stops within the list. -/
theorem prefix_of_prefix_concat {α : Type} {p l : List α} {x : α} (h : p <+: l ++ [x])
    (hlt : p.length < (l ++ [x]).length) : p <+: l :=
  List.prefix_of_prefix_length_le h (List.prefix_append l [x])
    (by rw [List.length_append, List.length_singleton] at hlt; exact Nat.le_of_lt_succ hlt)

theorem readUnary_field (j : Nat) : Reader.Field readUnary (List.replicate j true ++ [false]) j where
  reads := readUnary_reads j
  short r hw hp hlt := by
    refine ⟨_, Nat.le_refl _, readUnary_pastEnd hw ?_⟩
    rw [List.all_eq_true]
    exact fun b hb => (List.mem_replicate.1 ((prefix_of_prefix_concat hp hlt).subset hb)).2

/-! ### The registers TABLES writes -/

/-- The registers that the elements of TABLES write, but for the bit reader. -/
structure TablesRegs where
  blk : BlockRegs
  map : SymbolMap
  sel : Selection
  groups : Vector Group 6
  tab : TablesCursor
  pos : WirePos

/-- The state `s` with these registers and this bit reader. -/
def State.withTables (s : State) (t : TablesRegs) (r : Reader) : State :=
  { s with rd := r, blk := t.blk, map := t.map, sel := t.sel, groups := t.groups, tab := t.tab, pos := t.pos }

section
variable {α β : Type} {s : State}

/-- `o` is an operation on `s` that took some of the bits that `r` has to come, and then wanted more than there are. -/
def RunsOut (s : State) (r : Reader) (o : Res State α) : Prop :=
  ∃ (k : Nat) (t : TablesRegs), k ≤ r.pending.length ∧
    (r.finite = true → ∃ r', o = .raised .unexpectedEndOfData (s.withTables t r') ∧ r.EndedAfter k r') ∧
    (r.after = some .silent → o = .fault .fetchHangs)

theorem RunsOut.bind {r : Reader} {o : Res State α} (h : RunsOut s r o) (f : α → State → Res State β) :
    RunsOut s r (o.bind f) := by
  obtain ⟨k, t, hk, hends, hhangs⟩ := h
  refine ⟨k, t, hk, fun hf => ?_, fun hs => by rw [hhangs hs, Res.bind_fault]⟩
  obtain ⟨r', ho, he⟩ := hends hf
  exact ⟨r', by rw [ho, Res.bind_raised], he⟩

/-- What was taken before stays taken. -/
theorem RunsOut.after {m : Nat} {r r₁ : Reader} {o : Res State α} (h : RunsOut s r₁ o) (ht : r.TakenTo m r₁)
    (hm : m ≤ r.pending.length) : RunsOut s r o := by
  obtain ⟨k, t, hk, hends, hhangs⟩ := h
  rw [ht.pending, List.length_drop] at hk
  refine ⟨m + k, t, by omega, fun hf => ?_, fun hs => hhangs (ht.after.trans hs)⟩
  obtain ⟨r', ho, he⟩ := hends (by rwa [Reader.finite, ht.after])
  exact ⟨r', ho, ht.endedAfter hm he⟩

theorem Reader.PastEnd.runsOut {op : Reader → Res Reader α} {k : Nat} {r : Reader} (h : r.PastEnd k (op r))
    (hk : k ≤ r.pending.length) (t : TablesRegs) : RunsOut s r (onReader op (s.withTables t r)) := by
  refine ⟨k, t, hk, fun hf => ?_, fun hs => ?_⟩
  · obtain ⟨r', ho, he⟩ := h.ends hf
    exact ⟨r', onReader_of_raised (s := s.withTables t r) ho, he⟩
  · have hop : op (s.withTables t r).rd = .fault .fetchHangs := h.hangs hs
    rw [onReader, hop, Res.lift_fault]

/-- Where the bits to come stop short of `bits`, the operation runs out of them. -/
def ShortAt (s : State) (op : State → Res State α) (bits : List Bool) (t : TablesRegs) : Prop :=
  ∀ r : Reader, r.wf = true → r.pending <+: bits → r.pending.length < bits.length →
    RunsOut s r (op (s.withTables t r))

/-- From the registers `t` the operation reads `bits` as `v` and leaves `t'`; where they are not all there it runs out
of them. -/
structure FieldAt (s : State) (op : State → Res State α) (bits : List Bool) (v : α) (t t' : TablesRegs) : Prop where
  reads : ∀ (r : Reader) (rest : List Bool), r.wf = true → r.pending = bits ++ rest →
    ∃ r', op (s.withTables t r) = .ok v (s.withTables t' r') ∧ r.TakenTo bits.length r' ∧ r'.pending = rest
  short : ShortAt s op bits t

variable {op : State → Res State α} {k : α → State → Res State β} {bits bits' : List Bool} {v : α} {w : β}
  {t t' t'' : TablesRegs}

theorem Reader.Field.fieldAt {op : Reader → Res Reader α} (h : Reader.Field op bits v) (t : TablesRegs) :
    FieldAt s (onReader op) bits v t t where
  reads r rest hw hp := by
    obtain ⟨r', hrun, ht, hp'⟩ := h.reads r rest hw hp
    exact ⟨r', onReader_of_ok (s := s.withTables t r) hrun, ht, hp'⟩
  short r hw hp hlt := by
    obtain ⟨k, hk, hend⟩ := h.short r hw hp hlt
    exact hend.runsOut hk t

/-- An operation that reads nothing. -/
theorem FieldAt.of_ok (h : ∀ r, op (s.withTables t r) = .ok v (s.withTables t' r)) : FieldAt s op [] v t t' where
  reads r _ hw hp := ⟨r, h r, Reader.takenTo_zero hw, hp⟩
  short _ _ _ hlt := absurd hlt (Nat.not_lt_zero _)

/-- What stops within two lists, one after the other, stops within the first, or holds it and stops within the
second. -/
theorem prefix_append_cases {α : Type} {p l l' : List α} (h : p <+: l ++ l') (hlt : p.length < (l ++ l').length) :
    (p <+: l ∧ p.length < l.length) ∨ ∃ rest, p = l ++ rest ∧ rest <+: l' ∧ rest.length < l'.length := by
  by_cases hl : p.length < l.length
  · exact .inl ⟨List.prefix_of_prefix_length_le h (List.prefix_append l l') hl.le, hl⟩
  · obtain ⟨rest, rfl⟩ := List.prefix_of_prefix_length_le (List.prefix_append l l') h (Nat.le_of_not_lt hl)
    rw [List.length_append, List.length_append] at hlt
    exact .inr ⟨rest, rfl, (List.prefix_append_right_inj l).1 h, Nat.lt_of_add_lt_add_left hlt⟩

theorem FieldAt.bindShort (h : FieldAt s op bits v t t') (hk : ShortAt s (k v) bits' t') :
    ShortAt s (fun u => (op u).bind k) (bits ++ bits') t := by
  intro r hw hp hlt
  obtain ⟨hp₁, hlt₁⟩ | ⟨rest, hp₁, hrest, hlt₁⟩ := prefix_append_cases hp hlt
  · exact (h.short r hw hp₁ hlt₁).bind k
  · obtain ⟨r₁, hrun, ht, rfl⟩ := h.reads r rest hw hp₁
    have hout := hk r₁ ht.wf hrest hlt₁
    simp only [hrun, Res.bind_ok]
    exact hout.after ht (by rw [hp₁, List.length_append]; exact Nat.le_add_right _ _)

theorem FieldAt.bind (h : FieldAt s op bits v t t') (hk : FieldAt s (k v) bits' w t' t'') :
    FieldAt s (fun u => (op u).bind k) (bits ++ bits') w t t'' where
  reads r rest hw hp := by
    rw [List.append_assoc] at hp
    obtain ⟨r₁, hrun₁, ht₁, hp₁⟩ := h.reads r _ hw hp
    obtain ⟨r₂, hrun₂, ht₂, hp₂⟩ := hk.reads r₁ rest ht₁.wf hp₁
    refine ⟨r₂, by simp only [hrun₁, Res.bind_ok, hrun₂], ?_, hp₂⟩
    rw [List.length_append]
    exact Reader.takenTo_add ht₁ ht₂
  short := h.bindShort hk.short

/-- The field and then a step that reads nothing. -/
theorem FieldAt.bind_ok (h : FieldAt s op bits v t t')
    (hk : ∀ r, k v (s.withTables t' r) = .ok w (s.withTables t'' r)) :
    FieldAt s (fun u => (op u).bind k) bits w t t'' := by
  have hall := h.bind (FieldAt.of_ok hk)
  rwa [List.append_nil] at hall

theorem FieldAt.congr {op' : State → Res State α} (h : FieldAt s op bits v t t')
    (hop : ∀ r, op' (s.withTables t r) = op (s.withTables t r)) : FieldAt s op' bits v t t' where
  reads r rest hw hp := by rw [hop]; exact h.reads r rest hw hp
  short r hw hp hlt := by rw [hop]; exact h.short r hw hp hlt

/-- An element that reads a field and acts on it. -/
theorem Reader.Field.element {op : Reader → Res Reader α} {k : α → State → Res State Unit}
    (h : Reader.Field op bits v) (hread : ∀ r, readElement (s.withTables t r) = (onReader op (s.withTables t r)).bind k)
    (hk : ∀ r, k v (s.withTables t r) = .ok () (s.withTables t' r)) : FieldAt s readElement bits () t t' :=
  ((h.fieldAt t).bind_ok hk).congr hread

end

/-! ### Elements one after another -/

/-- From the registers `t` the elements of `bits` are read one after another, none of them the last of TABLES, and leave
`t'`. -/
inductive TablesChain (s : State) : List Bool → TablesRegs → TablesRegs → Prop where
  | nil (t : TablesRegs) : TablesChain s [] t t
  | cons {bits bits' : List Bool} {t t' t'' : TablesRegs} (helem : FieldAt s readElement bits () t t')
      (hbits : 0 < bits.length) (hpos : t'.pos ≠ .symbol) (hmore : TablesChain s bits' t' t'') :
      TablesChain s (bits ++ bits') t t''

section
variable {s : State} {bits bits' : List Bool} {t t' t'' : TablesRegs}

theorem TablesChain.trans (h : TablesChain s bits t t') (h' : TablesChain s bits' t' t'') :
    TablesChain s (bits ++ bits') t t'' := by
  induction h with
  | nil t => exact h'
  | cons helem hbits hpos _ ih =>
    rw [List.append_assoc]
    exact .cons helem hbits hpos (ih h')

theorem FieldAt.chain (h : FieldAt s readElement bits () t t') (hbits : 0 < bits.length) (hpos : t'.pos ≠ .symbol) :
    TablesChain s bits t t' := by
  have hone := TablesChain.cons h hbits hpos (.nil t')
  rwa [List.append_nil] at hone

/-- The loop of TABLES runs out of bits that stop short of `bits`, given a turn for each of them and one more. -/
def LoopShortAt (s : State) (bits : List Bool) (t : TablesRegs) : Prop :=
  ∀ (k : Nat) (r : Reader), r.wf = true → r.pending <+: bits → r.pending.length < bits.length → r.pending.length < k →
    RunsOut s r (tablesLoop k (s.withTables t r))

/-- Within the next element. -/
theorem ShortAt.loop (h : ShortAt s readElement bits t) : LoopShortAt s bits t := by
  intro k r hw hp hlt hk
  obtain ⟨k, rfl⟩ := Nat.exists_eq_add_of_lt hk
  exact (h r hw hp hlt).bind _

/-- After the next element, or within it. -/
theorem FieldAt.loop (h : FieldAt s readElement bits () t t') (hbits : 0 < bits.length) (hpos : t'.pos ≠ .symbol)
    (hmore : LoopShortAt s bits' t') : LoopShortAt s (bits ++ bits') t := by
  intro k r hw hp hlt hk
  obtain ⟨k, rfl⟩ := Nat.exists_eq_add_of_le' (show 1 ≤ k by omega)
  obtain ⟨hp₁, hlt₁⟩ | ⟨rest, hp₁, hrest, hlt₁⟩ := prefix_append_cases hp hlt
  · exact (h.short r hw hp₁ hlt₁).bind _
  · obtain ⟨r₁, hrun, ht, rfl⟩ := h.reads r rest hw hp₁
    have hlen := congrArg List.length hp₁
    rw [List.length_append] at hlen
    have hout := hmore k r₁ ht.wf hrest hlt₁ (by omega)
    have hpos' : (s.withTables t' r₁).pos ≠ .symbol := hpos
    rw [tablesLoop, hrun, Res.bind_ok, if_neg hpos']
    exact hout.after ht (by omega)

/-- After some elements, or within them. -/
theorem TablesChain.loop (h : TablesChain s bits t t') (hmore : LoopShortAt s bits' t') :
    LoopShortAt s (bits ++ bits') t := by
  induction h with
  | nil t => exact hmore
  | cons helem hbits hpos _ ih =>
    rw [List.append_assoc]
    exact helem.loop hbits hpos (ih hmore)

/-- No bits stop short of none. -/
theorem loopShortAt_nil (s : State) (t : TablesRegs) : LoopShortAt s [] t :=
  fun _ _ _ _ hlt => absurd hlt (Nat.not_lt_zero _)

end

end Sys2Proof.Machine
end

section
/-! PROOFS. The tables of a block that are legal (spec/44_block_engine.md R232 to R241), element by element: the fixed
fields, the symbol map, the selectors and the length tables; and STEP_TABLES where the input ends within them. -/

namespace Sys2Proof.Machine

/-! ### The fixed fields (R232 to R234) -/

section
variable {s : State} {blk : BlockRegs} {map : SymbolMap} {sel : Selection} {groups : Vector Group 6}
  {tab : TablesCursor}

theorem blockCrc_field (c : Word) :
    FieldAt s readElement (toBits 32 c.toNat) () ⟨blk, map, sel, groups, tab, .blockCrc⟩
      ⟨{ blk with storedCrc := c }, map, sel, groups, tab, .randomised⟩ :=
  (readInt32_field c.isLt).element (fun _ => rfl) fun _ => by
    rw [BitVec.ofNat_toNat, BitVec.setWidth_eq]
    rfl

theorem randomised_field (b : Bool) :
    FieldAt s readElement [b] () ⟨blk, map, sel, groups, tab, .randomised⟩
      ⟨{ blk with randomised := b }, map, sel, groups, tab, .origPtr⟩ :=
  (readBool_field b).element (fun _ => rfl) fun _ => rfl

theorem origPtr_field (p : BitVec 24) :
    FieldAt s readElement (toBits 24 p.toNat) () ⟨blk, map, sel, groups, tab, .origPtr⟩
      ⟨{ blk with origPtr := p }, map, sel, groups, tab, .usedMap⟩ :=
  (readBits_field (by decide) p.isLt).element (fun _ => rfl) fun _ => by
    rw [BitVec.ofNat_toNat, BitVec.setWidth_eq]
    rfl

/-- The three fields before the symbol map. -/
theorem fixedFields_chain (d : BlockTables) :
    TablesChain s (toBits 32 d.crc.toNat ++ [d.randomised] ++ toBits 24 d.origPtr.toNat)
      ⟨blk, map, sel, groups, tab, .blockCrc⟩
      ⟨{ storedCrc := d.crc, randomised := d.randomised, origPtr := d.origPtr }, map, sel, groups, tab, .usedMap⟩ :=
  (((blockCrc_field d.crc).chain (by simp) nofun).trans
      ((randomised_field d.randomised).chain (by simp) nofun)).trans
    ((origPtr_field d.origPtr).chain (by simp) nofun)

end

/-! ### The symbol map (R236) -/

/-- The bits of a range's sub-map, where it is marked. -/
def subMapBits (m : Option (BitVec 16)) : List Bool :=
  match m with
  | some v => toBits 16 v.toNat
  | none => []

/-- The symbol map of the byte values in use. -/
def symbolMapOf (inUse : List Bool) : SymbolMap :=
  { inUse := inUse
    nInUse := BitVec.ofNat 9 (markedValues inUse).length
    seqToUnseq := markedValues inUse
    alphaSize := BitVec.ofNat 9 ((markedValues inUse).length + 2)
    eob := BitVec.ofNat 9 ((markedValues inUse).length + 1) }

/-- Any bits are those of a number. -/
theorem exists_toBits (bits : List Bool) : ∃ v, v < 2 ^ bits.length ∧ toBits bits.length v = bits := by
  induction bits with
  | nil => exact ⟨0, by decide, rfl⟩
  | cons b bits ih =>
    obtain ⟨v, hv, hbits⟩ := ih
    refine ⟨b.toNat * 2 ^ bits.length + v, ?_, ?_⟩
    · rw [List.length_cons, Nat.pow_succ]
      have hb := b.toNat_le
      have : b.toNat * 2 ^ bits.length ≤ 1 * 2 ^ bits.length := Nat.mul_le_mul_right _ hb
      omega
    · rw [List.length_cons, Nat.add_comm, toBits_join _ _ _ _ hv, toBits_one, hbits]
      rfl

theorem valuesInUse_eq (inUse : List Bool) (b : Nat) :
    valuesInUse b inUse =
      ((List.range' b inUse.length).filter fun i => inUse.getD (i - b) false).map (BitVec.ofNat 8) := by
  induction inUse generalizing b with
  | nil => rfl
  | cons u rest ih =>
    have hrest : (List.range' (b + 1) rest.length).filter (fun i => (u :: rest).getD (i - b) false) =
        (List.range' (b + 1) rest.length).filter fun i => rest.getD (i - (b + 1)) false := by
      refine List.filter_congr fun i hi => ?_
      obtain ⟨hle, -⟩ := List.mem_range'_1.1 hi
      rw [show i - b = i - (b + 1) + 1 by omega, List.getD_cons_succ]
    rw [valuesInUse, ih, List.length_cons, List.range'_succ, List.filter_cons, hrest, Nat.sub_self, List.getD_cons_zero]
    cases u <;> rfl

theorem valuesInUse_eq_markedValues {inUse : List Bool} (h : inUse.length = 256) :
    valuesInUse 0 inUse = markedValues inUse := by
  rw [valuesInUse_eq, h, markedValues, List.range_eq_range']
  rfl

theorem markedValues_length_le (inUse : List Bool) : (markedValues inUse).length ≤ 256 := by
  rw [markedValues, List.length_map]
  exact (List.length_filter_le _ _).trans_eq List.length_range

theorem markedValues_ne_nil {inUse : List Bool} (h : inUse.length = 256) (hany : inUse.any id = true) :
    markedValues inUse ≠ [] := by
  obtain ⟨u, hu, htrue⟩ := List.any_eq_true.1 hany
  obtain ⟨i, hi, rfl⟩ := List.getElem_of_mem hu
  intro hnil
  rw [markedValues, List.map_eq_nil_iff, List.filter_eq_nil_iff] at hnil
  refine hnil i (List.mem_range.2 (h ▸ hi)) ?_
  rw [List.getD_eq_getElem _ _ hi]
  exact htrue

/-- `alphaSize` of a symbol map with a value in use. -/
theorem symbolMapOf_alphaSize (inUse : List Bool) :
    (symbolMapOf inUse).alphaSize.toNat = (markedValues inUse).length + 2 := by
  have hle := markedValues_length_le inUse
  rw [symbolMapOf, BitVec.toNat_ofNat]
  omega

section
variable {s : State} {blk : BlockRegs} {map : SymbolMap} {sel : Selection} {groups : Vector Group 6}
  {tab : TablesCursor} {pos : WirePos}

theorem finishMap_of_any {inUse : List Bool} (hlen : inUse.length = 256) (hany : inUse.any id = true) (r : Reader) :
    finishMap inUse (s.withTables ⟨blk, map, sel, groups, tab, pos⟩ r) =
      .ok () (s.withTables ⟨blk, symbolMapOf inUse, sel, groups, tab, .nGroups⟩ r) := by
  rw [finishMap, valuesInUse_eq_markedValues hlen, if_neg (markedValues_ne_nil hlen hany)]
  rfl

/-- A range marked in `used` or not, at the head of those left. -/
theorem fillUnmarked_succ {used : BitVec 16} {b : Bool} {n : Nat} {rest : List Bool}
    (h : toBits (n + 1) used.toNat = b :: rest) (xs : List Bool) :
    fillUnmarked used (n + 1) xs = if b then xs else fillUnmarked used n (xs ++ List.replicate 16 false) := by
  obtain ⟨hb, -⟩ := List.cons.inj h
  rw [fillUnmarked, BitVec.getLsbD, Nat.testBit_eq_decide_div_mod_eq, hb]

/-- The symbol map with the ranges `rs` still to come: on to its end. -/
theorem continueMap_chain (rs : List (Option (BitVec 16))) {xs : List Bool} {map : SymbolMap} {pos : WirePos}
    (hused : toBits rs.length tab.used.toNat = rs.map Option.isSome) (hlen : xs.length + 16 * rs.length = 256)
    (hany : (xs ++ rs.flatMap rangeBits).any id = true) :
    ∃ t, (∀ r, continueMap xs (s.withTables ⟨blk, map, sel, groups, tab, pos⟩ r) = .ok () (s.withTables t r)) ∧
      t.pos ≠ .symbol ∧
      TablesChain s (rs.flatMap subMapBits) t
        ⟨blk, symbolMapOf (xs ++ rs.flatMap rangeBits), sel, groups, tab, .nGroups⟩ := by
  have hleft : 16 - xs.length / 16 = rs.length := by omega
  induction rs generalizing xs map pos with
  | nil =>
    rw [List.flatMap_nil, List.append_nil] at hany
    rw [List.flatMap_nil, List.flatMap_nil, List.append_nil]
    refine ⟨⟨blk, symbolMapOf xs, sel, groups, tab, .nGroups⟩, fun r => ?_, nofun, .nil _⟩
    have hfill : fillUnmarked tab.used (16 - xs.length / 16) xs = xs := by
      rw [hleft]
      rfl
    have h256 : xs.length = 256 := hlen
    have hrun : continueMap xs (s.withTables ⟨blk, map, sel, groups, tab, pos⟩ r) =
        finishMap xs (s.withTables ⟨blk, map, sel, groups, tab, pos⟩ r) := by
      simp only [continueMap, State.withTables, hfill, if_pos h256.ge]
    rw [hrun, finishMap_of_any h256 hany]
  | cons m rs ih =>
    rw [List.length_cons] at hlen hleft hused
    rw [List.map_cons] at hused
    have hmore : toBits rs.length tab.used.toNat = rs.map Option.isSome := (List.cons.inj hused).2
    have hfill := fillUnmarked_succ hused xs
    rw [← hleft] at hfill
    cases m with
    | none =>
      have hsplit : xs ++ (none :: rs).flatMap rangeBits = xs ++ List.replicate 16 false ++ rs.flatMap rangeBits := by
        rw [List.flatMap_cons, List.append_assoc]
        rfl
      have hlen' : (xs ++ List.replicate 16 false).length + 16 * rs.length = 256 := by
        rw [List.length_append, List.length_replicate]
        omega
      have hleft' : 16 - (xs ++ List.replicate 16 false).length / 16 = rs.length := by omega
      rw [hsplit] at hany ⊢
      obtain ⟨t, hrun, hpos, hchain⟩ := ih (map := map) (pos := pos) hmore hlen' hany hleft'
      refine ⟨t, fun r => ?_, hpos, hchain⟩
      rw [← hrun r]
      simp only [continueMap, State.withTables, hfill, hleft', Option.isSome_none, Bool.false_eq_true, if_false]
    | some v =>
      have hsplit : xs ++ (some v :: rs).flatMap rangeBits = xs ++ toBits 16 v.toNat ++ rs.flatMap rangeBits := by
        rw [List.flatMap_cons, List.append_assoc]
        rfl
      have hlen' : (xs ++ toBits 16 v.toNat).length + 16 * rs.length = 256 := by
        rw [List.length_append, toBits_length]
        omega
      rw [hsplit] at hany ⊢
      obtain ⟨t, hrun, hpos, hchain⟩ :=
        ih (map := { map with inUse := xs }) (pos := .subMap) hmore hlen' hany (by omega)
      refine ⟨⟨blk, { map with inUse := xs }, sel, groups, tab, .subMap⟩, fun r => ?_, nofun, ?_⟩
      · have hopen : ¬256 ≤ xs.length := by omega
        simp only [continueMap, State.withTables, hfill, Option.isSome_some, if_true, if_neg hopen]
      · have hfield : FieldAt s readElement (toBits 16 v.toNat) ()
            ⟨blk, { map with inUse := xs }, sel, groups, tab, .subMap⟩ t :=
          (readBits_field (by decide) v.isLt).element (fun _ => rfl) fun r => by
            rw [BitVec.ofNat_toNat, BitVec.setWidth_eq]
            exact hrun r
        exact (hfield.chain (by simp) hpos).trans hchain

/-- The used map and the sub-maps of the ranges it marks. -/
theorem symbolMap_chain {rs : List (Option (BitVec 16))} (hlen : rs.length = 16)
    (hany : (rs.flatMap rangeBits).any id = true) :
    ∃ used : BitVec 16,
      TablesChain s (rs.map Option.isSome ++ rs.flatMap subMapBits) ⟨blk, map, sel, groups, tab, .usedMap⟩
        ⟨blk, symbolMapOf (rs.flatMap rangeBits), sel, groups, { tab with used := used }, .nGroups⟩ := by
  obtain ⟨u, hu, hbits⟩ := exists_toBits (rs.map Option.isSome)
  rw [List.length_map, hlen] at hu hbits
  have hused : (BitVec.ofNat 16 u).toNat = u := by rw [BitVec.toNat_ofNat, Nat.mod_eq_of_lt hu]
  obtain ⟨t, hrun, hpos, hchain⟩ := continueMap_chain (s := s) (blk := blk) (sel := sel) (groups := groups)
    (tab := { tab with used := BitVec.ofNat 16 u }) (xs := []) (map := map) (pos := .usedMap) rs
    (by rw [hlen, hused, hbits]) (by rw [hlen]; rfl) hany
  have hfield : FieldAt s readElement (toBits 16 u) () ⟨blk, map, sel, groups, tab, .usedMap⟩ t :=
    (readBits_field (by decide) hu).element (fun _ => rfl) hrun
  refine ⟨BitVec.ofNat 16 u, ?_⟩
  rw [← hbits]
  exact (hfield.chain (by simp) hpos).trans hchain

end

/-! ### Groups and selectors (R237, R238) -/

section
variable {s : State} {blk : BlockRegs} {map : SymbolMap} {sel : Selection} {groups : Vector Group 6}
  {tab : TablesCursor}

theorem nGroups_field {n : BitVec 3} (h2 : 2 ≤ n.toNat) (h6 : n.toNat ≤ 6) :
    FieldAt s readElement (toBits 3 n.toNat) () ⟨blk, map, sel, groups, tab, .nGroups⟩
      ⟨blk, map, { sel with nGroups := n }, groups, tab, .nSelectors⟩ :=
  (readBits_field (by decide) n.isLt).element (fun _ => rfl) fun _ => by
    have hrange : ¬(n.toNat < Config.minGroups ∨ Config.maxGroups < n.toNat) :=
      not_or.2 ⟨Nat.not_lt.2 h2, Nat.not_lt.2 h6⟩
    rw [BitVec.ofNat_toNat, BitVec.setWidth_eq, elemNGroups, if_neg hrange]
    rfl

theorem nSelectors_field {n : Nat} (h1 : 1 ≤ n) (hmax : n ≤ 18002) :
    FieldAt s readElement (toBits 15 n) () ⟨blk, map, sel, groups, tab, .nSelectors⟩
      ⟨blk, map,
        { sel with nSelectors := BitVec.ofNat 15 n, selMtf := selectorRanks sel.nGroups, selectors := [] },
        groups, tab, .selector⟩ := by
  have hn : n < 2 ^ 15 := by omega
  refine (readBits_field (by decide) hn).element (fun _ => rfl) fun _ => ?_
  have hrange : ¬((BitVec.ofNat 15 n).toNat < 1 ∨ Config.maxSelectors < (BitVec.ofNat 15 n).toNat) := by
    rw [BitVec.toNat_ofNat, Nat.mod_eq_of_lt hn]
    exact not_or.2 ⟨Nat.not_lt.2 h1, Nat.not_lt.2 hmax⟩
  rw [elemNSelectors, if_neg hrange]
  rfl

/-- A selector that is not the last. -/
theorem selector_field {j : Nat} (hj : j < sel.nGroups.toNat) {x : BitVec 3} {mtf : List (BitVec 3)}
    (hmove : moveToFront sel.selMtf j = some (x, mtf)) (hmore : sel.selectors.length + 1 < sel.nSelectors.toNat) :
    FieldAt s readElement (List.replicate j true ++ [false]) () ⟨blk, map, sel, groups, tab, .selector⟩
      ⟨blk, map, { sel with selMtf := mtf, selectors := sel.selectors ++ [x] }, groups, tab, .selector⟩ :=
  (readUnary_field j).element (fun _ => rfl) fun _ => by
    simp only [elemSelectorCode, State.withTables, if_neg (Nat.not_le.2 hj), hmove, entry, Res.bind_ok,
      if_neg (Nat.not_le.2 hmore)]

/-- The last selector: the length tables follow. -/
theorem lastSelector_field {j : Nat} (hj : j < sel.nGroups.toNat) {x : BitVec 3} {mtf : List (BitVec 3)}
    (hmove : moveToFront sel.selMtf j = some (x, mtf)) (hlast : sel.nSelectors.toNat ≤ sel.selectors.length + 1) :
    FieldAt s readElement (List.replicate j true ++ [false]) () ⟨blk, map, sel, groups, tab, .selector⟩
      ⟨blk, map, { sel with selMtf := mtf, selectors := sel.selectors ++ [x] }, groups, { tab with g := 0 },
        .lenSeed⟩ :=
  (readUnary_field j).element (fun _ => rfl) fun _ => by
    simp only [elemSelectorCode, State.withTables, if_neg (Nat.not_le.2 hj), hmove, entry, Res.bind_ok,
      if_pos hlast]

/-- The selectors, each as its position in the list that the one before left. -/
theorem selectors_chain {positions : List Nat} (hne : positions ≠ []) {sel : Selection}
    (hpos : ∀ j ∈ positions, j < sel.nGroups.toNat) (hmtf : sel.selMtf.length = sel.nGroups.toNat)
    (hcount : sel.selectors.length + positions.length = sel.nSelectors.toNat) :
    ∃ selectors mtf, selectorsFrom sel.selMtf positions = some (selectors, mtf) ∧
      TablesChain s (positions.flatMap fun j => List.replicate j true ++ [false])
        ⟨blk, map, sel, groups, tab, .selector⟩
        ⟨blk, map, { sel with selMtf := mtf, selectors := sel.selectors ++ selectors }, groups,
          { tab with g := 0 }, .lenSeed⟩ := by
  induction positions generalizing sel with
  | nil => exact absurd rfl hne
  | cons j rest ih =>
    obtain ⟨hj, hrest⟩ := List.forall_mem_cons.1 hpos
    have hmove := moveToFront_some (List.getElem?_eq_getElem (hmtf.symm ▸ hj))
    generalize sel.selMtf[j]'(hmtf.symm ▸ hj) = x at hmove
    generalize hl : x :: sel.selMtf.eraseIdx j = mtf₁ at hmove
    rw [List.length_cons] at hcount
    have hbits : 0 < (List.replicate j true ++ [false]).length := by simp
    by_cases hnil : rest = []
    · subst hnil
      refine ⟨[x], mtf₁, by simp only [selectorsFrom, hmove], ?_⟩
      rw [List.flatMap_cons, List.flatMap_nil, List.append_nil]
      exact (lastSelector_field hj hmove hcount.ge).chain hbits nofun
    · have hmore : 0 < rest.length := List.length_pos_iff.2 hnil
      obtain ⟨selectors, mtf, hfrom, hchain⟩ :=
        ih hnil (sel := { sel with selMtf := mtf₁, selectors := sel.selectors ++ [x] }) hrest
          ((moveToFront_perm hmove).length_eq.trans hmtf)
          (by rw [List.length_append, List.length_singleton, ← hcount]; omega)
      refine ⟨x :: selectors, mtf, by simp only [selectorsFrom, hmove, hfrom], ?_⟩
      rw [List.append_assoc, List.singleton_append] at hchain
      exact ((selector_field hj hmove (by omega)).chain hbits nofun).trans hchain

end

/-! ### Code lengths (R240) -/

section
variable {s : State} {blk : BlockRegs} {map : SymbolMap} {sel : Selection} {groups : Vector Group 6}
  {tab : TablesCursor} {pos : WirePos}

theorem checkLength_of_legal (h : 1 ≤ tab.curr.toNat ∧ tab.curr.toNat ≤ 20) (r : Reader) :
    checkLength (s.withTables ⟨blk, map, sel, groups, tab, pos⟩ r) =
      .ok () (s.withTables ⟨blk, map, sel, groups, tab, pos⟩ r) :=
  if_neg (not_or.2 ⟨Nat.not_lt.2 h.1, Nat.not_lt.2 h.2⟩)

theorem lenSeed_field {seed : BitVec 5} (hseed : 1 ≤ seed.toNat ∧ seed.toNat ≤ 20) {grp : Group}
    (hgrp : groups[tab.g.toNat]? = some grp) :
    FieldAt s readElement (toBits 5 seed.toNat) () ⟨blk, map, sel, groups, tab, .lenSeed⟩
      ⟨blk, map, sel, groups.setIfInBounds tab.g.toNat { grp with len := [] }, { tab with curr := seed },
        .lenFlag⟩ :=
  (readBits_field (by decide) seed.isLt).element (fun _ => rfl) fun r => by
    rw [BitVec.ofNat_toNat, BitVec.setWidth_eq]
    simp only [elemLenSeed, State.withTables, hgrp]
    exact checkLength_of_legal (tab := { tab with curr := seed }) hseed r

/-- The current length after a move, legal before it and after it. -/
theorem move_of_legal (up : Bool) (hcurr : 1 ≤ tab.curr.toNat ∧ tab.curr.toNat ≤ 20) {next : BitVec 5}
    (hup : next = if up then tab.curr + 1 else tab.curr - 1) (hnext : 1 ≤ next.toNat ∧ next.toNat ≤ 20) (r : Reader) :
    (if !up then elemLenDec (s.withTables ⟨blk, map, sel, groups, tab, .lenFlag⟩ r)
      else elemLenInc (s.withTables ⟨blk, map, sel, groups, tab, .lenFlag⟩ r)) =
      .ok () (s.withTables ⟨blk, map, sel, groups, { tab with curr := next }, .lenFlag⟩ r) := by
  have hafter := checkLength_of_legal (s := s) (blk := blk) (map := map) (sel := sel) (groups := groups)
    (tab := { tab with curr := next }) (pos := .lenFlag) hnext r
  cases up with
  | true =>
    rw [Bool.not_true, if_neg Bool.false_ne_true, elemLenInc, checkLength_of_legal hcurr, Res.bind_ok, ← hafter, hup]
    rfl
  | false =>
    rw [Bool.not_false, if_pos rfl, elemLenDec, checkLength_of_legal hcurr, Res.bind_ok, ← hafter, hup]
    rfl

/-- A delta code: the flag bit of a move, and its direction. -/
theorem move_field (up : Bool) (hcurr : 1 ≤ tab.curr.toNat ∧ tab.curr.toNat ≤ 20) {next : BitVec 5}
    (hup : next = if up then tab.curr + 1 else tab.curr - 1) (hnext : 1 ≤ next.toNat ∧ next.toNat ≤ 20) :
    FieldAt s readElement (moveBits up) () ⟨blk, map, sel, groups, tab, .lenFlag⟩
      ⟨blk, map, sel, groups, { tab with curr := next }, .lenFlag⟩ := by
  have hdirection := ((readBool_field !up).fieldAt (s := s) ⟨blk, map, sel, groups, tab, .lenFlag⟩).bind_ok
    (k := fun down s => if down then elemLenDec s else elemLenInc s) (move_of_legal up hcurr hup hnext)
  have hflag := ((readBool_field true).fieldAt (s := s) ⟨blk, map, sel, groups, tab, .lenFlag⟩).bind
    (k := fun more s =>
      if more then (onReader readBool s).bind fun down s => if down then elemLenDec s else elemLenInc s
      else elemLenEnd s) (hdirection.congr fun _ => if_pos rfl)
  exact ((FieldAt.of_ok (checkLength_of_legal hcurr)).bind (k := fun _ u => (onReader readBool u).bind _) hflag).congr
    fun _ => rfl

/-- The flag bit that ends a symbol's length, up to what that does. -/
theorem lenEnd_field {t : TablesRegs} (hcurr : 1 ≤ tab.curr.toNat ∧ tab.curr.toNat ≤ 20)
    (hend : ∀ r, elemLenEnd (s.withTables ⟨blk, map, sel, groups, tab, .lenFlag⟩ r) = .ok () (s.withTables t r)) :
    FieldAt s readElement [false] () ⟨blk, map, sel, groups, tab, .lenFlag⟩ t := by
  have hflag := ((readBool_field false).fieldAt (s := s) ⟨blk, map, sel, groups, tab, .lenFlag⟩).bind_ok
    (k := fun more s =>
      if more then (onReader readBool s).bind fun down s => if down then elemLenDec s else elemLenInc s
      else elemLenEnd s) hend
  exact ((FieldAt.of_ok (checkLength_of_legal hcurr)).bind (k := fun _ u => (onReader readBool u).bind _) hflag).congr
    fun _ => rfl

/-- The flag bit of a length, where there is none left. -/
theorem lenFlag_short (hcurr : 1 ≤ tab.curr.toNat ∧ tab.curr.toNat ≤ 20) :
    ShortAt s readElement [false] ⟨blk, map, sel, groups, tab, .lenFlag⟩ := by
  intro r hw hp hlt
  have hread : readElement (s.withTables ⟨blk, map, sel, groups, tab, .lenFlag⟩ r) =
      (checkLength (s.withTables ⟨blk, map, sel, groups, tab, .lenFlag⟩ r)).bind _ := rfl
  rw [hread, checkLength_of_legal hcurr, Res.bind_ok]
  exact (((readBool_field false).fieldAt _).short r hw hp hlt).bind _

theorem elemLenEnd_eq (hcurr : 1 ≤ tab.curr.toNat ∧ tab.curr.toNat ≤ 20) {grp : Group}
    (hgrp : groups[tab.g.toNat]? = some grp) (r : Reader) :
    elemLenEnd (s.withTables ⟨blk, map, sel, groups, tab, .lenFlag⟩ r) =
      if map.alphaSize.toNat ≤ grp.len.length + 1 then
        nextGroup (s.withTables ⟨blk, map, sel,
          groups.setIfInBounds tab.g.toNat { grp with len := grp.len ++ [tab.curr] }, tab, .lenFlag⟩ r)
      else .ok () (s.withTables ⟨blk, map, sel,
        groups.setIfInBounds tab.g.toNat { grp with len := grp.len ++ [tab.curr] }, tab, .lenFlag⟩ r) := by
  rw [elemLenEnd, checkLength_of_legal hcurr, Res.bind_ok]
  split
  · rename_i hnone
    exact absurd (hnone.symm.trans hgrp) nofun
  · rename_i grp' hsome
    obtain rfl : grp' = grp := Option.some.inj (hsome.symm.trans hgrp)
    rfl

theorem nextGroup_of_more (hg : tab.g.toNat + 1 < sel.nGroups.toNat) (r : Reader) :
    nextGroup (s.withTables ⟨blk, map, sel, groups, tab, pos⟩ r) =
      .ok () (s.withTables ⟨blk, map, sel, groups, { tab with g := tab.g + 1 }, .lenSeed⟩ r) :=
  if_neg (Nat.not_le.2 hg)

/-- A length that is moved is legal. -/
theorem moveLength_range {curr l : Nat} {m : List Bool} (h : moveLength curr m = some l) : 1 ≤ curr ∧ curr ≤ 20 := by
  cases m <;> exact (Option.ite_none_right_eq_some.1 h).1

theorem lengthsFrom_cons {curr : Nat} {m : List Bool} {moves : List (List Bool)} {ls : List Nat}
    (h : lengthsFrom curr (m :: moves) = some ls) :
    ∃ l ls', moveLength curr m = some l ∧ lengthsFrom l moves = some ls' ∧ ls = l :: ls' := by
  rw [lengthsFrom] at h
  split at h
  · cases h
  · rename_i l hm
    split at h
    · cases h
    · rename_i ls' hls'
      exact ⟨l, ls', hm, hls', (Option.some.inj h).symm⟩

/-- The delta codes of one symbol. -/
theorem moves_chain (m : List Bool) {tab : TablesCursor} {l : Nat} (hm : moveLength tab.curr.toNat m = some l) :
    ∃ curr : BitVec 5, curr.toNat = l ∧ (1 ≤ l ∧ l ≤ 20) ∧
      TablesChain s (m.flatMap moveBits) ⟨blk, map, sel, groups, tab, .lenFlag⟩
        ⟨blk, map, sel, groups, { tab with curr := curr }, .lenFlag⟩ := by
  induction m generalizing tab with
  | nil =>
    have hrange := moveLength_range hm
    rw [moveLength, if_pos hrange] at hm
    obtain rfl := Option.some.inj hm
    exact ⟨tab.curr, rfl, hrange, .nil _⟩
  | cons up m ih =>
    have hrange := moveLength_range hm
    rw [moveLength, if_pos hrange] at hm
    obtain ⟨next, hup, hnat⟩ : ∃ next : BitVec 5, next = (if up then tab.curr + 1 else tab.curr - 1) ∧
        next.toNat = if up then tab.curr.toNat + 1 else tab.curr.toNat - 1 := by
      refine ⟨_, rfl, ?_⟩
      cases up <;> simp only [if_true, Bool.false_eq_true, if_false] <;> bv_omega
    rw [← hnat] at hm
    obtain ⟨curr, hcurr, hl, hchain⟩ := ih (tab := { tab with curr := next }) hm
    exact ⟨curr, hcurr, hl, .cons (move_field up hrange hup (moveLength_range hm)) Nat.two_pos nofun hchain⟩

/-- The lengths of a group, up to the flag bit that ends the last of them. -/
theorem lengths_chain {moves : List (List Bool)} (hne : moves ≠ []) {groups : Vector Group 6} {tab : TablesCursor}
    {grp : Group} (hgrp : groups[tab.g.toNat]? = some grp)
    (hcount : grp.len.length + moves.length = map.alphaSize.toNat) {ls : List Nat}
    (hls : lengthsFrom tab.curr.toNat moves = some ls) :
    ∃ (front : List Bool) (groups' : Vector Group 6) (curr : BitVec 5) (lens : List (BitVec 5)),
      (moves.flatMap fun m => m.flatMap moveBits ++ [false]) = front ++ [false] ∧
      TablesChain s front ⟨blk, map, sel, groups, tab, .lenFlag⟩
        ⟨blk, map, sel, groups', { tab with curr := curr }, .lenFlag⟩ ∧
      (1 ≤ curr.toNat ∧ curr.toNat ≤ 20) ∧ groups'[tab.g.toNat]? = some { grp with len := lens } ∧
      (lens ++ [curr]).map BitVec.toNat = grp.len.map BitVec.toNat ++ ls ∧
      lens.length + 1 = map.alphaSize.toNat ∧
      ∀ g, g ≠ tab.g.toNat → groups'[g]? = groups[g]? := by
  induction moves generalizing groups tab grp ls with
  | nil => exact absurd rfl hne
  | cons m moves ih =>
    rw [List.length_cons] at hcount
    obtain ⟨l, ls', hm, hmoves', rfl⟩ := lengthsFrom_cons hls
    obtain ⟨curr, rfl, hrange, hmoves⟩ := moves_chain (s := s) (blk := blk) (map := map) (sel := sel) (groups := groups)
      m hm
    by_cases hnil : moves = []
    · subst hnil
      obtain rfl : [] = ls' := Option.some.inj hmoves'
      refine ⟨_, groups, curr, grp.len, ?_, hmoves, hrange, hgrp, ?_, hcount, fun _ _ => rfl⟩
      · rw [List.flatMap_cons, List.flatMap_nil, List.append_nil]
      · rw [List.map_append, List.map_singleton]
    · have hmore : 0 < moves.length := List.length_pos_iff.2 hnil
      have hopen : ¬map.alphaSize.toNat ≤ grp.len.length + 1 := by omega
      have hend := lenEnd_field (s := s) (tab := { tab with curr := curr }) hrange fun r =>
        (elemLenEnd_eq (s := s) (blk := blk) (map := map) (sel := sel) (tab := { tab with curr := curr }) hrange hgrp
          r).trans (if_neg hopen)
      have hg : tab.g.toNat < 6 := (Vector.getElem?_eq_some_iff.1 hgrp).1
      obtain ⟨front, groups', curr', lens, hbits, hchain, hrange', hgrp', hlens, hlen, hother⟩ :=
        ih hnil (groups := groups.setIfInBounds tab.g.toNat { grp with len := grp.len ++ [curr] })
          (tab := { tab with curr := curr }) (Vector.getElem?_setIfInBounds_self_of_lt hg)
          (by rw [List.length_append, List.length_singleton, ← hcount]; omega) hmoves'
      refine ⟨m.flatMap moveBits ++ ([false] ++ front), groups', curr', lens, ?_,
        hmoves.trans ((hend.chain Nat.one_pos nofun).trans hchain), hrange', hgrp', ?_, hlen, fun g hne => ?_⟩
      · rw [List.flatMap_cons, hbits, List.append_assoc, List.append_assoc, List.append_assoc]
      · rw [hlens, List.map_append, List.append_assoc]
        rfl
      · rw [hother g hne]
        exact Vector.getElem?_setIfInBounds_ne (Ne.symm hne)

/-- A group's length table, up to the flag bit that ends the last of its lengths. -/
theorem lengthTable_chain {table : LengthTable} (hlen : table.moves.length = map.alphaSize.toNat)
    (halpha : 0 < map.alphaSize.toNat) {ls : List Nat} (hls : table.lens = some ls) {grp : Group}
    (hgrp : groups[tab.g.toNat]? = some grp) :
    ∃ (front : List Bool) (groups' : Vector Group 6) (curr : BitVec 5) (lens : List (BitVec 5)),
      table.bits = front ++ [false] ∧
      TablesChain s front ⟨blk, map, sel, groups, tab, .lenSeed⟩
        ⟨blk, map, sel, groups', { tab with curr := curr }, .lenFlag⟩ ∧
      (1 ≤ curr.toNat ∧ curr.toNat ≤ 20) ∧ groups'[tab.g.toNat]? = some { grp with len := lens } ∧
      (lens ++ [curr]).map BitVec.toNat = ls ∧ lens.length + 1 = map.alphaSize.toNat ∧
      ∀ g, g ≠ tab.g.toNat → groups'[g]? = groups[g]? := by
  have hne : table.moves ≠ [] := List.length_pos_iff.1 (hlen.symm ▸ halpha)
  have hseed : 1 ≤ table.seed.toNat ∧ table.seed.toNat ≤ 20 := by
    obtain ⟨m, moves, hmoves⟩ := List.exists_cons_of_ne_nil hne
    rw [LengthTable.lens, hmoves] at hls
    obtain ⟨l, ls', hm, -⟩ := lengthsFrom_cons hls
    exact moveLength_range hm
  have hg : tab.g.toNat < 6 := (Vector.getElem?_eq_some_iff.1 hgrp).1
  obtain ⟨front, groups', curr, lens, hbits, hchain, hrange, hgrp', hlens, hlen', hother⟩ :=
    lengths_chain (s := s) (blk := blk) (map := map) (sel := sel) hne
      (groups := groups.setIfInBounds tab.g.toNat { grp with len := [] }) (tab := { tab with curr := table.seed })
      (Vector.getElem?_setIfInBounds_self_of_lt hg) (by rw [← hlen]; exact Nat.zero_add _) hls
  refine ⟨toBits 5 table.seed.toNat ++ front, groups', curr, lens, ?_,
    ((lenSeed_field hseed hgrp).chain (by simp) nofun).trans hchain, hrange, hgrp', hlens, hlen', fun g hne => ?_⟩
  · rw [LengthTable.bits, hbits, List.append_assoc]
  · rw [hother g hne]
    exact Vector.getElem?_setIfInBounds_ne (Ne.symm hne)

/-- The length tables of the groups from `tab.g` on: where the bits stop short of them, the loop runs out of bits. -/
theorem lengthTables_loop (halpha : 0 < map.alphaSize.toNat) (h6 : sel.nGroups.toNat ≤ 6) (tables : List LengthTable)
    {groups : Vector Group 6} {tab : TablesCursor}
    (hlegal : ∀ table ∈ tables, table.moves.length = map.alphaSize.toNat ∧ table.lens.isSome = true)
    (hg : tab.g.toNat + tables.length = sel.nGroups.toNat) :
    LoopShortAt s (tables.flatMap LengthTable.bits) ⟨blk, map, sel, groups, tab, .lenSeed⟩ := by
  induction tables generalizing groups tab with
  | nil => exact loopShortAt_nil s _
  | cons table tables ih =>
    obtain ⟨⟨hlen, hsome⟩, hrest⟩ := List.forall_mem_cons.1 hlegal
    obtain ⟨ls, hls⟩ := Option.isSome_iff_exists.1 hsome
    rw [List.length_cons] at hg
    have hg6 : tab.g.toNat < 6 := by omega
    obtain ⟨front, groups', curr, lens, hbits, hchain, hrange, hgrp, -, hcount, -⟩ :=
      lengthTable_chain (s := s) (blk := blk) (sel := sel) hlen halpha hls (Vector.getElem?_eq_getElem hg6)
    rw [List.flatMap_cons, hbits, List.append_assoc]
    refine hchain.loop ?_
    by_cases hnil : tables = []
    · subst hnil
      exact (lenFlag_short hrange).loop
    · have hmore : 0 < tables.length := List.length_pos_iff.2 hnil
      have hnext : (tab.g + 1).toNat = tab.g.toNat + 1 := by
        rw [BitVec.toNat_add, show (1 : BitVec 3).toNat = 1 from rfl]
        omega
      have hend := lenEnd_field (s := s) (tab := { tab with curr := curr }) hrange fun r =>
        ((elemLenEnd_eq (s := s) (blk := blk) (map := map) (sel := sel) (tab := { tab with curr := curr }) hrange hgrp
          r).trans (if_pos hcount.ge)).trans
            (nextGroup_of_more (tab := { tab with curr := curr }) (by simp only; omega) r)
      exact hend.loop Nat.one_pos nofun (ih hrest (by simp only [hnext]; omega))

end

/-! ### STEP_TABLES -/

/-- The bits of a block's tables in the order of its elements. -/
theorem BlockTables.bits_eq (d : BlockTables) : d.bits =
    (toBits 32 d.crc.toNat ++ [d.randomised] ++ toBits 24 d.origPtr.toNat) ++
      ((d.ranges.map Option.isSome ++ d.ranges.flatMap subMapBits) ++
        (toBits 3 d.nGroups.toNat ++ (toBits 15 d.positions.length ++
          ((d.positions.flatMap fun j => List.replicate j true ++ [false]) ++
            d.lengths.flatMap LengthTable.bits)))) := by
  simp only [BlockTables.bits, List.append_assoc]
  rfl

theorem BlockTables.legal_iff (d : BlockTables) : d.legal = true ↔
    d.ranges.length = 16 ∧ d.inUse.any id = true ∧ (2 ≤ d.nGroups.toNat ∧ d.nGroups.toNat ≤ 6) ∧
      (1 ≤ d.positions.length ∧ d.positions.length ≤ 18002) ∧ (∀ j ∈ d.positions, j < d.nGroups.toNat) ∧
      d.lengths.length = d.nGroups.toNat ∧
      ∀ table ∈ d.lengths, table.moves.length = (markedValues d.inUse).length + 2 ∧ table.lens.isSome = true := by
  simp only [BlockTables.legal, Bool.and_eq_true, decide_eq_true_eq, List.all_eq_true, and_assoc]

/-- From the first element, bits that stop short of legal tables run out. -/
theorem BlockTables.loopShort {d : BlockTables} (hlegal : d.legal = true) (s : State) :
    LoopShortAt s d.bits ⟨s.blk, s.map, s.sel, s.groups, s.tab, .blockCrc⟩ := by
  obtain ⟨hranges, hany, ⟨h2, h6⟩, ⟨h1, hmax⟩, hpositions, hlengths, htables⟩ := d.legal_iff.1 hlegal
  have halpha : (symbolMapOf d.inUse).alphaSize.toNat = (markedValues d.inUse).length + 2 :=
    symbolMapOf_alphaSize d.inUse
  obtain ⟨used, hmap⟩ := symbolMap_chain (s := s) (map := s.map) (sel := s.sel) (groups := s.groups) (tab := s.tab)
    (blk := { storedCrc := d.crc, randomised := d.randomised, origPtr := d.origPtr }) hranges hany
  have hsel : (BitVec.ofNat 15 d.positions.length).toNat = d.positions.length := by
    rw [BitVec.toNat_ofNat]
    omega
  obtain ⟨selectors, mtf, -, hselectors⟩ := selectors_chain (s := s)
    (blk := { storedCrc := d.crc, randomised := d.randomised, origPtr := d.origPtr }) (map := symbolMapOf d.inUse)
    (groups := s.groups) (tab := { s.tab with used := used }) (positions := d.positions)
    (sel :=
      { nGroups := d.nGroups
        nSelectors := BitVec.ofNat 15 d.positions.length
        selMtf := selectorRanks d.nGroups
        selectors := [] })
    (List.length_pos_iff.1 h1) hpositions (by simp [selectorRanks]) (by rw [hsel]; exact Nat.zero_add _)
  rw [d.bits_eq]
  refine (fixedFields_chain d).loop (hmap.loop ((nGroups_field h2 h6).loop (by simp) nofun
    ((nSelectors_field h1 hmax).loop (by simp) nofun (hselectors.loop ?_))))
  exact lengthTables_loop (by omega) h6 d.lengths (fun table ht => halpha.symm ▸ htables table ht)
    ((Nat.zero_add _).trans hlengths)

/-- TABLES where the input ends within legal tables. -/
theorem exec_stepTables_pastEnd {s : State} (hw : s.rd.wf = true) (hf : s.fsm = .tables) {d : BlockTables}
    (hlegal : d.legal = true) (hp : s.rd.pending <+: d.bits) (hlt : s.rd.pending.length < d.bits.length) :
    ∃ (k : Nat) (t : TablesRegs), k ≤ s.rd.pending.length ∧ ReadsPastEnd .stepTables k s (s.withTables t) := by
  have hbound : s.rd.pending.length < tablesBound s.rd := by
    rw [tablesBound, available_eq, Nat.add_assoc]
    exact Nat.lt_add_of_pos_right (Nat.add_pos_right _ (Nat.mul_pos (by decide) (Nat.succ_pos _)))
  obtain ⟨k, t, hk, hends, hhangs⟩ := d.loopShort hlegal s _ s.rd hw hp hlt hbound
  have hrun : exec .stepTables s = finish (tablesBody s) := stepOf_of_fsm hf tablesBody
  refine ⟨k, t, hk, fun hfinite => ?_, fun hsilent => ?_⟩
  · obtain ⟨r, hraised, he⟩ := hends hfinite
    exact ⟨r, hrun.trans (finish_of_raised hraised), he⟩
  · have hfault : tablesBody s = .fault .fetchHangs := hhangs hsilent
    rw [hrun, hfault, finish]

/-- Settles O23: each read's `PastEnd`, the elements of TABLES one after another, an endless source by its rounds. -/
theorem readPastEndRaises : Obligations.ReadPastEndRaises := by
  refine ⟨fun s hw => ⟨fun n hn hp => ?_, fun hp => ?_, fun hones => ?_, fun hp => ?_, fun g grp lens hg hgrp hlens
    hprefix hbuilt hshort hno => ?_, fun k hf hk hlen hp => ?_, fun hf hp => ?_, fun hf hp => ?_,
    fun d hf hlegal hp hlt => ?_⟩, fun n s b more hn hw hafter => ?_, fun s b more hw hafter hones hround => ?_⟩
  · exact (readBits_pastEnd hn hw hp).readsPastEnd_ret (f := .nat) rfl
  · exact (readBool_pastEnd hw hp).readsPastEnd_ret (f := .bool) rfl
  · exact (readUnary_pastEnd hw hones).readsPastEnd_ret (f := .nat) rfl
  · exact (readInt32_pastEnd hw hp).readsPastEnd_ret (f := .nat) rfl
  · exact exec_htDecode_pastEnd hw hg hgrp (Group.decodes_of_builtFrom hlens hprefix hbuilt) hshort hno
  · exact exec_stepStreamHeader_pastEnd hw hf hk hlen hp
  · exact exec_stepHeader_pastEnd hw hf hp
  · exact exec_stepTrailer_pastEnd hw hf hp
  · obtain ⟨k, t, hk, hend⟩ := exec_stepTables_pastEnd hw hf hlegal hp hlt
    exact ⟨k, s.withTables t s.rd, hk, hend⟩
  · exact exec_bcReadBits_of_repeats hn hw hafter
  · have hrun : readUnary s.rd = .fault .inputNeverEnds := readUnaryLoop_never_ends hround _ 0 hw hafter hones
    simp only [exec, execBcReadUnary, onReader, hrun, Res.lift_fault, finishRet]

end Sys2Proof.Machine
end

section
/-! PROOFS. The encoder's words read back (spec/30_encoding.md R100 to R117): the fields of bits and of bytes, the forms
they are put together in, and the round trip of every instruction but SYMBOL_CODE. -/

namespace Sys2Proof

/-! ### Fields of bits (R80) -/

/-- The low bit of a number as a boolean is that bit. -/
theorem toNat_decide_mod_two (v : Nat) : (decide (v % 2 = 1)).toNat = v % 2 := by
  obtain h | h := Nat.mod_two_eq_zero_or_one v <;> simp [h]

/-- A field read after the number `acc` is joined to it. -/
theorem takeBits_toBits_from (n acc v : Nat) (rest : List Bool) :
    takeBits n acc (toBits n v ++ rest) = some (acc * 2 ^ n + v % 2 ^ n, rest) := by
  induction n generalizing acc with
  | zero => simp [takeBits, toBits, Nat.mod_one]
  | succ n ih =>
    rw [toBits, List.cons_append, takeBits, ih, toNat_decide_mod_two, Nat.pow_succ, Nat.mod_mul]
    congr 2
    ring

/-- A field of bits is read back. -/
theorem takeBits_toBits {n v : Nat} (h : v < 2 ^ n) (rest : List Bool) :
    takeBits n 0 (toBits n v ++ rest) = some (v, rest) := by
  rw [takeBits_toBits_from, Nat.zero_mul, Nat.zero_add, Nat.mod_eq_of_lt h]

theorem takeUnary_replicate (j k : Nat) (rest : List Bool) :
    takeUnary k (List.replicate j true ++ false :: rest) = some (k + j, rest) := by
  induction j generalizing k with
  | zero => rfl
  | succ j ih =>
    rw [List.replicate_succ, List.cons_append, takeUnary, ih]
    congr 2
    omega

/-! ### Fields of bytes (log 6) -/

/-- A number read after the number `acc` is joined to it. -/
theorem takeBe_putBe_from (k acc v : Nat) (rest : List Byte) :
    takeBe k acc (putBe k v ++ rest) = some (acc * 256 ^ k + v % 256 ^ k, rest) := by
  induction k generalizing acc with
  | zero => simp [takeBe, putBe, Nat.mod_one]
  | succ k ih =>
    have hbyte : (BitVec.ofNat 8 (v / 256 ^ k)).toNat = v / 256 ^ k % 256 := BitVec.toNat_ofNat _ _
    rw [putBe, List.cons_append, takeBe, ih, hbyte, Nat.pow_succ, Nat.mod_mul]
    congr 2
    ring

/-- A number in `k` bytes is read back. -/
theorem takeBe_putBe {k v : Nat} (h : v < 256 ^ k) (rest : List Byte) :
    takeBe k 0 (putBe k v ++ rest) = some (v, rest) := by
  rw [takeBe_putBe_from, Nat.zero_mul, Nat.zero_add, Nat.mod_eq_of_lt h]

/-- Numbers one after another, each in `k` bytes, are read back. -/
theorem takeManyBe_putBe {k : Nat} {vs : List Nat} (h : ∀ v ∈ vs, v < 256 ^ k) (rest : List Byte) :
    takeManyBe k vs.length (vs.flatMap (putBe k) ++ rest) = some (vs, rest) := by
  induction vs with
  | nil => rfl
  | cons v vs ih =>
    obtain ⟨hv, hvs⟩ := List.forall_mem_cons.1 h
    simp only [List.length_cons, List.flatMap_cons, List.append_assoc, takeManyBe, takeBe_putBe hv, ih hvs]

theorem takeRaw_append (xs rest : List Byte) : takeRaw xs.length (xs ++ rest) = some (xs, rest) := by
  induction xs with
  | nil => rfl
  | cons x xs ih => simp only [List.length_cons, List.cons_append, takeRaw, ih]

/-! ### The three forms together -/

theorem decode_host_eq_some {lens : List Nat} {bytes : List Byte} {i : Instr} :
    decode lens (.host bytes) = some i ↔ ∃ rest, decodeHost bytes = .ok i rest := by
  cases h : decodeHost bytes <;> simp [decode, h]

theorem decode_unit_eq_some {lens : List Nat} {bytes : List Byte} {i : Instr} :
    decode lens (.unit bytes) = some i ↔ ∃ rest, decodeUnit bytes = .ok i rest := by
  cases h : decodeUnit bytes <;> simp [decode, h]

theorem decode_wire_eq_some {lens : List Nat} {pos : WirePos} {bits : List Bool} {i : Instr} :
    decode lens (.wire pos bits) = some i ↔ ∃ rest, decodeWire pos lens bits = .ok i rest := by
  cases h : decodeWire pos lens bits <;> simp [decode, h]

/-! ### Elements of the wire format -/

theorem wireField_toBits {n v : Nat} (h : v < 2 ^ n) (f : Nat → Instr) :
    wireField n (toBits n v) f = .ok (f v) [] := by
  have hread := takeBits_toBits h []
  rw [List.append_nil] at hread
  rw [wireField, hread]

/-- A field whose operand is a bit vector. -/
theorem wireField_toNat {n : Nat} (v : BitVec n) (f : BitVec n → Instr) :
    wireField n (toBits n v.toNat) (fun x => f (BitVec.ofNat n x)) = .ok (f v) [] := by
  rw [wireField_toBits v.isLt, BitVec.ofNat_toNat, BitVec.setWidth_eq]

theorem decodeWire_streamHeader (lens : List Nat) (d : BitVec 4) :
    decodeWire .streamHeader lens (toBits 28 0x425A683 ++ toBits 4 d.toNat) = .ok (.streamHeader d) [] := by
  have hd : d.toNat < 2 ^ 4 := d.isLt
  have hread := takeBits_toBits (n := 32) (v := 0x425A683 * 2 ^ 4 + d.toNat) (by omega) []
  rw [List.append_nil, toBits_join 28 4 _ _ hd] at hread
  have hfixed : (0x425A683 * 2 ^ 4 + d.toNat) / 16 = 0x425A683 := by omega
  have hdigit : BitVec.ofNat 4 (0x425A683 * 2 ^ 4 + d.toNat) = d := by
    refine BitVec.eq_of_toNat_eq ?_
    rw [BitVec.toNat_ofNat]
    omega
  simp only [decodeWire, hread, if_pos hfixed, hdigit]

theorem decodeWire_selector (lens : List Nat) (j : Nat) :
    decodeWire .selector lens (List.replicate j true ++ [false]) = .ok (.selectorCode j) [] := by
  simp only [decodeWire, takeUnary_replicate, Nat.zero_add]

/-! ### Host commands (R115) -/

/-- A command's operand word is read back. -/
theorem takeBe_putBe_word (v : Word) (rest : List Byte) : takeBe 4 0 (putBe 4 v.toNat ++ rest) = some (v.toNat, rest) :=
  takeBe_putBe v.isLt rest

theorem decodeHost_encWrite {m : Word} {data : List Byte} (h : data.length = m.toNat) :
    decodeHost (0x12 :: (putBe 4 m.toNat ++ data)) = .ok (.encWrite m data) [] := by
  have hdata : takeRaw m.toNat data = some (data, []) := by
    rw [← h, ← takeRaw_append data [], List.append_nil]
  simp [decodeHost, takeBe_putBe_word, hdata]

/-- A command's operand word at the end of the command. -/
theorem takeBe_putBe_word_end (v : Word) : takeBe 4 0 (putBe 4 v.toNat) = some (v.toNat, []) := by
  simpa using takeBe_putBe_word v []

/-! ### Operands in their ranges -/

theorem Instr.wf_bcWriteBits {n v : Nat} : (Instr.bcWriteBits n v).wf = true ↔ n ≤ 24 ∧ v < 2 ^ n := by
  simp only [Instr.wf, Bool.and_eq_true, decide_eq_true_eq]
  exact Iff.rfl

theorem Instr.wf_haAllocate {f : List Nat} {maxLen : Nat} :
    (Instr.haAllocate f maxLen).wf = true ↔ 1 ≤ f.length ∧ 1 ≤ maxLen ∧ maxLen ≤ 32 := by
  simp only [Instr.wf, Bool.and_eq_true, decide_eq_true_eq, and_assoc]

theorem Instr.wf_htCodes {ls : List Nat} :
    (Instr.htCodes ls).wf = true ↔ 1 ≤ ls.length ∧ ls.length ≤ 258 ∧ ∀ l ∈ ls, 1 ≤ l ∧ l ≤ 20 := by
  simp only [Instr.wf, lengthsLegal, Bool.and_eq_true, decide_eq_true_eq, List.all_eq_true, and_assoc]
  exact Iff.rfl

theorem Instr.wf_mtfEncode {bytes inUse : List Byte} :
    (Instr.mtfEncode bytes inUse).wf = true ↔ 1 ≤ bytes.length ∧ bytes.length ≤ 900000 ∧ ascending inUse = true ∧
      (∀ b ∈ bytes, b ∈ inUse) ∧ ∀ b ∈ inUse, b ∈ bytes := by
  simp only [Instr.wf, mtfOperandsLegal, Bool.and_eq_true, decide_eq_true_eq, List.all_eq_true,
    List.contains_iff_mem, and_assoc]
  exact Iff.rfl

/-! ### Internal operations (R117) -/

theorem operand_putBe {k v : Nat} (h : v < 256 ^ k) (rest : List Byte) (f : Nat → List Byte → Decoded Byte) :
    operand k (putBe k v ++ rest) f = f v rest := by
  rw [operand, takeBe_putBe h]

theorem operand_putBe_end {k v : Nat} (h : v < 256 ^ k) (f : Nat → List Byte → Decoded Byte) :
    operand k (putBe k v) f = f v [] := by
  simpa using operand_putBe h [] f

/-- A byte as an operand. -/
theorem operand_byte (b : Byte) (f : Byte → Instr) :
    operand 1 [b] (fun v rest => .ok (f (BitVec.ofNat 8 v)) rest) = .ok (f b) [] := by
  simp [operand, takeBe]

/-- A word as an operand. -/
theorem operand_word (v : Word) (f : Word → Instr) :
    operand 4 (putBe 4 v.toNat) (fun x rest => .ok (f (BitVec.ofNat 32 x)) rest) = .ok (f v) [] := by
  rw [operand_putBe_end v.isLt, BitVec.ofNat_toNat, BitVec.setWidth_eq]

theorem bigOperand_putNat (v : Nat) (rest : List Byte) (f : Nat → List Byte → Decoded Byte) :
    bigOperand (putNat v ++ rest) f = f v rest := by
  rw [bigOperand, takeNat_putNat]

theorem checked_of_wf {i : Instr} (h : i.wf = true) (rest : List Byte) : checked i rest = .ok i rest := if_pos h

/-- An operation with one operand that is checked. -/
theorem operand_checked (k : Nat) (f : Nat → Instr) {v : Nat} (hv : v < 256 ^ k) (hwf : (f v).wf = true) :
    operand k (putBe k v) (fun x rest => checked (f x) rest) = .ok (f v) [] := by
  rw [operand_putBe_end hv, checked_of_wf hwf]

theorem decodeUnit_bcWriteBits_code (bs : List Byte) :
    decodeUnit (0x28 :: bs) =
      operand 1 bs fun n rest => operand 4 rest fun v rest' => checked (.bcWriteBits n v) rest' := rfl

theorem decodeUnit_haAllocate_code (bs : List Byte) : decodeUnit (0x30 :: bs) = decodeAllocate bs := rfl

theorem decodeUnit_htCodes_code (bs : List Byte) : decodeUnit (0x3A :: bs) = decodeCodes bs := rfl

theorem decodeUnit_mtfEncode_code (bs : List Byte) : decodeUnit (0x41 :: bs) = decodeMtfEncode bs := rfl

theorem decodeUnit_bcWriteBits {n v : Nat} (h : (Instr.bcWriteBits n v).wf = true) :
    decodeUnit (0x28 :: (putBe 1 n ++ putBe 4 v)) = .ok (.bcWriteBits n v) [] := by
  obtain ⟨hn, hv⟩ := Instr.wf_bcWriteBits.1 h
  have hpow : 2 ^ n ≤ 2 ^ 24 := Nat.pow_le_pow_right (by decide) hn
  have hn1 : n < 256 ^ 1 := by omega
  have hv4 : v < 256 ^ 4 := by omega
  rw [decodeUnit_bcWriteBits_code, operand_putBe hn1, operand_checked 4 _ hv4 h]

theorem decodeUnit_bcWriteBool (b : Bool) : decodeUnit (0x29 :: putBe 1 b.toNat) = .ok (.bcWriteBool b) [] := by
  cases b <;> rfl

theorem decodeUnit_bcWriteUnary (j : Nat) : decodeUnit (0x2A :: putNat j) = .ok (.bcWriteUnary j) [] := by
  have h := bigOperand_putNat j [] fun j rest => .ok (.bcWriteUnary j) rest
  rwa [List.append_nil] at h

theorem decodeUnit_haAllocate {f : List Nat} {maxLen : Nat} (h : (Instr.haAllocate f maxLen).wf = true) :
    decodeUnit (0x30 :: (putBe 1 (maxLen - 1) ++ putNat (f.length - 1) ++ f.flatMap putNat)) =
      .ok (.haAllocate f maxLen) [] := by
  obtain ⟨hf, hmin, hmax⟩ := Instr.wf_haAllocate.1 h
  have hfs := takeNats_putNat f []
  rw [List.append_nil] at hfs
  rw [decodeUnit_haAllocate_code, decodeAllocate, List.append_assoc, operand_putBe (by omega), bigOperand_putNat,
    Nat.sub_add_cancel hf, Nat.sub_add_cancel hmin]
  simp only [hfs, checked_of_wf h]

theorem decodeUnit_htCodes {ls : List Nat} (h : (Instr.htCodes ls).wf = true) :
    decodeUnit (0x3A :: (putBe 2 (ls.length - 1) ++ ls.flatMap fun l => putBe 1 (l - 1))) = .ok (.htCodes ls) [] := by
  obtain ⟨hpos, hshort, hlegal⟩ := Instr.wf_htCodes.1 h
  have hread := takeManyBe_putBe (k := 1) (vs := ls.map (· - 1)) (by
    intro v hv
    obtain ⟨l, hl, rfl⟩ := List.mem_map.1 hv
    have := (hlegal l hl).2
    omega) []
  rw [List.length_map, List.flatMap_map, List.append_nil] at hread
  have hback : (ls.map (· - 1)).map (· + 1) = ls := by
    rw [List.map_map]
    exact (List.map_congr_left fun l hl => Nat.sub_add_cancel (hlegal l hl).1).trans (List.map_id ls)
  rw [decodeUnit_htCodes_code, decodeCodes, operand_putBe (by omega), Nat.sub_add_cancel hpos]
  simp only [hread, hback, checked_of_wf h]

theorem decodeUnit_mtfEncode {bytes inUse : List Byte} (h : (Instr.mtfEncode bytes inUse).wf = true) :
    decodeUnit (0x41 :: (putBe 4 (bytes.length - 1) ++ bytes ++ putBe 1 (inUse.length - 1) ++ inUse)) =
      .ok (.mtfEncode bytes inUse) [] := by
  obtain ⟨hpos, hmax, hasc, hused, -⟩ := Instr.wf_mtfEncode.1 h
  obtain ⟨b, hb⟩ := List.exists_mem_of_length_pos hpos
  have hne : 1 ≤ inUse.length := List.length_pos_of_mem (hused b hb)
  have hle := Machine.ascending_length_le hasc
  have hinUse := takeRaw_append inUse []
  rw [List.append_nil] at hinUse
  rw [decodeUnit_mtfEncode_code, decodeMtfEncode, List.append_assoc, List.append_assoc, operand_putBe (by omega),
    Nat.sub_add_cancel hpos]
  simp only [takeRaw_append]
  rw [operand_putBe (by omega), Nat.sub_add_cancel hne]
  simp only [hinUse, checked_of_wf h]

/-! ### The round trip -/

/-- Settles O1: each instruction by the form of its words, an operand that has a range by that range. -/
theorem decodeEncodeRoundTrip : Obligations.DecodeEncodeRoundTrip := by
  intro lens i hwf hsym
  cases i with
  | symbolCode sym => exact absurd rfl (hsym sym)
  | streamHeader d => exact decode_wire_eq_some.2 ⟨[], decodeWire_streamHeader lens d⟩
  | blockCrc v | origPtr v | usedMap v | subMap v | nGroups v | nSelectors v | lenSeed v | combinedCrc v =>
    exact decode_wire_eq_some.2 ⟨[], wireField_toNat v _⟩
  | randomised r => cases r <;> rfl
  | selectorCode j => exact decode_wire_eq_some.2 ⟨[], decodeWire_selector lens j⟩
  | padding bits => exact decode_wire_eq_some.2 ⟨[], if_pos (of_decide_eq_true hwf)⟩
  | hostOpen v | hostRead v | hostClose v | encOpen v | encFinish v | encClose v =>
    simp [encode, decode, decodeHost, takeBe_putBe_word_end]
  | encWrite m data => exact decode_host_eq_some.2 ⟨[], decodeHost_encWrite (of_decide_eq_true hwf)⟩
  | bcReadBits n =>
    exact decode_unit_eq_some.2 ⟨[], operand_checked 1 .bcReadBits ((of_decide_eq_true hwf).trans_lt (by decide)) hwf⟩
  | htBuild g =>
    exact decode_unit_eq_some.2 ⟨[], operand_checked 1 .htBuild ((of_decide_eq_true hwf).trans (by decide)) hwf⟩
  | htDecode g =>
    exact decode_unit_eq_some.2 ⟨[], operand_checked 1 .htDecode ((of_decide_eq_true hwf).trans (by decide)) hwf⟩
  | mtfDecodeSymbol sym =>
    exact decode_unit_eq_some.2 ⟨[], operand_checked 2 .mtfDecodeSymbol ((of_decide_eq_true hwf).trans_lt (by decide)) hwf⟩
  | bcWriteBits n v => exact decode_unit_eq_some.2 ⟨[], decodeUnit_bcWriteBits hwf⟩
  | bcWriteBool b => exact decode_unit_eq_some.2 ⟨[], decodeUnit_bcWriteBool b⟩
  | bcWriteUnary j => exact decode_unit_eq_some.2 ⟨[], decodeUnit_bcWriteUnary j⟩
  | bcWriteInt32 v | crcCombine v => exact decode_unit_eq_some.2 ⟨[], operand_word v _⟩
  | derand b | crcUpdate b => exact decode_unit_eq_some.2 ⟨[], operand_byte b _⟩
  | haAllocate f maxLen => exact decode_unit_eq_some.2 ⟨[], decodeUnit_haAllocate hwf⟩
  | htCodes ls => exact decode_unit_eq_some.2 ⟨[], decodeUnit_htCodes hwf⟩
  | mtfEncode bytes inUse => exact decode_unit_eq_some.2 ⟨[], decodeUnit_mtfEncode hwf⟩
  | blockMagic | eosMagic | lenEnd | lenInc | lenDec => rfl
  | bcReadBool | bcReadUnary | bcReadInt32 | bcFlush | piBuild | piNext | rle1Next | crcInit | crcFinal
  | stepStreamHeader | stepHeader | stepTables | stepSymbols | stepPermute | stepEmit | stepCrcCheck
  | stepTrailer => rfl

end Sys2Proof
end

section
/-! PROOFS. The codeword of a symbol at the symbol position of the wire format (spec/30_encoding.md R107;
spec/42_huffman_tables.md R195, R197): the walk over the rows of the length loop reaches the codeword's length and
finds the symbol there. -/

namespace Sys2Proof.Machine

/-- The candidate at a symbol's length that is its codeword gives the symbol. -/
theorem walkCode_hit {lens : List Nat} {sym L : Nat} (h : lens[sym]? = some L) (rows : List LenRow) (bits : List Bool) :
    walkCode (permOf lens) (rowAt lens L :: rows) (codeOf lens sym) bits = some (sym, bits) := by
  have hcode := codeOf_eq h
  have hrank := rank_lt_count h
  have hindex := shorterThan_le_firstAt (minOf_le (List.mem_of_getElem? h))
  have hlast : codeOf lens sym < firstAt lens L + lens.count L := by omega
  have hplace : codeOf lens sym - (firstAt lens L - shorterThan lens L) =
      shorterThan lens L + (lens.take sym).count L := by omega
  unfold walkCode
  simp only [rowAt, if_pos hlast, hplace, permOf_getElem? h]

/-- A candidate above the codewords of its length needs one bit more. -/
theorem walkCode_miss {lens perm : List Nat} {L v : Nat} (hv : firstAt lens L + lens.count L ≤ v) (row : LenRow)
    (rows : List LenRow) (b : Bool) (bits : List Bool) :
    walkCode perm (rowAt lens L :: row :: rows) v (b :: bits) = walkCode perm (row :: rows) (2 * v + b.toNat) bits := by
  rw [walkCode]
  exact if_neg (Nat.not_lt.2 hv)

/-- The walk passes the lengths at which the candidate is above every codeword. -/
theorem walkCode_skip (lens perm : List Nat) (d n : Nat) {L w : Nat} (hmin : minOf lens ≤ L)
    (hw : firstAt lens (L + d) ≤ w) (rest : List Bool) :
    walkCode perm ((List.range' L (d + (n + 1))).map (rowAt lens)) (w / 2 ^ d) (toBits d w ++ rest) =
      walkCode perm ((List.range' (L + d) (n + 1)).map (rowAt lens)) w rest := by
  induction d generalizing L with
  | zero => simp [toBits]
  | succ d ih =>
    have habove : firstAt lens L + lens.count L ≤ w / 2 ^ (d + 1) :=
      (Nat.le_div_iff_mul_le (Nat.two_pow_pos _)).2 ((mul_two_pow_le_firstAt hmin d).trans hw)
    have hnext : 2 * (w / 2 ^ (d + 1)) + (decide (w / 2 ^ d % 2 = 1)).toNat = w / 2 ^ d := by
      rw [toNat_decide_mod_two, Nat.pow_succ, ← Nat.div_div_eq_div_mul, Nat.div_add_mod]
    have hlen : L + 1 + d = L + (d + 1) := by omega
    have hrows : d + 1 + (n + 1) = d + n + 1 + 1 := by omega
    have hskip := ih (L := L + 1) (by omega) (by rwa [hlen])
    rw [hlen, ← hnext] at hskip
    rw [← hskip, hrows, List.range'_succ, List.range'_succ, List.map_cons, List.map_cons, toBits, List.cons_append,
      walkCode_miss habove]
    rfl

/-- A codeword at the head of the bits is taken, and the bits after it are left. -/
theorem takeCode_codeword {lens : List Nat} {sym : Nat} (hlens : prefixLengths lens = true) (hsym : sym < lens.length)
    (rest : List Bool) : takeCode lens (codeword lens sym ++ rest) = some (sym, rest) := by
  obtain ⟨-, -, hlegal, hkraft⟩ := (prefixLengths_iff lens).1 hlens
  obtain ⟨L, hL⟩ : ∃ L, lens[sym]? = some L := ⟨_, List.getElem?_eq_getElem hsym⟩
  have hmem : L ∈ lens := List.mem_of_getElem? hL
  have hmin := minOf_le hmem
  have hmax := le_maxOf hmem
  have hcode := codeOf_eq hL
  have hrank := rank_lt_count hL
  have hbound := firstAt_add_count_le hkraft hmin (hlegal L hmem).2
  obtain ⟨d, rfl⟩ := Nat.exists_eq_add_of_le hmin
  obtain ⟨n, hn⟩ := Nat.exists_eq_add_of_le hmax
  have hhigh : codeOf lens sym / 2 ^ d < 2 ^ minOf lens := by
    rw [Nat.div_lt_iff_lt_mul (Nat.two_pow_pos d), ← Nat.pow_add]
    omega
  have hrows : maxOf lens + 1 - minOf lens = d + (n + 1) := by omega
  rw [codeword_eq hL, toBits_add, List.append_assoc]
  simp only [takeCode, takeBits_toBits hhigh]
  rw [rowsOf_eq, hrows, walkCode_skip lens _ d n (Nat.le_refl _) (by omega), List.range'_succ, List.map_cons,
    walkCode_hit hL]

/-- Settles O2: the codeword is taken by `takeCode`, and the alphabet has 258 symbols at most. -/
theorem symbolCodeRoundTrip : Obligations.SymbolCodeRoundTrip := by
  intro lens sym rest hlens hsym
  obtain ⟨-, hshort, -⟩ := (prefixLengths_iff lens).1 hlens
  have hle : sym.toNat ≤ 257 := by omega
  simp only [decodeWire, takeCode_codeword hlens hsym, if_pos hle, BitVec.ofNat_toNat, BitVec.setWidth_eq]

end Sys2Proof.Machine
end

section
/-! PROOFS. Whatever decodes is well formed (spec/30_encoding.md R112): the decoder's forms, each of which gives only
instructions whose operands are in their ranges. -/

namespace Sys2Proof

/-- If this is an instruction, it is well formed. -/
def Decoded.Sound {β : Type} (d : Decoded β) : Prop := ∀ i rest, d = .ok i rest → i.wf = true

section
variable {β : Type}

theorem Decoded.sound_ok_iff {i : Instr} {rest : List β} : (Decoded.ok i rest).Sound ↔ i.wf = true := by
  constructor
  · exact fun h => h i rest rfl
  · rintro h _ _ ⟨⟩
    exact h

theorem Decoded.sound_ok {i : Instr} (h : i.wf = true) (rest : List β) : (Decoded.ok i rest).Sound :=
  Decoded.sound_ok_iff.2 h

theorem Decoded.sound_bad (e : DecodeError) : (Decoded.bad e : Decoded β).Sound := nofun

theorem Decoded.sound_ite {p : Prop} [Decidable p] {d d' : Decoded β} (h : p → d.Sound) (h' : ¬p → d'.Sound) :
    (if p then d else d').Sound := by
  split
  · exact h ‹p›
  · exact h' ‹¬p›

end

/-! ### Bytes read -/

/-- A number of `k` bytes is below `256^k`, from a number already read below its own bound. -/
theorem takeBe_lt {k acc v m : Nat} {bs rest : List Byte} (h : takeBe k acc bs = some (v, rest)) (hacc : acc < m) :
    v < m * 256 ^ k := by
  induction k generalizing acc m bs with
  | zero =>
    cases h
    simpa using hacc
  | succ k ih =>
    cases bs with
    | nil => cases h
    | cons b bs =>
      have hb : b.toNat < 256 := b.isLt
      have hv := ih (m := m * 256) h (by omega)
      rwa [Nat.mul_assoc, ← Nat.pow_succ'] at hv

theorem takeRaw_length {n : Nat} {bs xs rest : List Byte} (h : takeRaw n bs = some (xs, rest)) : xs.length = n := by
  induction n generalizing bs xs with
  | zero =>
    cases h
    rfl
  | succ n ih =>
    cases bs with
    | nil => cases h
    | cons b bs =>
      unfold takeRaw at h
      split at h
      · cases h
      · rename_i ys rest' hys
        cases h
        rw [List.length_cons, ih hys]

/-! ### The forms -/

theorem checked_sound (i : Instr) (rest : List Byte) : (checked i rest).Sound :=
  Decoded.sound_ite (fun h => Decoded.sound_ok h rest) fun _ => Decoded.sound_bad _

theorem operand_sound (k : Nat) (bs : List Byte) {f : Nat → List Byte → Decoded Byte}
    (h : ∀ v rest, (f v rest).Sound) : (operand k bs f).Sound := by
  unfold operand
  split
  · exact h _ _
  · exact Decoded.sound_bad _

theorem bigOperand_sound (bs : List Byte) {f : Nat → List Byte → Decoded Byte}
    (h : ∀ v rest, (f v rest).Sound) : (bigOperand bs f).Sound := by
  unfold bigOperand
  split
  · exact h _ _
  · exact Decoded.sound_bad _

theorem wireField_sound (n : Nat) (bits : List Bool) {f : Nat → Instr} (h : ∀ v, (f v).wf = true) :
    (wireField n bits f).Sound := by
  unfold wireField
  split
  · exact Decoded.sound_ok (h _) _
  · exact Decoded.sound_bad _

/-! ### Wire elements -/

theorem decodeWire_sound (pos : WirePos) (lens : List Nat) (bits : List Bool) : (decodeWire pos lens bits).Sound := by
  cases pos with
  | blockCrc | randomised | origPtr | usedMap | subMap | nGroups | nSelectors | lenSeed | trailer =>
    exact wireField_sound _ bits fun _ => rfl
  | streamHeader =>
    dsimp only [decodeWire]
    split
    · exact Decoded.sound_ite (fun _ => Decoded.sound_ok rfl _) fun _ => Decoded.sound_bad _
    · exact Decoded.sound_bad _
  | magic =>
    dsimp only [decodeWire]
    split
    · exact Decoded.sound_ite (fun _ => Decoded.sound_ok rfl _) fun _ =>
        Decoded.sound_ite (fun _ => Decoded.sound_ok rfl _) fun _ => Decoded.sound_bad _
    · exact Decoded.sound_bad _
  | selector =>
    dsimp only [decodeWire]
    split
    · exact Decoded.sound_ok rfl _
    · exact Decoded.sound_bad _
  | lenFlag =>
    dsimp only [decodeWire]
    split
    · exact Decoded.sound_ok rfl _
    · exact Decoded.sound_ok rfl _
    · exact Decoded.sound_ok rfl _
    · exact Decoded.sound_bad _
  | symbol =>
    dsimp only [decodeWire]
    split
    · rename_i sym rest _
      refine Decoded.sound_ite (fun hsym => Decoded.sound_ok (i := .symbolCode _) (decide_eq_true ?_) _) fun _ =>
        Decoded.sound_bad _
      rw [BitVec.toNat_ofNat]
      omega
    · exact Decoded.sound_bad _
  | padding =>
    exact Decoded.sound_ite (fun h => Decoded.sound_ok (i := .padding bits) (decide_eq_true h) _) fun _ =>
      Decoded.sound_bad _

/-! ### Host commands -/

theorem decodeHost_sound (bs : List Byte) : (decodeHost bs).Sound := by
  unfold decodeHost
  split
  · exact Decoded.sound_bad _
  · split
    · exact Decoded.sound_bad _
    · rename_i v rest hword
      have hv : v < 1 * 256 ^ 4 := takeBe_lt hword Nat.one_pos
      split
      · exact Decoded.sound_ok rfl _
      · exact Decoded.sound_ok rfl _
      · exact Decoded.sound_ok rfl _
      · exact Decoded.sound_ok rfl _
      · split
        · rename_i data rest' hdata
          refine Decoded.sound_ok (i := .encWrite _ data) (decide_eq_true ?_) _
          rw [takeRaw_length hdata, BitVec.toNat_ofNat]
          omega
        · exact Decoded.sound_bad _
      · exact Decoded.sound_ok rfl _
      · exact Decoded.sound_ok rfl _
      · exact Decoded.sound_bad _

/-! ### Internal operations -/

theorem decodeAllocate_sound (bs : List Byte) : (decodeAllocate bs).Sound := by
  refine operand_sound _ _ fun m rest => bigOperand_sound _ fun n rest' => ?_
  split
  · exact checked_sound _ _
  · exact Decoded.sound_bad _

theorem decodeCodes_sound (bs : List Byte) : (decodeCodes bs).Sound := by
  refine operand_sound _ _ fun n rest => ?_
  split
  · exact checked_sound _ _
  · exact Decoded.sound_bad _

theorem decodeMtfEncode_sound (bs : List Byte) : (decodeMtfEncode bs).Sound := by
  refine operand_sound _ _ fun n rest => ?_
  split
  · exact Decoded.sound_bad _
  · refine operand_sound _ _ fun k rest'' => ?_
    split
    · exact checked_sound _ _
    · exact Decoded.sound_bad _

/-- Each code by the form of its operands. -/
theorem decodeUnitBody_sound (code : Nat) (bs : List Byte) : (decodeUnitBody code bs).Sound := by
  unfold decodeUnitBody
  split <;>
    simp [Decoded.sound_ok_iff, Decoded.sound_bad, Decoded.sound_ite, checked_sound, operand_sound, bigOperand_sound,
      decodeAllocate_sound, decodeCodes_sound, decodeMtfEncode_sound, Instr.wf]

theorem decodeUnit_sound (bs : List Byte) : (decodeUnit bs).Sound := by
  cases bs with
  | nil => exact Decoded.sound_bad _
  | cons code bs => exact decodeUnitBody_sound _ bs

/-- Settles O3: each of the three forms is sound. -/
theorem decodeGivesWellFormed : Obligations.DecodeGivesWellFormed := by
  intro lens x i h
  cases x with
  | host bytes =>
    obtain ⟨rest, hok⟩ := decode_host_eq_some.1 h
    exact decodeHost_sound bytes i rest hok
  | unit bytes =>
    obtain ⟨rest, hok⟩ := decode_unit_eq_some.1 h
    exact decodeUnit_sound bytes i rest hok
  | wire pos bits =>
    obtain ⟨rest, hok⟩ := decode_wire_eq_some.1 h
    exact decodeWire_sound pos lens bits i rest hok

end Sys2Proof
end

section
/-! PROOFS. Words written out (spec/30_encoding.md R101 to R117), and IllegalCommand (spec/60_exceptions.md R347). -/

namespace Sys2Proof

/-- Settles O4: the decoder evaluated on each word. -/
theorem decodedWords : Obligations.DecodedWords :=
  ⟨rfl, rfl, rfl, rfl, rfl, rfl, rfl, rfl⟩

/-- An opcode that R115 does not list is refused by name, whatever its operand (log 11). -/
theorem decodeHost_unlisted {op : Byte} (hop : op ∉ ([0x01, 0x02, 0x03, 0x11, 0x12, 0x13, 0x14] : List Byte))
    (b1 b2 b3 b4 : Byte) (rest : List Byte) :
    decodeHost (op :: b1 :: b2 :: b3 :: b4 :: rest) = .bad (.unknownCode op.toNat) := by
  have hne : ∀ c : Byte, c ∈ ([0x01, 0x02, 0x03, 0x11, 0x12, 0x13, 0x14] : List Byte) → op.toNat ≠ c.toNat :=
    fun c hc heq => hop (BitVec.eq_of_toNat_eq heq ▸ hc)
  simp only [decodeHost, takeBe]
  split
  · exact absurd ‹op.toNat = 0x01› (hne 0x01 (by decide))
  · exact absurd ‹op.toNat = 0x02› (hne 0x02 (by decide))
  · exact absurd ‹op.toNat = 0x03› (hne 0x03 (by decide))
  · exact absurd ‹op.toNat = 0x11› (hne 0x11 (by decide))
  · exact absurd ‹op.toNat = 0x12› (hne 0x12 (by decide))
  · exact absurd ‹op.toNat = 0x13› (hne 0x13 (by decide))
  · exact absurd ‹op.toNat = 0x14› (hne 0x14 (by decide))
  · rfl

namespace Machine

/-- A step that meets an opcode R115 does not list answers IllegalCommand and takes its five bytes (R347, log 11). -/
theorem step_of_unlisted {s : State} {op b1 b2 b3 b4 : Byte} {rest : List Byte} (hslot : s.slot = .empty)
    (htxn : s.txn = none) (hcmds : s.host.cmds = op :: b1 :: b2 :: b3 :: b4 :: rest)
    (hop : op ∉ ([0x01, 0x02, 0x03, 0x11, 0x12, 0x13, 0x14] : List Byte)) :
    step s = .next (answer illegalCommandResult { s with host := { s.host with cmds := rest } }) := by
  have hfetch : fetch s = .illegal { s with host := { s.host with cmds := rest } } := by
    simp only [fetch, hslot, htxn, fetchCommand, hcmds, decodeHost_unlisted hop, List.drop_succ_cons, List.drop_zero]
  rw [step, hfetch]

/-- Settles O9: the unlisted opcode is met in `fetch`, and each command makes its check first. -/
theorem illegalCommandChangesNothing : Obligations.IllegalCommandChangesNothing := by
  refine ⟨fun s op b1 b2 b3 b4 rest hslot htxn hcmds hop => step_of_unlisted hslot htxn hcmds hop, fun s htxn => ?_⟩
  simp only [exec, execHostOpen, execHostRead, execHostClose, execEncOpen, execEncWrite, execEncFinish, execEncClose,
    command_eq_next, htxn, true_and]
  exact ⟨fun v henc => by rw [henc]; rfl, fun n hn => if_pos hn, fun v hdec => if_pos hdec,
    fun level hlevel => if_pos hlevel, fun m data henc => if_pos henc, fun v henc => if_pos henc,
    fun v henc => if_pos henc⟩

end Machine
end Sys2Proof
end

section
/-! PROOFS. The bit channel's operations issued on their own (spec/40_bit_channel.md): the other operand forms of the
reader (R142 to R145), the operations outside their operand ranges (R146, R150, R174), and fields written and read back
(R155). -/

namespace Sys2Proof.Machine

/-! ### The reader's operand forms -/

/-- An operation of the bit reader, issued on its own, whose bits stand at the head of those to come. -/
theorem Reader.Reads.finishRet_completes {α : Type} {op : Reader → Res Reader α} {bits rest : List Bool} {v : α}
    (h : Reader.Reads op bits v) (f : α → UnitResult) {s : State} (hw : s.rd.wf = true)
    (hp : s.rd.pending = bits ++ rest) :
    ∃ r, finishRet f (onReader op s) = .next { s with rd := r, ret := f v } ∧ s.rd.TakenTo bits.length r := by
  obtain ⟨r, hrun, ht, -⟩ := h s.rd rest hw hp
  exact ⟨r, finishRet_onReader_of_ok f hrun, ht⟩

/-- Settles O22: each operation reads its form, and the length of the form is what is taken. -/
theorem readBoolUnaryInt32 : Obligations.ReadBoolUnaryInt32 := by
  refine ⟨fun s b rest hw hp => (readBool_reads b).finishRet_completes .bool hw hp, fun s j rest hw hp => ?_,
    fun s v rest hw hp => ?_⟩
  · obtain ⟨r, e, ht⟩ := (readUnary_reads j).finishRet_completes .nat hw (rest := rest) (by simp [hp])
    exact ⟨r, e, by simpa using ht⟩
  · obtain ⟨r, e, ht⟩ := (readInt32_reads v.isLt).finishRet_completes .nat hw hp
    exact ⟨r, e, by rwa [toBits_length] at ht⟩

/-! ### Operands outside their ranges -/

theorem readBits_refused {n : Nat} (hn : 24 < n) (r : Reader) : readBits n r = .refused .operandOutOfRange :=
  if_neg (Nat.not_le.2 hn)

theorem writeBits_refused {n v : Nat} (hv : 2 ^ n ≤ v) (w : Writer) :
    writeBits n v w = .refused .operandOutOfRange :=
  if_neg fun h => Nat.not_lt.2 hv h.2

/-- More symbols than codewords of the greatest length (R174): refused, be it by the check of R174 or, for a greatest
length out of range, by that of R170 before it. -/
theorem allocate_refused {f : List Nat} {maxLen : Nat} (h1 : 1 < f.length) (hf : 2 ^ maxLen < f.length) (s : State) :
    allocate f maxLen s = .refused .operandOutOfRange := by
  unfold allocate
  by_cases hrange : f.length = 0 ∨ maxLen = 0 ∨ 32 < maxLen
  · rw [if_pos hrange]
  · rw [if_neg hrange, if_neg (Nat.ne_of_gt h1), if_pos hf]

/-- Settles O26: what the operation refuses is refused when it is issued on its own. -/
theorem operandsOutOfRangeRefused : Obligations.OperandsOutOfRangeRefused := by
  refine fun s => ⟨fun n hn => ?_, fun n v hv => ?_, fun f maxLen h1 hf => ?_⟩
  · change finishRet .nat (onReader (readBits n) s) = _
    rw [onReader, readBits_refused hn, Res.lift_refused, finishRet]
  · change finishWriter (onEncoder (onWriter (writeBits n v)) s) = _
    rw [onEncoder, onWriter, writeBits_refused hv, Res.lift_refused, Res.lift_refused, finishWriter]
  · change finishRet .nats (allocate f maxLen s) = _
    rw [allocate_refused h1 hf, finishRet]

/-! ### Fields written and read back -/

/-- The value read, changed by `f`. -/
theorem Reader.Reads.map {α β : Type} {op : Reader → Res Reader α} {bits : List Bool} {v : α}
    (h : Reader.Reads op bits v) (f : α → β) : Reader.Reads (fun r => (op r).map f) bits (f v) := by
  intro r rest hw hp
  obtain ⟨r', hrun, ht⟩ := h r rest hw hp
  exact ⟨r', by simp only [hrun, Res.map], ht⟩

/-- Fields in their ranges are written as their bits in order (R150). -/
theorem writeFields_writes {fields : List (Nat × Nat)} (hf : ∀ f ∈ fields, f.1 ≤ 24 ∧ f.2 < 2 ^ f.1) {w : Writer}
    (hw : w.wf = true) (ha : w.attached = true) : w.Writes (writeFields fields) (fieldBits fields) := by
  induction fields generalizing w with
  | nil => exact Writer.writes_nothing hw ha
  | cons f rest ih =>
    obtain ⟨⟨hn, hv⟩, hrest⟩ := List.forall_mem_cons.1 hf
    exact (writeBits_writes hw ha hn hv).bind fun w' a => ih hrest a.wf a.attached

/-- The bits of fields in their ranges, read with the same widths, give the values (R141). -/
theorem readFields_reads {fields : List (Nat × Nat)} (hf : ∀ f ∈ fields, f.1 ≤ 24 ∧ f.2 < 2 ^ f.1) :
    Reader.Reads (readFields (fields.map Prod.fst)) (fieldBits fields) (fields.map Prod.snd) := by
  induction fields with
  | nil => exact Reader.reads_ok []
  | cons f rest ih =>
    obtain ⟨⟨hn, hv⟩, hrest⟩ := List.forall_mem_cons.1 hf
    exact (readBits_reads hn hv).bind ((ih hrest).map (f.2 :: ·))

/-- The 0 bits of a flush leave no bit live (R154). -/
theorem Writer.Appended.live_of_flush {w w' : Writer} (hw : w.wf = true)
    (h : w.Appended (List.replicate ((8 - w.live.toNat) % 8) false) w') : w'.live = 0 := by
  have hle := Writer.live_le hw
  have hlive : w'.live.toNat = 0 := by
    rw [h.progress.2, List.length_replicate]
    omega
  exact BitVec.eq_of_toNat_eq hlive

/-- Settles O25: the bytes put hold the bits of the fields and then those of the flush, and the reader takes the bits of
the fields. -/
theorem writeReadAgree : Obligations.WriteReadAgree := by
  intro fields hf
  obtain ⟨w₁, hwrite, a₁⟩ :=
    (writeFields_writes hf (w := { Writer.reset with attached := true }) rfl rfl).completes rfl
  obtain ⟨w, hflush, a₂⟩ := (flush_writes a₁.wf a₁.attached).completes (Writer.takes_of_none _ a₁.failure)
  have hsink : bitsOfBytes w.sink = fieldBits fields ++ List.replicate ((8 - w₁.live.toNat) % 8) false := by
    rw [← Writer.bits_of_live_zero (a₂.live_of_flush a₁.wf)]
    exact (a₁.trans a₂).bits_eq
  obtain ⟨r, hread, -, hp⟩ :=
    readFields_reads hf { Reader.reset with src := some { bytes := w.sink, after := .ends } } _ rfl hsink
  refine ⟨w, r, by rw [hwrite, Res.bind_ok, hflush], hread, ?_, ?_⟩
  · rw [hp, List.length_replicate]
    exact Nat.mod_lt _ (by decide)
  · simp [hp]

end Sys2Proof.Machine
end

section
/-! PROOFS. The merges of the length allocator (spec/41_huffman_allocator.md R175): the tree they build, and the depths
of the trees merged. The merges take the trees in the order of the leaves and of the queue, and append each new node to
the queue; so, read from the root back, a tree taken earlier lies no higher than one taken later. -/

namespace Sys2Proof.Machine

/-! ### The sorted leaves -/

/-- The symbol of a leaf. -/
def Weighted.index (x : Weighted) : Nat :=
  match x.tree with
  | .leaf i => i
  | .node _ _ => 0

/-- The order of R175: by weight and, among equal weights, by symbol. -/
def Weighted.Before (x y : Weighted) : Prop := x.weight < y.weight ∨ x.weight = y.weight ∧ x.index < y.index

theorem Weighted.Before.asymm {x y : Weighted} (h : x.Before y) : ¬ y.Before x := by
  unfold Weighted.Before at *
  omega

/-- The leaf of a symbol after its weight, as `List.zipIdx` pairs them. -/
def leafOf (p : Nat × Nat) : Weighted := { weight := p.1, tree := .leaf p.2 }

@[simp] theorem leafOf_index (p : Nat × Nat) : (leafOf p).index = p.2 := rfl

theorem leavesFrom_eq (w : List Nat) (i : Nat) : leavesFrom i w = (w.zipIdx i).map leafOf := by
  induction w generalizing i with
  | nil => rfl
  | cons x w ih => simp [leavesFrom, ih, leafOf]

theorem insertLeaf_perm (x : Weighted) (l : List Weighted) : (insertLeaf x l).Perm (x :: l) := by
  induction l with
  | nil => rfl
  | cons y l ih =>
    rw [insertLeaf]
    split
    · rfl
    · exact (ih.cons y).trans (.swap x y l)

/-- A leaf of a lower symbol than all of a list in order is inserted in order. -/
theorem insertLeaf_pairwise {x : Weighted} {l : List Weighted} (hl : l.Pairwise Weighted.Before)
    (hx : ∀ y ∈ l, x.index < y.index) : (insertLeaf x l).Pairwise Weighted.Before := by
  induction l with
  | nil => exact List.pairwise_singleton ..
  | cons y l ih =>
    obtain ⟨hy, hrest⟩ := List.pairwise_cons.1 hl
    obtain ⟨hxy, hxrest⟩ := List.forall_mem_cons.1 hx
    rw [insertLeaf]
    split
    next hle =>
      refine List.pairwise_cons.2 ⟨List.forall_mem_cons.2 ⟨?_, fun z hz => ?_⟩, hl⟩
      · exact hle.lt_or_eq.imp_right fun heq => ⟨heq, hxy⟩
      · have := hy z hz
        have := hxrest z hz
        unfold Weighted.Before at *
        omega
    next hlt =>
      refine List.pairwise_cons.2 ⟨fun z hz => ?_, ih hrest hxrest⟩
      obtain rfl | hz := List.mem_cons.1 ((insertLeaf_perm x l).mem_iff.1 hz)
      · exact .inl (Nat.not_le.1 hlt)
      · exact hy z hz

theorem foldr_insertLeaf_perm (l : List Weighted) : (l.foldr insertLeaf []).Perm l := by
  induction l with
  | nil => rfl
  | cons x l ih => exact (insertLeaf_perm x _).trans (ih.cons x)

theorem foldr_insertLeaf_pairwise {l : List Weighted} (hl : l.Pairwise fun x y => x.index < y.index) :
    (l.foldr insertLeaf []).Pairwise Weighted.Before := by
  induction l with
  | nil => exact .nil
  | cons x l ih =>
    obtain ⟨hx, hrest⟩ := List.pairwise_cons.1 hl
    exact insertLeaf_pairwise (ih hrest) fun y hy => hx y ((foldr_insertLeaf_perm l).mem_iff.1 hy)

theorem sortedLeaves_perm (w : List Nat) : (sortedLeaves w).Perm (w.zipIdx.map leafOf) := by
  rw [sortedLeaves, leavesFrom_eq]
  exact foldr_insertLeaf_perm _

theorem sortedLeaves_length (w : List Nat) : (sortedLeaves w).length = w.length := by
  simpa using (sortedLeaves_perm w).length_eq

theorem sortedLeaves_index_perm (w : List Nat) : ((sortedLeaves w).map Weighted.index).Perm (List.range w.length) := by
  have h := (sortedLeaves_perm w).map Weighted.index
  have hindex : (Weighted.index ∘ leafOf) = Prod.snd := rfl
  rwa [List.map_map, hindex, List.zipIdx_map_snd, ← List.range_eq_range'] at h

theorem sortedLeaves_pairwise (w : List Nat) : (sortedLeaves w).Pairwise Weighted.Before := by
  have hindex : (w.zipIdx.map Prod.snd).Pairwise (· < ·) := by
    rw [List.zipIdx_map_snd, ← List.range_eq_range']
    exact List.pairwise_lt_range
  rw [sortedLeaves, leavesFrom_eq]
  exact foldr_insertLeaf_pairwise (List.pairwise_map.2 (List.pairwise_map.1 hindex))

theorem mem_sortedLeaves {w : List Nat} {x : Weighted} :
    x ∈ sortedLeaves w ↔ ∃ i v, w[i]? = some v ∧ leafOf (v, i) = x := by
  simp only [(sortedLeaves_perm w).mem_iff, List.mem_map, Prod.exists, List.mem_zipIdx_iff_getElem?]
  exact exists_comm

/-! ### Depths of leaves -/

theorem leafDepths_length_pos (t : CodeTree) (d : Nat) : 0 < (leafDepths t d).length := by
  induction t generalizing d with
  | leaf i => exact Nat.one_pos
  | node a b iha ihb => simpa [leafDepths] using .inl (iha (d + 1))

/-- A leaf lies no deeper below the top than there are other leaves. -/
theorem leafDepths_lt_length {t : CodeTree} {d : Nat} {p : Nat × Nat} (hp : p ∈ leafDepths t d) :
    p.2 < d + (leafDepths t d).length := by
  induction t generalizing d with
  | leaf i =>
    obtain rfl := List.mem_singleton.1 hp
    exact Nat.lt_succ_self d
  | node a b iha ihb =>
    have hposa := leafDepths_length_pos a (d + 1)
    have hposb := leafDepths_length_pos b (d + 1)
    rw [leafDepths, List.length_append]
    obtain h | h := List.mem_append.1 hp
    · have := iha h
      omega
    · have := ihb h
      omega

theorem le_leafDepths {t : CodeTree} {d : Nat} {p : Nat × Nat} (hp : p ∈ leafDepths t d) : d ≤ p.2 := by
  induction t generalizing d with
  | leaf i =>
    obtain rfl := List.mem_singleton.1 hp
    exact Nat.le_refl d
  | node a b iha ihb =>
    obtain h | h := List.mem_append.1 hp
    · exact Nat.le_of_succ_le (iha h)
    · exact Nat.le_of_succ_le (ihb h)

/-- The top of a tree of two leaves or more is not a leaf. -/
theorem lt_leafDepths {t : CodeTree} {d : Nat} {p : Nat × Nat} (hlen : 2 ≤ (leafDepths t d).length)
    (hp : p ∈ leafDepths t d) : d < p.2 := by
  cases t with
  | leaf i => exact absurd hlen (Nat.not_succ_le_self 1)
  | node a b =>
    obtain h | h := List.mem_append.1 hp
    · exact le_leafDepths h
    · exact le_leafDepths h

/-- The Kraft sum of a list of lengths (R171 (c)). -/
def kraftSum (lens : List Nat) : ℚ := (lens.map fun l => (1 : ℚ) / 2 ^ l).sum

theorem kraftSum_append (l l' : List Nat) : kraftSum (l ++ l') = kraftSum l + kraftSum l' := by
  simp [kraftSum]

theorem kraftSum_leafDepths (t : CodeTree) (d : Nat) :
    kraftSum ((leafDepths t d).map Prod.snd) = (1 : ℚ) / 2 ^ d := by
  induction t generalizing d with
  | leaf i => simp [leafDepths, kraftSum]
  | node a b iha ihb =>
    rw [leafDepths, List.map_append, kraftSum_append, iha, ihb, pow_succ]
    ring

/-- Lengths that differ by at most 1 and have the Kraft sum 1 are as short as their number allows. -/
theorem le_of_kraftSum_eq_one {lens : List Nat} {c n : Nat} (hk : kraftSum lens = 1) (hn : lens.length ≤ 2 ^ n)
    (hlow : ∀ l ∈ lens, c ≤ l) (hhigh : ∀ l ∈ lens, l ≤ c + 1) : ∀ l ∈ lens, l ≤ n := by
  intro l hl
  by_contra hlong
  have hc : n ≤ c := by
    have := hhigh l hl
    omega
  have hlt : kraftSum lens < (lens.map fun _ => (1 : ℚ) / 2 ^ n).sum := by
    refine List.sum_lt_sum _ _ (fun x hx => ?_) ⟨l, hl, ?_⟩
    · exact one_div_pow_le_one_div_pow_of_le one_le_two (hc.trans (hlow x hx))
    · exact one_div_pow_lt_one_div_pow_of_lt one_lt_two (Nat.not_le.1 hlong)
  have hle : (lens.map fun _ => (1 : ℚ) / 2 ^ n).sum ≤ 1 := by
    rw [List.map_const', List.sum_replicate, nsmul_eq_mul, mul_one_div, div_le_one (by positivity)]
    exact_mod_cast hn
  exact absurd hk (hlt.trans_le hle).ne

/-! ### The depths that the merges give -/

theorem exists_pick {leaves queue : List Weighted} (h : 0 < leaves.length + queue.length) :
    ∃ a leaves' queue', pick leaves queue = some (a, leaves', queue') := by
  match leaves, queue with
  | [], [] => exact absurd h (by decide)
  | x :: xs, [] => exact ⟨x, xs, [], rfl⟩
  | [], q :: qs => exact ⟨q, [], qs, rfl⟩
  | x :: xs, q :: qs =>
    rw [pick]
    split
    · exact ⟨x, xs, q :: qs, rfl⟩
    · exact ⟨q, x :: xs, qs, rfl⟩

section
variable {leaves leaves' leaves'' queue queue' queue'' : List Weighted} {a b : Weighted}

/-- `Pick()` takes the head of the leaves or of the queue (R175). -/
theorem pick_eq_some (h : pick leaves queue = some (a, leaves', queue')) :
    leaves = a :: leaves' ∧ queue = queue' ∨ leaves = leaves' ∧ queue = a :: queue' := by
  match leaves, queue with
  | [], [] => exact absurd h nofun
  | x :: xs, [] =>
    cases h
    exact .inl ⟨rfl, rfl⟩
  | [], q :: qs =>
    cases h
    exact .inr ⟨rfl, rfl⟩
  | x :: xs, q :: qs =>
    rw [pick] at h
    split at h
    · cases h
      exact .inl ⟨rfl, rfl⟩
    · cases h
      exact .inr ⟨rfl, rfl⟩

theorem pick_length (h : pick leaves queue = some (a, leaves', queue')) :
    leaves.length + queue.length = leaves'.length + queue'.length + 1 := by
  obtain ⟨rfl, rfl⟩ | ⟨rfl, rfl⟩ := pick_eq_some h
  · exact Nat.succ_add ..
  · rfl

/-- The node of two trees. -/
def mergeOf (a b : Weighted) : Weighted := { weight := a.weight + b.weight, tree := .node a.tree b.tree }

theorem merges_succ (k : Nat) (ha : pick leaves queue = some (a, leaves', queue'))
    (hb : pick leaves' queue' = some (b, leaves'', queue'')) :
    merges (k + 1) leaves queue = merges k leaves'' (queue'' ++ [mergeOf a b]) := by
  rw [merges, ha]
  simp only [hb, mergeOf]

end

/-- As many trees as `k` merges make one of: when no merge is left, that one, in the queue. -/
def Mergeable (k : Nat) (leaves queue : List Weighted) : Prop :=
  leaves.length + queue.length = k + 1 ∧ (k = 0 → leaves = [])

/-- A round of the merges of R175 on what they make one tree of. -/
theorem Mergeable.exists_picks {k : Nat} {leaves queue : List Weighted} (h : Mergeable (k + 1) leaves queue) :
    ∃ a b leaves' queue' leaves'' queue'', pick leaves queue = some (a, leaves', queue') ∧
      pick leaves' queue' = some (b, leaves'', queue'') ∧ Mergeable k leaves'' (queue'' ++ [mergeOf a b]) := by
  obtain ⟨hlen, -⟩ := h
  obtain ⟨a, leaves', queue', ha⟩ := exists_pick (leaves := leaves) (queue := queue) (by omega)
  have hlen' := pick_length ha
  obtain ⟨b, leaves'', queue'', hb⟩ := exists_pick (leaves := leaves') (queue := queue') (by omega)
  have hlen'' := pick_length hb
  refine ⟨a, b, leaves', queue', leaves'', queue'', ha, hb, ?_, fun hk => List.eq_nil_of_length_eq_zero (by omega)⟩
  rw [List.length_append, List.length_singleton]
  omega

/-- The trees of a forest, each set at its depth. -/
abbrev Placed := List (Weighted × Nat)

/-- The leaves of placed trees, with their depths. -/
def Placed.leafDepths (ps : Placed) : List (Nat × Nat) := ps.flatMap fun p => Machine.leafDepths p.1.tree p.2

/-- None lies deeper than one before it. -/
def Placed.Rising (ps : Placed) : Prop := ps.Pairwise fun p q => q.2 ≤ p.2

theorem Placed.Rising.cons {ps : Placed} (h : ps.Rising) {a : Weighted} {d : Nat} (hd : ∀ p ∈ ps, p.2 ≤ d) :
    Placed.Rising ((a, d) :: ps) := List.pairwise_cons.2 ⟨hd, h⟩

/-- Leaves and queue placed below a root: each rises, the queue's trees lie within one level, and no leaf lies below
that level. -/
structure Layout (leaves queue : List Weighted) (ls qs : Placed) (c : Nat) : Prop where
  leaves_eq : ls.map Prod.fst = leaves
  queue_eq : qs.map Prod.fst = queue
  leaves_rise : ls.Rising
  queue_rises : qs.Rising
  high : ∀ p ∈ qs, c ≤ p.2
  low : ∀ p ∈ ls ++ qs, p.2 ≤ c + 1

/-- A tree that was picked, put back at the lowest level. -/
theorem Layout.unpick {leaves queue leaves' queue' : List Weighted} {a : Weighted} {ls' qs' : Placed} {c : Nat}
    (h : Layout leaves' queue' ls' qs' c) (ha : pick leaves queue = some (a, leaves', queue')) :
    ∃ ls qs : Placed, Layout leaves queue ls qs c ∧ (ls ++ qs).Perm ((a, c + 1) :: (ls' ++ qs')) := by
  obtain ⟨hleaves, hqueue, hrise, hrises, hhigh, hlow⟩ := h
  obtain ⟨hlowl, hlowq⟩ := List.forall_mem_append.1 hlow
  obtain ⟨rfl, rfl⟩ | ⟨rfl, rfl⟩ := pick_eq_some ha
  · refine ⟨(a, c + 1) :: ls', qs', ⟨by simp [hleaves], hqueue, hrise.cons hlowl, hrises, hhigh, ?_⟩, .refl _⟩
    exact List.forall_mem_cons.2 ⟨Nat.le_refl _, hlow⟩
  · refine ⟨ls', (a, c + 1) :: qs', ⟨hleaves, by simp [hqueue], hrise, hrises.cons hlowq, ?_, ?_⟩, List.perm_middle⟩
    · exact List.forall_mem_cons.2 ⟨Nat.le_succ c, hhigh⟩
    · exact List.forall_mem_append.2 ⟨hlowl, List.forall_mem_cons.2 ⟨Nat.le_refl _, hlowq⟩⟩

/-- The last tree of the queue, taken away, sets the level of the others. -/
theorem Layout.of_append_singleton {leaves queue : List Weighted} {x : Weighted} {ls qs : Placed} {c : Nat}
    (h : Layout leaves (queue ++ [x]) ls qs c) :
    ∃ (qs' : Placed) (d : Nat), qs = qs' ++ [(x, d)] ∧ Layout leaves queue ls qs' d := by
  obtain ⟨hleaves, hqueue, hrise, hrises, hhigh, hlow⟩ := h
  obtain ⟨qs', last, rfl, hqs', hlast⟩ := List.map_eq_append_iff.1 hqueue
  obtain ⟨⟨y, d⟩, rfl, rfl⟩ := List.map_eq_singleton_iff.1 hlast
  obtain ⟨hrises', -, hd⟩ := List.pairwise_append.1 hrises
  obtain ⟨hlowl, hlowq⟩ := List.forall_mem_append.1 hlow
  have hcd : c + 1 ≤ d + 1 := Nat.succ_le_succ (hhigh (y, d) (by simp))
  refine ⟨qs', d, rfl, hleaves, hqs', hrise, hrises', fun p hp => hd p hp (y, d) (List.mem_singleton_self _), ?_⟩
  refine List.forall_mem_append.2 ⟨fun p hp => (hlowl p hp).trans hcd, fun p hp => ?_⟩
  exact (hlowq p (List.mem_append_left _ hp)).trans hcd

/-- A node at a depth has the leaves of its two trees placed one level below it. -/
theorem Placed.leafDepths_merge {ls qs rest : Placed} {a b : Weighted} {d : Nat}
    (h : rest.Perm ((a, d + 1) :: (b, d + 1) :: (ls ++ qs))) :
    (Placed.leafDepths (ls ++ (qs ++ [(mergeOf a b, d)]))).Perm rest.leafDepths := by
  have hnode : (ls ++ (qs ++ [(mergeOf a b, d)])).Perm ((mergeOf a b, d) :: (ls ++ qs)) := by
    rw [← List.append_assoc]
    exact List.perm_append_singleton ..
  have hflat : Placed.leafDepths ((mergeOf a b, d) :: (ls ++ qs)) =
      Placed.leafDepths ((a, d + 1) :: (b, d + 1) :: (ls ++ qs)) := by
    simp [Placed.leafDepths, mergeOf, Machine.leafDepths]
  exact ((hnode.flatMap_right _).trans (.of_eq hflat)).trans (h.symm.flatMap_right _)

/-- The merges of `k + 1` trees end in one root, below which the trees are laid out. -/
theorem merges_layout {k : Nat} {leaves queue : List Weighted} (h : Mergeable k leaves queue) :
    ∃ (root : Weighted) (ls qs : Placed) (c : Nat), merges k leaves queue = [root] ∧ Layout leaves queue ls qs c ∧
      (leafDepths root.tree 0).Perm (ls ++ qs).leafDepths := by
  induction k generalizing leaves queue with
  | zero =>
    obtain ⟨hlen, hleaves⟩ := h
    obtain rfl := hleaves rfl
    obtain ⟨root, rfl⟩ := List.length_eq_one_iff.1 ((Nat.zero_add _).symm.trans hlen)
    refine ⟨root, [], [(root, 0)], 0, rfl, ⟨rfl, rfl, .nil, List.pairwise_singleton .., by simp, by simp⟩, ?_⟩
    simp [Placed.leafDepths]
  | succ k ih =>
    obtain ⟨a, b, leaves', queue', leaves'', queue'', ha, hb, h''⟩ := h.exists_picks
    obtain ⟨root, ls, qs, c, hmerges, hlayout, hdepths⟩ := ih h''
    obtain ⟨qs'', d, rfl, hlayout''⟩ := hlayout.of_append_singleton
    obtain ⟨ls', qs', hlayout', hperm'⟩ := hlayout''.unpick hb
    obtain ⟨ls₀, qs₀, hlayout₀, hperm₀⟩ := hlayout'.unpick ha
    exact ⟨root, ls₀, qs₀, d, (merges_succ k ha hb).trans hmerges, hlayout₀,
      hdepths.trans (Placed.leafDepths_merge (hperm₀.trans (hperm'.cons _)))⟩

/-! ### Equal weights -/

/-- Leaves of the least weight there is. -/
structure Light (leaves queue : List Weighted) : Prop where
  leaves_le : ∀ x ∈ leaves, x.weight ≤ 1
  pos : ∀ x ∈ leaves ++ queue, 1 ≤ x.weight

/-- A leaf wins a tie (R175), so that leaves of the least weight are all picked before the queue. -/
theorem Light.pick_eq {leaves queue leaves' queue' : List Weighted} {a : Weighted} (h : Light leaves queue)
    (ha : pick leaves queue = some (a, leaves', queue')) : leaves ++ queue = a :: (leaves' ++ queue') := by
  match leaves, queue with
  | [], [] => exact absurd ha nofun
  | x :: xs, [] =>
    cases ha
    rfl
  | [], q :: qs =>
    cases ha
    rfl
  | x :: xs, q :: qs =>
    have hle : x.weight ≤ q.weight := (h.leaves_le x (by simp)).trans (h.pos q (by simp))
    rw [pick, if_pos hle] at ha
    cases ha
    rfl

theorem Light.of_pick {leaves queue leaves' queue' : List Weighted} {a : Weighted} (h : Light leaves queue)
    (ha : pick leaves queue = some (a, leaves', queue')) : 1 ≤ a.weight ∧ Light leaves' queue' := by
  have hpos := h.pos
  rw [h.pick_eq ha] at hpos
  obtain ⟨hapos, hpos'⟩ := List.forall_mem_cons.1 hpos
  refine ⟨hapos, fun x hx => ?_, hpos'⟩
  obtain ⟨rfl, -⟩ | ⟨rfl, -⟩ := pick_eq_some ha
  · exact h.leaves_le x (List.mem_cons_of_mem _ hx)
  · exact h.leaves_le x hx

theorem Light.append {leaves queue : List Weighted} (h : Light leaves queue) {x : Weighted} (hx : 1 ≤ x.weight) :
    Light leaves (queue ++ [x]) := by
  refine ⟨h.leaves_le, ?_⟩
  rw [← List.append_assoc]
  exact List.forall_mem_append.2 ⟨h.pos, by simpa using hx⟩

/-- Leaves of the least weight are merged as if they stood in the queue. -/
theorem merges_of_light {k : Nat} {leaves queue : List Weighted} (h : Mergeable k leaves queue)
    (hlight : Light leaves queue) : merges k leaves queue = merges k [] (leaves ++ queue) := by
  induction k generalizing leaves queue with
  | zero =>
    obtain ⟨-, hleaves⟩ := h
    rw [hleaves rfl, List.nil_append]
  | succ k ih =>
    obtain ⟨a, b, leaves', queue', leaves'', queue'', ha, hb, h''⟩ := h.exists_picks
    obtain ⟨hapos, hlight'⟩ := hlight.of_pick ha
    obtain ⟨-, hlight''⟩ := hlight'.of_pick hb
    have hnode : 1 ≤ (mergeOf a b).weight := Nat.le_add_right_of_le hapos
    rw [merges_succ k ha hb, ih h'' (hlight''.append hnode), ← List.append_assoc, hlight.pick_eq ha,
      hlight'.pick_eq hb]
    rfl

end Sys2Proof.Machine
end

section
/-! PROOFS. The lengths of one round of the length allocator (spec/41_huffman_allocator.md R175): the depths of the
leaves in the tree of a list of weights. -/

namespace Sys2Proof.Machine

/-! ### The tree of a list of weights -/

/-- The tree whose leaves' depths `huffmanDepths` gives (R175). -/
def codeTree (w : List Nat) : CodeTree :=
  match (merges (w.length - 1) (sortedLeaves w) []).getLast? with
  | some root => root.tree
  | none => .leaf 0

theorem mergeable_sortedLeaves {w : List Nat} (hn : 2 ≤ w.length) :
    Mergeable (w.length - 1) (sortedLeaves w) [] := by
  refine ⟨?_, fun hk => by omega⟩
  rw [sortedLeaves_length, List.length_nil]
  omega

theorem huffmanDepths_eq {w : List Nat} (hn : 2 ≤ w.length) :
    huffmanDepths w = (List.range w.length).map (depthOf (leafDepths (codeTree w) 0)) := by
  obtain ⟨root, -, -, -, hroot, -⟩ := merges_layout (mergeable_sortedLeaves hn)
  simp [huffmanDepths, codeTree, hroot]

theorem sortedLeaves_tree {w : List Nat} {x : Weighted} (hx : x ∈ sortedLeaves w) : x.tree = .leaf x.index := by
  obtain ⟨i, v, -, rfl⟩ := mem_sortedLeaves.1 hx
  rfl

/-- Sorted leaves set at their depths. -/
theorem Placed.leafDepths_of_leaves {ps : Placed} {w : List Nat} (h : ps.map Prod.fst = sortedLeaves w) :
    ps.leafDepths = ps.map fun p => (p.1.index, p.2) := by
  have hps : ∀ p ∈ ps, Machine.leafDepths p.1.tree p.2 = [(p.1.index, p.2)] := fun p hp => by
    rw [sortedLeaves_tree (h ▸ List.mem_map_of_mem hp), Machine.leafDepths]
  rw [Placed.leafDepths, List.flatMap_congr hps]
  exact List.map_eq_flatMap.symm

/-- The sorted leaves rise from the bottom of their tree. -/
theorem codeTree_rising {w : List Nat} (hn : 2 ≤ w.length) :
    ∃ ps : Placed, ps.map Prod.fst = sortedLeaves w ∧ ps.Rising ∧
      (leafDepths (codeTree w) 0).Perm (ps.map fun p => (p.1.index, p.2)) := by
  obtain ⟨root, ls, qs, c, hroot, hlayout, hdepths⟩ := merges_layout (mergeable_sortedLeaves hn)
  obtain rfl := List.map_eq_nil_iff.1 hlayout.queue_eq
  rw [List.append_nil, Placed.leafDepths_of_leaves hlayout.leaves_eq] at hdepths
  refine ⟨ls, hlayout.leaves_eq, hlayout.leaves_rise, ?_⟩
  simpa [codeTree, hroot] using hdepths

/-- The leaves of equal weights lie within one level (R176). -/
theorem codeTree_even {w : List Nat} (hn : 2 ≤ w.length) (hw : ∀ x ∈ w, x = 1) :
    ∃ c, ∀ p ∈ leafDepths (codeTree w) 0, c ≤ p.2 ∧ p.2 ≤ c + 1 := by
  have hm := mergeable_sortedLeaves hn
  have hone : ∀ x ∈ sortedLeaves w, x.weight = 1 := fun x hx => by
    obtain ⟨i, v, hv, rfl⟩ := mem_sortedLeaves.1 hx
    exact hw v (List.mem_of_getElem? hv)
  have hlight : Light (sortedLeaves w) [] :=
    ⟨fun x hx => (hone x hx).le, fun x hx => (hone x (by simpa using hx)).ge⟩
  have hqueue : Mergeable (w.length - 1) [] (sortedLeaves w) := ⟨(Nat.add_comm ..).trans hm.1, fun _ => rfl⟩
  obtain ⟨root, ls, qs, c, hroot, hlayout, hdepths⟩ := merges_layout hqueue
  obtain rfl := List.map_eq_nil_iff.1 hlayout.leaves_eq
  have htree : codeTree w = root.tree := by
    simp [codeTree, merges_of_light hm hlight, hroot]
  rw [List.nil_append, Placed.leafDepths_of_leaves hlayout.queue_eq, ← htree] at hdepths
  refine ⟨c, fun p hp => ?_⟩
  obtain ⟨q, hq, rfl⟩ := List.mem_map.1 (hdepths.mem_iff.1 hp)
  exact ⟨hlayout.high q hq, hlayout.low q hq⟩

/-- Every symbol has one leaf. -/
theorem codeTree_keys {w : List Nat} (hn : 2 ≤ w.length) :
    ((leafDepths (codeTree w) 0).map Prod.fst).Perm (List.range w.length) := by
  obtain ⟨ps, hps, -, hdepths⟩ := codeTree_rising hn
  have hkeys := sortedLeaves_index_perm w
  rw [← hps, List.map_map] at hkeys
  have := hdepths.map Prod.fst
  rw [List.map_map] at this
  exact this.trans hkeys

theorem depthOf_eq {ds : List (Nat × Nat)} (hds : (ds.map Prod.fst).Nodup) {p : Nat × Nat} (hp : p ∈ ds) :
    depthOf ds p.1 = p.2 := by
  induction ds with
  | nil => exact absurd hp List.not_mem_nil
  | cons q ds ih =>
    obtain ⟨hq, hrest⟩ := List.nodup_cons.1 hds
    obtain rfl | hp := List.mem_cons.1 hp
    · simp [depthOf]
    · have hne : q.1 ≠ p.1 := fun heq => hq (heq ▸ List.mem_map_of_mem hp)
      simpa [depthOf, hne] using ih hrest hp

theorem depthOf_codeTree {w : List Nat} (hn : 2 ≤ w.length) {p : Nat × Nat} (hp : p ∈ leafDepths (codeTree w) 0) :
    depthOf (leafDepths (codeTree w) 0) p.1 = p.2 :=
  depthOf_eq ((codeTree_keys hn).nodup_iff.2 List.nodup_range) hp

/-- The lengths are the depths of the tree's leaves, in another order. -/
theorem huffmanDepths_perm {w : List Nat} (hn : 2 ≤ w.length) :
    (huffmanDepths w).Perm ((leafDepths (codeTree w) 0).map Prod.snd) := by
  rw [huffmanDepths_eq hn]
  refine ((codeTree_keys hn).map _).symm.trans (.of_eq ?_)
  rw [List.map_map]
  exact List.map_congr_left fun p hp => depthOf_codeTree hn hp

/-! ### The lengths of one round of R173 -/

theorem huffmanDepths_length {w : List Nat} (hn : 2 ≤ w.length) : (huffmanDepths w).length = w.length := by
  rw [huffmanDepths_eq hn, List.length_map, List.length_range]

theorem leafDepths_codeTree_length {w : List Nat} (hn : 2 ≤ w.length) :
    (leafDepths (codeTree w) 0).length = w.length := by
  simpa using (codeTree_keys hn).length_eq

theorem mem_huffmanDepths {w : List Nat} (hn : 2 ≤ w.length) {l : Nat} :
    l ∈ huffmanDepths w ↔ ∃ p ∈ leafDepths (codeTree w) 0, p.2 = l := by
  rw [(huffmanDepths_perm hn).mem_iff, List.mem_map]

/-- R171 (c): the code is complete. -/
theorem kraftSum_huffmanDepths {w : List Nat} (hn : 2 ≤ w.length) : kraftSum (huffmanDepths w) = 1 := by
  have hsum : kraftSum (huffmanDepths w) = kraftSum ((leafDepths (codeTree w) 0).map Prod.snd) :=
    ((huffmanDepths_perm hn).map _).sum_eq
  rw [hsum, kraftSum_leafDepths, pow_zero, div_one]

theorem huffmanDepths_pos {w : List Nat} (hn : 2 ≤ w.length) : ∀ l ∈ huffmanDepths w, 1 ≤ l := by
  intro l hl
  obtain ⟨p, hp, rfl⟩ := (mem_huffmanDepths hn).1 hl
  exact lt_leafDepths ((leafDepths_codeTree_length hn).symm ▸ hn) hp

theorem huffmanDepths_lt_length {w : List Nat} (hn : 2 ≤ w.length) : ∀ l ∈ huffmanDepths w, l < w.length := by
  intro l hl
  obtain ⟨p, hp, rfl⟩ := (mem_huffmanDepths hn).1 hl
  simpa [leafDepths_codeTree_length hn] using leafDepths_lt_length hp

/-- Equal weights meet every bound that their number allows (R176). -/
theorem huffmanDepths_le_of_ones {w : List Nat} {maxLen : Nat} (hn : 2 ≤ w.length) (hmax : w.length ≤ 2 ^ maxLen)
    (hw : ∀ x ∈ w, x = 1) : ∀ l ∈ huffmanDepths w, l ≤ maxLen := by
  obtain ⟨c, hc⟩ := codeTree_even hn hw
  have heven : ∀ l ∈ huffmanDepths w, c ≤ l ∧ l ≤ c + 1 := fun l hl => by
    obtain ⟨p, hp, rfl⟩ := (mem_huffmanDepths hn).1 hl
    exact hc p hp
  refine le_of_kraftSum_eq_one (c := c) (kraftSum_huffmanDepths hn) ?_ (fun l hl => (heven l hl).1)
    fun l hl => (heven l hl).2
  rwa [huffmanDepths_length hn]

/-- A symbol's leaf among the sorted leaves stands at the symbol's length. -/
theorem exists_placed {w : List Nat} (hn : 2 ≤ w.length) {ps : Placed} (hps : ps.map Prod.fst = sortedLeaves w)
    (hdepths : (leafDepths (codeTree w) 0).Perm (ps.map fun p => (p.1.index, p.2))) {i : Nat} (hi : i < w.length) :
    (leafOf (w.getD i 0, i), (huffmanDepths w).getD i 0) ∈ ps := by
  have hleaf : leafOf (w.getD i 0, i) ∈ ps.map Prod.fst := by
    rw [hps, mem_sortedLeaves]
    exact ⟨i, w.getD i 0, by simp [hi], rfl⟩
  obtain ⟨⟨x, d⟩, hmem, rfl⟩ := List.mem_map.1 hleaf
  have hdepth := depthOf_codeTree hn (hdepths.mem_iff.2 (List.mem_map_of_mem hmem))
  have hlen : (huffmanDepths w).getD i 0 = d := by
    rw [huffmanDepths_eq hn]
    simpa [hi] using hdepth
  rwa [hlen]

/-- The lengths follow the weights: the sorted leaves come in the order of R175 and rise in the tree. -/
theorem huffmanDepths_le_of_before {w : List Nat} (hn : 2 ≤ w.length) {i j : Nat} (hi : i < w.length)
    (hj : j < w.length) (h : w.getD i 0 < w.getD j 0 ∨ w.getD i 0 = w.getD j 0 ∧ i < j) :
    (huffmanDepths w).getD j 0 ≤ (huffmanDepths w).getD i 0 := by
  obtain ⟨ps, hps, hrise, hdepths⟩ := codeTree_rising hn
  have hbefore : ps.Pairwise fun p q => p.1.Before q.1 := List.pairwise_map.1 (hps ▸ sortedLeaves_pairwise w)
  have hforward : ps.Pairwise fun p q => p.1.Before q.1 → q.2 ≤ p.2 := by
    refine List.Pairwise.imp ?_ hrise
    exact fun hle _ => hle
  have hbackward : ps.Pairwise fun p q => q.1.Before p.1 → p.2 ≤ q.2 :=
    hbefore.imp fun hpq hqp => absurd hqp hpq.asymm
  exact hforward.forall_of_forall_of_flip (fun _ _ _ => Nat.le_refl _) hbackward (exists_placed hn hps hdepths hi)
    (exists_placed hn hps hdepths hj) h

end Sys2Proof.Machine
end

section
/-! PROOFS. HA_ALLOCATE (spec/41_huffman_allocator.md R170 to R178, R181): the loop of R173 over the trees of R175. -/

namespace Sys2Proof.Machine

theorem maxOf_le_iff {lens : List Nat} {n : Nat} : maxOf lens ≤ n ↔ ∀ l ∈ lens, l ≤ n :=
  ⟨fun h _ hl => (le_maxOf hl).trans h, maxOf_le⟩

/-! ### The loop of R173 -/

@[simp] theorem halveWeights_length (w : List Nat) : (halveWeights w).length = w.length := List.length_map ..

theorem halveWeights_pos {w : List Nat} (hw : ∀ x ∈ w, 1 ≤ x) : ∀ x ∈ halveWeights w, 1 ≤ x := by
  refine List.forall_mem_map.2 fun x hx => ?_
  have := hw x hx
  omega

/-- A round makes every weight above 1 smaller (R176). -/
theorem halveWeights_le {w : List Nat} {k : Nat} (hw : ∀ x ∈ w, x ≤ k + 2) : ∀ x ∈ halveWeights w, x ≤ k + 1 := by
  refine List.forall_mem_map.2 fun x hx => ?_
  have := hw x hx
  omega

theorem allocateLoop_of_fits {maxLen : Nat} (k : Nat) {w : List Nat} (h : maxOf (huffmanDepths w) ≤ maxLen) :
    allocateLoop maxLen k w = huffmanDepths w := by
  cases k with
  | zero => rfl
  | succ k => exact if_pos h

theorem allocateLoop_of_exceeds {maxLen : Nat} (k : Nat) {w : List Nat} (h : ¬ maxOf (huffmanDepths w) ≤ maxLen) :
    allocateLoop maxLen (k + 1) w = allocateLoop maxLen k (halveWeights w) := if_neg h

/-- What the loop gives are the depths for some weights. -/
theorem exists_allocateLoop_eq (maxLen k : Nat) (w : List Nat) :
    ∃ w' : List Nat, w'.length = w.length ∧ allocateLoop maxLen k w = huffmanDepths w' := by
  induction k generalizing w with
  | zero => exact ⟨w, rfl, rfl⟩
  | succ k ih =>
    by_cases h : maxOf (huffmanDepths w) ≤ maxLen
    · exact ⟨w, rfl, allocateLoop_of_fits _ h⟩
    · rw [allocateLoop_of_exceeds k h]
      simpa using ih (halveWeights w)

/-- A lower bound that the lengths of a bound meet too stops the loop at the same weights. -/
theorem allocateLoop_of_le {lower maxLen k : Nat} {w : List Nat} (hle : lower ≤ maxLen)
    (h : maxOf (allocateLoop maxLen k w) ≤ lower) : allocateLoop lower k w = allocateLoop maxLen k w := by
  induction k generalizing w with
  | zero => rfl
  | succ k ih =>
    by_cases hmax : maxOf (huffmanDepths w) ≤ maxLen
    · rw [allocateLoop_of_fits _ hmax] at h ⊢
      exact allocateLoop_of_fits _ h
    · rw [allocateLoop_of_exceeds k hmax] at h ⊢
      rw [allocateLoop_of_exceeds k fun hlow => hmax (hlow.trans hle), ih h]

/-- What the precondition of R174 says of weights, with the rounds left: enough of them to make every weight 1. -/
structure Halvable (maxLen k : Nat) (w : List Nat) : Prop where
  two_le : 2 ≤ w.length
  length_le : w.length ≤ 2 ^ maxLen
  pos : ∀ x ∈ w, 1 ≤ x
  le : ∀ x ∈ w, x ≤ k + 1

theorem Halvable.halveWeights {maxLen k : Nat} {w : List Nat} (h : Halvable maxLen (k + 1) w) :
    Halvable maxLen k (halveWeights w) :=
  ⟨by simpa using h.two_le, by simpa using h.length_le, halveWeights_pos h.pos, halveWeights_le h.le⟩

/-- With no round left, the weights are equal, and the bound is met. -/
theorem Halvable.fits {maxLen : Nat} {w : List Nat} (h : Halvable maxLen 0 w) : maxOf (huffmanDepths w) ≤ maxLen :=
  maxOf_le (huffmanDepths_le_of_ones h.two_le h.length_le fun x hx => Nat.le_antisymm (h.le x hx) (h.pos x hx))

/-- R171 (b): the loop ends with the bound met. -/
theorem Halvable.allocateLoop_le {maxLen k : Nat} {w : List Nat} (h : Halvable maxLen k w) :
    maxOf (allocateLoop maxLen k w) ≤ maxLen := by
  induction k generalizing w with
  | zero => exact h.fits
  | succ k ih =>
    by_cases hfits : maxOf (huffmanDepths w) ≤ maxLen
    · rwa [allocateLoop_of_fits _ hfits]
    · rw [allocateLoop_of_exceeds k hfits]
      exact ih h.halveWeights

/-- The number of rounds allowed changes nothing, where it is enough. -/
theorem Halvable.allocateLoop_eq {maxLen k k' : Nat} {w : List Nat} (h : Halvable maxLen k w)
    (h' : Halvable maxLen k' w) : allocateLoop maxLen k w = allocateLoop maxLen k' w := by
  induction k generalizing k' w with
  | zero => rw [allocateLoop_of_fits _ h.fits, allocateLoop_of_fits _ h.fits]
  | succ k ih =>
    by_cases hfits : maxOf (huffmanDepths w) ≤ maxLen
    · rw [allocateLoop_of_fits _ hfits, allocateLoop_of_fits _ hfits]
    · cases k' with
      | zero => exact absurd h'.fits hfits
      | succ k' =>
        rw [allocateLoop_of_exceeds k hfits, allocateLoop_of_exceeds k' hfits]
        exact ih h.halveWeights h'.halveWeights

/-! ### The lengths that HA_ALLOCATE gives -/

/-- The weights of R173: a frequency of 0 weighs 1 (R177). -/
def weightsOf (f : List Nat) : List Nat := f.map fun x => max x 1

@[simp] theorem weightsOf_length (f : List Nat) : (weightsOf f).length = f.length := List.length_map ..

theorem weightsOf_pos (f : List Nat) : ∀ x ∈ weightsOf f, 1 ≤ x :=
  List.forall_mem_map.2 fun x _ => Nat.le_max_right x 1

theorem weightsOf_of_pos {w : List Nat} (hw : ∀ x ∈ w, 1 ≤ x) : weightsOf w = w :=
  (List.map_congr_left fun x hx => Nat.max_eq_left (hw x hx)).trans (List.map_id w)

theorem weightsOf_getD {f : List Nat} {i : Nat} (hi : i < f.length) : (weightsOf f).getD i 0 = max (f.getD i 0) 1 := by
  simp [weightsOf, hi]

theorem halveWeights_weightsOf (f : List Nat) :
    halveWeights (weightsOf f) = f.map fun x => (max x 1 + 1) / 2 := List.map_map ..

theorem allocateLengths_eq (f : List Nat) (maxLen : Nat) :
    allocateLengths f maxLen = allocateLoop maxLen (maxOf (weightsOf f)) (weightsOf f) := rfl

theorem allocateLengths_weightsOf (f : List Nat) (maxLen : Nat) :
    allocateLengths (weightsOf f) maxLen = allocateLengths f maxLen := by
  rw [allocateLengths_eq, weightsOf_of_pos (weightsOf_pos f), allocateLengths_eq]

/-- The precondition of R174 for two symbols or more. -/
theorem halvable_weightsOf {f : List Nat} {maxLen : Nat} (hn : 2 ≤ f.length) (hlen : f.length ≤ 2 ^ maxLen) :
    Halvable maxLen (maxOf (weightsOf f)) (weightsOf f) :=
  ⟨by simpa using hn, by simpa using hlen, weightsOf_pos f, fun _ hx => Nat.le_succ_of_le (le_maxOf hx)⟩

theorem allocateLengths_le {f : List Nat} {maxLen : Nat} (hn : 2 ≤ f.length) (hlen : f.length ≤ 2 ^ maxLen) :
    ∀ l ∈ allocateLengths f maxLen, l ≤ maxLen :=
  maxOf_le_iff.1 (halvable_weightsOf hn hlen).allocateLoop_le

/-- A round of R173 that does not meet the bound goes on with the weights halved. -/
theorem allocateLengths_of_exceeds {f : List Nat} {maxLen : Nat} (hn : 2 ≤ f.length) (hlen : f.length ≤ 2 ^ maxLen)
    (h : ¬ maxOf (huffmanDepths (weightsOf f)) ≤ maxLen) :
    allocateLengths f maxLen = allocateLengths (halveWeights (weightsOf f)) maxLen := by
  have hw := halvable_weightsOf hn hlen
  have hhalf := halvable_weightsOf (f := halveWeights (weightsOf f)) (by simpa using hn) (by simpa using hlen)
  rw [weightsOf_of_pos (halveWeights_pos (weightsOf_pos f))] at hhalf
  rw [allocateLengths_eq, allocateLengths_eq, weightsOf_of_pos (halveWeights_pos (weightsOf_pos f))]
  cases hk : maxOf (weightsOf f) with
  | zero => exact absurd (hk ▸ hw).fits h
  | succ k =>
    rw [allocateLoop_of_exceeds k h]
    exact (hk ▸ hw).halveWeights.allocateLoop_eq hhalf

/-- Where the lengths of a bound meet a lower one, it has the same; else it has those of the weights halved. -/
theorem allocateLengths_lower {f : List Nat} {lower maxLen : Nat} (hn : 2 ≤ f.length) (hle : lower ≤ maxLen)
    (hlen : f.length ≤ 2 ^ lower) :
    allocateLengths f lower =
      if ∀ l ∈ allocateLengths f maxLen, l ≤ lower then allocateLengths f maxLen
      else allocateLengths (halveWeights (weightsOf f)) lower := by
  simp only [← maxOf_le_iff]
  split
  next hmeets => exact allocateLoop_of_le hle hmeets
  next hexceeds =>
    refine allocateLengths_of_exceeds hn hlen fun hfits => hexceeds ?_
    rwa [allocateLengths_eq, allocateLoop_of_fits _ (hfits.trans hle)]

/-- Where the bound cannot be passed, no weight is halved. -/
theorem allocateLengths_of_length_le {f : List Nat} {maxLen : Nat} (hn : 2 ≤ f.length)
    (hlen : f.length ≤ maxLen + 1) : allocateLengths f maxLen = huffmanDepths (weightsOf f) := by
  have hn' : 2 ≤ (weightsOf f).length := by simpa using hn
  refine allocateLoop_of_fits _ (maxOf_le fun l hl => ?_)
  have := huffmanDepths_lt_length hn' l hl
  rw [weightsOf_length] at this
  omega

/-- Whatever weights the loop ends with, the lengths are the depths for as many. -/
theorem exists_allocateLengths_eq {f : List Nat} (hn : 2 ≤ f.length) (maxLen : Nat) :
    ∃ w : List Nat, 2 ≤ w.length ∧ w.length = f.length ∧ allocateLengths f maxLen = huffmanDepths w := by
  obtain ⟨w, hw, hloop⟩ := exists_allocateLoop_eq maxLen (maxOf (weightsOf f)) (weightsOf f)
  rw [weightsOf_length] at hw
  exact ⟨w, hw ▸ hn, hw, hloop⟩

theorem allocateLengths_length {f : List Nat} (hn : 2 ≤ f.length) (maxLen : Nat) :
    (allocateLengths f maxLen).length = f.length := by
  obtain ⟨w, hnw, hw, heq⟩ := exists_allocateLengths_eq hn maxLen
  rw [heq, huffmanDepths_length hnw, hw]

/-- R171 (a). -/
theorem allocateLengths_pos {f : List Nat} (hn : 2 ≤ f.length) (maxLen : Nat) :
    ∀ l ∈ allocateLengths f maxLen, 1 ≤ l := by
  obtain ⟨w, hnw, -, heq⟩ := exists_allocateLengths_eq hn maxLen
  rw [heq]
  exact huffmanDepths_pos hnw

/-- R171 (c). -/
theorem kraftSum_allocateLengths {f : List Nat} (hn : 2 ≤ f.length) (maxLen : Nat) :
    kraftSum (allocateLengths f maxLen) = 1 := by
  obtain ⟨w, hnw, -, heq⟩ := exists_allocateLengths_eq hn maxLen
  rw [heq, kraftSum_huffmanDepths hnw]

/-- A lighter symbol, or one as heavy and lower, has no shorter length, where no weight is halved. -/
theorem allocateLengths_le_of_before {f : List Nat} {maxLen : Nat} (hn : 2 ≤ f.length) (hlen : f.length ≤ maxLen + 1)
    {i j : Nat} (hi : i < f.length) (hj : j < f.length)
    (h : max (f.getD i 0) 1 < max (f.getD j 0) 1 ∨ max (f.getD i 0) 1 = max (f.getD j 0) 1 ∧ i < j) :
    (allocateLengths f maxLen).getD j 0 ≤ (allocateLengths f maxLen).getD i 0 := by
  rw [← weightsOf_getD hi, ← weightsOf_getD hj] at h
  rw [allocateLengths_of_length_le hn hlen]
  exact huffmanDepths_le_of_before (by simpa using hn) (by simpa using hi) (by simpa using hj) h

/-! ### HA_ALLOCATE issued on its own -/

section
variable {f : List Nat} {maxLen : Nat} (hmin : 1 ≤ maxLen) (hmax : maxLen ≤ 32)
include hmin hmax

/-- One symbol (R178). -/
theorem exec_haAllocate_one (hn : f.length = 1) (s : State) :
    exec (.haAllocate f maxLen) s = .next { s with ret := .nats [1] } := by
  have hrange : ¬ (f.length = 0 ∨ maxLen = 0 ∨ 32 < maxLen) := by omega
  change finishRet .nats (allocate f maxLen s) = _
  rw [allocate, if_neg hrange, if_pos hn, finishRet]

/-- Two symbols or more (R173). -/
theorem exec_haAllocate (hn : 2 ≤ f.length) (hlen : f.length ≤ 2 ^ maxLen) (s : State) :
    exec (.haAllocate f maxLen) s = .next { s with ret := .nats (allocateLengths f maxLen) } := by
  have hrange : ¬ (f.length = 0 ∨ maxLen = 0 ∨ 32 < maxLen) := by omega
  have hone : f.length ≠ 1 := by omega
  change finishRet .nats (allocate f maxLen s) = _
  rw [allocate, if_neg hrange, if_neg hone, if_neg (Nat.not_lt.2 hlen), finishRet]

end

/-- Settles O27: the lengths are the depths of the leaves of a tree of R175, in whatever round the loop ends. -/
theorem allocateGivesCompleteCode : Obligations.AllocateGivesCompleteCode := by
  refine ⟨fun f maxLen s hpos hmin hmax hpre => ?_, fun s => ⟨?_, fun maxLen hmin hmax => ?_, ?_, ?_⟩⟩
  · by_cases hone : f.length = 1
    · refine ⟨[1], exec_haAllocate_one hmin hmax hone s, exec_haAllocate_one hmin hmax (by simpa using hone) s,
        hone.symm, by simp, fun _ => rfl, fun _ => by omega, fun _ i j hi hj hbefore => ?_⟩
      obtain rfl : i = j := by omega
      exact Nat.le_refl _
    · have hn : 2 ≤ f.length := by omega
      have hlen := hpre.resolve_left hone
      refine ⟨allocateLengths f maxLen, exec_haAllocate hmin hmax hn hlen s, ?_, allocateLengths_length hn maxLen,
        allocateLengths_pos hn maxLen, fun h => absurd h hone, fun _ => kraftSum_allocateLengths hn maxLen,
        fun hshort i j hi hj hbefore => allocateLengths_le_of_before hn hshort hi hj hbefore⟩
      rw [← allocateLengths_weightsOf]
      exact exec_haAllocate hmin hmax (by simpa using hn) (by simpa using hlen) s
  · exact exec_haAllocate_one (by decide) (by decide) rfl s
  · have hlen : [1, 1].length ≤ 2 ^ maxLen := Nat.pow_le_pow_right Nat.two_pos hmin
    rw [exec_haAllocate hmin hmax (by decide) hlen, allocateLengths_of_length_le (by decide) (Nat.succ_le_succ hmin)]
    rfl
  · rw [exec_haAllocate (by decide) (by decide) (by decide) (by decide)]
    rfl
  · rw [exec_haAllocate (by decide) (by decide) (by decide) (by decide)]
    rfl

/-- Settles O28: the loop ends with the bound met, and a lower bound stops it no earlier. -/
theorem allocateMeetsBound : Obligations.AllocateMeetsBound := by
  intro f maxLen s hpos hmin hmax hpre
  by_cases hone : f.length = 1
  · refine ⟨[1], exec_haAllocate_one hmin hmax hone s, by simpa using hmin, fun lower hlower hle _ => ?_⟩
    rw [exec_haAllocate_one hlower (hle.trans hmax) hone, if_pos (by simpa using hlower)]
  · have hn : 2 ≤ f.length := by omega
    refine ⟨allocateLengths f maxLen, exec_haAllocate hmin hmax hn (hpre.resolve_left hone) s,
      allocateLengths_le hn (hpre.resolve_left hone), fun lower hlower hle hprelower => ?_⟩
    have hlen := hprelower.resolve_left hone
    rw [← halveWeights_weightsOf, exec_haAllocate hlower (hle.trans hmax) hn hlen, allocateLengths_lower hn hle hlen,
      exec_haAllocate hlower (hle.trans hmax) (by simpa using hn) (by simpa using hlen)]
    split <;> rfl

end Sys2Proof.Machine
end

section
/-! PROOFS. The Huffman unit's operations issued on their own (spec/42_huffman_tables.md): HT_BUILD and the order of
`perm` (R190, R191), HT_DECODE (R195), HT_CODES (R197). -/

namespace Sys2Proof.Machine

theorem lengthsLegal_iff {lens : List Nat} : lengthsLegal lens = true ↔ ∀ l ∈ lens, 1 ≤ l ∧ l ≤ 20 := by
  simp only [lengthsLegal, List.all_eq_true, Bool.and_eq_true, decide_eq_true_eq]
  exact Iff.rfl

theorem maxOf_mem {lens : List Nat} (h : lens ≠ []) : maxOf lens ∈ lens := by
  by_contra hnot
  have hlt : ∀ l ∈ lens, l < maxOf lens := fun l hl => (le_maxOf hl).lt_of_ne (ne_of_mem_of_not_mem hl hnot)
  have hle := maxOf_le fun l hl => Nat.le_sub_one_of_lt (hlt l hl)
  obtain ⟨l, hl⟩ := List.exists_mem_of_ne_nil lens h
  have hpos := hlt l hl
  omega

/-! ### The order of `perm` (R191) -/

/-- Symbols in ascending order of length, and of the symbol where the lengths are equal. -/
def LengthThenSymbol (lens : List Nat) (a b : Nat) : Prop :=
  lens.getD a 0 < lens.getD b 0 ∨ (lens.getD a 0 = lens.getD b 0 ∧ a < b)

theorem LengthThenSymbol.ne {lens : List Nat} {a b : Nat} (h : LengthThenSymbol lens a b) : a ≠ b := by
  rintro rfl
  obtain h | ⟨-, h⟩ := h <;> exact Nat.lt_irrefl _ h

/-- The symbols of a length are those that have it. -/
theorem mem_symbolsOf {L i : Nat} {lens : List Nat} {x : Nat} :
    x ∈ symbolsOf L i lens ↔ ∃ sym, x = i + sym ∧ lens[sym]? = some L := by
  constructor
  · intro hx
    obtain ⟨rank, hrank⟩ := List.mem_iff_getElem?.1 hx
    have hlt := (List.getElem?_eq_some_iff.1 hrank).1
    rw [symbolsOf_length] at hlt
    obtain ⟨sym, hsym, rfl⟩ := exists_symbol_of_rank hlt
    exact ⟨sym, Option.some.inj (hrank.symm.trans (symbolsOf_getElem? i hsym)), hsym⟩
  · rintro ⟨sym, rfl, hsym⟩
    exact List.mem_of_getElem? (symbolsOf_getElem? i hsym)

theorem symbolsOf_pairwise_lt (L i : Nat) (lens : List Nat) : (symbolsOf L i lens).Pairwise (· < ·) := by
  induction lens generalizing i with
  | nil => exact List.Pairwise.nil
  | cons l lens ih =>
    rw [symbolsOf]
    split
    · refine List.pairwise_cons.2 ⟨fun x hx => ?_, ih (i + 1)⟩
      obtain ⟨sym, rfl, -⟩ := mem_symbolsOf.1 hx
      omega
    · exact ih (i + 1)

theorem permOf_eq (lens : List Nat) : permOf lens =
    (List.range' (minOf lens) (maxOf lens + 1 - minOf lens)).flatMap fun L => symbolsOf L 0 lens := by
  rw [permOf, rowsOf_eq, List.flatMap_map]
  rfl

theorem length_of_mem_symbolsOf {L x : Nat} {lens : List Nat} (h : x ∈ symbolsOf L 0 lens) : lens.getD x 0 = L := by
  obtain ⟨sym, rfl, hsym⟩ := mem_symbolsOf.1 h
  rw [Nat.zero_add, List.getD_eq_getElem?_getD, hsym, Option.getD_some]

theorem permOf_pairwise (lens : List Nat) : (permOf lens).Pairwise (LengthThenSymbol lens) := by
  rw [permOf_eq, List.pairwise_flatMap]
  constructor
  · exact fun L _ => (symbolsOf_pairwise_lt L 0 lens).imp_of_mem fun hx hy hlt =>
      .inr ⟨(length_of_mem_symbolsOf hx).trans (length_of_mem_symbolsOf hy).symm, hlt⟩
  · refine (List.pairwise_lt_range' _).imp fun hlt x hx y hy => .inl ?_
    rwa [length_of_mem_symbolsOf hx, length_of_mem_symbolsOf hy]

theorem mem_permOf {lens : List Nat} {x : Nat} : x ∈ permOf lens ↔ x < lens.length := by
  constructor
  · intro hx
    rw [permOf_eq] at hx
    obtain ⟨L, -, hx⟩ := List.mem_flatMap.1 hx
    obtain ⟨sym, rfl, hsym⟩ := mem_symbolsOf.1 hx
    rw [Nat.zero_add]
    exact (List.getElem?_eq_some_iff.1 hsym).1
  · exact fun hx => List.mem_of_getElem? (permOf_getElem? (List.getElem?_eq_getElem hx))

/-- Each symbol stands in `perm` once. -/
theorem permOf_perm (lens : List Nat) : (permOf lens).Perm (List.range lens.length) := by
  have hnodup : (permOf lens).Nodup := (permOf_pairwise lens).imp fun h => h.ne
  exact (List.perm_ext_iff_of_nodup hnodup List.nodup_range).2 fun x => mem_permOf.trans List.mem_range.symm

/-- The nine bits of an entry of `perm` hold every symbol. -/
theorem map_toNat_permOf {lens : List Nat} (h : lens.length ≤ 2 ^ 9) :
    ((permOf lens).map (BitVec.ofNat 9)).map BitVec.toNat = permOf lens := by
  rw [List.map_map]
  refine (List.map_congr_left fun x hx => ?_).trans (List.map_id _)
  exact Nat.mod_eq_of_lt ((mem_permOf.1 hx).trans_le h)

/-! ### HT_BUILD (R190) -/

section
variable {lens : List Nat} {L : Nat} (hmin : minOf lens ≤ L) (hmax : L ≤ maxOf lens)
include hmin hmax

theorem memGet_limitOf :
    memGet (limitOf lens) L = some (BitVec.ofInt 32 ((firstAt lens L : Int) + lens.count L - 1)) := by
  rw [limitOf, rowsOf_eq, List.map_map]
  exact memGet_map_range' _ _ hmin (by omega)

theorem memGet_baseOf :
    memGet (baseOf lens) L = some (BitVec.ofInt 32 ((firstAt lens L : Int) - shorterThan lens L)) := by
  rw [baseOf, rowsOf_eq, List.map_map]
  exact memGet_map_range' _ _ hmin (by omega)

end

/-- The group with the tables of the lengths (R190). -/
def Group.withTablesOf (lens : List Nat) (grp : Group) : Group :=
  { grp with
    minLen := BitVec.ofNat 5 (minOf lens)
    maxLen := BitVec.ofNat 5 (maxOf lens)
    limit := limitOf lens
    base := baseOf lens
    perm := (permOf lens).map (BitVec.ofNat 9) }

/-- HT_BUILD on a group that holds a length for every symbol. -/
theorem exec_htBuild {g : Nat} {s : State} {grp : Group} (hg : g < s.sel.nGroups.toNat)
    (hgrp : s.groups[g]? = some grp) (hpos : 1 ≤ s.map.alphaSize.toNat)
    (hlen : s.map.alphaSize.toNat ≤ grp.len.length) :
    exec (.htBuild g) s = .next { s with
      groups := s.groups.setIfInBounds g
        (grp.withTablesOf ((grp.len.take s.map.alphaSize.toNat).map BitVec.toNat)) } := by
  have hcond : ¬(s.map.alphaSize.toNat = 0 ∨ grp.len.length < s.map.alphaSize.toNat) := by omega
  simp only [exec, execHtBuild, buildTable, if_pos hg, hgrp, buildGroup, if_neg hcond, Res.lift_ok, finish,
    Group.withTablesOf]

/-- Settles O29: `limit` and `base` by the rows of the length loop, `perm` by its order. -/
theorem buildMakesTables : Obligations.BuildMakesTables := by
  intro g s grp lens hg hgrp hlens hcount hpos hlegal
  have hlegal := lengthsLegal_iff.1 hlegal
  have hlen : s.map.alphaSize.toNat ≤ grp.len.length := by
    rw [hlens, List.length_map, List.length_take] at hcount
    omega
  have hnonempty : lens ≠ [] := List.ne_nil_of_length_pos hpos
  have hminmem := minOf_mem hnonempty
  have hmaxmem := maxOf_mem hnonempty
  have hmin : (grp.withTablesOf lens).minLen.toNat = minOf lens :=
    Nat.mod_eq_of_lt ((hlegal _ hminmem).2.trans_lt (by decide))
  have hmax : (grp.withTablesOf lens).maxLen.toNat = maxOf lens :=
    Nat.mod_eq_of_lt ((hlegal _ hmaxmem).2.trans_lt (by decide))
  have hperm : (grp.withTablesOf lens).perm.map BitVec.toNat = permOf lens :=
    map_toNat_permOf (hcount ▸ s.map.alphaSize.isLt.le)
  refine ⟨grp.withTablesOf lens, ?_, rfl, ?_, ?_, ?_, ?_, ?_, ?_⟩
  · rw [exec_htBuild hg hgrp (hcount ▸ hpos) hlen, ← hlens]
  · rwa [hmin]
  · rwa [hmax]
  · rw [hmin, hmax]
    exact fun l hl => ⟨minOf_le hl, le_maxOf hl⟩
  · rw [hmin, hmax]
    exact fun L hL hL' => ⟨memGet_limitOf hL hL', memGet_baseOf hL hL'⟩
  · rw [hperm]
    exact permOf_perm lens
  · exact List.pairwise_map.1 (hperm ▸ permOf_pairwise lens)

/-! ### HT_DECODE (R195) -/

/-- HT_DECODE issued on its own reads a symbol with the group's tables. -/
theorem exec_htDecode {g : Nat} {s : State} {grp : Group} (hg : g < s.sel.nGroups.toNat)
    (hgrp : s.groups[g]? = some grp) :
    exec (.htDecode g) s = finishRet .nat (onReader (decodeSymbol grp) s) := by
  simp only [exec, execHtDecode, decodeWith, if_pos hg, hgrp]

/-- Settles O30: a codeword, and a candidate above every codeword, by the decoder's lemmas on one group. -/
theorem decodeReadsCodeword : Obligations.DecodeReadsCodeword := by
  intro g s grp lens hg hgrp hlens hprefix hbuilt hw
  have hd := Group.decodes_of_builtFrom hlens hprefix hbuilt
  rw [exec_htDecode hg hgrp]
  refine ⟨fun sym rest hsym hp => ?_, fun v hv hlen hbits habove => ?_⟩
  · obtain ⟨r, hrun, ht⟩ := (hd.decodeSymbol_reads hsym).finishRet_completes .nat hw hp
    exact ⟨r, hrun, by rwa [codeword, toBits_length] at ht⟩
  · have hp : s.rd.pending = toBits (maxOf lens) v ++ s.rd.pending.drop (maxOf lens) := by
      rw [← hbits, List.take_append_drop]
    obtain ⟨r, hrun, ht⟩ := hd.decodeSymbol_above hv habove hw hp
    exact ⟨r, by rw [onReader_of_raised hrun, finishRet], ht⟩

/-! ### HT_CODES (R197) -/

/-- Each codeword is the first of its length and the rank of its symbol. -/
theorem codesOf_getD {lens : List Nat} {sym L : Nat} (h : lens[sym]? = some L) :
    (codesOf lens).getD sym 0 = firstAt lens L + (lens.take sym).count L := by
  have hlt := (List.getElem?_eq_some_iff.1 h).1
  rw [codesOf, List.getD_eq_getElem?_getD, List.getElem?_map, List.getElem?_range hlt, Option.map_some,
    Option.getD_some, codeOf_eq h]

/-- HT_CODES of a legal list of lengths. -/
theorem exec_htCodes {lens : List Nat} (hpos : 1 ≤ lens.length) (hlegal : lengthsLegal lens = true) (s : State) :
    exec (.htCodes lens) s = .next { s with ret := .nats (codesOf lens) } := by
  have hcond : ¬(lens.length = 0 ∨ lengthsLegal lens = false) := not_or.2 ⟨by omega, by simp [hlegal]⟩
  simp only [exec, execHtCodes, codes, if_neg hcond, finishRet]

/-- Settles O31: each codeword is the first of its length and its rank, and the Kraft sum bounds it. -/
theorem codesAreCanonical : Obligations.CodesAreCanonical := by
  intro lens s hpos hlegal
  have hlen : ∀ {i : Nat}, i < lens.length → lens[i]? = some (lens.getD i 0) := fun hi => by simp [hi]
  refine ⟨codesOf lens, exec_htCodes hpos hlegal s, by rw [codesOf, List.length_map, List.length_range],
    fun i hi => codesOf_getD (hlen hi), fun hkraft i hi => ?_⟩
  have hmem : lens.getD i 0 ∈ lens := List.mem_of_getElem? (hlen hi)
  calc (codesOf lens).getD i 0
      = firstAt lens (lens.getD i 0) + (lens.take i).count (lens.getD i 0) := codesOf_getD (hlen hi)
    _ < firstAt lens (lens.getD i 0) + lens.count (lens.getD i 0) := Nat.add_lt_add_left (rank_lt_count (hlen hi)) _
    _ ≤ 2 ^ lens.getD i 0 := firstAt_add_count_le hkraft (minOf_le hmem) (lengthsLegal_iff.1 hlegal _ hmem).2

end Sys2Proof.Machine
end

section
/-! PROOFS. The MTF/RLE2 stage's symbols (spec/43_mtf_rle2.md R211 to R214): a run digit, the run end that `EOB` and
every rank symbol make first, and the rank symbol itself; and SYMBOL_CODE, which gives the stage a symbol of the
selector window (spec/44_block_engine.md R242, R243). -/

namespace Sys2Proof.Machine

/-! ### Bytes written and counted -/

/-- `m'` is the stage `m` after `n` copies of `b` were written from `nblock` on and counted (R212, R213). -/
structure MtfStage.Emitted (b : Byte) (n : Nat) (m m' : MtfStage) : Prop where
  nblock : m'.nblock.toNat = m.nblock.toNat + n
  freq : m'.freq = m.freq.modify b.toNat (· + BitVec.ofNat 20 n)
  ll : ∀ a, memGet m'.ll a =
    if m.nblock.toNat ≤ a ∧ a < m.nblock.toNat + n then some b else memGet m.ll a
  mtf : m'.mtf = m.mtf

/-- With no copy written only the run registers may differ. -/
theorem MtfStage.emitted_zero (b : Byte) (m : MtfStage) (n : BitVec 21) (k : BitVec 5) :
    m.Emitted b 0 { m with runS := n, runK := k } where
  nblock := rfl
  freq := by
    have hadd : (· + BitVec.ofNat 20 0) = (id : BitVec 20 → BitVec 20) := funext BitVec.add_zero
    rw [hadd, List.modify_id]
  ll a := by rw [if_neg (by omega)]
  mtf := rfl

/-- A byte value counted, read at any byte value. -/
theorem getD_modify_add {freq : List (BitVec 20)} (hlen : freq.length = 256) (b x : Byte) (n : BitVec 20) :
    (freq.modify b.toNat (· + n)).getD x.toNat 0 = freq.getD x.toNat 0 + if x = b then n else 0 := by
  have hx : x.toNat < freq.length := by rw [hlen]; exact x.isLt
  simp only [List.getD_eq_getElem?_getD, List.getElem?_modify, List.getElem?_eq_getElem hx, Option.getD_some,
    BitVec.toNat_inj, eq_comm (a := x)]
  split
  · rfl
  · exact (BitVec.add_zero _).symm

/-- Bytes pushed and counted, where the count holds a value and `nblock` does not wrap. -/
theorem countBytes_pushBytes_emits {b : Byte} {n : Nat} {m : MtfStage} {f : BitVec 20}
    (hf : m.freq[b.toNat]? = some f) (hroom : m.nblock.toNat + n < 2 ^ 20) :
    ∃ m', countBytes b n (pushBytes b n m) = .ok () m' ∧ m.Emitted b n m' ∧ m'.runS = m.runS ∧ m'.runK = m.runK := by
  obtain ⟨hn, hll⟩ := pushBytes_spec b n m hroom
  have hfreq : (pushBytes b n m).freq = m.freq := by rw [pushBytes_frame]
  refine ⟨_, countBytes_ok (hfreq ▸ hf), ⟨hn, ?_, hll, ?_⟩, ?_⟩
  · rw [hfreq, List.modify_eq_set_getElem?, hf]
    rfl
  · rw [pushBytes_frame]
  · rw [pushBytes_frame]
    exact ⟨rfl, rfl⟩

section
variable {capacity : Nat} {seq : List Byte} {m : MtfStage}

/-- A run end with nothing pending, or with room for the run (R212). -/
theorem runEnd_emits {v b : Byte} {f : BitVec 20} (hv : m.mtf[0]? = some v) (hb : seq[v.toNat]? = some b)
    (hf : m.freq[b.toNat]? = some f) (hcap : capacity < 2 ^ 20)
    (hfits : m.runS = 0 ∨ m.nblock.toNat + m.runS.toNat ≤ capacity) :
    ∃ m', runEnd capacity seq m = .ok () m' ∧ m.Emitted b m.runS.toNat m' ∧ m'.runS = 0 ∧ m'.runK = 0 := by
  by_cases h0 : m.runS = 0
  · refine ⟨_, runEnd_of_zero (by rw [h0]; rfl), ?_, rfl, rfl⟩
    rw [h0]
    exact MtfStage.emitted_zero b m 0 0
  · have hroom := hfits.resolve_left h0
    have hpos : m.runS.toNat ≠ 0 := fun h => h0 (BitVec.eq_of_toNat_eq h)
    obtain ⟨m', hrun, he, -⟩ := countBytes_pushBytes_emits hf (hroom.trans_lt hcap)
    refine ⟨{ m' with runS := 0, runK := 0 }, ?_, ⟨he.nblock, he.freq, he.ll, he.mtf⟩, rfl, rfl⟩
    simp only [runEnd, if_neg hpos, entry, hv, hb, Res.bind_ok, if_neg (Nat.not_lt.2 hroom), hrun]

variable {sym : Nat} {v b : Byte} (hv : m.mtf[sym - 1]? = some v) (hb : seq[v.toNat]? = some b)
include hv hb

/-- A rank symbol with room for its byte (R213). -/
theorem rankSymbol_emits {f : BitVec 20} (hf : m.freq[b.toNat]? = some f) (hcap : capacity < 2 ^ 20)
    (hroom : m.nblock.toNat < capacity) :
    ∃ m', rankSymbol capacity seq sym m = .ok () m' ∧
      { m with mtf := v :: m.mtf.eraseIdx (sym - 1) }.Emitted b 1 m' ∧ m'.runS = m.runS ∧ m'.runK = m.runK := by
  obtain ⟨m', hrun, he⟩ := countBytes_pushBytes_emits (n := 1) (m := { m with mtf := v :: m.mtf.eraseIdx (sym - 1) }) hf
    (by simp only; omega)
  refine ⟨m', ?_, he⟩
  simp only [rankSymbol, moveToFront_some hv, entry, hb, Res.bind_ok, if_neg (Nat.not_le.2 hroom), hrun]

/-- A rank symbol of a full block: the byte has moved (R213). -/
theorem rankSymbol_of_full (hfull : capacity ≤ m.nblock.toNat) :
    rankSymbol capacity seq sym m = .raised .blockOverrun { m with mtf := v :: m.mtf.eraseIdx (sym - 1) } := by
  simp only [rankSymbol, moveToFront_some hv, entry, hb, Res.bind_ok, if_pos hfull]

end

/-! ### The stage, by the kind of the symbol -/

section
variable (capacity : Nat) {map : SymbolMap} {sym : Nat} (m : MtfStage)

theorem stageSymbol_of_digit (hsym : sym ≤ 1) :
    stageSymbol capacity map sym m = .ok () (runDigit capacity sym m) := if_pos hsym

/-- `EOB` is the run end alone (R214). -/
theorem stageSymbol_eob (heob : 2 ≤ map.eob.toNat) :
    stageSymbol capacity map map.eob.toNat m = runEnd capacity map.seqToUnseq m := by
  rw [stageSymbol, if_neg (by omega), if_pos (Nat.le_refl _)]
  simp only [if_true]
  cases runEnd capacity map.seqToUnseq m <;> rfl

theorem stageSymbol_of_rank (hsym : 2 ≤ sym) (hlt : sym < map.eob.toNat) :
    stageSymbol capacity map sym m =
      (runEnd capacity map.seqToUnseq m).bind fun _ m => rankSymbol capacity map.seqToUnseq sym m := by
  rw [stageSymbol, if_neg (by omega), if_pos hlt.le]
  simp only [if_neg hlt.ne]

end

section
variable {s : State} {sym : Nat} {m : MtfStage}

theorem exec_mtfDecodeSymbol_of_ok (h : stageSymbol (cap s.stream) s.map sym s.sym = .ok () m) :
    exec (.mtfDecodeSymbol sym) s = .next { s with sym := m } :=
  finish_of_ok (by rw [mtfSymbol, onStage, h, Res.lift_ok])

theorem exec_mtfDecodeSymbol_of_raised {e : Err} (h : stageSymbol (cap s.stream) s.map sym s.sym = .raised e m) :
    exec (.mtfDecodeSymbol sym) s = .next (takeError e { s with sym := m }) :=
  finish_of_raised (by rw [mtfSymbol, onStage, h, Res.lift_raised])

end

/-! ### MTF_DECODE_SYMBOL -/

/-- Settles O32: neither saturated sum wraps its register. -/
theorem runDigitAccumulates : Obligations.RunDigitAccumulates := by
  intro sym s hsym
  refine ⟨_, _, exec_mtfDecodeSymbol_of_ok (stageSymbol_of_digit _ s.sym hsym), ?_, ?_⟩
  · have hlevel := s.stream.bs100k.isLt
    simp only [cap, Config.capUnit, BitVec.toNat_ofNat]
    omega
  · simp only [BitVec.toNat_ofNat]
    omega

/-- Settles O33: `EOB` is the run end. -/
theorem eobEndsRun : Obligations.EobEndsRun := by
  intro s v b f heob hv hb hf hlevel
  refine ⟨fun hfits => ?_, fun hpos hover => ?_⟩
  · obtain ⟨m, hrun, he, hs, hk⟩ := runEnd_emits hv hb hf (cap_lt hlevel) (.inr hfits)
    refine ⟨m, exec_mtfDecodeSymbol_of_ok ((stageSymbol_eob _ _ heob).trans hrun), hs, hk, he.mtf, he.nblock, ?_, he.ll⟩
    rw [he.freq, List.modify_eq_set_getElem?, hf, BitVec.ofNat_toNat]
    rfl
  · exact exec_mtfDecodeSymbol_of_raised
      ((stageSymbol_eob _ _ heob).trans (runEnd_of_overrun hpos.ne' hv hb hover))

/-- Settles O34: the run end, and after it the rank symbol with room for its byte or without. -/
theorem rankSymbolWritesByte : Obligations.RankSymbolWritesByte := by
  intro s sym v0 v b0 b hsym hlt hv0 hb0 hv hb hfreq hlevel
  have hcap := cap_lt hlevel
  have hcount : ∀ {freq : List (BitVec 20)} (x : Byte), freq.length = 256 → ∃ f, freq[x.toNat]? = some f :=
    fun x hlen => ⟨_, List.getElem?_eq_getElem (by rw [hlen]; exact x.isLt)⟩
  obtain ⟨f0, hf0⟩ := hcount b0 hfreq
  have hstage := stageSymbol_of_rank (cap s.stream) s.sym hsym hlt
  refine ⟨fun hpos hover => ?_, fun hroom => ?_, fun hfull => ?_⟩
  · have hover : cap s.stream < s.sym.nblock.toNat + s.sym.runS.toNat := hover
    rw [runEnd_of_overrun hpos.ne' hv0 hb0 hover] at hstage
    exact exec_mtfDecodeSymbol_of_raised hstage
  · obtain ⟨m₁, hrun, he₁, hs₁, hk₁⟩ := runEnd_emits hv0 hb0 hf0 hcap (.inr hroom.le)
    have hlen₁ : m₁.freq.length = 256 := by rw [he₁.freq, List.length_modify, hfreq]
    obtain ⟨f, hf⟩ := hcount b hlen₁
    obtain ⟨m₂, hrank, he₂, hs₂, hk₂⟩ := rankSymbol_emits (he₁.mtf ▸ hv) hb hf hcap (he₁.nblock ▸ hroom)
    rw [hrun, Res.bind_ok, hrank] at hstage
    refine ⟨m₂, exec_mtfDecodeSymbol_of_ok hstage, hs₂.trans hs₁, hk₂.trans hk₁, by rw [he₂.mtf, he₁.mtf],
      by rw [he₂.nblock, he₁.nblock], by rw [he₂.freq, List.length_modify, hlen₁], fun x => ?_, fun a => ?_⟩
    · rw [he₂.freq, getD_modify_add hlen₁, he₁.freq, getD_modify_add hfreq, BitVec.ofNat_toNat]
      rfl
    · have hone : ∀ n, (n ≤ a ∧ a < n + 1) ↔ a = n := fun n => by omega
      simp only [he₂.ll, he₁.ll, he₁.nblock, hone]
      by_cases hlast : a = s.sym.nblock.toNat + s.sym.runS.toNat
      · rw [if_pos hlast, if_neg (by omega), if_pos hlast]
      · rw [if_neg hlast, if_neg hlast]
  · have hfits : s.sym.runS = 0 ∨ s.sym.nblock.toNat + s.sym.runS.toNat ≤ cap s.stream :=
      hfull.symm.imp And.left Nat.le_of_eq
    obtain ⟨m₁, hrun, he₁, -, -⟩ := runEnd_emits hv0 hb0 hf0 hcap hfits
    have hfull₁ : cap s.stream ≤ m₁.nblock.toNat := by
      rw [he₁.nblock]
      exact hfull.elim Eq.ge fun ⟨_, h⟩ => h.le.trans (Nat.le_add_right _ _)
    rw [hrun, Res.bind_ok, rankSymbol_of_full (he₁.mtf ▸ hv) hb hfull₁] at hstage
    exact ⟨_, exec_mtfDecodeSymbol_of_raised hstage, by rw [he₁.mtf], he₁.nblock, he₁.ll⟩

/-! ### SYMBOL_CODE -/

section
variable {s t : State} {sym : BitVec 9}

theorem beginSymbol_of_left (h : s.win.groupPos ≠ 0) :
    beginSymbol s = .ok () { s with win := { s.win with groupPos := s.win.groupPos - 1 } } := if_neg h

theorem beginSymbol_of_exhausted (h : s.win.groupPos = 0) (hsel : s.sel.nSelectors.toNat ≤ s.win.selIdx.toNat) :
    beginSymbol s = .raised .selectorsExhausted s := by
  rw [beginSymbol, if_pos h, if_pos hsel]

theorem beginSymbol_of_next (h : s.win.groupPos = 0) (hsel : s.win.selIdx.toNat < s.sel.nSelectors.toNat)
    {g : BitVec 3} (hg : s.sel.selectors[s.win.selIdx.toNat]? = some g) :
    beginSymbol s = .ok () { s with win := { selIdx := s.win.selIdx + 1, groupPos := 49, curGroup := g } } := by
  rw [beginSymbol, if_pos h, if_neg (Nat.not_le.2 hsel), hg]
  rfl

variable (hbegin : beginSymbol s = .ok () t)
include hbegin

/-- After the window's step, a symbol that the stage takes. -/
theorem exec_symbolCode_of_ok {m : MtfStage} (h : stageSymbol (cap t.stream) t.map sym.toNat t.sym = .ok () m) :
    exec (.symbolCode sym) s =
      .next { t with sym := m, fsm := if sym = t.map.eob then .permute else t.fsm } := by
  refine finish_of_ok ?_
  rw [hbegin, Res.bind_ok, elemSymbolCode, mtfSymbol, onStage, h, Res.lift_ok, Res.bind_ok]
  simp only [BitVec.toNat_inj]
  split <;> rfl

/-- After the window's step, an error of the stage. -/
theorem exec_symbolCode_of_raised {e : Err} {m : MtfStage}
    (h : stageSymbol (cap t.stream) t.map sym.toNat t.sym = .raised e m) :
    exec (.symbolCode sym) s = .next (takeError e { t with sym := m }) := by
  refine finish_of_raised ?_
  rw [hbegin, Res.bind_ok, elemSymbolCode, mtfSymbol, onStage, h, Res.lift_raised, Res.bind_raised]

end

/-- Settles O52: the window's step, and then the stage's. -/
theorem symbolCodeElement : Obligations.SymbolCodeElement := by
  intro sym s
  refine ⟨fun h hsel => finish_of_raised (by rw [beginSymbol_of_exhausted h hsel, Res.bind_raised]), fun win hwin => ?_⟩
  have hbegin : beginSymbol s = .ok () { s with win := win } := by
    obtain ⟨h, rfl⟩ | ⟨h, hsel, g, hg, rfl⟩ := hwin
    · exact beginSymbol_of_left h
    · exact beginSymbol_of_next h hsel hg
  refine ⟨fun hdigit heob => ?_, fun m h => exec_symbolCode_of_ok hbegin h,
    fun e m h => exec_symbolCode_of_raised hbegin h⟩
  have hne : sym ≠ s.map.eob := by
    rintro rfl
    omega
  rw [exec_symbolCode_of_ok hbegin (stageSymbol_of_digit _ _ hdigit), if_neg hne]
  rfl

end Sys2Proof.Machine
end

section
/-! PROOFS. What the elements of a block's tables, and a symbol, leave unchanged (spec/44_block_engine.md R236 to
R242). -/

namespace Sys2Proof.Machine

/-! ### Frames -/

theorem selectionFrame_isFrame : IsFrame selectionFrame where
  self _ := rfl
  again _ _ _ := rfl

section
variable {s t : State}

/-- What every end of an operation meets, and taking an error keeps, the state answered meets. -/
theorem finish_ends {P : State → Prop} {r : Res State Unit} (h : r.Ends P P)
    (herr : ∀ e u, P u → P (takeError e u)) (ht : finish r = .next t) : P t := by
  obtain rfl | ⟨e, u, rfl, rfl⟩ := finish_eq_next.1 ht
  · exact h
  · exact herr e u h

section
variable {sym n : Nat} (hlevel : s.stream.bs100k.toNat ≤ 9)
  (hn : n = if sym ≤ 1 then 0 else s.sym.runS.toNat + if sym = s.map.eob.toNat then 0 else 1)
include hlevel hn

theorem elemSymbolCode_stores :
    (elemSymbolCode sym s).Ends (fun u => s.sym.StoresTo n u.sym) fun u => s.sym.StoresTo n u.sym := by
  have hstage : (mtfSymbol sym s).Ends (fun u => s.sym.StoresTo n u.sym) fun u => s.sym.StoresTo n u.sym :=
    Res.Ends.lift (R := fun u : State => s.sym.StoresTo n u.sym) (S := fun u => s.sym.StoresTo n u.sym)
      (stageSymbol_stores (cap_lt hlevel) s.map sym s.sym hn)
  refine hstage.bind fun _ u hu => ?_
  split <;> exact hu

/-- The window's step stores nothing. -/
theorem windowedSymbol_stores :
    ((beginSymbol s).bind fun _ u => elemSymbolCode sym u).Ends
      (fun u => s.sym.StoresTo n u.sym) fun u => s.sym.StoresTo n u.sym := by
  have hbegin : (beginSymbol s).Ends (Move windowFrame s) fun u => s.sym.StoresTo n u.sym :=
    (beginSymbol_moves s).mono (fun _ => id) fun u hu => by
      rw [hu.frame]
      exact s.sym.storesTo_of_ll n rfl
  refine hbegin.bind fun _ u hu => ?_
  rw [hu.frame]
  exact elemSymbolCode_stores (s := windowFrame u s) hlevel hn

end

theorem exec_symbolCode_frame {sym : BitVec 9} (h : exec (.symbolCode sym) s = .next t) :
    t = { withErrorOf t s with sym := t.sym, win := t.win } ∧
      (s.stream.bs100k.toNat ≤ 9 → ∀ a,
        (a < s.sym.nblock.toNat ∨
          s.sym.nblock.toNat +
            (if sym.toNat ≤ 1 then 0
            else s.sym.runS.toNat + (if sym.toNat = s.map.eob.toNat then 0 else 1)) ≤ a) →
        memGet t.sym.ll a = memGet s.sym.ll a) :=
  ⟨(finish_move symbolFrame_isFrame (windowedSymbol_moves sym.toNat s) h).frame, fun hlevel =>
    finish_ends (P := fun u => s.sym.StoresTo _ u.sym) (windowedSymbol_stores hlevel rfl)
      (fun e u hu => by rwa [takeError_sym]) h⟩

end

/-- Settles O59: each element's frame is that of its move, and a symbol stores as the stage does. -/
theorem elementFrames : Obligations.ElementFrames := by
  intro s t
  refine ⟨fun i hi h => ?_, fun i hi h => ?_, fun i hi h => ?_, fun sym => exec_symbolCode_frame⟩
  · obtain ⟨u, rfl⟩ | ⟨m, rfl⟩ := hi
    · exact (finish_move mapFrame_isFrame (elemUsedMap_moves u s).moves h).frame
    · exact (finish_move mapFrame_isFrame (elemSubMap_moves m s).moves h).frame
  · obtain ⟨g, rfl⟩ | ⟨n, rfl⟩ | ⟨j, rfl⟩ := hi
    · exact (finish_move selectionFrame_isFrame (elemNGroups_moves g s).moves h).frame
    · exact (finish_move selectionFrame_isFrame (elemNSelectors_moves n s).moves h).frame
    · exact (finish_move selectionFrame_isFrame (elemSelectorCode_moves j s).moves h).frame
  · obtain ⟨l, rfl⟩ | rfl | rfl | rfl := hi
    · exact (finish_move lengthsFrame_isFrame (elemLenSeed_moves l s).moves h).frame
    · exact (finish_move lengthsFrame_isFrame (elemLenInc_moves s).moves h).frame
    · exact (finish_move lengthsFrame_isFrame (elemLenDec_moves s).moves h).frame
    · exact (finish_move lengthsFrame_isFrame (elemLenEnd_moves s).moves h).frame

end Sys2Proof.Machine
end

section
/-! PROOFS. The elements of the symbol map (spec/44_block_engine.md R236), and those of the groups and the selectors
(R237, R238), issued on their own. -/

namespace Sys2Proof.Machine

/-! ### The symbol map (R236) -/

section
variable {used : BitVec 16} {s : State} {xs : List Bool} {i : Nat}

/-- `d` ranges that are not marked, with `n` ranges after them. -/
theorem fillUnmarked_add {d n : Nat} (h : ∀ b, n ≤ b → b < n + d → used.getLsbD b = false) (xs : List Bool) :
    fillUnmarked used (n + d) xs = fillUnmarked used n (xs ++ List.replicate (16 * d) false) := by
  induction d generalizing xs with
  | zero => rw [Nat.mul_zero, List.replicate_zero, List.append_nil, Nat.add_zero]
  | succ d ih =>
    have hfirst : ¬used.getLsbD (n + d) = true := by
      rw [h (n + d) (by omega) (by omega)]
      exact Bool.false_ne_true
    rw [← Nat.add_assoc, fillUnmarked, if_neg hfirst, ih fun b hb hlt => h b hb (by omega), List.append_assoc,
      List.replicate_append_replicate, Nat.mul_succ, Nat.add_comm]

/-- From the range `i` on, the ranges below `k` are filled. -/
theorem fillUnmarked_ranges {k : Nat} (hlen : xs.length = 16 * i) (hik : i ≤ k) (hk : k ≤ 16)
    (hun : ∀ j, i ≤ j → j < k → used.getLsbD (15 - j) = false) :
    fillUnmarked used (16 - xs.length / 16) xs =
      fillUnmarked used (16 - k) (xs ++ List.replicate (16 * (k - i)) false) := by
  rw [hlen, Nat.mul_div_cancel_left i (by decide), show 16 - i = 16 - k + (k - i) by omega]
  refine fillUnmarked_add (fun b hb hlt => ?_) xs
  rw [show b = 15 - (15 - b) by omega]
  exact hun (15 - b) (by omega) (by omega)

/-- The map goes on to the next marked range. -/
theorem continueMap_of_marked {k : Nat} (hlen : xs.length = 16 * i) (hik : i ≤ k) (hk : k < 16)
    (hmarked : s.tab.used.getLsbD (15 - k) = true) (hun : ∀ j, i ≤ j → j < k → s.tab.used.getLsbD (15 - j) = false) :
    continueMap xs s = .ok () { s with
      map := { s.map with inUse := xs ++ List.replicate (16 * (k - i)) false }
      pos := .subMap } := by
  have hfill : fillUnmarked s.tab.used (16 - xs.length / 16) xs = xs ++ List.replicate (16 * (k - i)) false := by
    rw [fillUnmarked_ranges hlen hik hk.le hun, show 16 - k = 15 - k + 1 by omega]
    exact if_pos hmarked
  have hopen : ¬256 ≤ (xs ++ List.replicate (16 * (k - i)) false).length := by
    rw [List.length_append, List.length_replicate]
    omega
  rw [continueMap, hfill]
  exact if_neg hopen

/-- With no marked range left the map ends. -/
theorem continueMap_of_unmarked (hlen : xs.length = 16 * i) (hi : i ≤ 16)
    (hun : ∀ j, i ≤ j → j < 16 → s.tab.used.getLsbD (15 - j) = false) :
    continueMap xs s = finishMap (xs ++ List.replicate (16 * (16 - i)) false) s := by
  have hfull : 256 ≤ (xs ++ List.replicate (16 * (16 - i)) false).length := by
    rw [List.length_append, List.length_replicate]
    omega
  rw [continueMap, fillUnmarked_ranges hlen hi le_rfl hun]
  exact if_pos hfull

theorem finishMap_of_values (hlen : xs.length = 256) (h : markedValues xs ≠ []) :
    finishMap xs s = .ok () { s with map := symbolMapOf xs, pos := .nGroups } := by
  rw [finishMap, valuesInUse_eq_markedValues hlen, if_neg h]
  rfl

theorem finishMap_of_empty (hlen : xs.length = 256) (h : markedValues xs = []) :
    finishMap xs s =
      .raised .emptySymbolMap { s with map := { s.map with inUse := xs, nInUse := 0, seqToUnseq := [] } } := by
  rw [finishMap, valuesInUse_eq_markedValues hlen, h]
  rfl

end

theorem markedValues_replicate_false (n : Nat) : markedValues (List.replicate n false) = [] := by
  rw [markedValues, List.map_eq_nil_iff, List.filter_eq_nil_iff]
  intro b _
  rw [List.getD_eq_getElem?_getD, List.getElem?_getD_replicate_default_eq]
  exact Bool.false_ne_true

/-- Settles O49: the map goes on from the ranges known so far, to the next marked range or to its end. -/
theorem symbolMapElements : Obligations.SymbolMapElements := by
  refine ⟨fun u s => ⟨?_, fun i hi hmarked hun => ?_⟩, fun m s i hi hlen => ?_⟩
  · rintro rfl
    refine finish_of_raised ((continueMap_of_unmarked (i := 0) rfl (by decide) fun j _ _ => ?_).trans
      (finishMap_of_empty List.length_replicate (markedValues_replicate_false _)))
    exact BitVec.getLsbD_zero
  · exact finish_of_ok (continueMap_of_marked (i := 0) rfl (Nat.zero_le i) hi hmarked fun j _ => hun j)
  · have hlen' : (s.map.inUse ++ toBits 16 m.toNat).length = 16 * (i + 1) := by
      rw [List.length_append, toBits_length, hlen, Nat.mul_succ]
    refine ⟨fun k hik hk hmarked hun => finish_of_ok (continueMap_of_marked (i := i + 1) hlen' hik hk hmarked hun), ?_⟩
    rintro inUse rfl hun
    have h256 : (s.map.inUse ++ toBits 16 m.toNat ++ List.replicate (16 * (15 - i)) false).length = 256 := by
      rw [List.length_append, hlen', List.length_replicate]
      omega
    have hlast := continueMap_of_unmarked (s := s) (i := i + 1) hlen' hi hun
    rw [Nat.add_sub_add_right 15 1 i] at hlast
    exact ⟨fun h => finish_of_ok (hlast.trans (finishMap_of_values h256 h)),
      fun h => finish_of_raised (hlast.trans (finishMap_of_empty h256 h))⟩

/-! ### Groups and selectors (R237, R238) -/

section
variable {s : State}

theorem elemNGroups_of_legal {g : BitVec 3} (h : 2 ≤ g.toNat ∧ g.toNat ≤ 6) :
    elemNGroups g s = .ok () { s with sel := { s.sel with nGroups := g }, pos := .nSelectors } :=
  if_neg (not_or.2 ⟨Nat.not_lt.2 h.1, Nat.not_lt.2 h.2⟩)

theorem elemNGroups_of_illegal {g : BitVec 3} (h : ¬(2 ≤ g.toNat ∧ g.toNat ≤ 6)) :
    elemNGroups g s = .raised .groupCount { s with sel := { s.sel with nGroups := g } } :=
  if_pos ((not_and_or.1 h).imp Nat.lt_of_not_le Nat.lt_of_not_le)

theorem elemNSelectors_of_legal {n : BitVec 15} (h : 1 ≤ n.toNat ∧ n.toNat ≤ 18002) :
    elemNSelectors n s = .ok () { s with
      sel :=
        { nGroups := s.sel.nGroups
          nSelectors := n
          selMtf := selectorRanks s.sel.nGroups
          selectors := [] }
      pos := .selector } :=
  if_neg (not_or.2 ⟨Nat.not_lt.2 h.1, Nat.not_lt.2 h.2⟩)

theorem elemNSelectors_of_illegal {n : BitVec 15} (h : ¬(1 ≤ n.toNat ∧ n.toNat ≤ 18002)) :
    elemNSelectors n s = .raised .selectorCount { s with sel := { s.sel with nSelectors := n } } :=
  if_pos ((not_and_or.1 h).imp Nat.lt_of_not_le Nat.lt_of_not_le)

theorem elemSelectorCode_of_illegal {j : Nat} (h : s.sel.nGroups.toNat ≤ j) :
    elemSelectorCode j s = .raised .selectorValue s :=
  if_pos h

/-- A position of the list, with the last selector told from those before it. -/
theorem elemSelectorCode_of_legal {j : Nat} {v : BitVec 3} (hj : j < s.sel.nGroups.toNat)
    (hv : s.sel.selMtf[j]? = some v) :
    elemSelectorCode j s = .ok () { s with
      sel := { s.sel with selMtf := v :: s.sel.selMtf.eraseIdx j, selectors := s.sel.selectors ++ [v] }
      tab := if s.sel.selectors.length + 1 < s.sel.nSelectors.toNat then s.tab else { s.tab with g := 0 }
      pos := if s.sel.selectors.length + 1 < s.sel.nSelectors.toNat then .selector else .lenSeed } := by
  rw [elemSelectorCode, if_neg (Nat.not_le.2 hj), moveToFront_some hv, entry, Res.bind_ok]
  by_cases hmore : s.sel.selectors.length + 1 < s.sel.nSelectors.toNat
  · rw [if_pos hmore, if_pos hmore]
    exact if_neg (Nat.not_le.2 hmore)
  · rw [if_neg hmore, if_neg hmore]
    exact if_pos (Nat.le_of_not_lt hmore)

end

/-- Settles O50: each element by cases on its check. -/
theorem groupAndSelectorElements : Obligations.GroupAndSelectorElements := by
  refine fun s => ⟨fun g => ?_, fun n => ?_, fun j hj => finish_of_raised (elemSelectorCode_of_illegal hj),
    fun j v hj hv => finish_of_ok (elemSelectorCode_of_legal hj hv)⟩
  · split
    · rename_i hg
      exact finish_of_ok (elemNGroups_of_legal hg)
    · rename_i hg
      exact finish_of_raised (elemNGroups_of_illegal hg)
  · split
    · rename_i hn
      exact finish_of_ok (elemNSelectors_of_legal hn)
    · rename_i hn
      exact finish_of_raised (elemNSelectors_of_illegal hn)

end Sys2Proof.Machine
end

section
/-! PROOFS. The elements of the code lengths (spec/44_block_engine.md R240) issued on their own, and the tables built
after the last of them (R241). -/

namespace Sys2Proof.Machine

/-! ### The tables of all groups (R241) -/

/-- The group with the tables of its first `a` lengths (R190). -/
def Group.built (a : Nat) (grp : Group) : Group := grp.withTablesOf ((grp.len.take a).map BitVec.toNat)

theorem buildGroup_of_lengths {a : Nat} {grp : Group} (ha : 1 ≤ a) (hlen : a ≤ grp.len.length) :
    buildGroup a grp = .ok () (grp.built a) :=
  if_neg (by omega)

theorem builtFrom_built {a : Nat} {grp : Group} (ha : 1 ≤ a) (hlen : a ≤ grp.len.length) :
    builtFrom a (grp.built a) = true :=
  decide_eq_true (buildGroup_of_lengths (grp := grp.built a) ha hlen)

/-- Every group of those from `g` up to `g + n` that holds a length for each symbol is built, and no other changes. -/
theorem buildTables_completes (n : Nat) {g : Nat} {s : State} (hg : g + n ≤ s.sel.nGroups.toNat)
    (ha : 1 ≤ s.map.alphaSize.toNat)
    (hlen : ∀ h, g ≤ h → h < g + n → ∃ grp, s.groups[h]? = some grp ∧ s.map.alphaSize.toNat ≤ grp.len.length) :
    ∃ groups : Vector Group 6, buildTables n g s = .ok () { s with groups := groups } ∧
      ∀ h, groups[h]? =
        if g ≤ h ∧ h < g + n then (s.groups[h]?).map (Group.built s.map.alphaSize.toNat) else s.groups[h]? := by
  induction n generalizing g s with
  | zero => exact ⟨s.groups, rfl, fun h => (if_neg (by omega)).symm⟩
  | succ n ih =>
    obtain ⟨grp, hgrp, hcount⟩ := hlen g le_rfl (by omega)
    have hg6 : g < 6 := (Vector.getElem?_eq_some_iff.1 hgrp).1
    generalize hs₁ : { s with groups := s.groups.setIfInBounds g (grp.built s.map.alphaSize.toNat) } = s₁
    have hfirst : buildTable g s = .ok () s₁ := by
      rw [buildTable, if_pos (by omega), hgrp]
      simp only [buildGroup_of_lengths ha hcount, Res.lift_ok, hs₁]
    have hother : ∀ h, h ≠ g → s₁.groups[h]? = s.groups[h]? := fun h hne => by
      rw [← hs₁]
      exact Vector.getElem?_setIfInBounds_ne (Ne.symm hne)
    have hself : s₁.groups[g]? = some (grp.built s.map.alphaSize.toNat) := by
      rw [← hs₁]
      exact Vector.getElem?_setIfInBounds_self_of_lt hg6
    have hmap : s₁.map = s.map := by rw [← hs₁]
    have hsel : s₁.sel = s.sel := by rw [← hs₁]
    obtain ⟨groups, hrun, hgroups⟩ := ih (g := g + 1) (s := s₁) (by rw [hsel]; omega) (by rwa [hmap])
      fun h hle hlt => by
        rw [hother h (by omega), hmap]
        exact hlen h (by omega) (by omega)
    refine ⟨groups, ?_, fun h => ?_⟩
    · rw [buildTables, hfirst, Res.bind_ok, hrun, ← hs₁]
    · rw [hgroups h, hmap]
      obtain rfl | hne := eq_or_ne h g
      · rw [if_neg (by omega), if_pos (by omega), hself, hgrp, Option.map_some]
      · rw [hother h hne]
        exact if_congr (by omega) rfl rfl

section
variable {s : State}

/-- After the last group the tables of all of them are built. -/
theorem nextGroup_of_last (hlast : s.sel.nGroups.toNat ≤ s.tab.g.toNat + 1) (ha : 1 ≤ s.map.alphaSize.toNat)
    (hlen : ∀ h, h < s.sel.nGroups.toNat →
      ∃ grp, s.groups[h]? = some grp ∧ s.map.alphaSize.toNat ≤ grp.len.length) :
    ∃ groups : Vector Group 6, nextGroup s = .ok () { s with groups := groups, fsm := .symbols, pos := .symbol } ∧
      ∀ h grp, h < s.sel.nGroups.toNat → s.groups[h]? = some grp →
        groups[h]? = some (grp.built s.map.alphaSize.toNat) := by
  obtain ⟨groups, hrun, hgroups⟩ := buildTables_completes s.sel.nGroups.toNat (g := 0) (s := s) (by omega) ha
    fun h _ hlt => hlen h (by omega)
  refine ⟨groups, by rw [nextGroup, if_pos hlast, hrun, Res.bind_ok], fun h grp hlt hgrp => ?_⟩
  rw [hgroups h, if_pos (by omega), hgrp, Option.map_some]

/-! ### The current length (R240) -/

theorem checkLength_of_range (h : 1 ≤ s.tab.curr.toNat ∧ s.tab.curr.toNat ≤ 20) : checkLength s = .ok () s :=
  if_neg (not_or.2 ⟨Nat.not_lt.2 h.1, Nat.not_lt.2 h.2⟩)

theorem checkLength_of_outside (h : ¬(1 ≤ s.tab.curr.toNat ∧ s.tab.curr.toNat ≤ 20)) :
    checkLength s = .raised .codeLength s :=
  if_pos ((not_and_or.1 h).imp Nat.lt_of_not_le Nat.lt_of_not_le)

/-- The check as the end of an element. -/
theorem finish_checkLength (s : State) : finish (checkLength s) =
    .next (if 1 ≤ s.tab.curr.toNat ∧ s.tab.curr.toNat ≤ 20 then s else takeError .codeLength s) := by
  split
  · rename_i h
    exact finish_of_ok (checkLength_of_range h)
  · rename_i h
    exact finish_of_raised (checkLength_of_outside h)

theorem exec_lenSeed {l : BitVec 5} {grp : Group} (hgrp : s.groups[s.tab.g.toNat]? = some grp) :
    exec (.lenSeed l) s = finish (checkLength { s with
      tab := { s.tab with curr := l }
      groups := s.groups.setIfInBounds s.tab.g.toNat { grp with len := [] }
      pos := .lenFlag }) := by
  simp only [exec, execLenSeed, elemLenSeed, hgrp]

section
variable (hcurr : 1 ≤ s.tab.curr.toNat ∧ s.tab.curr.toNat ≤ 20)
include hcurr

theorem exec_lenInc : exec .lenInc s =
    .next (if s.tab.curr.toNat < 20 then { s with tab := { s.tab with curr := s.tab.curr + 1 }, pos := .lenFlag }
      else takeError .codeLength { s with tab := { s.tab with curr := 21 }, pos := .lenFlag }) := by
  have hrun : exec .lenInc s = finish (checkLength
      { s with tab := { s.tab with curr := s.tab.curr + 1 }, pos := .lenFlag }) := by
    simp only [exec, execLenInc, elemLenInc, checkLength_of_range hcurr, Res.bind_ok]
  rw [hrun]
  split
  · exact finish_of_ok (checkLength_of_range (by simp only; bv_omega))
  · rw [show s.tab.curr + 1 = 21 by bv_omega]
    rfl

theorem exec_lenDec : exec .lenDec s =
    .next (if 1 < s.tab.curr.toNat then { s with tab := { s.tab with curr := s.tab.curr - 1 }, pos := .lenFlag }
      else takeError .codeLength { s with tab := { s.tab with curr := 0 }, pos := .lenFlag }) := by
  have hrun : exec .lenDec s = finish (checkLength
      { s with tab := { s.tab with curr := s.tab.curr - 1 }, pos := .lenFlag }) := by
    simp only [exec, execLenDec, elemLenDec, checkLength_of_range hcurr, Res.bind_ok]
  rw [hrun]
  split
  · exact finish_of_ok (checkLength_of_range (by simp only; bv_omega))
  · rw [show s.tab.curr - 1 = 0 by bv_omega]
    rfl

/-! ### The end of a length (R240, R241) -/

theorem exec_lenEnd {grp : Group} (hgrp : s.groups[s.tab.g.toNat]? = some grp) :
    exec .lenEnd s = finish
      (if s.map.alphaSize.toNat ≤ grp.len.length + 1 then
        nextGroup
          { s with groups := s.groups.setIfInBounds s.tab.g.toNat { grp with len := grp.len ++ [s.tab.curr] } }
      else .ok () { s with
        groups := s.groups.setIfInBounds s.tab.g.toNat { grp with len := grp.len ++ [s.tab.curr] }
        pos := .lenFlag }) := by
  simp only [exec, execLenEnd, elemLenEnd, checkLength_of_range hcurr, Res.bind_ok, hgrp]

end

end

/-- The groups once the current one has one length more. -/
theorem getElem?_appendLength {groups : Vector Group 6} {g h : Nat} {grp old : Group} (hgrp : groups[g]? = some grp)
    (hold : groups[h]? = some old) (l : BitVec 5) :
    (groups.setIfInBounds g { grp with len := grp.len ++ [l] })[h]? =
      some { old with len := if h = g then old.len ++ [l] else old.len } := by
  obtain rfl | hne := eq_or_ne h g
  · obtain rfl := Option.some.inj (hgrp.symm.trans hold)
    rw [if_pos rfl]
    exact Vector.getElem?_setIfInBounds_self_of_lt (Vector.getElem?_eq_some_iff.1 hgrp).1
  · rw [if_neg hne, ← hold]
    exact Vector.getElem?_setIfInBounds_ne (Ne.symm hne)

/-- The end of the last length of the last group. -/
theorem exec_lenEnd_of_last {s : State} (hcurr : 1 ≤ s.tab.curr.toNat ∧ s.tab.curr.toNat ≤ 20) {grp : Group}
    (hgrp : s.groups[s.tab.g.toNat]? = some grp) (hcount : s.map.alphaSize.toNat = grp.len.length + 1)
    (hlast : s.sel.nGroups.toNat = s.tab.g.toNat + 1)
    (hothers : ∀ g other, g < s.tab.g.toNat → s.groups[g]? = some other → other.len.length = s.map.alphaSize.toNat) :
    ∃ groups : Vector Group 6,
      exec .lenEnd s = .next { s with groups := groups, fsm := .symbols, pos := .symbol } ∧
        ∀ g, g < s.sel.nGroups.toNat →
          ∃ old new, s.groups[g]? = some old ∧ groups[g]? = some new ∧
            new.len = (if g = s.tab.g.toNat then old.len ++ [s.tab.curr] else old.len) ∧
            builtFrom s.map.alphaSize.toNat new = true := by
  have ha : 1 ≤ s.map.alphaSize.toNat := by omega
  have hg6 : s.tab.g.toNat < 6 := (Vector.getElem?_eq_some_iff.1 hgrp).1
  have hfull : ∀ g old, g < s.sel.nGroups.toNat → s.groups[g]? = some old →
      (if g = s.tab.g.toNat then old.len ++ [s.tab.curr] else old.len).length = s.map.alphaSize.toNat := by
    intro g old hlt hold
    split
    · rename_i hg
      subst hg
      obtain rfl := Option.some.inj (hgrp.symm.trans hold)
      rw [List.length_append, List.length_singleton, hcount]
    · exact hothers g old (by omega) hold
  have hold : ∀ g, g < s.sel.nGroups.toNat → ∃ old, s.groups[g]? = some old := fun g hlt =>
    ⟨_, Vector.getElem?_eq_getElem (by omega)⟩
  obtain ⟨groups, hrun, hgroups⟩ := nextGroup_of_last
    (s := { s with groups := s.groups.setIfInBounds s.tab.g.toNat { grp with len := grp.len ++ [s.tab.curr] } })
    hlast.le ha fun g hlt => by
      obtain ⟨old, hold⟩ := hold g hlt
      exact ⟨_, getElem?_appendLength hgrp hold _, (hfull g old hlt hold).ge⟩
  refine ⟨groups, ?_, fun g hlt => ?_⟩
  · rw [exec_lenEnd hcurr hgrp, if_pos hcount.le]
    exact finish_of_ok hrun
  · obtain ⟨old, hold⟩ := hold g hlt
    exact ⟨old, _, hold, hgroups g _ hlt (getElem?_appendLength hgrp hold _), rfl,
      builtFrom_built ha (hfull g old hlt hold).ge⟩

/-- Settles O51: each element by its check, the last end flag by the tables of all groups. -/
theorem lengthElements : Obligations.LengthElements := by
  refine ⟨fun l s grp hgrp => (exec_lenSeed hgrp).trans (finish_checkLength _), fun s hcurr => ?_,
    fun s h1 h20 => ⟨exec_lenInc ⟨h1, h20⟩, exec_lenDec ⟨h1, h20⟩, fun grp hgrp =>
      ⟨fun hmore => ?_, fun hfull hmore => ?_, exec_lenEnd_of_last ⟨h1, h20⟩ hgrp⟩⟩⟩
  · have hcheck := checkLength_of_outside hcurr
    exact ⟨finish_of_raised (by rw [elemLenInc, hcheck, Res.bind_raised]),
      finish_of_raised (by rw [elemLenDec, hcheck, Res.bind_raised]),
      finish_of_raised (by rw [elemLenEnd, hcheck, Res.bind_raised])⟩
  · rw [exec_lenEnd ⟨h1, h20⟩ hgrp, if_neg (Nat.not_le.2 hmore), finish]
  · rw [exec_lenEnd ⟨h1, h20⟩ hgrp, if_pos hfull]
    exact finish_of_ok (if_neg (Nat.not_le.2 hmore))

end Sys2Proof.Machine
end

section
/-! PROOFS. STEP_TABLES where a block's tables are legal and all their bits are there (spec/44_block_engine.md R232 to
R241): the chain of its elements up to the flag bit that ends the last length, and the tables built after it. -/

namespace Sys2Proof.Machine

/-! ### The loop over a chain of elements -/

section
variable {s : State}

/-- The loop reads the elements of a chain, and has a turn left for each bit that follows. -/
theorem TablesChain.loop_reads {bits : List Bool} {t t' : TablesRegs} (h : TablesChain s bits t t') {k n : Nat}
    (hk : k = bits.length + n) {r : Reader} {rest : List Bool} (hw : r.wf = true) (hp : r.pending = bits ++ rest) :
    ∃ k' r', n ≤ k' ∧ tablesLoop k (s.withTables t r) = tablesLoop k' (s.withTables t' r') ∧
      r.TakenTo bits.length r' ∧ r'.pending = rest := by
  induction h generalizing k n r with
  | nil t => exact ⟨k, r, by omega, rfl, Reader.takenTo_zero hw, hp⟩
  | @cons bits bits' t t₁ t' helem hbits hpos _ ih =>
    rw [List.append_assoc] at hp
    obtain ⟨r₁, hrun, ht₁, hp₁⟩ := helem.reads r _ hw hp
    rw [List.length_append] at hk
    obtain ⟨k', r', hn, hloop, ht, hp'⟩ := ih (k := k - 1) (n := n + (bits.length - 1)) (by omega) ht₁.wf hp₁
    refine ⟨k', r', by omega, ?_, ?_, hp'⟩
    · have hpos' : (s.withTables t₁ r₁).pos ≠ .symbol := hpos
      rw [show k = k - 1 + 1 by omega, tablesLoop, hrun, Res.bind_ok, if_neg hpos', hloop]
    · rw [List.length_append]
      exact Reader.takenTo_add ht₁ ht

variable {blk : BlockRegs} {map : SymbolMap} {sel : Selection} {groups : Vector Group 6} {tab : TablesCursor}

/-- The flag bit that ends a length is read, and the length ended. -/
theorem readElement_lenEnd (hcurr : 1 ≤ tab.curr.toNat ∧ tab.curr.toNat ≤ 20) {r : Reader} {rest : List Bool}
    (hw : r.wf = true) (hp : r.pending = false :: rest) :
    ∃ r', readElement (s.withTables ⟨blk, map, sel, groups, tab, .lenFlag⟩ r) =
        elemLenEnd (s.withTables ⟨blk, map, sel, groups, tab, .lenFlag⟩ r') ∧ r.TakenTo 1 r' := by
  obtain ⟨r', hrun, ht, -⟩ := readBool_reads false r rest hw hp
  refine ⟨r', ?_, ht⟩
  have hread : readElement (s.withTables ⟨blk, map, sel, groups, tab, .lenFlag⟩ r) =
      readLenFlag (s.withTables ⟨blk, map, sel, groups, tab, .lenFlag⟩ r) := rfl
  rw [hread, readLenFlag, checkLength_of_legal hcurr, Res.bind_ok,
    onReader_of_ok (s := s.withTables ⟨blk, map, sel, groups, tab, .lenFlag⟩ r) hrun]
  rfl

end

/-! ### The length tables (R240, R241) -/

theorem lengthsFrom_length {moves : List (List Bool)} {curr : Nat} {ls : List Nat}
    (h : lengthsFrom curr moves = some ls) : ls.length = moves.length := by
  induction moves generalizing curr ls with
  | nil =>
    obtain rfl : [] = ls := Option.some.inj h
    rfl
  | cons m moves ih =>
    obtain ⟨l, ls', -, hls', rfl⟩ := lengthsFrom_cons h
    rw [List.length_cons, List.length_cons, ih hls']

/-- The groups from `g` on hold the lengths of the tables. -/
def HoldsLengths (tables : List LengthTable) (g : Nat) (groups : Vector Group 6) : Prop :=
  ∀ i table, tables[i]? = some table →
    ∃ grp, groups[g + i]? = some grp ∧ table.lens = some (grp.len.map BitVec.toNat)

theorem HoldsLengths.nil (g : Nat) (groups : Vector Group 6) : HoldsLengths [] g groups := nofun

theorem HoldsLengths.cons {table : LengthTable} {tables : List LengthTable} {g : Nat} {groups : Vector Group 6}
    {grp : Group} (hgrp : groups[g]? = some grp) (hlens : table.lens = some (grp.len.map BitVec.toNat))
    (h : HoldsLengths tables (g + 1) groups) : HoldsLengths (table :: tables) g groups := by
  intro i table' hi
  cases i with
  | zero =>
    obtain rfl : table = table' := Option.some.inj hi
    exact ⟨grp, hgrp, hlens⟩
  | succ i =>
    rw [← Nat.add_assoc, Nat.add_right_comm]
    exact h i table' hi

/-- Before the end of the last length of the last group: the current length is the last one of the `groups`, and with it
they are `all`. -/
structure LastLength (map : SymbolMap) (sel : Selection) (groups : Vector Group 6) (tab : TablesCursor)
    (all : Vector Group 6) : Prop where
  curr : 1 ≤ tab.curr.toNat ∧ tab.curr.toNat ≤ 20
  last : sel.nGroups.toNat = tab.g.toNat + 1
  append : ∃ grp, groups[tab.g.toNat]? = some grp ∧ grp.len.length + 1 = map.alphaSize.toNat ∧
    all = groups.setIfInBounds tab.g.toNat { grp with len := grp.len ++ [tab.curr] }

section
variable {s : State} {blk : BlockRegs} {map : SymbolMap} {sel : Selection}

/-- The length tables of the groups from `tab.g` on, up to the flag bit that ends the last length. -/
theorem lengthTables_chain (halpha : 0 < map.alphaSize.toNat) (h6 : sel.nGroups.toNat ≤ 6) {tables : List LengthTable}
    (hne : tables ≠ []) {groups : Vector Group 6} {tab : TablesCursor}
    (hlegal : ∀ table ∈ tables, table.moves.length = map.alphaSize.toNat ∧ table.lens.isSome = true)
    (hg : tab.g.toNat + tables.length = sel.nGroups.toNat) :
    ∃ (front : List Bool) (groups' : Vector Group 6) (tab' : TablesCursor) (all : Vector Group 6),
      tables.flatMap LengthTable.bits = front ++ [false] ∧
      TablesChain s front ⟨blk, map, sel, groups, tab, .lenSeed⟩ ⟨blk, map, sel, groups', tab', .lenFlag⟩ ∧
      LastLength map sel groups' tab' all ∧ HoldsLengths tables tab.g.toNat all ∧
      ∀ h, h < tab.g.toNat → all[h]? = groups[h]? := by
  induction tables generalizing groups tab with
  | nil => exact absurd rfl hne
  | cons table tables ih =>
    obtain ⟨⟨hlen, hsome⟩, hrest⟩ := List.forall_mem_cons.1 hlegal
    obtain ⟨ls, hls⟩ := Option.isSome_iff_exists.1 hsome
    rw [List.length_cons] at hg
    have hg6 : tab.g.toNat < 6 := by omega
    obtain ⟨front, groups₁, curr, lens, hbits, hchain, hrange, hgrp, rfl, hcount, hother⟩ :=
      lengthTable_chain (s := s) (blk := blk) (sel := sel) hlen halpha hls (Vector.getElem?_eq_getElem hg6)
    generalize hall : groups₁.setIfInBounds tab.g.toNat
      { groups[tab.g.toNat] with len := lens ++ [curr] } = all
    have hself : all[tab.g.toNat]? = some { groups[tab.g.toNat] with len := lens ++ [curr] } := by
      rw [← hall]
      exact Vector.getElem?_setIfInBounds_self_of_lt hg6
    have hbelow : ∀ h, h < tab.g.toNat → all[h]? = groups[h]? := fun h hlt => by
      rw [← hall, ← hother h hlt.ne]
      exact Vector.getElem?_setIfInBounds_ne hlt.ne'
    by_cases hnil : tables = []
    · subst hnil
      refine ⟨front, groups₁, { tab with curr := curr }, all, ?_, hchain,
        ⟨hrange, hg.symm, _, hgrp, hcount, hall.symm⟩, .cons hself hls (.nil _ _), hbelow⟩
      rw [List.flatMap_cons, List.flatMap_nil, List.append_nil, hbits]
    · have hmore : 0 < tables.length := List.length_pos_iff.2 hnil
      have hnext : (tab.g + 1).toNat = tab.g.toNat + 1 := by
        rw [BitVec.toNat_add, show (1 : BitVec 3).toNat = 1 from rfl]
        omega
      have hend := lenEnd_field (s := s) (tab := { tab with curr := curr }) hrange fun r =>
        ((elemLenEnd_eq (s := s) (blk := blk) (map := map) (sel := sel) (tab := { tab with curr := curr }) hrange hgrp
          r).trans (if_pos hcount.ge)).trans
            (nextGroup_of_more (tab := { tab with curr := curr }) (by simp only; omega) r)
      obtain ⟨front', groups', tab', all', hbits', hchain', hlast, hholds, hbelow'⟩ :=
        ih hnil (groups := groups₁.setIfInBounds tab.g.toNat { groups[tab.g.toNat] with len := lens ++ [curr] })
          (tab := { tab with g := tab.g + 1, curr := curr }) hrest (by simp only [hnext]; omega)
      simp only [hnext, hall] at hholds hbelow'
      refine ⟨front ++ ([false] ++ front'), groups', tab', all', ?_,
        hchain.trans ((hend.chain Nat.one_pos nofun).trans hchain'), hlast,
        .cons ((hbelow' _ (Nat.lt_succ_self _)).trans hself) hls hholds,
        fun h hlt => (hbelow' h (by omega)).trans (hbelow h hlt)⟩
      rw [List.flatMap_cons, hbits, hbits', List.append_assoc, List.append_assoc, List.append_assoc]

/-- The end of the last length: every group's tables are built, and SYMBOLS follows. -/
theorem LastLength.elemLenEnd_completes {groups : Vector Group 6} {tab : TablesCursor} {all : Vector Group 6}
    (h : LastLength map sel groups tab all) {tables : List LengthTable} (hholds : HoldsLengths tables 0 all)
    (hcount : tables.length = sel.nGroups.toNat)
    (hlegal : ∀ table ∈ tables, table.moves.length = map.alphaSize.toNat) (r : Reader) :
    ∃ built : Vector Group 6,
      elemLenEnd (s.withTables ⟨blk, map, sel, groups, tab, .lenFlag⟩ r) =
        .ok () ({ s with fsm := .symbols }.withTables ⟨blk, map, sel, built, tab, .symbol⟩ r) ∧
      ∀ (i : Nat) (table : LengthTable), tables[i]? = some table → ∃ grp, built[i]? = some grp ∧
        table.lens = some (grp.len.map BitVec.toNat) ∧ builtFrom map.alphaSize.toNat grp = true := by
  obtain ⟨grp, hgrp, hlen, hall⟩ := h.append
  have ha : 1 ≤ map.alphaSize.toNat := by omega
  have hfull : ∀ (i : Nat) (table : LengthTable), tables[i]? = some table → ∃ grp, all[i]? = some grp ∧
      table.lens = some (grp.len.map BitVec.toNat) ∧ map.alphaSize.toNat ≤ grp.len.length := by
    intro i table hi
    obtain ⟨grp, hgrp, hlens⟩ := hholds i table hi
    rw [Nat.zero_add] at hgrp
    have hlength := lengthsFrom_length hlens
    rw [List.length_map, hlegal table (List.mem_of_getElem? hi)] at hlength
    exact ⟨grp, hgrp, hlens, hlength.ge⟩
  obtain ⟨built, hrun, hbuilt⟩ := nextGroup_of_last
    (s := s.withTables ⟨blk, map, sel, all, tab, .lenFlag⟩ r) h.last.le ha fun i hi => by
      obtain ⟨grp, hgrp, -, hle⟩ := hfull i _ (List.getElem?_eq_getElem (hcount.symm ▸ hi))
      exact ⟨grp, hgrp, hle⟩
  refine ⟨built, ?_, fun i table hi => ?_⟩
  · rw [elemLenEnd_eq h.curr hgrp, if_pos hlen.ge, ← hall]
    exact hrun
  · obtain ⟨grp, hgrp, hlens, hle⟩ := hfull i table hi
    have hi' : i < sel.nGroups.toNat := hcount ▸ (List.getElem?_eq_some_iff.1 hi).1
    exact ⟨_, hbuilt i grp hi' hgrp, hlens, builtFrom_built ha hle⟩

end

/-! ### STEP_TABLES -/

/-- The fixed fields of a block (R232 to R234). -/
def BlockTables.fields (d : BlockTables) : BlockRegs :=
  { storedCrc := d.crc, randomised := d.randomised, origPtr := d.origPtr }

/-- The group registers after the last selector (R237, R238). -/
def BlockTables.selection (d : BlockTables) (selectors mtf : List (BitVec 3)) : Selection :=
  { nGroups := d.nGroups
    nSelectors := BitVec.ofNat 15 d.positions.length
    selMtf := mtf
    selectors := selectors }

/-- The elements up to the flag bit that ends the last length. -/
theorem BlockTables.chain {d : BlockTables} (hlegal : d.legal = true) (s : State) :
    ∃ (selectors mtf : List (BitVec 3)) (front : List Bool) (groups : Vector Group 6) (tab : TablesCursor)
      (all : Vector Group 6),
      selectorsFrom (selectorRanks d.nGroups) d.positions = some (selectors, mtf) ∧ d.bits = front ++ [false] ∧
      TablesChain s front ⟨s.blk, s.map, s.sel, s.groups, s.tab, .blockCrc⟩
        ⟨d.fields, symbolMapOf d.inUse, d.selection selectors mtf, groups, tab, .lenFlag⟩ ∧
      LastLength (symbolMapOf d.inUse) (d.selection selectors mtf) groups tab all ∧ HoldsLengths d.lengths 0 all := by
  obtain ⟨hranges, hany, ⟨h2, h6⟩, ⟨h1, hmax⟩, hpositions, hlengths, htables⟩ := d.legal_iff.1 hlegal
  have halpha : (symbolMapOf d.inUse).alphaSize.toNat = (markedValues d.inUse).length + 2 :=
    symbolMapOf_alphaSize d.inUse
  have hsel : (BitVec.ofNat 15 d.positions.length).toNat = d.positions.length := by
    rw [BitVec.toNat_ofNat]
    omega
  obtain ⟨used, hmap⟩ := symbolMap_chain (s := s) (blk := d.fields) (map := s.map) (sel := s.sel) (groups := s.groups)
    (tab := s.tab) hranges hany
  obtain ⟨selectors, mtf, hfrom, hselectors⟩ := selectors_chain (s := s) (blk := d.fields)
    (map := symbolMapOf d.inUse) (groups := s.groups) (tab := { s.tab with used := used })
    (sel := d.selection [] (selectorRanks d.nGroups)) (List.length_pos_iff.1 h1) hpositions
    (by simp [BlockTables.selection, selectorRanks]) (by rw [BlockTables.selection, hsel]; exact Nat.zero_add _)
  obtain ⟨front, groups, tab, all, hbits, hlens, hlast, hholds, -⟩ := lengthTables_chain (s := s) (blk := d.fields)
    (map := symbolMapOf d.inUse) (sel := d.selection selectors mtf) (groups := s.groups)
    (tab := { s.tab with used := used, g := 0 }) (by omega) h6
    (List.length_pos_iff.1 (by omega : 0 < d.lengths.length)) (fun table ht => halpha.symm ▸ htables table ht)
    ((Nat.zero_add _).trans hlengths)
  have hchain := (fixedFields_chain (blk := s.blk) d).trans (hmap.trans
    (((nGroups_field h2 h6).chain (by simp) nofun).trans
      (((nSelectors_field h1 hmax).chain (by simp) nofun).trans (hselectors.trans hlens))))
  refine ⟨selectors, mtf, _, groups, tab, all, hfrom, ?_, hchain, hlast, hholds⟩
  rw [d.bits_eq, hbits]
  simp only [List.append_assoc]

/-- The loop of TABLES over the bits of legal tables. -/
theorem BlockTables.loop_completes {d : BlockTables} (hlegal : d.legal = true) {s : State} {k : Nat}
    (hk : d.bits.length ≤ k) (hw : s.rd.wf = true) {rest : List Bool} (hp : s.rd.pending = d.bits ++ rest) :
    ∃ (selectors mtf : List (BitVec 3)) (groups : Vector Group 6) (tab : TablesCursor) (r : Reader),
      selectorsFrom (selectorRanks d.nGroups) d.positions = some (selectors, mtf) ∧
      tablesLoop k { s with pos := .blockCrc } = .ok () ({ s with fsm := .symbols }.withTables
        ⟨d.fields, symbolMapOf d.inUse, d.selection selectors mtf, groups, tab, .symbol⟩ r) ∧
      s.rd.TakenTo d.bits.length r ∧
      ∀ (i : Nat) (table : LengthTable), d.lengths[i]? = some table → ∃ grp, groups[i]? = some grp ∧
        table.lens = some (grp.len.map BitVec.toNat) ∧
        builtFrom (symbolMapOf d.inUse).alphaSize.toNat grp = true := by
  obtain ⟨selectors, mtf, front, groups, tab, all, hfrom, hbits, hchain, hlast, hholds⟩ := d.chain hlegal s
  obtain ⟨-, -, -, -, -, hlengths, htables⟩ := d.legal_iff.1 hlegal
  rw [hbits, List.append_assoc] at hp
  rw [hbits, List.length_append, List.length_singleton] at hk ⊢
  obtain ⟨k', r₁, hk', hloop, ht₁, hp₁⟩ := hchain.loop_reads (k := k) (n := k - front.length) (by omega) hw hp
  obtain ⟨r₂, hread, ht₂⟩ := readElement_lenEnd (s := s) (blk := d.fields) (map := symbolMapOf d.inUse)
    (sel := d.selection selectors mtf) (groups := groups) hlast.curr ht₁.wf hp₁
  obtain ⟨built, hend, hbuilt⟩ := hlast.elemLenEnd_completes (s := s) (blk := d.fields) hholds hlengths
    (fun table ht => (htables table ht).1.trans (symbolMapOf_alphaSize d.inUse).symm) r₂
  refine ⟨selectors, mtf, built, tab, r₂, hfrom, ?_, Reader.takenTo_add ht₁ ht₂, hbuilt⟩
  obtain ⟨k', rfl⟩ := Nat.exists_eq_add_of_le' (show 1 ≤ k' by omega)
  refine hloop.trans ?_
  rw [tablesLoop, hread, hend, Res.bind_ok]
  exact if_pos rfl

/-- Settles O43: the loop reads the chain of the tables' elements, and the bits to come bound its turns. -/
theorem tablesStep : Obligations.TablesStep := by
  intro s d rest hfsm hw hlegal hp
  have hbound : d.bits.length ≤ tablesBound s.rd := by
    rw [tablesBound, available_eq, hp, List.length_append]
    omega
  obtain ⟨selectors, mtf, groups, tab, r, hfrom, hloop, ht, hgroups⟩ := d.loop_completes hlegal hbound hw hp
  have hrun := (stepOf_of_fsm hfsm tablesBody).trans (finish_of_ok hloop)
  exact ⟨_, selectors, mtf, hrun, rfl, ht, rfl, rfl, hfrom, rfl, hgroups, rfl, rfl, rfl, rfl, rfl, rfl, rfl, rfl, rfl⟩

end Sys2Proof.Machine
end

section
/-! PROOFS. The permutation inverter (spec/45_block_output.md R275, R276): PI_BUILD's running counts, the slots of a
block's positions, and the scattering over them. -/

namespace Sys2Proof.Machine

/-! ### The bytes below a value (R275) -/

/-- How many bytes of a block are below a value: `cum` of that value before the scattering (R275). -/
def countBelow (bytes : List Byte) (v : Nat) : Nat := bytes.countP fun x => decide (x.toNat < v)

theorem countBelow_succ (bytes : List Byte) (b : Byte) :
    countBelow bytes (b.toNat + 1) = countBelow bytes b.toNat + bytes.count b := by
  induction bytes with
  | nil => rfl
  | cons x bytes ih =>
    have hone : (if x.toNat < b.toNat + 1 then 1 else 0) =
        (if x.toNat < b.toNat then 1 else 0) + if x = b then 1 else 0 := by
      simp only [← BitVec.toNat_inj]
      split_ifs <;> omega
    simp only [countBelow, List.countP_cons, List.count_cons, decide_eq_true_eq, beq_iff_eq, hone] at *
    omega

theorem countBelow_mono (bytes : List Byte) {v w : Nat} (h : v ≤ w) : countBelow bytes v ≤ countBelow bytes w :=
  List.countP_mono_left fun _ _ hx => decide_eq_true ((of_decide_eq_true hx).trans_le h)

theorem countBelow_le_length (bytes : List Byte) (v : Nat) : countBelow bytes v ≤ bytes.length := List.countP_le_length

theorem countBelow_zero (bytes : List Byte) : countBelow bytes 0 = 0 := by simp [countBelow]

/-- The running sum of a block's counts, from any value on, is the number of bytes below each value. -/
theorem cumulate_counts {bytes : List Byte} (hlen : bytes.length < 2 ^ 20) (n a : Nat) (ha : a + n ≤ 256) :
    cumulate (countBelow bytes a)
        ((List.range' a n).map fun v => BitVec.ofNat 20 (bytes.count (BitVec.ofNat 8 v))) =
      (List.range' a n).map fun v => BitVec.ofNat 20 (countBelow bytes v) := by
  induction n generalizing a with
  | zero => rfl
  | succ n ih =>
    have hval : (BitVec.ofNat 8 a).toNat = a := Nat.mod_eq_of_lt (by omega)
    have hcount : (BitVec.ofNat 20 (bytes.count (BitVec.ofNat 8 a))).toNat = bytes.count (BitVec.ofNat 8 a) :=
      Nat.mod_eq_of_lt (List.count_le_length.trans_lt hlen)
    have hsucc := countBelow_succ bytes (BitVec.ofNat 8 a)
    rw [hval] at hsucc
    simp only [List.range'_succ, List.map_cons, cumulate, hcount, ← hsucc, ih (a + 1) (by omega)]

/-! ### The slots of a block's positions (R276) -/

section
variable {bytes : List Byte} {i j : Nat}

theorem scatterSlot_eq (hi : i < bytes.length) :
    scatterSlot bytes i = countBelow bytes bytes[i].toNat + (bytes.take i).count bytes[i] := by
  rw [scatterSlot, List.getD_eq_getElem _ _ hi]
  rfl

/-- One position more: its byte is counted once more. -/
theorem count_take_succ (hi : i < bytes.length) (b : Byte) :
    (bytes.take (i + 1)).count b = (bytes.take i).count b + if bytes[i] = b then 1 else 0 := by
  rw [List.take_succ_eq_append_getElem hi, List.count_append, List.count_singleton]
  simp only [beq_iff_eq]

/-- An equal byte stands in the slots before those of the next greater value. -/
theorem scatterSlot_lt_countBelow (hi : i < bytes.length) :
    scatterSlot bytes i < countBelow bytes (bytes[i].toNat + 1) := by
  have htake := count_take_succ hi bytes[i]
  have hle : (bytes.take (i + 1)).count bytes[i] ≤ bytes.count bytes[i] := (List.take_sublist _ _).count_le _
  rw [if_pos rfl] at htake
  rw [scatterSlot_eq hi, countBelow_succ]
  omega

theorem scatterSlot_lt_length (hi : i < bytes.length) : scatterSlot bytes i < bytes.length :=
  (scatterSlot_lt_countBelow hi).trans_le (countBelow_le_length _ _)

/-- Slots rise with the byte. -/
theorem scatterSlot_lt_of_byte_lt (hi : i < bytes.length) (hj : j < bytes.length)
    (h : bytes[i].toNat < bytes[j].toNat) : scatterSlot bytes i < scatterSlot bytes j :=
  calc scatterSlot bytes i
    _ < countBelow bytes (bytes[i].toNat + 1) := scatterSlot_lt_countBelow hi
    _ ≤ countBelow bytes bytes[j].toNat := countBelow_mono bytes h
    _ ≤ scatterSlot bytes j := by
      rw [scatterSlot_eq hj]
      exact Nat.le_add_right _ _

/-- Slots rise with the position among equal bytes. -/
theorem scatterSlot_lt_of_byte_eq (hij : i < j) (hj : j < bytes.length) (h : bytes[i] = bytes[j]) :
    scatterSlot bytes i < scatterSlot bytes j := by
  have htake := count_take_succ (hij.trans hj) bytes[j]
  have hle : (bytes.take (i + 1)).count bytes[j] ≤ (bytes.take j).count bytes[j] :=
    (List.take_sublist_take_left hij).count_le _
  rw [if_pos h] at htake
  rw [scatterSlot_eq (hij.trans hj), scatterSlot_eq hj, h]
  omega

theorem scatterSlot_ne (hij : i < j) (hj : j < bytes.length) : scatterSlot bytes i ≠ scatterSlot bytes j := by
  rcases Nat.lt_trichotomy bytes[i].toNat bytes[j].toNat with h | h | h
  · exact (scatterSlot_lt_of_byte_lt (hij.trans hj) hj h).ne
  · exact (scatterSlot_lt_of_byte_eq hij hj (BitVec.eq_of_toNat_eq h)).ne
  · exact (scatterSlot_lt_of_byte_lt hj (hij.trans hj) h).ne'

/-- Every slot below the block's length is that of a position: the slots are as many as the positions, all different. -/
theorem exists_scatterSlot_eq {k : Nat} (hk : k < bytes.length) : ∃ i, i < bytes.length ∧ scatterSlot bytes i = k := by
  have hinj : Set.InjOn (scatterSlot bytes) (Finset.range bytes.length) := by
    intro i hi j hj h
    rw [Finset.mem_coe, Finset.mem_range] at hi hj
    rcases Nat.lt_trichotomy i j with hij | hij | hij
    · exact absurd h (scatterSlot_ne hij hj)
    · exact hij
    · exact absurd h.symm (scatterSlot_ne hij hi)
  have hmaps : Set.MapsTo (scatterSlot bytes) (Finset.range bytes.length) (Finset.range bytes.length) := by
    intro i hi
    rw [Finset.mem_coe, Finset.mem_range] at *
    exact scatterSlot_lt_length hi
  obtain ⟨i, hi, heq⟩ :=
    Finset.surjOn_of_injOn_of_card_le _ hmaps hinj le_rfl (Finset.mem_coe.2 (Finset.mem_range.2 hk))
  exact ⟨i, Finset.mem_range.1 hi, heq⟩

end

/-! ### The block buffer -/

theorem memGet_of_blockBytes {ll : Memory} (n : Nat) {i : Nat} {bytes : List Byte}
    (h : blockBytes ll n i = some bytes) :
    bytes.length = n ∧ ∀ k (hk : k < bytes.length), memGet ll (i + k) = some bytes[k] := by
  induction n generalizing i bytes with
  | zero =>
    cases h
    exact ⟨rfl, nofun⟩
  | succ n ih =>
    unfold blockBytes at h
    split at h
    · cases h
    · rename_i b hb
      split at h
      · cases h
      · rename_i rest hrest
        cases h
        obtain ⟨hlen, hread⟩ := ih hrest
        refine ⟨by rw [List.length_cons, hlen], fun k hk => ?_⟩
        cases k with
        | zero => exact hb
        | succ k =>
          rw [List.length_cons, Nat.add_lt_add_iff_right] at hk
          have hnext := hread k hk
          rwa [Nat.add_assoc, Nat.add_comm 1] at hnext

/-- What a state that holds a block has in it (R217). -/
structure BlockHeld (bytes : List Byte) (s : State) : Prop where
  nblock : s.sym.nblock.toNat = bytes.length
  ll : ∀ i (hi : i < bytes.length), memGet s.sym.ll i = some bytes[i]
  freq : s.sym.freq = (List.range 256).map fun v => BitVec.ofNat 20 (bytes.count (BitVec.ofNat 8 v))
  fits : bytes.length ≤ cap s.stream
  small : bytes.length < 2 ^ 20

theorem blockHeld_of_holdsBlock {s : State} {bytes : List Byte} (h : holdsBlock s bytes = true) :
    BlockHeld bytes s := by
  simp only [holdsBlock, Bool.and_eq_true, decide_eq_true_eq] at h
  obtain ⟨⟨⟨hbytes, hfreq⟩, hcap⟩, hlevel⟩ := h
  obtain ⟨hlen, hread⟩ := memGet_of_blockBytes _ hbytes
  refine ⟨hlen.symm, fun i hi => ?_, hfreq, hlen ▸ hcap, hlen ▸ hcap.trans_lt (cap_lt hlevel)⟩
  rw [← hread i hi, Nat.zero_add]

/-! ### The scattering (R276) -/

/-- The first `i` positions of a block are scattered: each stands in its slot, `cum` of a value is past the slots taken
for it, and the entries of `TT` past the block are those of `tt`. -/
structure PermRegs.Scattered (bytes : List Byte) (tt : Mem 20) (i : Nat) (p : PermRegs) : Prop where
  cum_length : p.cum.length = 256
  cum : ∀ b : Byte, (p.cum.getD b.toNat 0).toNat = countBelow bytes b.toNat + (bytes.take i).count b
  placed : ∀ j, j < i → memGet p.tt (scatterSlot bytes j) = some (BitVec.ofNat 20 j)
  others : ∀ k, bytes.length ≤ k → memGet p.tt k = memGet tt k

/-- The counts of a block cumulated: no position is scattered yet. -/
theorem scattered_zero {bytes : List Byte} (hlen : bytes.length < 2 ^ 20) (tt : Mem 20) :
    PermRegs.Scattered bytes tt 0
      { cum := cumulate 0 ((List.range 256).map fun v => BitVec.ofNat 20 (bytes.count (BitVec.ofNat 8 v)))
        tt := tt } := by
  have hcum := cumulate_counts hlen 256 0 (by decide)
  rw [countBelow_zero, ← List.range_eq_range'] at hcum
  refine ⟨by rw [hcum, List.length_map, List.length_range], fun b => ?_, nofun, fun _ _ => rfl⟩
  have hb : b.toNat < ((List.range 256).map fun v => BitVec.ofNat 20 (countBelow bytes v)).length := by
    rw [List.length_map, List.length_range]
    exact b.isLt
  rw [hcum, List.getD_eq_getElem _ _ hb, List.getElem_map, List.getElem_range, List.take_zero, List.count_nil]
  exact Nat.mod_eq_of_lt ((countBelow_le_length _ _).trans_lt hlen)

section
variable {bytes : List Byte} {capacity : Nat} {ll : Memory} (hfits : bytes.length ≤ capacity)
  (hsmall : bytes.length < 2 ^ 20) (hll : ∀ i (hi : i < bytes.length), memGet ll i = some bytes[i])
  {tt : Mem 20} {i : Nat} {p : PermRegs}
include hfits hsmall hll

/-- One turn scatters one position more. -/
theorem PermRegs.Scattered.scatterOne (h : p.Scattered bytes tt i) (hi : i < bytes.length) :
    ∃ p', scatterOne capacity ll i p = .ok () p' ∧ p'.Scattered bytes tt (i + 1) := by
  have hb : bytes[i].toNat < p.cum.length := by
    rw [h.cum_length]
    exact bytes[i].isLt
  have hslot : p.cum[bytes[i].toNat].toNat = scatterSlot bytes i := by
    rw [scatterSlot_eq hi, ← h.cum, List.getD_eq_getElem _ _ hb]
  have hlt := scatterSlot_lt_length hi
  refine ⟨{ cum := p.cum.set bytes[i].toNat (p.cum[bytes[i].toNat] + 1)
            tt := memSet p.tt (scatterSlot bytes i) (BitVec.ofNat 20 i) }, ?_, ?_, fun b => ?_, fun j hj => ?_,
    fun k hk => ?_⟩
  · simp only [Machine.scatterOne, hll i hi, entry, Res.bind_ok, List.getElem?_eq_getElem hb, hslot,
      if_pos (hlt.trans_le hfits)]
  · rw [List.length_set, h.cum_length]
  · have hcum := h.cum b
    have hsucc : (p.cum[bytes[i].toNat] + 1).toNat = scatterSlot bytes i + 1 := by
      rw [BitVec.toNat_add, hslot]
      exact Nat.mod_eq_of_lt (a := scatterSlot bytes i + 1) (by omega)
    rw [List.getD_eq_getElem?_getD] at *
    rw [List.getElem?_set, count_take_succ hi]
    by_cases heq : bytes[i] = b
    · subst heq
      rw [if_pos rfl, if_pos rfl, if_pos hb, Option.getD_some, hsucc, scatterSlot_eq hi, Nat.add_assoc]
    · rw [if_neg fun h => heq (BitVec.eq_of_toNat_eq h), if_neg heq, hcum, Nat.add_zero]
  · obtain hj | rfl := Nat.lt_succ_iff_lt_or_eq.1 hj
    · rw [memGet_memSet_other _ _ (scatterSlot_ne hj hi), h.placed j hj]
    · exact memGet_memSet_same _ _ _
  · rw [memGet_memSet_other _ _ (by omega), h.others k hk]

/-- The loop scatters the rest of the block. -/
theorem PermRegs.Scattered.scatter (n : Nat) (h : p.Scattered bytes tt i) (hn : i + n = bytes.length) :
    ∃ p', scatter capacity ll n i p = .ok () p' ∧ p'.Scattered bytes tt bytes.length := by
  induction n generalizing i p with
  | zero => exact ⟨p, rfl, hn ▸ h⟩
  | succ n ih =>
    obtain ⟨p₁, hone, h₁⟩ := h.scatterOne hfits hsmall hll (by omega)
    obtain ⟨p', hrest, h'⟩ := ih h₁ (by omega)
    exact ⟨p', by rw [Machine.scatter, hone, Res.bind_ok, hrest], h'⟩

end

/-- PI_BUILD on a block held in `LL` and `freq` scatters all its positions. -/
theorem BlockHeld.buildPermutation {s : State} {bytes : List Byte} (h : BlockHeld bytes s) :
    ∃ p, buildPermutation s = .ok () { s with perm := p } ∧ p.Scattered bytes s.perm.tt bytes.length := by
  have hlen : s.sym.freq.length = 256 := by rw [h.freq, List.length_map, List.length_range]
  obtain ⟨p, hrun, hp⟩ := (scattered_zero h.small s.perm.tt).scatter h.fits h.small h.ll bytes.length (Nat.zero_add _)
  refine ⟨p, ?_, hp⟩
  rw [Machine.buildPermutation, if_neg (by omega), List.take_of_length_le hlen.le, h.nblock, h.freq, hrun, Res.lift_ok]

/-- Settles O36: the loop keeps what is scattered so far, and the slots are a permutation. -/
theorem permutationScatters : Obligations.PermutationScatters := by
  intro s bytes hblock
  obtain ⟨p, hrun, hp⟩ := (blockHeld_of_holdsBlock hblock).buildPermutation
  refine ⟨p, finish_of_ok hrun, hp.placed, fun _ => exists_scatterSlot_eq, hp.others, hp.cum_length, fun b => ?_⟩
  rw [hp.cum, List.take_length, ← countBelow_succ]
  exact List.countP_congr fun x _ => by simp only [decide_eq_true_eq, Nat.lt_succ_iff]

end Sys2Proof.Machine
end

section
/-! PROOFS. The CRC (spec/45_block_output.md R286 to R290): the shift register is linear, so eight turns of it by the
table are the bit-serial form over a byte's bits. -/

namespace Sys2Proof.Machine

/-! ### One turn of the shift register -/

/-- What a bit that leaves or enters the register adds to it. -/
def crcTap (bit : Bool) : Word := if bit then Config.crcPoly else 0

theorem crcTap_xor (a b : Bool) : crcTap (a ^^ b) = crcTap a ^^^ crcTap b := by
  cases a <;> cases b <;> decide

theorem crcTurn_eq (c : Word) : crcTurn c = (c <<< 1) ^^^ crcTap c.msb := by
  unfold crcTurn crcTap
  split
  · rfl
  · exact BitVec.xor_zero.symm

theorem crcBit_eq (c : Word) (bit : Bool) : crcBit c bit = crcTurn c ^^^ crcTap bit := by
  have hbit : crcBit c bit = (c <<< 1) ^^^ crcTap (c.msb ^^ bit) := by
    rw [crcBit, crcTap, Bool.bne_eq_xor]
    split
    · rfl
    · exact BitVec.xor_zero.symm
  rw [hbit, crcTap_xor, crcTurn_eq, BitVec.xor_assoc]

theorem crcTurn_xor (c d : Word) : crcTurn (c ^^^ d) = crcTurn c ^^^ crcTurn d := by
  simp only [crcTurn_eq, BitVec.shiftLeft_xor_distrib, BitVec.msb_xor, crcTap_xor]
  ac_rfl

theorem crcTurns_xor (n : Nat) (c d : Word) :
    Nat.repeat crcTurn n (c ^^^ d) = Nat.repeat crcTurn n c ^^^ Nat.repeat crcTurn n d := by
  induction n with
  | zero => rfl
  | succ n ih => rw [Nat.repeat, ih, crcTurn_xor, Nat.repeat, Nat.repeat]

/-- Turns begin with a turn as well as they end with one. -/
theorem crcTurns_succ (n : Nat) (c : Word) : Nat.repeat crcTurn (n + 1) c = Nat.repeat crcTurn n (crcTurn c) := by
  induction n with
  | zero => rfl
  | succ n ih => rw [Nat.repeat, ih, Nat.repeat]

/-! ### A byte -/

/-- Bits that enter one by one are those of a number laid at the top of the register. -/
theorem foldl_crcBit_toBits {n : Nat} (hn : n ≤ 32) (v : Nat) (c : Word) :
    (toBits n v).foldl crcBit c = Nat.repeat crcTurn n (c ^^^ BitVec.ofNat 32 v <<< (32 - n)) := by
  induction n generalizing c with
  | zero =>
    rw [BitVec.shiftLeft_eq_zero (Nat.le_refl 32), BitVec.xor_zero]
    rfl
  | succ n ih =>
    have hmsb : (BitVec.ofNat 32 v <<< (32 - (n + 1))).msb = decide (v / 2 ^ n % 2 = 1) := by
      rw [BitVec.msb_eq_getLsbD_last, BitVec.getLsbD_shiftLeft, BitVec.getLsbD_ofNat,
        show 32 - 1 - (32 - (n + 1)) = n by omega, Nat.testBit_eq_decide_div_mod_eq]
      have hlt : n < 32 := by omega
      simp [hlt]
    have hshift : BitVec.ofNat 32 v <<< (32 - (n + 1)) <<< 1 = BitVec.ofNat 32 v <<< (32 - n) := by
      rw [← BitVec.shiftLeft_add]
      congr 1
      omega
    rw [toBits, List.foldl_cons, ih (by omega), crcTurns_succ, crcTurn_xor, crcTurn_eq (BitVec.ofNat 32 v <<< _),
      hmsb, hshift, crcBit_eq]
    congr 1
    ac_rfl

/-- Turns of a register whose top bits are 0 shift it. -/
theorem crcTurns_of_lt {n : Nat} (hn : n ≤ 32) {c : Word} (hc : c.toNat < 2 ^ (32 - n)) :
    Nat.repeat crcTurn n c = c <<< n := by
  induction n generalizing c with
  | zero => exact (BitVec.shiftLeft_zero _).symm
  | succ n ih =>
    have hpow : 2 ^ (32 - n) = 2 * 2 ^ (32 - (n + 1)) := by
      rw [← Nat.pow_succ']
      congr 1
      omega
    have hmsb : (c <<< n).msb = false := by
      have hprod : c.toNat * 2 ^ n < 2 ^ 31 :=
        calc c.toNat * 2 ^ n
          _ < 2 ^ (32 - (n + 1)) * 2 ^ n := Nat.mul_lt_mul_of_pos_right hc (Nat.two_pow_pos n)
          _ = 2 ^ 31 := by
            rw [← Nat.pow_add]
            congr 1
            omega
      rw [BitVec.msb_eq_false_iff_two_mul_lt, BitVec.toNat_shiftLeft, Nat.shiftLeft_eq]
      omega
    rw [Nat.repeat, ih (by omega) (by omega), crcTurn_eq, hmsb, ← BitVec.shiftLeft_add]
    exact BitVec.xor_zero

/-- A register is its top byte and the three below it. -/
theorem topByte_xor_rest (c : Word) : ((c >>> 24).setWidth 8).setWidth 32 <<< 24 ^^^ (c <<< 8) >>> 8 = c := by
  ext i hi
  simp only [BitVec.getElem_xor, BitVec.getElem_shiftLeft, BitVec.getElem_ushiftRight, BitVec.getLsbD_shiftLeft]
  rcases Nat.lt_or_ge i 24 with h | h
  · have h8 : 8 + i < 32 := by omega
    simp [h, h8, BitVec.getLsbD_eq_getElem hi]
  · have h8 : ¬ 8 + i < 32 := by omega
    simp (disch := omega) [h8, Nat.not_lt.2 h, show 24 + (i - 24) = i by omega]

theorem rest_shiftLeft (c : Word) : (c <<< 8) >>> 8 <<< 8 = c <<< 8 := by
  apply BitVec.eq_of_toNat_eq
  rw [BitVec.toNat_shiftLeft, BitVec.toNat_ushiftRight, BitVec.toNat_shiftLeft, Nat.shiftLeft_eq, Nat.shiftLeft_eq,
    Nat.shiftRight_eq_div_pow]
  omega

/-- The register's top byte goes through the table, and the other three move up. -/
theorem crcUpdate_eq_turns (c : Word) (b : Byte) :
    crcUpdate c b = Nat.repeat crcTurn 8 (c ^^^ b.setWidth 32 <<< 24) := by
  have hrest : ((c <<< 8) >>> 8).toNat < 2 ^ (32 - 8) := by
    rw [BitVec.toNat_ushiftRight, Nat.shiftRight_eq_div_pow]
    omega
  have hsplit : c ^^^ b.setWidth 32 <<< 24 =
      ((c >>> 24).setWidth 8 ^^^ b).setWidth 32 <<< 24 ^^^ (c <<< 8) >>> 8 := by
    conv => lhs; rw [← topByte_xor_rest c]
    rw [BitVec.setWidth_xor, BitVec.shiftLeft_xor_distrib, BitVec.xor_assoc, BitVec.xor_assoc,
      BitVec.xor_comm (b.setWidth 32 <<< 24)]
  rw [hsplit, crcTurns_xor, crcTurns_of_lt (by decide) hrest, rest_shiftLeft, BitVec.xor_comm, crcUpdate, crcTable]

theorem crcUpdate_eq_foldl (c : Word) (b : Byte) : crcUpdate c b = (toBits 8 b.toNat).foldl crcBit c := by
  rw [crcUpdate_eq_turns, foldl_crcBit_toBits (by decide), BitVec.ofNat_toNat]

/-- Bits that are 0 turn the register. -/
theorem foldl_crcBit_replicate_false (n : Nat) (c : Word) :
    (List.replicate n false).foldl crcBit c = Nat.repeat crcTurn n c := by
  induction n generalizing c with
  | zero => rfl
  | succ n ih =>
    rw [List.replicate_succ, List.foldl_cons, ih, crcTurns_succ, crcBit_eq]
    exact congrArg _ BitVec.xor_zero

/-- Settles O40: the table's form is eight turns, and those are the bits' form. -/
theorem crcUpdateIsBitSerial : Obligations.CrcUpdateIsBitSerial := by
  refine ⟨fun b s => ⟨rfl, ?_⟩, fun i => (foldl_crcBit_replicate_false 8 _).symm, ?_⟩
  · rw [← crcUpdate_eq_foldl]
    rfl
  · decide

/-! ### The registers -/

theorem rotl1_eq (x : Word) : rotl1 x = x.rotateLeft 1 := rfl

/-- The combined CRC and the count of a block (R290). -/
theorem combineCrc_eq (c : Word) (r : StreamRegs) : combineCrc c r =
    { r with combined := r.combined.rotateLeft 1 ^^^ c, blocksDone := r.blocksDone + 1 } := by
  rw [combineCrc, rotl1_eq]

/-- Settles O39: each operation is its own update, and the examples are computed. -/
theorem crcRegisters : Obligations.CrcRegisters := by
  refine ⟨fun s => ⟨rfl, rfl, fun c => ?_⟩, ?_⟩
  · rw [← combineCrc_eq]
    rfl
  · decide

end Sys2Proof.Machine
end

section
/-! PROOFS. The walk and the first run-length stage (spec/45_block_output.md R278, R282, R285): PI_NEXT, DERAND and
RLE1_NEXT issued on their own. -/

namespace Sys2Proof.Machine

/-! ### The walk (R278, R282) -/

section
variable {v : WalkView} {o o' : OutputRegs} {b c : Byte} {p : BitVec 20}
  (hc : afterWalk v.randomised b p o = (c, o'))
include hc

/-- A walk byte is there: it is taken and masked. -/
theorem nextWalkByte_of_lt (hlt : o.walked.toNat < v.nblock.toNat) (hb : memGet v.ll o.walkPtr.toNat = some b)
    (hp : memGet v.tt o.walkPtr.toNat = some p) : nextWalkByte v o = .ok c o' := by
  have hgives : nextWalkByte v o = .ok (afterWalk v.randomised b p o).1 (afterWalk v.randomised b p o).2 := by
    simp only [nextWalkByte, if_pos hlt, entry, hb, hp, Res.bind_ok, afterWalk]
    split <;> rfl
  rw [hgives, hc]

/-- The walk leaves the run-length stage's registers alone. -/
theorem afterWalk_rle : o'.rleLast = o.rleLast ∧ o'.rleCnt = o.rleCnt := by
  obtain rfl : (afterWalk v.randomised b p o).2 = o' := by rw [hc]
  cases hr : v.randomised with
  | false => exact ⟨rfl, rfl⟩
  | true =>
    change (derandomise b _).2.rleLast = _ ∧ (derandomise b _).2.rleCnt = _
    rw [derandomise_frame]
    exact ⟨rfl, rfl⟩

end

theorem onOutput_of_ok {α : Type} {op : OutputRegs → Res OutputRegs α} {s : State} {a : α} {o : OutputRegs}
    (h : op s.out = .ok a o) : onOutput op s = .ok a { s with out := o } := by
  rw [onOutput, h, Res.lift_ok]

theorem onOutput_of_raised {α : Type} {op : OutputRegs → Res OutputRegs α} {s : State} {e : Err} {o : OutputRegs}
    (h : op s.out = .raised e o) : onOutput op s = .raised e { s with out := o } := by
  rw [onOutput, h, Res.lift_raised]

/-- DERAND, by the counter and the table position it works with (R282). -/
theorem derandomise_eq (b : Byte) (o : OutputRegs) {n : BitVec 10} {t : BitVec 9}
    (hn : n = if o.rNToGo = 0 then BitVec.ofNat 10 (Config.randTable.getD o.rTPos.toNat 0) else o.rNToGo)
    (ht : t = if o.rNToGo = 0 then o.rTPos + 1 else o.rTPos) :
    derandomise b o = (if n - 1 = 1 then b ^^^ 1 else b, { o with rNToGo := n - 1, rTPos := t }) := by
  subst hn ht
  by_cases h0 : o.rNToGo = 0
  · simp only [derandomise, if_pos h0]
  · simp only [derandomise, if_neg h0]

/-- Settles O37: the walk byte taken, and DERAND by the counter it works with. -/
theorem walkTakesByte : Obligations.WalkTakesByte := by
  refine ⟨fun s b p hlt hb hp => ?_, fun s b n t hn ht => ?_⟩
  · have hrun := onOutput_of_ok (nextWalkByte_of_lt (v := walkView s) rfl hlt hb hp)
    change finishRet .byte (onOutput (nextWalkByte (walkView s)) s) = _
    rw [hrun]
    rfl
  · change Host.Outcome.next { s with out := (derandomise b s.out).2, ret := .byte (derandomise b s.out).1 } = _
    rw [derandomise_eq b s.out hn ht]

/-! ### The first run-length stage (R285) -/

section
variable {v : WalkView} {o : OutputRegs}

theorem nextOutputByte_of_pending (h : o.rleRep ≠ 0) :
    nextOutputByte v o = .ok (some (o.rleLast.setWidth 8)) { o with rleRep := o.rleRep - 1 } := if_pos h

theorem nextOutputByte_of_exhausted (h : o.rleRep = 0) (hw : o.walked = v.nblock) :
    nextOutputByte v o = .ok none o := by
  rw [nextOutputByte, if_neg (not_not.2 h), if_pos hw]

/-- With no copy pending and a walk byte left, the stage goes on with that byte. -/
theorem nextOutputByte_of_walk {o' : OutputRegs} {b c : Byte} {p : BitVec 20} (h0 : o.rleRep = 0)
    (hlt : o.walked.toNat < v.nblock.toNat) (hb : memGet v.ll o.walkPtr.toNat = some b)
    (hp : memGet v.tt o.walkPtr.toNat = some p) (hc : afterWalk v.randomised b p o = (c, o')) :
    nextOutputByte v o =
      if c.setWidth 9 ≠ o.rleLast then .ok (some c) { o' with rleLast := c.setWidth 9, rleCnt := 1 }
      else if o.rleCnt = 3 then
        if o'.walked = v.nblock then .raised .rle1CountMissing { o' with rleCnt := 0 }
        else (nextWalkByte v { o' with rleCnt := 0 }).bind fun n o₂ => .ok (some c) { o₂ with rleRep := n }
      else .ok (some c) { o' with rleCnt := o.rleCnt + 1 } := by
  have hne : o.walked ≠ v.nblock := fun h => hlt.ne (congrArg BitVec.toNat h)
  have hcnt : o.rleCnt + 1 = 4 ↔ o.rleCnt = 3 := by bv_omega
  obtain ⟨hlast, hcount⟩ := afterWalk_rle hc
  rw [nextOutputByte, if_neg (not_not.2 h0), if_neg hne, nextWalkByte_of_lt hc hlt hb hp, Res.bind_ok]
  simp only [hlast, hcount, hcnt]

end

section
variable {s : State} {o : OutputRegs}

theorem exec_rle1Next_of_ok {r : Option Byte} (h : nextOutputByte (walkView s) s.out = .ok r o) :
    exec .rle1Next s = .next { s with out := o, ret := outputByteResult r } := by
  change finishRet outputByteResult (onOutput (nextOutputByte (walkView s)) s) = _
  rw [onOutput_of_ok h]
  rfl

theorem exec_rle1Next_of_raised {e : Err} (h : nextOutputByte (walkView s) s.out = .raised e o) :
    exec .rle1Next s = .next (takeError e { s with out := o }) := by
  change finishRet outputByteResult (onOutput (nextOutputByte (walkView s)) s) = _
  rw [onOutput_of_raised h]
  rfl

end

/-- Settles O38: by whether a copy is pending, a walk byte is left, and what the walk byte is. -/
theorem runLengthStage : Obligations.RunLengthStage := by
  intro s
  refine ⟨fun h => exec_rle1Next_of_ok (nextOutputByte_of_pending h),
    fun h hw => exec_rle1Next_of_ok (nextOutputByte_of_exhausted h hw), fun b p o c h0 hlt hb hp hc => ?_⟩
  have hwalk := nextOutputByte_of_walk (v := walkView s) h0 hlt hb hp hc
  refine ⟨fun hne => ?_, fun heq hcnt => ?_, fun heq hcnt hend => ?_, fun b2 p2 heq hcnt hlt2 hb2 hp2 => ?_⟩
  · exact exec_rle1Next_of_ok (hwalk.trans (if_pos hne))
  · exact exec_rle1Next_of_ok (hwalk.trans (by rw [if_neg (not_not.2 heq), if_neg hcnt]))
  · exact exec_rle1Next_of_raised (hwalk.trans (by rw [if_neg (not_not.2 heq), if_pos hcnt]; exact if_pos hend))
  · have hne : o.walked ≠ (walkView s).nblock := fun h => hlt2.ne (congrArg BitVec.toNat h)
    rw [if_neg (not_not.2 heq), if_pos hcnt, if_neg hne,
      nextWalkByte_of_lt (v := walkView s) (o := { o with rleCnt := 0 }) rfl hlt2 hb2 hp2, Res.bind_ok] at hwalk
    exact exec_rle1Next_of_ok hwalk

end Sys2Proof.Machine
end

section
/-! PROOFS. The steps of a block's output (spec/45_block_output.md R274 to R290): STEP_PERMUTE, STEP_EMIT,
STEP_CRC_CHECK and STEP_TRAILER; and the READ that gathers the bytes (spec/46_stream_controller.md R304 to R306). -/

namespace Sys2Proof.Machine

/-! ### PERMUTE (R274 to R277) -/

/-- Settles O45: the slot `origPtr` is that of a position, so the walk starts at it. -/
theorem permuteStep : Obligations.PermuteStep := by
  intro s hf
  have hrun : exec .stepPermute s = finish (permuteBody s) := stepOf_of_fsm hf permuteBody
  refine ⟨fun hle => hrun.trans (finish_of_raised (if_pos hle)), fun bytes hblock hlt => ?_⟩
  have hheld := blockHeld_of_holdsBlock hblock
  obtain ⟨p, hbuild, hp⟩ := hheld.buildPermutation
  obtain ⟨i, hi, hslot⟩ := exists_scatterSlot_eq hlt
  have hstart : memGet p.tt s.blk.origPtr.toNat = some (BitVec.ofNat 20 i) := hslot ▸ hp.placed i hi
  refine ⟨p, BitVec.ofNat 20 i, hrun.trans (finish_of_ok ?_), hstart, hp.placed⟩
  rw [permuteBody, if_neg (by rw [hheld.nblock]; omega), hbuild, Res.bind_ok]
  simp only [startWalk, hstart, entry, Res.bind_ok]
  rfl

/-! ### EMIT (R284) -/

section
variable {s : State} (hf : s.fsm = .emit)
include hf

theorem exec_stepEmit_of_fsm : exec .stepEmit s = finish (emitBody s) := stepOf_of_fsm hf emitBody

theorem exec_stepEmit_of_byte {t : ReadTxn} (ht : s.txn = some t) {b : Byte} {o : OutputRegs}
    (h : nextOutputByte (walkView s) s.out = .ok (some b) o) :
    exec .stepEmit s = .next
      { s with
        out := { o with crcRun := crcUpdate o.crcRun b }
        txn := some { want := t.want, out := t.out ++ [b] } } := by
  rw [exec_stepEmit_of_fsm hf]
  refine finish_of_ok ?_
  simp only [emitBody, onOutput_of_ok h, Res.bind_ok, emit, ht]

theorem exec_stepEmit_of_exhausted {o : OutputRegs} (h : nextOutputByte (walkView s) s.out = .ok none o) :
    exec .stepEmit s = .next { s with out := o, fsm := .crcCheck } := by
  rw [exec_stepEmit_of_fsm hf]
  refine finish_of_ok ?_
  rw [emitBody, onOutput_of_ok h, Res.bind_ok]

theorem exec_stepEmit_of_raised {e : Err} {o : OutputRegs} (h : nextOutputByte (walkView s) s.out = .raised e o) :
    exec .stepEmit s = .next (takeError e { s with out := o }) := by
  rw [exec_stepEmit_of_fsm hf]
  refine finish_of_raised ?_
  rw [emitBody, onOutput_of_raised h, Res.bind_raised]

end

/-- Settles O46: by what RLE1_NEXT gives. -/
theorem emitStep : Obligations.EmitStep := fun _ _ hf ht =>
  ⟨fun _ _ h => exec_stepEmit_of_byte hf ht h,
    fun h => exec_stepEmit_of_byte hf ht (nextOutputByte_of_pending h),
    fun h hw => exec_stepEmit_of_exhausted hf (nextOutputByte_of_exhausted h hw),
    fun _ _ h => exec_stepEmit_of_raised hf h⟩

/-! ### The READ in flight (R304, R306) -/

section
variable {s : State} {t : ReadTxn} (ht : s.txn = some t)
include ht

/-- A READ that has ended with bytes returns them. -/
theorem settleRead_of_bytes (hd : t.want ≤ t.out.length ∨ s.fsm = .ended) (hne : t.out ≠ []) :
    settleRead s = answer (.ok t.out)
      { s with
        txn := none
        stream := { s.stream with outCount := s.stream.outCount + BitVec.ofNat 64 t.out.length } } :=
  (settleRead_of_done ht hd).trans (if_neg hne)

/-- A READ that comes to the end of the stream with no byte returns EOF. -/
theorem settleRead_of_none_at_end (hend : s.fsm = .ended) (hnil : t.out = []) :
    settleRead s = answer .eof { s with txn := none } :=
  (settleRead_of_done ht (.inr hend)).trans (if_pos hnil)

end

/-- A READ in flight at EMIT runs STEP_EMIT. -/
theorem step_of_emit {s : State} {t : ReadTxn} (hs : s.slot = .empty) (ht : s.txn = some t) (hf : s.fsm = .emit) :
    step s = settle (exec .stepEmit s) := by
  have hfetch : fetch s = .run .stepEmit s := by
    simp only [fetch, hs, ht, fetchStep_eq, hf]
  rw [step, hfetch]

/-- Settles O16: STEP_EMIT gives the byte, and the loop's condition is tested after it. -/
theorem readGathersAndReturns : Obligations.ReadGathersAndReturns := by
  refine ⟨fun s r b o hs ht hf hbyte => ?_, fun s r ht => ⟨fun hd hne => ?_, fun hend hnil => ?_, fun hend hne => ?_,
    fun hend hlt => ?_⟩⟩
  · have hgives : nextOutputByte (walkView s) s.out = .ok (some b) o := by
      obtain h | ⟨hrep, rfl, rfl⟩ := hbyte
      · exact h
      · exact nextOutputByte_of_pending hrep
    have hlen : (r.out ++ [b]).length = r.out.length + 1 := List.length_append
    rw [step_of_emit hs ht hf, exec_stepEmit_of_byte hf ht hgives, settle]
    split
    · rename_i hd
      rw [settleRead_of_bytes rfl (.inl (hlen ▸ hd)) (by simp), hlen]
      rfl
    · rename_i hd
      refine congrArg _ (settleRead_of_open rfl ?_)
      rw [hlen, hf]
      exact fun h => h.elim hd nofun
  · exact congrArg _ (settleRead_of_bytes ht (.inl hd) hne)
  · exact congrArg _ (settleRead_of_none_at_end ht hend hnil)
  · exact congrArg _ (settleRead_of_bytes ht (.inr hend) hne)
  · exact congrArg _ (settleRead_of_open ht fun h => h.elim (Nat.not_le.2 hlt) hend)

/-! ### CRC_CHECK and TRAILER (R289, R290, R303) -/

/-- Settles O47: by cases on the comparison of each step. -/
theorem crcCheckAndTrailerSteps : Obligations.CrcCheckAndTrailerSteps := by
  refine ⟨fun s hf => ?_, fun s c rest hf hw hp => ?_⟩
  · have hrun : exec .stepCrcCheck s = finish (crcCheckBody s) := stepOf_of_fsm hf crcCheckBody
    rw [hrun]
    split
    · rename_i heq
      refine finish_of_ok ?_
      have heq' : crcFinal s.out.crcRun = s.blk.storedCrc := heq
      rw [crcCheckBody, if_neg (not_not.2 heq'), heq', combineCrc_eq]
    · rename_i hne
      exact finish_of_raised (if_pos hne)
  · obtain ⟨r, hread, ht, -⟩ := readInt32_reads c.isLt s.rd rest hw hp
    rw [toBits_length] at ht
    refine ⟨r, ht, ?_⟩
    have hbody : (onReader readInt32 { s with pos := .trailer }).bind
        (fun v s => elemCombinedCrc (BitVec.ofNat 32 v) s) = elemCombinedCrc c { s with rd := r, pos := .trailer } := by
      rw [onReader_of_ok (s := { s with pos := .trailer }) hread, Res.bind_ok, BitVec.ofNat_toNat, BitVec.setWidth_eq]
    have hrun : exec .stepTrailer s = finish (elemCombinedCrc c { s with rd := r, pos := .trailer }) :=
      (stepOf_of_fsm hf fun s => readElement { s with pos := .trailer }).trans (congrArg finish hbody)
    rw [hrun]
    split
    · rename_i heq
      exact finish_of_ok (if_neg (not_not.2 heq))
    · rename_i hne
      exact finish_of_raised (if_pos hne)

end Sys2Proof.Machine
end

section
/-! PROOFS. What a step of the state machine keeps while a READ is in flight (spec/46_stream_controller.md R304, R305):
the READ, a state of `fsm` in which it goes on or the end of the stream, and the source (R301). -/

namespace Sys2Proof.Machine

/-! ### The source of the bit reader -/

/-- An operation of the bit reader neither attaches a source nor detaches one. -/
abbrev Reader.KeepsSource {α : Type} (op : Reader → Res Reader α) : Prop :=
  ∀ (b : Bool) (r : Reader), r.src.isSome = b → (op r).Ends (fun r' => r'.src.isSome = b) fun r' => r'.src.isSome = b

/-- Only an attached source answers a byte. -/
theorem isSome_of_fetchByte {r : Reader} {b : Byte} {src : ByteSource} (h : fetchByte r = .byte b src) :
    r.src.isSome = true := by
  unfold fetchByte at h
  split at h
  · cases h
  · rename_i hsrc
    rw [hsrc]
    rfl

theorem refill_keepsSource (k n : Nat) : Reader.KeepsSource (refill k n) := by
  induction k with
  | zero => exact fun b r h => h
  | succ k ih =>
    intro b r h
    simp only [refill]
    split
    · cases hf : fetchByte r with
      | byte x src => exact ih b _ ((isSome_of_fetchByte hf).symm.trans h)
      | ended => exact h
      | hangs => trivial
      | detached => trivial
    · exact h

theorem readBits_keepsSource (n : Nat) : Reader.KeepsSource (readBits n) := by
  intro b r h
  unfold readBits
  split
  · exact (refill_keepsSource n n b r h).bind fun _ _ h' => h'
  · trivial

theorem readBool_keepsSource : Reader.KeepsSource readBool := fun b r h => (readBits_keepsSource 1 b r h).map _

theorem readUnaryLoop_keepsSource (k j : Nat) : Reader.KeepsSource (readUnaryLoop k j) := by
  induction k generalizing j with
  | zero =>
    intro b r h
    simp only [readUnaryLoop]
    cases cycleOf r with
    | nil => exact (readBool_keepsSource b r h).bind fun _ _ h' => h'
    | cons x more => trivial
  | succ k ih =>
    intro b r h
    refine (readBool_keepsSource b r h).bind fun more r' h' => ?_
    cases more with
    | true => exact ih (j + 1) b r' h'
    | false => exact h'

theorem readUnary_keepsSource : Reader.KeepsSource readUnary := fun b r h => readUnaryLoop_keepsSource _ 0 b r h

theorem readInt32_keepsSource : Reader.KeepsSource readInt32 := fun b r h =>
  (readBits_keepsSource 16 b r h).bind fun _ r' h' => (readBits_keepsSource 16 b r' h').bind fun _ _ h'' => h''

theorem symbolAt_keepsSource (grp : Group) (L v : Nat) : Reader.KeepsSource (symbolAt grp L v) := by
  intro b r h
  unfold symbolAt
  split
  · trivial
  · split
    · trivial
    · split
      · exact h
      · trivial

theorem decodeLoop_keepsSource (grp : Group) (n L v : Nat) : Reader.KeepsSource (decodeLoop grp n L v) := by
  induction n generalizing L v with
  | zero =>
    intro b r h
    unfold decodeLoop
    split
    · trivial
    · split
      · exact symbolAt_keepsSource grp L v b r h
      · exact h
  | succ n ih =>
    intro b r h
    unfold decodeLoop
    split
    · trivial
    · split
      · exact symbolAt_keepsSource grp L v b r h
      · exact (readBits_keepsSource 1 b r h).bind fun _ r' h' => ih _ _ b r' h'

theorem decodeSymbol_keepsSource (grp : Group) : Reader.KeepsSource (decodeSymbol grp) := fun b r h =>
  (readBits_keepsSource _ b r h).bind fun _ r' h' => decodeLoop_keepsSource grp _ _ _ b r' h'

/-! ### The READ in flight -/

/-- The READ `r` is in flight, `fsm` holds a state whose step it runs or the end of the stream, and a source is attached
or not as `b` says. -/
structure InFlight (r : ReadTxn) (b : Bool) (s : State) : Prop where
  txn : s.txn = some r
  fsm : runningFsm s.fsm = true ∨ s.fsm = .ended
  source : s.rd.src.isSome = b

/-- Wherever the operation ends, by completing or by raising, the READ is still in flight. -/
abbrev Res.StaysInFlight {α : Type} (r : ReadTxn) (b : Bool) (x : Res State α) : Prop :=
  x.Ends (InFlight r b) (InFlight r b)

/-- A move that leaves the reader, `fsm` and the READ alone. -/
theorem Res.Moves.staysInFlight {α : Type} {g : State → State → State} {r : ReadTxn} {b : Bool} {s : State}
    {x : Res State α} (hx : x.Moves g s) (h : InFlight r b s)
    (hg : ∀ t, (g t s).txn = s.txn ∧ (g t s).fsm = s.fsm ∧ (g t s).rd = s.rd := by exact fun _ => ⟨rfl, rfl, rfl⟩) :
    x.StaysInFlight r b := by
  have hmove : ∀ t, Move g s t → InFlight r b t := by
    intro t ht
    obtain ⟨htxn, hfsm, hrd⟩ := hg t
    rw [ht.frame]
    exact ⟨htxn ▸ h.txn, hfsm ▸ h.fsm, hrd ▸ h.source⟩
  exact hx.mono hmove hmove

section
variable {r : ReadTxn} {b : Bool} {s : State} (h : InFlight r b s)
include h

theorem onReader_staysInFlight {α : Type} {op : Reader → Res Reader α} (hop : Reader.KeepsSource op) :
    (onReader op s).StaysInFlight r b :=
  Res.Ends.lift ((hop b s.rd h.source).mono (fun _ h' => ⟨h.txn, h.fsm, h'⟩) fun _ h' => ⟨h.txn, h.fsm, h'⟩)

theorem decodeWith_staysInFlight (g : Nat) : (decodeWith g s).StaysInFlight r b := by
  unfold decodeWith
  split
  · cases s.groups[g]? with
    | none => trivial
    | some grp => exact onReader_staysInFlight h (decodeSymbol_keepsSource grp)
  · trivial

/-! ### Stream header, magics and trailer -/

theorem elemStreamHeader_staysInFlight (d : BitVec 4) : (elemStreamHeader d s).StaysInFlight r b := by
  unfold elemStreamHeader
  split
  · exact h
  · exact ⟨h.txn, .inl rfl, h.source⟩

theorem elemBlockMagic_staysInFlight : (elemBlockMagic s).StaysInFlight r b := ⟨h.txn, .inl rfl, h.source⟩

theorem elemEosMagic_staysInFlight : (elemEosMagic s).StaysInFlight r b := ⟨h.txn, .inl rfl, h.source⟩

theorem elemCombinedCrc_staysInFlight (c : Word) : (elemCombinedCrc c s).StaysInFlight r b := by
  unfold elemCombinedCrc
  split
  · exact h
  · exact ⟨h.txn, .inr rfl, h.source⟩

/-! ### The elements of a block's tables -/

theorem finishMap_staysInFlight (xs : List Bool) : (finishMap xs s).StaysInFlight r b := by
  unfold finishMap
  dsimp only
  split <;> exact ⟨h.txn, h.fsm, h.source⟩

theorem continueMap_staysInFlight (xs : List Bool) : (continueMap xs s).StaysInFlight r b := by
  unfold continueMap
  dsimp only
  split
  · exact finishMap_staysInFlight h _
  · exact ⟨h.txn, h.fsm, h.source⟩

theorem elemUsedMap_staysInFlight (u : BitVec 16) : (elemUsedMap u s).StaysInFlight r b := by
  refine continueMap_staysInFlight ?_ []
  exact ⟨h.txn, h.fsm, h.source⟩

theorem elemNGroups_staysInFlight (g : BitVec 3) : (elemNGroups g s).StaysInFlight r b := by
  unfold elemNGroups
  dsimp only
  split <;> exact ⟨h.txn, h.fsm, h.source⟩

theorem elemNSelectors_staysInFlight (n : BitVec 15) : (elemNSelectors n s).StaysInFlight r b := by
  unfold elemNSelectors
  dsimp only
  split <;> exact ⟨h.txn, h.fsm, h.source⟩

theorem elemSelectorCode_staysInFlight (j : Nat) : (elemSelectorCode j s).StaysInFlight r b := by
  unfold elemSelectorCode
  split
  · exact h
  · refine .entry fun p _ => ?_
    dsimp only
    split <;> exact ⟨h.txn, h.fsm, h.source⟩

theorem elemLenSeed_staysInFlight (l : BitVec 5) : (elemLenSeed l s).StaysInFlight r b := by
  unfold elemLenSeed
  cases s.groups[s.tab.g.toNat]? with
  | none => trivial
  | some grp => exact checkLength_ends ⟨h.txn, h.fsm, h.source⟩

/-- A length moved up or down: it is checked before and after (R240). -/
theorem moveLength_staysInFlight (l : State → BitVec 5) :
    ((checkLength s).bind fun _ s => checkLength { s with tab := { s.tab with curr := l s }, pos := .lenFlag }).StaysInFlight
      r b :=
  (checkLength_ends h).bind fun _ _ h' => checkLength_ends ⟨h'.txn, h'.fsm, h'.source⟩

theorem nextGroup_staysInFlight : (nextGroup s).StaysInFlight r b := by
  unfold nextGroup
  split
  · exact ((buildTables_moves _ 0 s).staysInFlight h).bind fun _ _ h' => ⟨h'.txn, .inl rfl, h'.source⟩
  · exact ⟨h.txn, h.fsm, h.source⟩

theorem elemLenEnd_staysInFlight : (elemLenEnd s).StaysInFlight r b := by
  refine (checkLength_ends h).bind fun _ t ht => ?_
  cases t.groups[t.tab.g.toNat]? with
  | none => trivial
  | some grp =>
    dsimp only
    split
    · exact nextGroup_staysInFlight ⟨ht.txn, ht.fsm, ht.source⟩
    · exact ⟨ht.txn, ht.fsm, ht.source⟩

/-! ### Symbols -/

theorem beginSymbol_staysInFlight : (beginSymbol s).StaysInFlight r b := by
  unfold beginSymbol
  split
  · split
    · exact h
    · exact .entry fun g _ => ⟨h.txn, h.fsm, h.source⟩
  · exact ⟨h.txn, h.fsm, h.source⟩

theorem mtfSymbol_staysInFlight (sym : Nat) : (mtfSymbol sym s).StaysInFlight r b :=
  Res.Ends.lift ((Res.ends_true _).mono (fun _ _ => ⟨h.txn, h.fsm, h.source⟩) fun _ _ => ⟨h.txn, h.fsm, h.source⟩)

theorem elemSymbolCode_staysInFlight (sym : Nat) : (elemSymbolCode sym s).StaysInFlight r b := by
  refine (mtfSymbol_staysInFlight h sym).bind fun _ t ht => ?_
  split
  · exact ⟨ht.txn, .inl rfl, ht.source⟩
  · exact ht

/-! ### Reading the elements -/

/-- A field is read, and an element made of it acted on. -/
theorem readField_staysInFlight {α : Type} {op : Reader → Res Reader α} (hop : Reader.KeepsSource op)
    {k : α → State → Res State Unit} (hk : ∀ a t, InFlight r b t → (k a t).StaysInFlight r b) :
    ((onReader op s).bind k).StaysInFlight r b :=
  (onReader_staysInFlight h hop).bind hk

theorem readStreamMagic_staysInFlight (magic : List Byte) : (readStreamMagic magic s).StaysInFlight r b := by
  induction magic generalizing s with
  | nil => exact h
  | cons e rest ih =>
    refine readField_staysInFlight h (readBits_keepsSource 8) fun v t ht => ?_
    split
    · exact ht
    · exact ih ht

theorem readStreamHeader_staysInFlight : (readStreamHeader s).StaysInFlight r b := by
  refine (readStreamMagic_staysInFlight h _).bind fun _ t ht => ?_
  refine readField_staysInFlight ht (readBits_keepsSource 8) fun d u hu => ?_
  split
  · exact hu
  · exact elemStreamHeader_staysInFlight hu _

theorem readMagic_staysInFlight : (readMagic s).StaysInFlight r b := by
  refine readField_staysInFlight h (readBits_keepsSource 24) fun hi t ht => ?_
  refine readField_staysInFlight ht (readBits_keepsSource 24) fun lo u hu => ?_
  split
  · exact elemEosMagic_staysInFlight hu
  · split
    · exact elemBlockMagic_staysInFlight hu
    · exact hu

theorem readLenFlag_staysInFlight : (readLenFlag s).StaysInFlight r b := by
  refine (checkLength_ends h).bind fun _ t ht => ?_
  refine readField_staysInFlight ht readBool_keepsSource fun more u hu => ?_
  cases more with
  | true =>
    refine readField_staysInFlight hu readBool_keepsSource fun down v hv => ?_
    cases down with
    | true => exact moveLength_staysInFlight hv fun s => s.tab.curr - 1
    | false => exact moveLength_staysInFlight hv fun s => s.tab.curr + 1
  | false => exact elemLenEnd_staysInFlight hu

theorem readSymbol_staysInFlight : (readSymbol s).StaysInFlight r b := by
  refine (beginSymbol_staysInFlight h).bind fun _ t ht => ?_
  exact (decodeWith_staysInFlight ht _).bind fun sym u hu => elemSymbolCode_staysInFlight hu sym

theorem readElement_staysInFlight : (readElement s).StaysInFlight r b := by
  unfold readElement
  cases s.pos with
  | streamHeader => exact readStreamHeader_staysInFlight h
  | magic => exact readMagic_staysInFlight h
  | blockCrc =>
    exact readField_staysInFlight h readInt32_keepsSource fun _ _ ht => ⟨ht.txn, ht.fsm, ht.source⟩
  | randomised =>
    exact readField_staysInFlight h readBool_keepsSource fun _ _ ht => ⟨ht.txn, ht.fsm, ht.source⟩
  | origPtr =>
    exact readField_staysInFlight h (readBits_keepsSource 24) fun _ _ ht => ⟨ht.txn, ht.fsm, ht.source⟩
  | usedMap =>
    exact readField_staysInFlight h (readBits_keepsSource 16) fun _ _ ht => elemUsedMap_staysInFlight ht _
  | subMap =>
    exact readField_staysInFlight h (readBits_keepsSource 16) fun _ _ ht => continueMap_staysInFlight ht _
  | nGroups =>
    exact readField_staysInFlight h (readBits_keepsSource 3) fun _ _ ht => elemNGroups_staysInFlight ht _
  | nSelectors =>
    exact readField_staysInFlight h (readBits_keepsSource 15) fun _ _ ht => elemNSelectors_staysInFlight ht _
  | selector =>
    exact readField_staysInFlight h readUnary_keepsSource fun j _ ht => elemSelectorCode_staysInFlight ht j
  | lenSeed =>
    exact readField_staysInFlight h (readBits_keepsSource 5) fun _ _ ht => elemLenSeed_staysInFlight ht _
  | lenFlag => exact readLenFlag_staysInFlight h
  | symbol => exact readSymbol_staysInFlight h
  | trailer =>
    exact readField_staysInFlight h readInt32_keepsSource fun _ _ ht => elemCombinedCrc_staysInFlight ht _
  | padding => exact h

/-! ### The bodies of the steps -/

/-- A step that reads one element, at its own position. -/
theorem readElementAt_staysInFlight (p : WirePos) : (readElement { s with pos := p }).StaysInFlight r b :=
  readElement_staysInFlight ⟨h.txn, h.fsm, h.source⟩

theorem tablesLoop_staysInFlight (k : Nat) : (tablesLoop k s).StaysInFlight r b := by
  induction k generalizing s with
  | zero =>
    unfold tablesLoop
    split
    · exact readElement_staysInFlight h
    · trivial
  | succ k ih =>
    refine (readElement_staysInFlight h).bind fun _ t ht => ?_
    split
    · exact ht
    · exact ih ht

theorem tablesBody_staysInFlight : (tablesBody s).StaysInFlight r b := by
  refine tablesLoop_staysInFlight ?_ _
  exact ⟨h.txn, h.fsm, h.source⟩

theorem symbolsLoop_staysInFlight (k : Nat) : (symbolsLoop k s).StaysInFlight r b := by
  induction k generalizing s with
  | zero => exact h
  | succ k ih =>
    refine (readSymbol_staysInFlight h).bind fun _ t ht => ?_
    split
    · exact ht
    · exact ih ht

theorem symbolsBody_staysInFlight : (symbolsBody s).StaysInFlight r b := by
  refine symbolsLoop_staysInFlight ?_ _
  exact ⟨h.txn, h.fsm, h.source⟩

theorem permuteBody_staysInFlight : (permuteBody s).StaysInFlight r b := by
  unfold permuteBody
  split
  · exact h
  · exact ((buildPermutation_moves s).staysInFlight h).bind fun _ _ ht =>
      .entry fun p _ => ⟨ht.txn, .inl rfl, ht.source⟩

theorem crcCheckBody_staysInFlight : (crcCheckBody s).StaysInFlight r b := by
  unfold crcCheckBody
  split
  · exact h
  · exact ⟨h.txn, .inl rfl, h.source⟩

end

end Sys2Proof.Machine
end

section
/-! PROOFS. The sink of an open encoder stays attached until the encoder is closed (spec/46_stream_controller.md R320,
R323). -/

namespace Sys2Proof.Machine

/-! ### The bit writer -/

/-- An operation of the bit writer does not detach the sink. -/
abbrev Writer.KeepsSink (op : Writer → Res Writer Unit) : Prop :=
  ∀ w : Writer, w.attached = true → (op w).Ends (fun w' => w'.attached = true) fun w' => w'.attached = true

theorem Writer.KeepsSink.bind {op₁ op₂ : Writer → Res Writer Unit} (h₁ : Writer.KeepsSink op₁)
    (h₂ : Writer.KeepsSink op₂) : Writer.KeepsSink fun w => (op₁ w).bind fun _ w => op₂ w := fun w hw =>
  (h₁ w hw).bind fun _ => h₂

theorem putByte_keepsSink (b : Byte) : Writer.KeepsSink (putByte b) := by
  intro w hw
  unfold putByte
  split
  · split
    · exact hw
    · split
      · exact hw
      · exact hw
  · trivial

theorem drain_keepsSink (k : Nat) : Writer.KeepsSink (drain k) := by
  induction k with
  | zero => exact fun w hw => hw
  | succ k ih =>
    intro w hw
    simp only [drain]
    split
    · exact (putByte_keepsSink _ w hw).bind fun _ _ hw' => ih _ hw'
    · exact hw

theorem writeBits_keepsSink (n v : Nat) : Writer.KeepsSink (writeBits n v) := by
  intro w hw
  unfold writeBits
  split
  · exact drain_keepsSink 4 _ hw
  · trivial

theorem writeInt32_keepsSink (v : Word) : Writer.KeepsSink (writeInt32 v) :=
  (writeBits_keepsSink 16 _).bind (writeBits_keepsSink 16 _)

theorem flush_keepsSink : Writer.KeepsSink flush := by
  intro w hw
  unfold flush
  split
  · exact writeBits_keepsSink _ 0 w hw
  · exact hw

theorem writeBitString_keepsSink (bits : List Bool) : Writer.KeepsSink (writeBitString bits) := by
  induction bits with
  | nil => exact fun w hw => hw
  | cons b rest ih => exact Writer.KeepsSink.bind (writeBits_keepsSink 1 b.toNat) ih

theorem writeTrailer_keepsSink (c : Word) : Writer.KeepsSink (writeTrailer c) :=
  (writeBits_keepsSink 24 _).bind
    ((writeBits_keepsSink 24 _).bind ((writeInt32_keepsSink c).bind flush_keepsSink))

theorem putHeader_keepsSink (level : Nat) : Writer.KeepsSink (putHeader level) :=
  (writeBits_keepsSink 8 _).bind
    ((writeBits_keepsSink 8 _).bind ((writeBits_keepsSink 8 _).bind (writeBits_keepsSink 8 _)))

/-! ### The encoder -/

/-- The encoder is not closed, and its sink is attached. -/
structure Encoder.Attached (e : Encoder) : Prop where
  sink : e.wr.attached = true
  state : e.state ≠ .closed

/-- An operation of the encoder neither closes it nor detaches its sink. -/
abbrev Encoder.KeepsSink (op : Encoder → Res Encoder Unit) : Prop :=
  ∀ e : Encoder, e.Attached → (op e).Ends Encoder.Attached Encoder.Attached

theorem onWriter_keepsSink {op : Writer → Res Writer Unit} (hop : Writer.KeepsSink op) :
    Encoder.KeepsSink (onWriter op) := fun e he =>
  Res.Ends.lift ((hop e.wr he.sink).mono (fun _ h => ⟨h, he.state⟩) fun _ h => ⟨h, he.state⟩)

theorem encodeBlock_keepsSink (x : List Byte) : Encoder.KeepsSink (encodeBlock x) := by
  intro e he
  unfold encodeBlock
  split
  · exact (onWriter_keepsSink (writeBitString_keepsSink _) e he).bind fun _ _ h => ⟨h.sink, h.state⟩
  · trivial

theorem encodeFull_keepsSink (k : Nat) : Encoder.KeepsSink (encodeFull k) := by
  induction k with
  | zero => exact fun e he => he
  | succ k ih =>
    intro e he
    simp only [encodeFull]
    split
    · exact (encodeBlock_keepsSink _ e he).bind fun _ _ h => ih _ ⟨h.sink, h.state⟩
    · exact he

theorem encodeData_keepsSink (data : List Byte) : Encoder.KeepsSink (encodeData data) := fun e he =>
  encodeFull_keepsSink (e.buf ++ data).length { e with buf := e.buf ++ data } ⟨he.sink, he.state⟩

theorem encodeLast_keepsSink : Encoder.KeepsSink encodeLast := by
  intro e he
  unfold encodeLast
  split
  · exact he
  · exact (encodeBlock_keepsSink _ e he).bind fun _ _ h => ⟨h.sink, h.state⟩

theorem encodeFinish_keepsSink : Encoder.KeepsSink encodeFinish := by
  intro e he
  rw [encodeFinish_eq]
  refine (encodeLast_keepsSink e he).bind fun _ e' he' => ?_
  exact (onWriter_keepsSink (writeTrailer_keepsSink _) e' he').bind fun _ _ h => ⟨h.sink, nofun⟩

theorem writeHeader_keepsSink (level : Nat) : Encoder.KeepsSink (writeHeader level) := by
  intro e he
  rw [writeHeader_eq]
  exact onWriter_keepsSink (putHeader_keepsSink level) e he

/-- The encoder that ENC_OPEN sets up has its sink attached (R320). -/
theorem encoderAt_attached (level : Nat) (sink : Option SinkFailure) : (encoderAt level sink).Attached := ⟨rfl, nofun⟩

/-! ### The answers of its commands -/

section
variable {op : Encoder → Res Encoder Unit} {s t : State}

/-- A command that ran the encoder answers with the encoder as it ended, whose sink is attached. -/
theorem encoderReply_attached (hop : Encoder.KeepsSink op) (ha : s.enc.Attached)
    (h : encoderReply (onEncoder op s) = .next t) : ∃ e r, e.Attached ∧ t = answer r { s with enc := e } := by
  have hends := hop s.enc ha
  cases hrun : op s.enc with
  | ok u e =>
    rw [hrun] at hends
    rw [encoderReply_of_ok hrun] at h
    cases h
    exact ⟨e, .ok [], hends, rfl⟩
  | raised err e =>
    rw [hrun] at hends
    rw [encoderReply_of_raised hrun] at h
    cases h
    exact ⟨e.failedWith err, errResult err, ⟨hends.sink, nofun⟩, rfl⟩
  | fault f => simp [onEncoder, hrun, encoderReply] at h
  | refused q => simp [onEncoder, hrun, encoderReply] at h

/-- A command that ran the encoder and closes it answers with it closed (R323). -/
theorem closeReply_closed (h : closeReply (onEncoder op s) = .next t) :
    ∃ e, t = answer (.ok []) { s with enc := encoderClosed e } := by
  cases hrun : op s.enc with
  | ok u e =>
    rw [closeReply_of_ok hrun] at h
    cases h
    exact ⟨e, rfl⟩
  | raised err e =>
    rw [closeReply_of_raised hrun] at h
    cases h
    exact ⟨e.failedWith err, rfl⟩
  | fault f => simp [onEncoder, hrun, closeReply] at h
  | refused q => simp [onEncoder, hrun, closeReply] at h

end

end Sys2Proof.Machine
end

section
/-! PROOFS. Between transactions `fsm` rests, and a READ in flight needs a byte (spec/10_state.md R32): the READ's loop
test after a step of the state machine (spec/46_stream_controller.md R304, R305), and the host commands. -/

namespace Sys2Proof.Machine

/-! ### The invariant -/

theorem attachmentsOk_iff (s : State) : attachmentsOk s = true ↔
    (s.inst = .decoder → (s.fsm = .closed ↔ s.rd.src.isSome = false)) ∧
      (s.inst = .encoder → (s.enc.state = .closed ↔ s.enc.wr.attached = false)) := by
  unfold attachmentsOk
  cases s.inst with
  | neverOpened => simp
  | decoder => cases s.rd.src <;> simp
  | encoder => cases s.enc.wr.attached <;> simp

theorem transactionsOk_iff (s : State) : transactionsOk s = true ↔
    s.slot = .empty ∧ attachmentsOk s = true ∧ (s.txn = none → restingFsm s.fsm = true) ∧
      ∀ r, s.txn = some r → runningFsm s.fsm = true ∧ r.out.length < r.want := by
  unfold transactionsOk
  cases s.txn <;> simp [and_assoc]

theorem attachmentsOk_answer (r : Result) (s : State) : attachmentsOk (answer r s) = attachmentsOk s := rfl

theorem transactionsOk_answer (r : Result) (s : State) : transactionsOk (answer r s) = transactionsOk s := rfl

theorem ne_closed_of_running {f : Fsm} (h : runningFsm f = true) : f ≠ .closed := by
  rintro rfl
  cases h

theorem running_or_ended_of_resting {f : Fsm} (h : restingFsm f = true) (hclosed : f ≠ .closed)
    (hfailed : f ≠ .failed) : runningFsm f = true ∨ f = .ended := by
  cases f with
  | streamHeader => exact .inl rfl
  | emit => exact .inl rfl
  | ended => exact .inr rfl
  | closed => exact absurd rfl hclosed
  | failed => exact absurd rfl hfailed
  | _ => cases h

/-- What stays clear of CLOSED, and leaves the encoder alone, keeps what is attached (R301, R308). -/
theorem attachmentsOk_of_not_closed {s t : State} (h : attachmentsOk s = true) (hs : s.fsm ≠ .closed)
    (ht : t.fsm ≠ .closed) (hsrc : t.rd.src.isSome = s.rd.src.isSome) (hinst : t.inst = s.inst)
    (henc : t.enc = s.enc) : attachmentsOk t = true := by
  rw [attachmentsOk_iff, hsrc, hinst, henc] at *
  obtain ⟨hdec, henc⟩ := h
  exact ⟨fun hd => iff_of_false ht fun h' => hs ((hdec hd).2 h'), henc⟩

/-! ### The loop test (R304) -/

/-- What a step leaves for the loop test: the READ in flight has a step to run or has come to the end of the stream, and
where it has its bytes `fsm` rests. -/
structure Settleable (s : State) : Prop where
  slot : s.slot = .empty
  attachments : attachmentsOk s = true
  resting : s.txn = none → restingFsm s.fsm = true
  reading : ∀ r, s.txn = some r → (runningFsm s.fsm = true ∨ s.fsm = .ended) ∧
    (r.want ≤ r.out.length → restingFsm s.fsm = true)

theorem attachmentsOk_settleRead (s : State) : attachmentsOk (settleRead s) = attachmentsOk s := by
  rw [Bool.eq_iff_iff, attachmentsOk_iff, attachmentsOk_iff, settleRead_inst, settleRead_fsm, settleRead_rd,
    settleRead_enc]

/-- The loop test completes a READ that has its bytes or has come to the end; any other goes on. -/
theorem Settleable.settleRead {s : State} (h : Settleable s) : transactionsOk (settleRead s) = true := by
  rw [transactionsOk_iff, attachmentsOk_settleRead, settleRead_fsm, settleRead_slot]
  refine ⟨h.slot, h.attachments, ?_⟩
  cases htxn : s.txn with
  | none =>
    rw [settleRead_of_none htxn, htxn]
    exact ⟨fun _ => h.resting htxn, nofun⟩
  | some r =>
    obtain ⟨hgoes, hdone⟩ := h.reading r htxn
    by_cases hd : r.want ≤ r.out.length ∨ s.fsm = .ended
    · have hrest : restingFsm s.fsm = true := hd.elim hdone fun hend => by rw [hend]; rfl
      rw [settleRead_of_done htxn hd, completeRead_txn]
      exact ⟨fun _ => hrest, nofun⟩
    · obtain ⟨hlt, hend⟩ := not_or.1 hd
      rw [settleRead_of_open htxn hd, htxn]
      refine ⟨nofun, fun r' hr' => ?_⟩
      cases hr'
      exact ⟨hgoes.resolve_right hend, Nat.lt_of_not_le hlt⟩

/-- A state that meets the invariant passes the loop test as it is. -/
theorem settleable_of_transactionsOk {s : State} (h : transactionsOk s = true) : Settleable s := by
  obtain ⟨hslot, hatt, hrest, hread⟩ := (transactionsOk_iff s).1 h
  refine ⟨hslot, hatt, hrest, fun r hr => ?_⟩
  obtain ⟨hrun, hlt⟩ := hread r hr
  exact ⟨.inl hrun, fun hle => absurd hlt (Nat.not_lt.2 hle)⟩

/-! ### The steps of the state machine (R305) -/

/-- A step of the state machine reaches everything but what OPEN and ENC_OPEN opened, the encoder and the issue slot. -/
def outsideStep (t s : State) : State := { t with inst := s.inst, enc := s.enc, slot := s.slot }

theorem outsideStep_isFrame : IsFrame outsideStep where
  self _ := rfl
  again _ _ _ := rfl

theorem outsideStep_fields {s t : State} (h : Move outsideStep s t) :
    t.inst = s.inst ∧ t.enc = s.enc ∧ t.slot = s.slot := by
  rw [h.frame]
  exact ⟨rfl, rfl, rfl⟩

/-- A step completes with a READ in flight, this one or with a byte more; one that has its bytes leaves `fsm` resting. -/
def Completes (b : Bool) (t : State) : Prop :=
  ∃ r, InFlight r b t ∧ (r.want ≤ r.out.length → restingFsm t.fsm = true)

/-- EMIT adds a byte to the READ and stays in EMIT, or goes on to CRC_CHECK (R284, R306). -/
theorem emitBody_completes {r : ReadTxn} {b : Bool} {s : State} (h : InFlight r b s) (hf : s.fsm = .emit)
    (hlt : r.out.length < r.want) : (emitBody s).Ends (Completes b) (InFlight r b) := by
  refine Res.Ends.bind (P' := fun t => InFlight r b t ∧ t.fsm = .emit) ?_ fun x t ht => ?_
  · exact Res.Ends.lift ((Res.ends_true _).mono (fun _ _ => ⟨⟨h.txn, h.fsm, h.source⟩, hf⟩)
      fun _ _ => ⟨h.txn, h.fsm, h.source⟩)
  · obtain ⟨ht, hemit⟩ := ht
    cases x with
    | none => exact ⟨r, ⟨ht.txn, .inl rfl, ht.source⟩, fun hle => absurd hlt (Nat.not_lt.2 hle)⟩
    | some y =>
      refine ⟨{ r with out := r.out ++ [y] }, ⟨?_, ?_, ?_⟩, fun _ => ?_⟩
      · rw [emit_txn]
        exact congrArg _ ht.txn
      · rw [emit_fsm]
        exact ht.fsm
      · rw [emit_rd]
        exact ht.source
      · rw [emit_fsm]
        exact hemit ▸ rfl

section
variable {s t : State} {r : ReadTxn} (hs : transactionsOk s = true) (htxn : s.txn = some r)
include hs htxn

theorem inFlight_of_transactionsOk : InFlight r s.rd.src.isSome s := by
  obtain ⟨-, -, -, hread⟩ := (transactionsOk_iff s).1 hs
  exact ⟨htxn, .inl (hread r htxn).1, rfl⟩

/-- A step that completes, or raises, with a READ in flight: an error ends the READ (R345). -/
theorem stepOf_settleable {q : Fsm} {body : State → Res State Unit} (ht : stepOf q body s = .next t)
    (hmove : Move outsideStep s t) (hbody : (body s).Ends (Completes s.rd.src.isSome) (InFlight r s.rd.src.isSome)) :
    Settleable t := by
  obtain ⟨hslot, hatt, -, hread⟩ := (transactionsOk_iff s).1 hs
  have hs' := ne_closed_of_running (hread r htxn).1
  obtain ⟨hinst, henc, hslot'⟩ := outsideStep_fields hmove
  unfold stepOf at ht
  split at ht
  · obtain hrun | ⟨e, u, hrun, rfl⟩ := finish_eq_next.1 ht
    · rw [hrun] at hbody
      obtain ⟨r', hin, hdone⟩ := hbody
      have hclosed : t.fsm ≠ .closed := hin.fsm.elim ne_closed_of_running fun hend => by simp [hend]
      refine ⟨hslot'.trans hslot, attachmentsOk_of_not_closed hatt hs' hclosed hin.source hinst henc, ?_, ?_⟩
      · rw [hin.txn]
        exact nofun
      · rw [hin.txn]
        rintro _ ⟨⟩
        exact ⟨hin.fsm, hdone⟩
    · rw [hrun] at hbody
      refine ⟨hslot'.trans hslot, attachmentsOk_of_not_closed hatt hs' (by simp) ?_ hinst henc, fun _ => ?_, ?_⟩
      · rw [takeError_rd]
        exact hbody.source
      · rw [takeError_fsm]
        rfl
      · rw [takeError_txn]
        exact nofun
  · cases ht

/-- A step whose body leaves the READ as it is. -/
theorem stepOf_settleable_of_staysInFlight {q : Fsm} {body : State → Res State Unit}
    (hbody : ∀ b, InFlight r b s → (body s).StaysInFlight r b) (ht : stepOf q body s = .next t)
    (hmove : Move outsideStep s t) : Settleable t := by
  obtain ⟨-, -, -, hread⟩ := (transactionsOk_iff s).1 hs
  have hlt := (hread r htxn).2
  refine stepOf_settleable hs htxn ht hmove ?_
  exact (hbody _ (inFlight_of_transactionsOk hs htxn)).mono
    (fun _ h => ⟨r, h, fun hle => absurd hlt (Nat.not_lt.2 hle)⟩) fun _ => id

/-- The step of whatever state `fsm` holds. -/
theorem exec_fetchStep_settleable {i : Instr} {s' : State} (hfetch : fetchStep s = .run i s')
    (ht : exec i s' = .next t) : Settleable t := by
  have stays := fun {q body} => stepOf_settleable_of_staysInFlight (q := q) (body := body) (t := t) hs htxn
  rw [fetchStep_eq] at hfetch
  cases hf : s.fsm <;> rw [hf] at hfetch <;> cases hfetch
  case streamHeader.refl =>
    exact stays (body := fun s => readElement { s with pos := .streamHeader })
      (fun _ h => readElementAt_staysInFlight h _) ht (outsideStep_isFrame.widen (exec_stepStreamHeader_move ht))
  case header.refl =>
    exact stays (body := fun s => readElement { s with pos := .magic })
      (fun _ h => readElementAt_staysInFlight h _) ht (outsideStep_isFrame.widen (exec_stepHeader_move ht))
  case tables.refl =>
    exact stays (fun _ => tablesBody_staysInFlight) ht (outsideStep_isFrame.widen (exec_stepTables_move ht))
  case symbols.refl =>
    exact stays (fun _ => symbolsBody_staysInFlight) ht (outsideStep_isFrame.widen (exec_stepSymbols_move ht))
  case permute.refl =>
    exact stays (fun _ => permuteBody_staysInFlight) ht (outsideStep_isFrame.widen (exec_stepPermute_move ht))
  case emit.refl =>
    obtain ⟨-, -, -, hread⟩ := (transactionsOk_iff s).1 hs
    exact stepOf_settleable hs htxn ht (outsideStep_isFrame.widen (exec_stepEmit_move ht))
      (emitBody_completes (inFlight_of_transactionsOk hs htxn) hf (hread r htxn).2)
  case crcCheck.refl =>
    exact stays (fun _ => crcCheckBody_staysInFlight) ht (outsideStep_isFrame.widen (exec_stepCrcCheck_move ht))
  case trailer.refl =>
    exact stays (body := fun s => readElement { s with pos := .trailer })
      (fun _ h => readElementAt_staysInFlight h _) ht (outsideStep_isFrame.widen (exec_stepTrailer_move ht))

end

/-! ### The commands of a decoder -/

section
variable {s t : State} (hs : transactionsOk s = true)
include hs

/-- OPEN attaches a source (R301). -/
theorem exec_hostOpen_transactionsOk {v : Word} (htxn : s.txn = none) (h : exec (.hostOpen v) s = .next t) :
    transactionsOk t = true := by
  obtain ⟨hslot, -⟩ := (transactionsOk_iff s).1 hs
  obtain rfl | rfl := exec_hostOpen_cases h
  · exact hs
  · rw [transactionsOk_answer, transactionsOk_iff, attachmentsOk_iff]
    refine ⟨hslot, ⟨fun _ => iff_of_false nofun nofun, nofun⟩, fun _ => rfl, ?_⟩
    rw [opened_txn, htxn]
    exact nofun

/-- CLOSE detaches the source (R308). -/
theorem exec_hostClose_transactionsOk {v : Word} (h : exec (.hostClose v) s = .next t) : transactionsOk t = true := by
  obtain ⟨hslot, hatt, -, -⟩ := (transactionsOk_iff s).1 hs
  obtain ⟨-, henc⟩ := (attachmentsOk_iff s).1 hatt
  simp only [exec, execHostClose, command_eq_next] at h
  obtain ⟨htxn, h⟩ := h
  split at h
  · cases h
    exact hs
  · cases h
    rw [transactionsOk_answer, transactionsOk_iff, attachmentsOk_iff]
    exact ⟨hslot, ⟨fun _ => iff_of_true rfl rfl, henc⟩, fun _ => rfl, fun r hr => nomatch htxn.symm.trans hr⟩

/-- A READ of at least one byte goes into flight, unless the stream has ended (R304). -/
theorem settleRead_begin_transactionsOk {n : Nat} (hn : n ≠ 0) (htxn : s.txn = none) (hclosed : s.fsm ≠ .closed)
    (hfailed : s.fsm ≠ .failed) : transactionsOk (settleRead { s with txn := some { want := n, out := [] } }) = true := by
  obtain ⟨hslot, hatt, hrest, -⟩ := (transactionsOk_iff s).1 hs
  refine Settleable.settleRead ⟨hslot, hatt, nofun, ?_⟩
  rintro _ ⟨⟩
  refine ⟨?_, fun hle => absurd hle (Nat.not_le.2 (Nat.pos_of_ne_zero hn))⟩
  exact running_or_ended_of_resting (hrest htxn) hclosed hfailed

theorem exec_hostRead_transactionsOk {n : Word} (h : exec (.hostRead n) s = .next t) : transactionsOk t = true := by
  simp only [exec, execHostRead, command_eq_next, startRead] at h
  obtain ⟨htxn, h⟩ := h
  split at h
  · cases h
    exact hs
  · split at h
    · cases h
      exact hs
    · cases h
      exact hs
    · rename_i hclosed hfailed
      split at h
      · cases h
        exact hs
      · rename_i hn
        cases h
        exact settleRead_begin_transactionsOk hs hn htxn hclosed hfailed

/-! ### The commands of an encoder -/

/-- A sink is attached to an encoder that is not closed. -/
theorem attached_of_isOpen (hi : s.inst = .encoder) (ho : s.enc.state = .isOpen) : s.enc.Attached := by
  obtain ⟨-, hatt, -⟩ := (transactionsOk_iff s).1 hs
  obtain ⟨-, henc⟩ := (attachmentsOk_iff s).1 hatt
  have hnot : s.enc.wr.attached ≠ false := fun hf => nomatch ho.symm.trans ((henc hi).2 hf)
  exact ⟨Bool.eq_true_of_not_eq_false hnot, fun hc => nomatch ho.symm.trans hc⟩

theorem transactionsOk_setEncoder {e : Encoder} (he : e.state = .closed ↔ e.wr.attached = false) :
    transactionsOk { s with enc := e } = true := by
  obtain ⟨hslot, hatt, hrest, hread⟩ := (transactionsOk_iff s).1 hs
  obtain ⟨hdec, -⟩ := (attachmentsOk_iff s).1 hatt
  exact (transactionsOk_iff _).2 ⟨hslot, (attachmentsOk_iff _).2 ⟨hdec, fun _ => he⟩, hrest, hread⟩

omit hs in
theorem Encoder.Attached.closed_iff {e : Encoder} (h : e.Attached) : e.state = .closed ↔ e.wr.attached = false :=
  iff_of_false h.state (by simp [h.sink])

theorem encoderReply_transactionsOk {op : Encoder → Res Encoder Unit} (hop : Encoder.KeepsSink op)
    (ha : s.enc.Attached) (h : encoderReply (onEncoder op s) = .next t) : transactionsOk t = true := by
  obtain ⟨e, r, he, rfl⟩ := encoderReply_attached hop ha h
  exact transactionsOk_setEncoder hs he.closed_iff

/-- ENC_OPEN attaches a sink (R320). -/
theorem exec_encOpen_transactionsOk {l : Word} (h : exec (.encOpen l) s = .next t) : transactionsOk t = true := by
  simp only [exec, execEncOpen, command_eq_next] at h
  obtain ⟨-, h⟩ := h
  split at h
  · cases h
    exact hs
  · refine encoderReply_transactionsOk ?_ (writeHeader_keepsSink _) (encoderAt_attached _ _) h
    obtain ⟨hslot, -, hrest, hread⟩ := (transactionsOk_iff s).1 hs
    have hclosed := (encoderAt_attached l.toNat (offeredSink s.host)).closed_iff
    exact (transactionsOk_iff _).2 ⟨hslot, (attachmentsOk_iff _).2 ⟨nofun, fun _ => hclosed⟩, hrest, hread⟩

theorem exec_encWrite_transactionsOk {m : Word} {data : List Byte} (h : exec (.encWrite m data) s = .next t) :
    transactionsOk t = true := by
  simp only [exec, execEncWrite, command_eq_next] at h
  obtain ⟨-, h⟩ := h
  split at h
  · cases h
    exact hs
  · rename_i hi
    split at h
    · cases h
      exact hs
    · cases h
      exact hs
    · cases h
      exact hs
    · rename_i ho
      exact encoderReply_transactionsOk hs (encodeData_keepsSink data) (attached_of_isOpen hs (not_not.1 hi) ho) h

theorem exec_encFinish_transactionsOk {v : Word} (h : exec (.encFinish v) s = .next t) : transactionsOk t = true := by
  simp only [exec, execEncFinish, command_eq_next] at h
  obtain ⟨-, h⟩ := h
  split at h
  · cases h
    exact hs
  · rename_i hi
    split at h
    · cases h
      exact hs
    · cases h
      exact hs
    · cases h
      exact hs
    · rename_i ho
      exact encoderReply_transactionsOk hs encodeFinish_keepsSink (attached_of_isOpen hs (not_not.1 hi) ho) h

/-- ENC_CLOSE detaches the sink (R323). -/
theorem exec_encClose_transactionsOk {v : Word} (h : exec (.encClose v) s = .next t) : transactionsOk t = true := by
  have hclosed : ∀ e, transactionsOk { s with enc := encoderClosed e } = true := fun e =>
    transactionsOk_setEncoder hs (iff_of_true rfl rfl)
  simp only [exec, execEncClose, command_eq_next] at h
  obtain ⟨-, h⟩ := h
  split at h
  · cases h
    exact hs
  · split at h
    · obtain ⟨e, rfl⟩ := closeReply_closed h
      exact hclosed e
    · cases h
      exact hclosed s.enc

end

/-! ### Every step -/

/-- The host's bytes give host commands alone (R115). -/
theorem decodeHost_cases {bs rest : List Byte} {i : Instr} (h : decodeHost bs = .ok i rest) :
    ∃ v, i = .hostOpen v ∨ i = .hostRead v ∨ i = .hostClose v ∨ i = .encOpen v ∨ (∃ data, i = .encWrite v data) ∨
      i = .encFinish v ∨ i = .encClose v := by
  unfold decodeHost at h
  split at h
  · cases h
  · split at h
    · cases h
    · rename_i v rest' hword
      refine ⟨BitVec.ofNat 32 v, ?_⟩
      split at h
      · cases h
        exact .inl rfl
      · cases h
        exact .inr (.inl rfl)
      · cases h
        exact .inr (.inr (.inl rfl))
      · cases h
        exact .inr (.inr (.inr (.inl rfl)))
      · split at h
        · rename_i data rest'' hdata
          cases h
          exact .inr (.inr (.inr (.inr (.inl ⟨data, rfl⟩))))
        · cases h
      · cases h
        exact .inr (.inr (.inr (.inr (.inr (.inl rfl)))))
      · cases h
        exact .inr (.inr (.inr (.inr (.inr (.inr rfl)))))
      · cases h

/-- A host command between transactions. -/
theorem exec_command_transactionsOk {s t : State} {i : Instr} {bs rest : List Byte} (hs : transactionsOk s = true)
    (htxn : s.txn = none) (hi : decodeHost bs = .ok i rest) (h : exec i s = .next t) : transactionsOk t = true := by
  obtain ⟨v, rfl | rfl | rfl | rfl | ⟨data, rfl⟩ | rfl | rfl⟩ := decodeHost_cases hi
  · exact exec_hostOpen_transactionsOk hs htxn h
  · exact exec_hostRead_transactionsOk hs h
  · exact exec_hostClose_transactionsOk hs h
  · exact exec_encOpen_transactionsOk hs h
  · exact exec_encWrite_transactionsOk hs h
  · exact exec_encFinish_transactionsOk hs h
  · exact exec_encClose_transactionsOk hs h

/-- Settles O53: with the issue slot empty a step runs the step of a READ in flight or a host command, and either leaves
what the loop test needs. -/
theorem restingStatesKept : Obligations.RestingStatesKept := by
  intro s t hs h
  obtain ⟨hslot, -⟩ := (transactionsOk_iff s).1 hs
  obtain ⟨i, s', u, hfetch, hexec, rfl⟩ | ⟨s', hfetch, rfl⟩ | ⟨-, rfl⟩ := step_cases h
  · simp only [fetch, hslot] at hfetch
    cases htxn : s.txn with
    | some r =>
      rw [htxn] at hfetch
      exact (exec_fetchStep_settleable hs htxn hfetch hexec).settleRead
    | none =>
      rw [htxn] at hfetch
      obtain ⟨rest, hcmd, rfl⟩ := fetchCommand_run hfetch
      have htaken : transactionsOk { s with host := { s.host with cmds := rest } } = true := hs
      exact (settleable_of_transactionsOk (exec_command_transactionsOk htaken htxn hcmd hexec)).settleRead
  · obtain ⟨-, -, rfl⟩ := fetch_illegal hfetch
    exact hs
  · exact hs

end Sys2Proof.Machine
end

section
/-! PROOFS. What a step runs (spec/46_stream_controller.md R300, R305), and the commands of a decoder by their exact
effects: OPEN (R301), READ (R304) and CLOSE (R308). -/

namespace Sys2Proof.Machine

/-! ### What a step runs -/

theorem step_of_run {s s' : State} {i : Instr} (h : fetch s = .run i s') : step s = settle (exec i s') := by
  rw [step, h]

/-- A READ in flight runs the step of the state `fsm` holds (R305). -/
theorem fetch_of_reading {s : State} {t : ReadTxn} (hslot : s.slot = .empty) (htxn : s.txn = some t) :
    fetch s = fetchStep s := by
  simp only [fetch, hslot, htxn]

/-- Between transactions the host's next command is run (R300). -/
theorem fetch_of_resting {s : State} (hslot : s.slot = .empty) (htxn : s.txn = none) : fetch s = fetchCommand s := by
  simp only [fetch, hslot, htxn]

/-- Settles O5: by what `fetch` finds. -/
theorem stepRunsDecodedInstruction : Obligations.StepRunsDecodedInstruction := by
  refine ⟨fun s bytes rest i hslot hdec => step_of_run ?_, fun s pos bits rest i hslot hdec => step_of_run ?_,
    fun s rest i hslot htxn hdec => step_of_run ?_, fun s t hslot htxn => ?_, fun s hslot htxn hcmds => ?_⟩
  · simp only [fetch, hslot, hdec]
  · simp only [fetch, hslot, hdec]
  · simp only [fetch_of_resting hslot htxn, fetchCommand, hdec]
  · have hfetch := (fetch_of_reading hslot htxn).trans (fetchStep_eq s)
    refine ⟨?_, ?_, ?_, ?_, ?_, ?_, ?_, ?_⟩ <;> exact fun hf => step_of_run (by rw [hfetch, hf])
  · have hidle : fetch s = .idle := by
      simp only [fetch_of_resting hslot htxn, fetchCommand, hcmds, decodeHost]
    rw [step, hidle]

/-! ### OPEN -/

/-- OPEN, but to an encoder, leaves the state of R68 and answers OK (R301). -/
theorem exec_hostOpen_eq {s : State} (v : Word) (hinst : s.inst ≠ .encoder) (htxn : s.txn = none) :
    exec (.hostOpen v) s = .next (answer (.ok []) (opened s)) := by
  simp only [exec, execHostOpen, command_eq_next]
  refine ⟨htxn, ?_⟩
  cases hi : s.inst with
  | encoder => exact absurd hi hinst
  | decoder => rfl
  | neverOpened => rfl

/-- Settles O6: each register of the state `opened` gives is that of R68. -/
theorem openResetsEveryRegister : Obligations.OpenResetsEveryRegister := by
  intro v s src more hinst htxn hsrc
  refine ⟨answer (.ok []) (opened s), exec_hostOpen_eq v hinst htxn, rfl, rfl, rfl, rfl, rfl, rfl, rfl, rfl, ?_, rfl, rfl,
    rfl, rfl, rfl, fun g hg => ⟨Group.reset, ?_, rfl, rfl, rfl, rfl⟩, rfl, rfl, rfl, rfl, rfl, rfl, rfl, rfl, rfl, rfl,
    rfl, rfl, rfl, rfl, rfl, ?_, htxn, rfl, rfl, rfl⟩
  · rw [answer_rd, opened_rd, offeredSource, hsrc]
    rfl
  · rw [answer_groups, opened_groups, Vector.getElem?_eq_getElem hg, Vector.getElem_replicate]
  · rw [answer_host, opened_host, hsrc, List.tail_cons]

/-! ### READ -/

/-- A decoder begins a READ of at most READ_MAX bytes (R304). -/
theorem exec_hostRead_of_decoder {n : Word} {s : State} (hdec : s.inst = .decoder) (htxn : s.txn = none)
    (hn : n.toNat ≤ 2 ^ 31 - 1) : exec (.hostRead n) s = startRead n.toNat s := by
  have hlegal : ¬(s.inst ≠ .decoder ∨ Config.readMax < n.toNat) := not_or.2 ⟨not_not.2 hdec, Nat.not_lt.2 hn⟩
  simp only [exec, execHostRead, command, htxn, if_neg hlegal]

theorem startRead_of_closed {n : Nat} {s : State} (hf : s.fsm = .closed) :
    startRead n s = .next (answer streamClosedResult s) := by
  simp only [startRead, hf, reply]

theorem startRead_of_failed {n : Nat} {s : State} (hf : s.fsm = .failed) :
    startRead n s = .next (answer (.err s.stream.errKind s.stream.errSub) s) := by
  simp only [startRead, hf, reply]

theorem startRead_of_running {n : Nat} {s : State} (hclosed : s.fsm ≠ .closed) (hfailed : s.fsm ≠ .failed) :
    startRead n s =
      if n = 0 then .next (answer (.ok []) s)
      else .next (settleRead { s with txn := some { want := n, out := [] } }) := by
  unfold startRead
  split
  · exact absurd ‹_› hclosed
  · exact absurd ‹_› hfailed
  · rfl

/-- A READ that begins at the end of the stream has no byte to give (R304). -/
theorem settleRead_begin_at_end {n : Nat} {s : State} (htxn : s.txn = none) (hend : s.fsm = .ended) :
    settleRead { s with txn := some { want := n, out := [] } } = answer .eof s := by
  have hanswer := settleRead_of_none_at_end (s := { s with txn := some { want := n, out := [] } }) rfl hend rfl
  rw [hanswer, ← htxn]

/-- Settles O15: by the state `fsm` holds and whether a byte is wanted; the loop test answers a READ at END. -/
theorem readCommand : Obligations.ReadCommand := by
  intro n s hdec htxn hn
  have hzero : n.toNat = 0 ↔ n = 0 := ⟨fun h => BitVec.eq_of_toNat_eq h, fun h => h ▸ rfl⟩
  rw [exec_hostRead_of_decoder hdec htxn hn]
  split
  · exact startRead_of_closed ‹_›
  · split
    · exact startRead_of_failed ‹_›
    · rename_i hclosed hfailed
      rw [startRead_of_running hclosed hfailed]
      by_cases hnone : n.toNat = 0
      · rw [if_pos hnone, if_pos (hzero.1 hnone)]
      · rw [if_neg hnone, if_neg (mt hzero.2 hnone)]
        split
        · rename_i hend
          exact congrArg _ (settleRead_begin_at_end htxn hend)
        · rename_i hend
          exact congrArg _ (settleRead_of_open rfl (by simp [hend, hnone]))

/-! ### CLOSE -/

theorem exec_hostClose_of_decoder {s : State} (v : Word) (hdec : s.inst = .decoder) (htxn : s.txn = none) :
    exec (.hostClose v) s = .next (answer (.ok []) { s with fsm := .closed, rd := { s.rd with src := none } }) := by
  simp only [exec, execHostClose, command, htxn, hdec, ne_eq, not_true_eq_false, if_false, reply]

/-- Settles O14: the READ after it meets CLOSED first (R350). -/
theorem closeDetachesSource : Obligations.CloseDetachesSource := by
  intro v s hdec htxn
  have hclose := exec_hostClose_of_decoder v hdec htxn
  refine ⟨⟨_, hclose, rfl, fun n hn => ?_⟩, fun hclosed hsrc => ?_⟩
  · refine (exec_hostRead_of_decoder ?_ ?_ hn).trans (startRead_of_closed ?_)
    · exact hdec
    · exact htxn
    · rfl
  · have hsame : ({ s with fsm := .closed, rd := { s.rd with src := none } } : State) = s := by
      rw [← hclosed, ← hsrc]
    rw [hclose, hsame]

end Sys2Proof.Machine
end

section
/-! PROOFS. Errors and their latch (spec/60_exceptions.md R345, R346, R348), and an instance never opened
(spec/70_reset_and_hazards.md R372). -/

namespace Sys2Proof.Machine

/-! ### Taking an error (R345) -/

/-- With a READ in flight the error ends it: the bytes gathered are dropped, and the READ returns ERR. -/
theorem takeError_of_reading {s : State} {r : ReadTxn} (e : Err) (htxn : s.txn = some r) :
    takeError e s =
      { s with
        stream := { s.stream with errKind := errKindCode e, errSub := errSubOf e }
        fsm := .failed
        txn := none
        host := { s.host with results := s.host.results ++ [errResult e] } } := by
  simp only [takeError, htxn, answer]

/-- Settles O10: a raise ends the sequence, and `finish` takes the error. -/
theorem raiseLatchesAndFails : Obligations.RaiseLatchesAndFails :=
  ⟨fun e s k => Res.bind_raised e s k, fun e _ _ htxn =>
    finish_eq_next.2 (.inr ⟨e, _, rfl, (takeError_of_reading e htxn).symm⟩)⟩

/-! ### The latch between commands (R346, R348) -/

/-- `t` shows the same latched error as `s`. -/
def SameError (s t : State) : Prop := t.stream.errKind = s.stream.errKind ∧ t.stream.errSub = s.stream.errSub

theorem SameError.refl (s : State) : SameError s s := ⟨rfl, rfl⟩

/-- What the latch can see of a host command: it leaves `fsm` and the latched error, is a CLOSE, which keeps the error, or
is an OPEN, which clears it. -/
def LatchMoves (i : Instr) (s t : State) : Prop :=
  (t.fsm = s.fsm ∧ SameError s t) ∨ (t.fsm = .closed ∧ SameError s t ∧ ∃ v, i = .hostClose v) ∨
    (t.fsm = .streamHeader ∧ t.stream.errKind = 0 ∧ t.stream.errSub = 0 ∧ ∃ v, i = .hostOpen v)

/-- What leaves `fsm` and the stream registers leaves the latch. -/
theorem latchMoves_of_same {i : Instr} {s t : State} (hfsm : t.fsm = s.fsm) (hstream : t.stream = s.stream) :
    LatchMoves i s t :=
  .inl ⟨hfsm, by rw [hstream], by rw [hstream]⟩

theorem latchMoves_of_frame {f : State → State → State} {i : Instr} {s t : State} (h : Move f s t)
    (hfsm : (f t s).fsm = s.fsm := by rfl) (hstream : (f t s).stream = s.stream := by rfl) : LatchMoves i s t :=
  latchMoves_of_same ((congrArg State.fsm h.frame).trans hfsm) ((congrArg State.stream h.frame).trans hstream)

theorem exec_hostOpen_latch {v : Word} {s t : State} (h : exec (.hostOpen v) s = .next t) :
    LatchMoves (.hostOpen v) s t := by
  obtain rfl | rfl := exec_hostOpen_cases h
  · exact latchMoves_of_same rfl rfl
  · exact .inr (.inr ⟨rfl, rfl, rfl, v, rfl⟩)

theorem exec_hostClose_latch {v : Word} {s t : State} (h : exec (.hostClose v) s = .next t) :
    LatchMoves (.hostClose v) s t := by
  simp only [exec, execHostClose, command_eq_next] at h
  obtain ⟨-, h⟩ := h
  split at h
  · cases h
    exact latchMoves_of_same rfl rfl
  · cases h
    exact .inr (.inl ⟨rfl, .refl _, v, rfl⟩)

/-- Each host command, by its frame. -/
theorem exec_command_latch {i : Instr} {bs rest : List Byte} {s t : State} (hi : decodeHost bs = .ok i rest)
    (h : exec i s = .next t) : LatchMoves i s t := by
  obtain ⟨v, rfl | rfl | rfl | rfl | ⟨data, rfl⟩ | rfl | rfl⟩ := decodeHost_cases hi
  · exact exec_hostOpen_latch h
  · exact latchMoves_of_frame (exec_hostRead_move h)
  · exact exec_hostClose_latch h
  · exact latchMoves_of_frame (exec_encOpen_move h)
  · exact latchMoves_of_frame (exec_encWrite_move h)
  · exact latchMoves_of_frame (exec_encFinish_move h)
  · exact latchMoves_of_frame (exec_encClose_move h)

theorem settleRead_sameError (s : State) : SameError s (settleRead s) := by
  obtain h | ⟨t, -, h⟩ := settleRead_stream s
  · exact ⟨by rw [h], by rw [h]⟩
  · exact ⟨by rw [h], by rw [h]⟩

/-- The loop test leaves the latch (R304). -/
theorem LatchMoves.settleRead {i : Instr} {s t : State} (h : LatchMoves i s t) : LatchMoves i s (settleRead t) := by
  obtain ⟨hkind, hsub⟩ := settleRead_sameError t
  simpa only [LatchMoves, SameError, settleRead_fsm, hkind, hsub] using h

/-- A step from a state of `fsm` that has no operation (R304, R349), with the issue slot empty: a READ in flight would run
nothing, so only a CLOSE or an OPEN moves the latch. -/
theorem step_latch {s t : State} (hslot : s.slot = .empty) (hnone : stepCode s.fsm = none) (h : step s = .next t) :
    (t.fsm = s.fsm ∧ SameError s t) ∨
      (t.fsm = .closed ∧ SameError s t ∧ ∃ v rest, decodeHost s.host.cmds = .ok (.hostClose v) rest) ∨
      (t.fsm = .streamHeader ∧ t.stream.errKind = 0 ∧ t.stream.errSub = 0 ∧
        ∃ v rest, decodeHost s.host.cmds = .ok (.hostOpen v) rest) := by
  obtain ⟨i, s', u, hfetch, hexec, rfl⟩ | ⟨s', hfetch, rfl⟩ | ⟨-, rfl⟩ := step_cases h
  · cases htxn : s.txn with
    | some r =>
      rw [fetch_of_reading hslot htxn, fetchStep, hnone] at hfetch
      cases hfetch
    | none =>
      rw [fetch_of_resting hslot htxn] at hfetch
      obtain ⟨rest, hcmd, rfl⟩ := fetchCommand_run hfetch
      obtain hsame | ⟨hclosed, herr, v, rfl⟩ | ⟨hopen, hkind, hsub, v, rfl⟩ :=
        (exec_command_latch hcmd hexec).settleRead
      · exact .inl hsame
      · exact .inr (.inl ⟨hclosed, herr, v, rest, hcmd⟩)
      · exact .inr (.inr ⟨hopen, hkind, hsub, v, rest, hcmd⟩)
  · obtain ⟨-, -, rfl⟩ := fetch_illegal hfetch
    exact .inl ⟨rfl, .refl _⟩
  · exact .inl ⟨rfl, .refl _⟩

/-- Settles O12: READ meets FAILED before it runs a step, and FAILED has no step for a READ in flight. -/
theorem failedIsSticky : Obligations.FailedIsSticky := by
  refine ⟨fun s n hdec hf htxn hn => (exec_hostRead_of_decoder hdec htxn hn).trans (startRead_of_failed hf),
    fun s t hslot hf h => ?_⟩
  obtain ⟨hsame, herr⟩ | ⟨hclosed, ⟨hkind, hsub⟩, hcmd⟩ | hopen := step_latch hslot (by rw [hf]; rfl) h
  · exact .inl ⟨hsame.trans hf, herr⟩
  · exact .inr (.inl ⟨hclosed, hkind, hsub, hcmd⟩)
  · exact .inr (.inr hopen)

/-- Settles O13: READ meets CLOSED first, and a CLOSE leaves a closed instance closed. -/
theorem closedIsSticky : Obligations.ClosedIsSticky := by
  refine ⟨fun s n hdec hf htxn hn => (exec_hostRead_of_decoder hdec htxn hn).trans (startRead_of_closed hf),
    fun s t hslot hf h => ?_⟩
  obtain ⟨hsame, herr⟩ | ⟨hclosed, herr, -⟩ | ⟨hopen, -, -, hcmd⟩ := step_latch hslot (by rw [hf]; rfl) h
  · exact .inl ⟨hsame.trans hf, herr⟩
  · exact .inl ⟨hclosed, herr⟩
  · exact .inr ⟨hopen, hcmd⟩

/-! ### An instance never opened (R372) -/

theorem windowRead_of_neverOpened {s : State} (hi : s.inst = .neverOpened) (offset : Nat) : windowRead s offset = 0 := by
  rw [windowRead, hi]

/-- ENC_OPEN that is accepted makes an encoder of the instance, whether its sink takes the header or fails (R320, R324). -/
theorem exec_encOpen_gives_encoder {s : State} {level : Word} (hi : s.inst ≠ .decoder) (htxn : s.txn = none)
    (h1 : 1 ≤ level.toNat) (h9 : level.toNat ≤ 9) : ∃ t, exec (.encOpen level) s = .next t ∧ t.inst = .encoder := by
  rw [exec_encOpen_of_legal hi htxn h1 h9]
  by_cases htakes : (Writer.fresh (offeredSink s.host)).takes 4 = true
  · obtain ⟨w, hrun, -⟩ := writeHeader_completes h9 htakes
    exact ⟨_, encoderReply_of_ok hrun, rfl⟩
  · obtain ⟨f, hf, hr⟩ := Writer.exists_room_lt htakes
    obtain ⟨w, hrun, -⟩ := writeHeader_raises h9 hr
    rw [← hf] at hrun
    exact ⟨_, encoderReply_of_raised hrun, rfl⟩

/-- Settles O7: it is neither a decoder nor an encoder, so every other command is illegal by O9. -/
theorem neverOpenedAcceptsOnlyOpen : Obligations.NeverOpenedAcceptsOnlyOpen := by
  intro s hi htxn
  have hdec : s.inst ≠ .decoder := by simp [hi]
  have henc : s.inst ≠ .encoder := by simp [hi]
  obtain ⟨-, hread, hclose, -, hwrite, hfinish, hencClose⟩ := illegalCommandChangesNothing.2 s htxn
  exact ⟨windowRead_of_neverOpened hi, fun v => ⟨_, exec_hostOpen_eq v henc htxn, rfl⟩,
    fun _ h1 h9 => exec_encOpen_gives_encoder hdec htxn h1 h9, fun n => hread n (.inl hdec), fun v => hclose v hdec,
    fun m data => hwrite m data henc, fun v => hfinish v henc, fun v => hencClose v henc⟩

end Sys2Proof.Machine
end
